-- ==== Sys2Proof/Word.lean ====
section
/-! DEFINITION. The word types of the station: bytes on its three edges, 16-bit samples and checks (R189). -/

namespace Sys2Proof

/-- One byte of a frame, of the configuration image or of a transaction (R189). -/
abbrev Byte := BitVec 8

/-- A two-byte field, most significant byte first on every edge (R189). -/
abbrev Word16 := BitVec 16

/-- A sample, signed 16 bits in two's complement (R133, R189). -/
abbrev Sample := BitVec 16

end Sys2Proof
end

