-- ==== Sys2Proof/Syntax.lean ====
section
/-! DEFINITION. The commands of the station: one constructor per row of spec/opcode_table.json. The table gives no
operands; the operands are those the row's rule names (log 6). -/

namespace Sys2Proof

/-- The identity of a claim: origin address, slot and generation (R8). A received tag may carry any byte in its slot
and generation (R190). -/
structure Tag where
  origin : Nat
  slot : Nat
  generation : Nat
  deriving DecidableEq, Repr

/-- Why the Presence Unit starts a cleanup (R48). -/
inductive CleanupCause where
  | lost
  | restarted
  deriving DecidableEq, Repr

/-- The commands. The Control Port's carry the argument bytes of R193. -/
inductive Instr where
  /-- RSTN_RESET (R33): power-on, or RSTN driven low. -/
  | rstnReset
  /-- LOAD_BEGINS (R178): the end of a power-on or RSTN reset. -/
  | loadBegins
  /-- LOAD_SUCCEEDS (R186): the end of a load; `memory` is what the memory acknowledges, from address 0 (R179). -/
  | loadSucceeds (memory : List Byte)
  /-- LOAD_FAILS (R187): the end of a load; `memory` as for LOAD_SUCCEEDS. -/
  | loadFails (memory : List Byte)
  /-- FRAME_ARRIVAL (R15): a reception on Ring In has ended with these bytes. -/
  | frameArrival (bytes : List Byte) (cutShort : Bool)
  /-- TRANSMISSION_COMPLETION (R28). -/
  | transmissionCompletion
  /-- SAMPLE_STROBE_SEND (R133): the samples of S0 to S3 at a strobe. -/
  | sampleStrobeSend (s0 s1 s2 s3 : Sample)
  /-- BLOCK_COMPLETION (R134): the strobe that completes the blocks, with its samples. -/
  | blockCompletion (s0 s1 s2 s3 : Sample)
  /-- SAMPLE_STROBE_MIX (R143). -/
  | sampleStrobeMix
  /-- METER_WINDOW_END (R149): the strobe that ends the meter windows. -/
  | meterWindowEnd
  /-- PERIOD_TIMER_EXPIRY (R38). -/
  | periodTimerExpiry
  /-- PRESENCE_RETURN_TIMER_EXPIRY (R41). -/
  | presenceReturnTimerExpiry
  /-- AGE_TIMER_EXPIRY (R47) of the peer with this address. -/
  | ageTimerExpiry (peer : Nat)
  /-- CLEANUP_REQUEST_AT_OWNER (R81). -/
  | cleanupRequestAtOwner (peer : Nat) (cause : CleanupCause)
  /-- CLEANUP_REQUEST_AT_ORIGIN (R111). -/
  | cleanupRequestAtOrigin (peer : Nat) (cause : CleanupCause)
  /-- HOLD_TIMER_EXPIRY (R65) of a zone's reservation. -/
  | holdTimerExpiry (zone : Nat)
  /-- AUTO_END_TIMER_EXPIRY (R76) of an active member. -/
  | autoEndTimerExpiry (zone : Nat) (tag : Tag)
  /-- LAPSE_TIMER_EXPIRY (R129) of a tag's listen entry. -/
  | lapseTimerExpiry (tag : Tag)
  /-- CLAIM_RETURN_TIMER_EXPIRY (R109). -/
  | claimReturnTimerExpiry (slot : Nat)
  /-- DURATION_TIMER_EXPIRY (R107). -/
  | durationTimerExpiry (slot : Nat)
  /-- KEY_INPUT_CHANGE (R157): the contact's level, closed or open. -/
  | keyInputChange (key : Nat) (closed : Bool)
  /-- DEBOUNCE_TIMER_EXPIRY (R157). -/
  | debounceTimerExpiry (key : Nat)
  /-- STATUS (R166). -/
  | status
  /-- CLAIM (R167). -/
  | claim (zoneCount : Byte) (places : List Byte) (level mode wait : Byte) (gain duration : Word16) (port : Byte)
  /-- CLAIM PRESET (R167). -/
  | claimPreset (number : Byte)
  /-- END (R168). -/
  | endClaim (slot generation : Byte)
  /-- CLAIM STATUS (R115). -/
  | claimStatus (slot : Byte)
  /-- ZONE STATUS (R84). -/
  | zoneStatus (zone : Byte)
  /-- SET FLOOR (R83). -/
  | setFloor (zone floor : Byte)
  /-- SET TRIM (R151). -/
  | setTrim (zone trim : Byte)
  /-- CLEAR ZONE (R82). -/
  | clearZone (zone : Byte)
  /-- METER (R152). -/
  | meter (zone : Byte)
  /-- NOTICE (R173). -/
  | notice
  /-- SET MASK (R176). -/
  | setMask (m0 m1 m2 m3 : Byte)
  /-- PEERS (R170). -/
  | peers
  /-- RESET (R171): the soft reset. -/
  | reset
  /-- A command byte that names no command (R164). -/
  | badCommand (command : Byte)
  /-- A transaction cut short before its command has acted, with the whole bytes clocked in (R164). -/
  | transactionCutShort (clocked : List Byte)
  deriving DecidableEq, Repr

end Sys2Proof
end

