-- ==== Sys2Proof/Decode.lean ====
section
/-! DEFINITION. What bits spell a command. No row of spec/opcode_table.json gives bits, so no word spells a command.
The bytes of a Control Port transaction do (R163, R164, R193): they are read here, and written back after it. -/

namespace Sys2Proof

/-- No row of the table gives bits: no word spells a command (log 6). -/
def decodeTableWord (_nbits _w : Nat) : Option Instr := none

/-- The argument byte count of a command byte (R193); none for a byte that names no command. -/
def argumentCount (command : Byte) : Option Nat :=
  match command.toNat with
  | 0x01 => some 0
  | 0x10 => some 17
  | 0x11 => some 1
  | 0x12 => some 2
  | 0x13 => some 1
  | 0x20 => some 1
  | 0x21 => some 2
  | 0x22 => some 2
  | 0x23 => some 1
  | 0x24 => some 1
  | 0x30 => some 0
  | 0x31 => some 4
  | 0x40 => some 0
  | 0x5A => some 0
  | _ => none

/-- Two bytes as one field, most significant byte first (R189). -/
def joinBytes (high low : Byte) : Word16 := high ++ low

/-- The high byte of a two-byte field (R189). -/
def highByte (w : Word16) : Byte := w.extractLsb' 8 8

/-- The low byte of a two-byte field (R189). -/
def lowByte (w : Word16) : Byte := w.extractLsb' 0 8

/-- The two bytes of a field as they are carried (R189). -/
def splitBytes (w : Word16) : List Byte := [highByte w, lowByte w]

/-- The command a known command byte and its whole argument bytes spell (R193). -/
def commandWith (command : Byte) (args : List Byte) : Instr :=
  match command.toNat, args with
  | 0x01, [] => .status
  | 0x10, [n, p0, p1, p2, p3, p4, p5, p6, p7, level, mode, wait, g1, g0, d1, d0, port] =>
    .claim n [p0, p1, p2, p3, p4, p5, p6, p7] level mode wait (joinBytes g1 g0) (joinBytes d1 d0) port
  | 0x11, [number] => .claimPreset number
  | 0x12, [slot, generation] => .endClaim slot generation
  | 0x13, [slot] => .claimStatus slot
  | 0x20, [zone] => .zoneStatus zone
  | 0x21, [zone, floor] => .setFloor zone floor
  | 0x22, [zone, trim] => .setTrim zone trim
  | 0x23, [zone] => .clearZone zone
  | 0x24, [zone] => .meter zone
  | 0x30, [] => .notice
  | 0x31, [m0, m1, m2, m3] => .setMask m0 m1 m2 m3
  | 0x40, [] => .peers
  | 0x5A, [] => .reset
  | _, _ => .transactionCutShort (command :: args)

/-- The command that the whole bytes clocked in on SDI between a fall and a rise of CSN come to: it acts at its last
argument byte, later input bytes are ignored (R163); too few bytes are a transaction cut short, an unknown command byte
is BAD_COMMAND (R164). -/
def commandOfTransaction : List Byte → Instr
  | [] => .transactionCutShort []
  | command :: rest =>
    match argumentCount command with
    | none => .badCommand command
    | some n => if rest.length < n then .transactionCutShort (command :: rest) else commandWith command (rest.take n)

/-- The command byte and argument bytes of a Control Port command (R193); none for an event that is no transaction. -/
def transactionBytes : Instr → Option (List Byte)
  | .status => some [0x01]
  | .claim n places level mode wait gain duration port =>
    some ([0x10, n] ++ places ++ [level, mode, wait] ++ splitBytes gain ++ splitBytes duration ++ [port])
  | .claimPreset number => some [0x11, number]
  | .endClaim slot generation => some [0x12, slot, generation]
  | .claimStatus slot => some [0x13, slot]
  | .zoneStatus zone => some [0x20, zone]
  | .setFloor zone floor => some [0x21, zone, floor]
  | .setTrim zone trim => some [0x22, zone, trim]
  | .clearZone zone => some [0x23, zone]
  | .meter zone => some [0x24, zone]
  | .notice => some [0x30]
  | .setMask m0 m1 m2 m3 => some [0x31, m0, m1, m2, m3]
  | .peers => some [0x40]
  | .reset => some [0x5A]
  | .badCommand command => some [command]
  | .transactionCutShort clocked => some clocked
  | .rstnReset => none
  | .loadBegins => none
  | .loadSucceeds _ => none
  | .loadFails _ => none
  | .frameArrival _ _ => none
  | .transmissionCompletion => none
  | .sampleStrobeSend _ _ _ _ => none
  | .blockCompletion _ _ _ _ => none
  | .sampleStrobeMix => none
  | .meterWindowEnd => none
  | .periodTimerExpiry => none
  | .presenceReturnTimerExpiry => none
  | .ageTimerExpiry _ => none
  | .cleanupRequestAtOwner _ _ => none
  | .cleanupRequestAtOrigin _ _ => none
  | .holdTimerExpiry _ => none
  | .autoEndTimerExpiry _ _ => none
  | .lapseTimerExpiry _ => none
  | .claimReturnTimerExpiry _ => none
  | .durationTimerExpiry _ => none
  | .keyInputChange _ _ => none
  | .debounceTimerExpiry _ => none

end Sys2Proof
end

