-- ==== Sys2Proof/Config.lean ====
section
/-! DEFINITION. The values a station takes from its configuration image when a load succeeds (R182 to R186).
The spec leaves no value to the implementation, so there is no free value here. -/

namespace Sys2Proof

/-- How many claims a zone hears together (R52, R53). -/
inductive Policy where
  | stack
  | mix
  deriving DecidableEq, Repr

/-- A claim's mode (R89, R94, R95). -/
inductive Mode where
  | any
  | all
  deriving DecidableEq, Repr

/-- The action of a bound key (R156, R185); an empty binding is no action. -/
inductive KeyAction where
  | momentary
  | latch
  deriving DecidableEq, Repr

/-- A claim description, as CLAIM and a preset give it (R155, R167). -/
structure ClaimDesc where
  zones : List Nat
  level : Nat
  mode : Mode
  wait : Bool
  gain : Nat
  duration : Nat
  port : Nat
  deriving DecidableEq, Repr

/-- A defined preset (R184). -/
structure Preset where
  number : Nat
  desc : ClaimDesc
  deriving DecidableEq, Repr

/-- A key binding that is not empty (R185). -/
structure KeyBinding where
  action : KeyAction
  preset : Nat
  deriving DecidableEq, Repr

/-- One zone entry of the ZONES block (R183), floor 0 already replaced by 7. -/
structure ZoneConfig where
  policy : Policy
  floor : Nat
  trim : Nat
  deriving DecidableEq, Repr

/-- The STATION block's values (R182), defaults already taken; times in ms. -/
structure StationConfig where
  address : Nat
  presencePeriod : Nat
  returnTimeout : Nat
  holdTime : Nat
  lapseTime : Nat
  startFill : Nat
  blockLength : Nat
  meterWindow : Nat
  clipThreshold : Nat
  lineCount : Nat
  vectorBase : Nat
  deriving DecidableEq, Repr

/-- Every configured value (R186). The bounds are 1 and 0 without a ZONES block (R189) and otherwise as loaded;
`zones` has one entry per zone of the window, `keys` one place per key. -/
structure Configuration where
  station : StationConfig
  first : Nat
  last : Nat
  zones : List ZoneConfig
  presets : List Preset
  keys : List (Option KeyBinding)
  deriving DecidableEq, Repr

end Sys2Proof
end

