-- ==== Sys2Proof/Machine/State.lean ====
section
/-! DEFINITION. The state of a station, block by block as 00_scope.md 1.2 lists them, and the state after reset. -/

namespace Sys2Proof.Machine

/-- Why a step would stop with a fault. No rule of the spec stops the station, so there is no reason and no command
raises one; safe, since nothing is hidden behind it. -/
inductive Fault where
  deriving DecidableEq, Repr

/-- Why a step is refused. -/
inductive Refusal where
  /-- The command has no meaning yet; raised by an arm of exec only. Safe: nothing can be proved of such a step. -/
  | notModelled (mnemonic : String)
  deriving DecidableEq, Repr

/-! Codes -/

/-- The ring states (R36). -/
inductive RingState where
  | loading
  | passive
  | joining
  | up
  | broken
  deriving DecidableEq, Repr

/-- The load states (R178). -/
inductive LoadState where
  | reading
  | done
  | failed
  deriving DecidableEq, Repr

/-- The fault codes of a failed load (R187). -/
inductive FaultCode where
  | noMemory
  | badImage
  | badSum
  | badChain
  | noStation
  | badField
  deriving DecidableEq, Repr

/-- The verdicts of a CLAIM entry (R11). -/
inductive Verdict where
  | blank
  | held
  | waiting
  | busy
  | lower
  | full
  | floor
  | noroom
  deriving DecidableEq, Repr

/-- The acknowledgements of a COMMIT entry (R12). -/
inductive Ack where
  | none
  | taken
  | queued
  | lapsed
  | preempted
  | outranked
  | floor
  | full
  | noroom
  deriving DecidableEq, Repr

/-- The reasons of an ENDED event and of ZONE_ENDED (R14). -/
inductive Reason where
  | autoEnd
  | silent
  | floor
  | cleared
  | withdrawn
  | originLost
  deriving DecidableEq, Repr

/-- The events of a NOTICE (R13). -/
inductive NoticeEvent where
  | granted
  | suspended
  | resumed
  | ended (reason : Reason)
  deriving DecidableEq, Repr

/-- The states of a claim slot (R87). -/
inductive SlotState where
  | free
  | asking
  | committing
  | live
  deriving DecidableEq, Repr

/-- The states of a claim's zone entry (R88). -/
inductive EntryState where
  | pending
  | held
  | waiting
  | active
  | suspended
  | refused
  | ended
  | lost
  | noOwner
  deriving DecidableEq, Repr

/-- The outcomes of a claim (R112). -/
inductive ClaimOutcome where
  | done
  | refused
  | broken
  | noOwner
  | noReturn
  | queueFull
  | withdrawn
  | autoEnd
  deriving DecidableEq, Repr

/-- Who issued a claim (R87, R113). -/
inductive Issuer where
  | host
  | key (number : Nat)
  deriving DecidableEq, Repr

/-- The class of a claim (R10). -/
inductive ClaimClass where
  | ofWindow
  | ofRing
  deriving DecidableEq, Repr

/-- The latest verdict, acknowledgement or ENDED reason of an entry (R88). -/
inductive LastCode where
  | verdict (v : Verdict)
  | ack (a : Ack)
  | reason (r : Reason)
  deriving DecidableEq, Repr

/-- The result codes of the Control Port (R165, R193). -/
inductive ResultCode where
  | ok
  | badCommand
  | badArgs
  | noSlot
  | notOwned
  | starting
  | ringBroken
  | queueFull
  | passive
  | empty
  deriving DecidableEq, Repr

/-- The host notices and their fields (R174). -/
inductive HostNotice where
  | claimLive (slot generation : Nat) (issuer : Issuer)
  | claimFailed (slot generation : Nat) (issuer : Issuer) (outcome : ClaimOutcome)
  | claimEnded (slot generation : Nat) (issuer : Issuer) (outcome : ClaimOutcome)
  | claimZone (slot generation : Nat) (issuer : Issuer) (zone : Nat) (state : EntryState) (reason : Option Reason)
  | keyRefused (key preset : Nat) (code : ResultCode)
  | zoneGranted (zone : Nat) (tag : Tag)
  | zoneSuspended (zone : Nat) (tag : Tag)
  | zoneResumed (zone : Nat) (tag : Tag)
  | zoneEnded (zone : Nat) (tag : Tag) (reason : Reason)
  | zoneIdle (zone : Nat)
  | zoneFloor (zone floor : Nat)
  | zoneTrimmed (zone trim : Nat)
  | ringUp
  | ringBroken
  | peerJoined (peer : Nat)
  | peerLeft (peer : Nat)
  | peerRestarted (peer : Nat)
  | ownershipClash (zone address : Nat)
  | addressClash (address : Nat)
  | configFault (code : FaultCode)
  deriving DecidableEq, Repr

/-! Ring Port -/

/-- A ring frame (R190). `check` is the one it carries, good or not. -/
structure Frame where
  kind : Byte
  origin : Byte
  hop : Byte
  destination : Byte
  bodyLength : Byte
  body : List Byte
  check : Word16
  deriving DecidableEq, Repr

/-- The queue a frame on Ring Out was taken from (R26). -/
inductive OutSource where
  | forward
  | control
  | audio
  deriving DecidableEq, Repr

/-- The frame on Ring Out (R27). `reported` is whether its completion is reported to the unit that stored it: not when
a soft reset has reset that unit (R34). -/
structure OutFrame where
  frame : Frame
  source : OutSource
  reported : Bool
  deriving DecidableEq, Repr

/-- The Ring Port's state (2.9). Queues are oldest first. `placeSetAside` is the control-queue place kept for a COMMIT
within one event (R23, R97). -/
structure RingPort where
  forward : List Frame
  control : List Frame
  audio : List Frame
  placeSetAside : Bool
  out : Option OutFrame
  checkErrors : Nat
  overruns : Nat
  deriving DecidableEq, Repr

/-! Presence Unit -/

/-- The phase of the outstanding-presence record (R38, R39), the return timer with its ms left. -/
inductive PresencePhase where
  | queued
  | timing (left : Nat)
  deriving DecidableEq, Repr

/-- The outstanding-presence record (R38). -/
structure Outstanding where
  sequence : Nat
  phase : PresencePhase
  deriving DecidableEq, Repr

/-- An entry of the peer table (R43), its age timer with its ms left. -/
structure Peer where
  address : Nat
  first : Nat
  last : Nat
  joining : Bool
  age : Nat
  deriving DecidableEq, Repr

/-- The Presence Unit's state (chapter 3). `ringState` is the ring state that the unit holds, which the resets of R49 to R51
set, keep or leave; what the other blocks see of it follows the load state (`State.ringState`). -/
structure PresenceUnit where
  ringState : RingState
  sequence : Nat
  recent : List Nat
  outstanding : Option Outstanding
  peers : List Peer
  clashReported : Bool
  period : Option Nat
  deriving DecidableEq, Repr

/-- The block a cleanup request is handed to (R48). -/
inductive CleanupSide where
  | owner
  | origin
  deriving DecidableEq, Repr

/-- A cleanup request handed over and not yet taken (R48). -/
structure CleanupRequest where
  side : CleanupSide
  peer : Nat
  cause : CleanupCause
  deriving DecidableEq, Repr

/-! Zone Arbiter -/

/-- A member record: the tag and, with a duration, the ms its auto-end timer has left (R53). -/
structure Member where
  tag : Tag
  left : Option Nat
  deriving DecidableEq, Repr

/-- A group of the suspension stack (R54). -/
structure Group where
  level : Nat
  members : List Member
  deriving DecidableEq, Repr

/-- A reservation with the ms its hold timer has left (R55). -/
structure Reservation where
  tag : Tag
  level : Nat
  hold : Nat
  deriving DecidableEq, Repr

/-- A wait-list entry (R56). -/
structure Waiter where
  tag : Tag
  level : Nat
  deriving DecidableEq, Repr

/-- A zone record, field by field the table of 4.1. `stack` is top first, `waiting` head first. -/
structure ZoneRecord where
  zone : Nat
  port : Nat
  policy : Policy
  floor : Nat
  active : List Member
  activeLevel : Option Nat
  reservation : Option Reservation
  superseded : Option Tag
  stack : List Group
  waiting : List Waiter
  deriving DecidableEq, Repr

/-! Claim Unit -/

/-- A zone entry of a claim record (R88). -/
structure ZoneEntry where
  zone : Nat
  owner : Option Nat
  state : EntryState
  lastCode : Option LastCode
  deriving DecidableEq, Repr

/-- The description part of a claim record, present from issue (table of 5.1). -/
structure ClaimInfo where
  issuer : Issuer
  cls : ClaimClass
  port : Nat
  level : Nat
  mode : Mode
  wait : Bool
  gain : Nat
  duration : Nat
  entries : List ZoneEntry
  deriving DecidableEq, Repr

/-- A claim record (R87), its timers with their ms left. -/
structure Slot where
  generation : Nat
  state : SlotState
  outcome : Option ClaimOutcome
  info : Option ClaimInfo
  durationLeft : Option Nat
  returnTimer : Option Nat
  deriving DecidableEq, Repr

/-! Listen Unit -/

/-- A listen entry (R118), its lapse timer with its ms left or stopped. -/
structure ListenEntry where
  tag : Tag
  gain : Nat
  duration : Nat
  references : Nat
  active : Bool
  buffer : List Sample
  primed : Bool
  lapse : Option Nat
  deriving DecidableEq, Repr

/-! Mix Engine -/

/-- A meter record (R149). -/
structure MeterRecord where
  mean : Nat
  peak : Nat
  clips : Nat
  deriving DecidableEq, Repr

/-- The Mix Engine's fields of one own zone (8.1). -/
structure MixZone where
  zone : Nat
  trim : Nat
  count : Nat
  sum : Nat
  peak : Nat
  clips : Nat
  last : Option MeterRecord
  totalClips : Nat
  deriving DecidableEq, Repr

/-- The Mix Engine's state and the samples on Z0 to Z7 (R147). -/
structure MixEngine where
  zones : List MixZone
  ports : List Sample
  deriving DecidableEq, Repr

/-! Key Unit -/

/-- A debounced state (R157). -/
inductive KeyState where
  | pressed
  | released
  deriving DecidableEq, Repr

/-- The Key Unit's state of one key (R157, R160). -/
structure Key where
  debounced : Option KeyState
  timer : Option Nat
  remembered : Option (Nat × Nat)
  deriving DecidableEq, Repr

/-! Control Port -/

/-- A queued notice with the vector it took when it was posted (R174). -/
structure QueuedNotice where
  vector : Nat
  notice : HostNotice
  deriving DecidableEq, Repr

/-- The Control Port's state (chapter 10). A mask is true for masked. `response` is what the host reads after the
turnaround byte of the last command that acted. -/
structure ControlPort where
  notices : List QueuedNotice
  overflow : Bool
  masks : List Bool
  response : List Byte
  deriving DecidableEq, Repr

/-! Configuration Loader -/

/-- The Configuration Loader's state (R178). -/
structure Loader where
  loadState : LoadState
  faultCode : Option FaultCode
  deriving DecidableEq, Repr

end Sys2Proof.Machine

namespace Sys2Proof.Machine

/-- The state of a station: the commands that wait, the pins, the values taken at load, the requests between blocks,
and the ten blocks. -/
structure State where
  pending : List Instr
  rstnLow : Bool
  keyInputs : List Bool
  config : Option Configuration
  cleanups : List CleanupRequest
  rp : RingPort
  pu : PresenceUnit
  za : List ZoneRecord
  cu : List Slot
  lu : List ListenEntry
  ss : List (List Sample)
  me : MixEngine
  ku : List Key
  cp : ControlPort
  cl : Loader
  deriving DecidableEq, Repr

/-- The Ring Port at the end of a power-on or RSTN reset (R33). -/
def RingPort.reset : RingPort :=
  { forward := [], control := [], audio := [], placeSetAside := false, out := none, checkErrors := 0, overruns := 0 }

/-- The Presence Unit after a power-on or RSTN reset (R49). -/
def PresenceUnit.reset : PresenceUnit :=
  { ringState := .loading, sequence := 0, recent := [], outstanding := none, peers := [], clashReported := false,
    period := none }

/-- A slot after a power-on or RSTN reset (R116). -/
def Slot.reset : Slot :=
  { generation := 0, state := .free, outcome := none, info := none, durationLeft := none, returnTimer := none }

/-- A key after a power-on or RSTN reset (R162). -/
def Key.reset : Key := { debounced := none, timer := none, remembered := none }

/-- The Control Port after a power-on or RSTN reset (R177); the empty response is a DESIGN CHOICE (log 5). -/
def ControlPort.reset : ControlPort :=
  { notices := [], overflow := false, masks := [false, false, false, false], response := [] }

/-- The Mix Engine after a power-on or RSTN reset: no per-zone fields, every port at 0 (R153). -/
def MixEngine.reset : MixEngine := { zones := [], ports := List.replicate 8 0 }

/-- The machine right after reset: RSTN released, the load begun (R178), every block at its reset state (R33, R49, R85,
R116, R131, R141, R153, R162, R177). Open key contacts are a DESIGN CHOICE (log 4). -/
def State.reset : State :=
  { pending := [], rstnLow := false, keyInputs := [false, false, false, false], config := none, cleanups := [],
    rp := RingPort.reset, pu := PresenceUnit.reset, za := [], cu := List.replicate 8 Slot.reset, lu := [],
    ss := [[], [], [], []], me := MixEngine.reset, ku := List.replicate 4 Key.reset, cp := ControlPort.reset,
    cl := { loadState := .reading, faultCode := none } }

end Sys2Proof.Machine
end

