-- ==== Sys2Proof/Machine/Codes.lean ====
section
/-! DEFINITION. The codes of the frames (R190) and of the Control Port's responses (R193), and the capacities of the
queues and tables. -/

namespace Sys2Proof.Machine

/-! Capacities -/

/-- The forward queue's places (R21). -/
def forwardCapacity : Nat := 4

/-- The control queue's places (R24). -/
def controlCapacity : Nat := 16

/-- The audio queue's places (R25). -/
def audioCapacity : Nat := 8

/-- The notice queue's places (R172). -/
def noticeCapacity : Nat := 32

/-- The listen table's places (R120). -/
def listenCapacity : Nat := 16

/-- The samples a listen buffer holds (R124). -/
def bufferCapacity : Nat := 64

/-- The wait list's places (R56). -/
def waitCapacity : Nat := 4

/-- The members a zone under MIX hears together (R53). -/
def mixCapacity : Nat := 4

/-- The sequence numbers the recent-sequence list keeps (R38). -/
def recentCapacity : Nat := 16

/-- The value at which the counters stop (R29, R30, R146). -/
def counterMaximum : Nat := 65535

/-- A saturating count of one more (R29, R30, R146). -/
def countUp (n : Nat) : Nat := if n < counterMaximum then n + 1 else n

/-- The highest hop count (R18). -/
def hopLimit : Nat := 31

/-- The largest gain (R63). -/
def gainMaximum : Nat := 32767

/-- The largest duration, in units of 10 ms (R63, R76). -/
def durationMaximum : Nat := 6000

/-- The debounce time in ms (R157). -/
def debounceTime : Nat := 20

/-! Frame codes (R190) -/

def kindPresence : Byte := 1
def kindClaim : Byte := 2
def kindCommit : Byte := 3
def kindWithdraw : Byte := 4
def kindNotice : Byte := 5
def kindAudio : Byte := 6

/-- A mode byte as it is sent. -/
def modeCode : Mode → Byte
  | .any => 0
  | .all => 1

/-- A received mode byte: 1 is ALL and any other value ANY (R190). -/
def modeOfByte (b : Byte) : Mode := if b = 1 then .all else .any

/-- A flag byte (R189). -/
def flagCode (b : Bool) : Byte := if b then 1 else 0

/-- Verdict codes. -/
def Verdict.code : Verdict → Byte
  | .blank => 0
  | .held => 1
  | .waiting => 2
  | .busy => 3
  | .lower => 4
  | .full => 5
  | .floor => 6
  | .noroom => 7

/-- A received verdict: a code above 7 is taken as BUSY (R190). -/
def verdictOfByte (b : Byte) : Verdict :=
  match b.toNat with
  | 0 => .blank
  | 1 => .held
  | 2 => .waiting
  | 3 => .busy
  | 4 => .lower
  | 5 => .full
  | 6 => .floor
  | 7 => .noroom
  | _ => .busy

/-- Acknowledgement codes. -/
def Ack.code : Ack → Byte
  | .none => 0
  | .taken => 1
  | .queued => 2
  | .lapsed => 3
  | .preempted => 4
  | .outranked => 5
  | .floor => 6
  | .full => 7
  | .noroom => 8

/-- A received acknowledgement: a code above 8 is taken as NONE (R190). -/
def ackOfByte (b : Byte) : Ack :=
  match b.toNat with
  | 1 => .taken
  | 2 => .queued
  | 3 => .lapsed
  | 4 => .preempted
  | 5 => .outranked
  | 6 => .floor
  | 7 => .full
  | 8 => .noroom
  | _ => .none

/-- Reason codes; 5 and 6 appear in host notices alone. -/
def Reason.code : Reason → Byte
  | .autoEnd => 1
  | .silent => 2
  | .floor => 3
  | .cleared => 4
  | .withdrawn => 5
  | .originLost => 6

/-- Whether a reason travels to the origin (R14). -/
def Reason.travels : Reason → Bool
  | .autoEnd => true
  | .silent => true
  | .floor => true
  | .cleared => true
  | .withdrawn => false
  | .originLost => false

/-- The event byte and reason byte of a NOTICE; reason 0 when the event is not ENDED. -/
def NoticeEvent.codes : NoticeEvent → Byte × Byte
  | .granted => (1, 0)
  | .suspended => (2, 0)
  | .resumed => (3, 0)
  | .ended reason => (4, reason.code)

/-- A received event and reason byte: none for an event outside 1 to 4 or an ENDED with a reason outside 1 to 4, which
the Claim Unit ignores (R190). -/
def noticeEventOfBytes (event reason : Byte) : Option NoticeEvent :=
  match event.toNat, reason.toNat with
  | 1, _ => some .granted
  | 2, _ => some .suspended
  | 3, _ => some .resumed
  | 4, 1 => some (.ended .autoEnd)
  | 4, 2 => some (.ended .silent)
  | 4, 3 => some (.ended .floor)
  | 4, 4 => some (.ended .cleared)
  | _, _ => none

/-! Response codes (R193) -/

def ResultCode.code : ResultCode → Byte
  | .ok => 0
  | .badCommand => 1
  | .badArgs => 2
  | .noSlot => 3
  | .notOwned => 4
  | .starting => 5
  | .ringBroken => 6
  | .queueFull => 7
  | .passive => 8
  | .empty => 9

def RingState.code : RingState → Byte
  | .loading => 0
  | .passive => 1
  | .joining => 2
  | .up => 3
  | .broken => 4

def FaultCode.code : FaultCode → Byte
  | .noMemory => 1
  | .badImage => 2
  | .badSum => 3
  | .badChain => 4
  | .noStation => 5
  | .badField => 6

/-- A fault code or none. -/
def faultByte : Option FaultCode → Byte
  | none => 0
  | some f => f.code

def SlotState.code : SlotState → Byte
  | .free => 0
  | .asking => 1
  | .committing => 2
  | .live => 3

def EntryState.code : EntryState → Byte
  | .pending => 0
  | .held => 1
  | .waiting => 2
  | .active => 3
  | .suspended => 4
  | .refused => 5
  | .ended => 6
  | .lost => 7
  | .noOwner => 8

def ClaimOutcome.code : ClaimOutcome → Byte
  | .done => 1
  | .refused => 2
  | .broken => 3
  | .noOwner => 4
  | .noReturn => 5
  | .queueFull => 6
  | .withdrawn => 7
  | .autoEnd => 8

/-- An outcome or none. -/
def outcomeByte : Option ClaimOutcome → Byte
  | none => 0
  | some o => o.code

def Issuer.code : Issuer → Byte
  | .key n => BitVec.ofNat 8 n
  | .host => 4

def ClaimClass.code : ClaimClass → Byte
  | .ofWindow => 0
  | .ofRing => 1

def policyCode : Policy → Byte
  | .stack => 0
  | .mix => 1

/-- The last-code list and the last code. -/
def lastCodeBytes : Option LastCode → List Byte
  | none => [0, 0]
  | some (.verdict v) => [1, v.code]
  | some (.ack a) => [2, a.code]
  | some (.reason r) => [3, r.code]

/-! Notices (R174, R193) -/

/-- The categories of notices (R174). -/
inductive Category where
  | claim
  | zone
  | ring
  | fault
  deriving DecidableEq, Repr

/-- A category's index (R174). -/
def Category.index : Category → Nat
  | .claim => 0
  | .zone => 1
  | .ring => 2
  | .fault => 3

/-- The category a notice's kind fixes (R174). -/
def HostNotice.category : HostNotice → Category
  | .claimLive _ _ _ => .claim
  | .claimFailed _ _ _ _ => .claim
  | .claimEnded _ _ _ _ => .claim
  | .claimZone _ _ _ _ _ _ => .claim
  | .keyRefused _ _ _ => .claim
  | .zoneGranted _ _ => .zone
  | .zoneSuspended _ _ => .zone
  | .zoneResumed _ _ => .zone
  | .zoneEnded _ _ _ => .zone
  | .zoneIdle _ => .zone
  | .zoneFloor _ _ => .zone
  | .zoneTrimmed _ _ => .zone
  | .ringUp => .ring
  | .ringBroken => .ring
  | .peerJoined _ => .ring
  | .peerLeft _ => .ring
  | .peerRestarted _ => .ring
  | .ownershipClash _ _ => .fault
  | .addressClash _ => .fault
  | .configFault _ => .fault

/-- A whole number as the byte that carries it. -/
def byteOf (n : Nat) : Byte := BitVec.ofNat 8 n

/-- A tag in a response: origin, slot, generation (12.4). -/
def tagBytes (t : Tag) : List Byte := [byteOf t.origin, byteOf t.slot, byteOf t.generation]

/-- A notice's kind code (R193). -/
def HostNotice.kindCode : HostNotice → Byte
  | .claimLive _ _ _ => 1
  | .claimFailed _ _ _ _ => 2
  | .claimEnded _ _ _ _ => 3
  | .claimZone _ _ _ _ _ _ => 4
  | .keyRefused _ _ _ => 5
  | .zoneGranted _ _ => 6
  | .zoneSuspended _ _ => 7
  | .zoneResumed _ _ => 8
  | .zoneEnded _ _ _ => 9
  | .zoneIdle _ => 10
  | .zoneFloor _ _ => 11
  | .zoneTrimmed _ _ => 12
  | .ringUp => 13
  | .ringBroken => 14
  | .peerJoined _ => 15
  | .peerLeft _ => 16
  | .peerRestarted _ => 17
  | .ownershipClash _ _ => 18
  | .addressClash _ => 19
  | .configFault _ => 21

/-- A reason byte of a host notice, 0 where there is none (R193). -/
def reasonByte : Option Reason → Byte
  | none => 0
  | some r => r.code

/-- The field bytes a notice's kind uses (R193). -/
def HostNotice.fields : HostNotice → List Byte
  | .claimLive slot gen issuer => [byteOf slot, byteOf gen, issuer.code]
  | .claimFailed slot gen issuer outcome => [byteOf slot, byteOf gen, issuer.code, outcome.code]
  | .claimEnded slot gen issuer outcome => [byteOf slot, byteOf gen, issuer.code, outcome.code]
  | .claimZone slot gen issuer zone state reason =>
    [byteOf slot, byteOf gen, issuer.code, byteOf zone, state.code, reasonByte reason]
  | .keyRefused key preset code => [byteOf key, byteOf preset, code.code]
  | .zoneGranted zone tag => byteOf zone :: tagBytes tag
  | .zoneSuspended zone tag => byteOf zone :: tagBytes tag
  | .zoneResumed zone tag => byteOf zone :: tagBytes tag
  | .zoneEnded zone tag reason => byteOf zone :: tagBytes tag ++ [reason.code]
  | .zoneIdle zone => [byteOf zone]
  | .zoneFloor zone floor => [byteOf zone, byteOf floor]
  | .zoneTrimmed zone trim => [byteOf zone, byteOf trim]
  | .ringUp => []
  | .ringBroken => []
  | .peerJoined peer => [byteOf peer]
  | .peerLeft peer => [byteOf peer]
  | .peerRestarted peer => [byteOf peer]
  | .ownershipClash zone address => [byteOf zone, byteOf address]
  | .addressClash address => [byteOf address]
  | .configFault code => [code.code]

/-- A notice's six field bytes, the unused ones 0 (R193). -/
def HostNotice.sixBytes (n : HostNotice) : List Byte := (n.fields ++ List.replicate 6 0).take 6

end Sys2Proof.Machine
end

