-- ==== Sys2Proof/Machine/Frames.lean ====
section
/-! DEFINITION. Ring frames: the check (R191), whole frames from and to bytes (R190), and the bodies of each kind. -/

namespace Sys2Proof.Machine

/-! The check -/

/-- One data bit into the check register (R191). -/
def checkBit (r : Word16) (d : Bool) : Word16 :=
  if r.msb = d then r <<< 1 else (r <<< 1) ^^^ 0x1021

/-- One byte into the check register, most significant bit first (R191). -/
def checkByte (r : Word16) (b : Byte) : Word16 :=
  [7, 6, 5, 4, 3, 2, 1, 0].foldl (fun r i => checkBit r (b.getLsbD i)) r

/-- The check over a run of bytes (R191). -/
def checkOf (bytes : List Byte) : Word16 := bytes.foldl checkByte 0xFFFF

/-- The bytes the check covers, from the kind byte through the last body byte (R191). -/
def Frame.covered (f : Frame) : List Byte :=
  f.kind :: f.origin :: f.hop :: f.destination :: f.bodyLength :: f.body

/-- The frame with its check computed anew (R20, R23). -/
def Frame.sealed (f : Frame) : Frame := { f with check := checkOf f.covered }

/-- The frame's bytes in sending order (R190). -/
def Frame.bytes (f : Frame) : List Byte := f.covered ++ splitBytes f.check

/-- The frame that received bytes hold: a 5-byte header, a body and a 2-byte check (R190); none when they are too few. -/
def frameOfBytes : List Byte → Option Frame
  | kind :: origin :: hop :: destination :: bodyLength :: rest =>
    if 2 ≤ rest.length then
      some { kind, origin, hop, destination, bodyLength, body := rest.take (rest.length - 2),
             check := joinBytes (rest.getD (rest.length - 2) 0) (rest.getD (rest.length - 1) 0) }
    else none
  | _ => none

/-- The largest body (R15). -/
def bodyMaximum : Nat := 42

/-- The tests of R15 that make a received frame good. -/
def Frame.isGood (f : Frame) : Bool :=
  decide (f.bodyLength.toNat ≤ bodyMaximum) && decide (f.bodyLength.toNat = f.body.length) &&
    decide (f.check = checkOf f.covered)

/-- The good frame a reception gives, if it is one (R15). -/
def goodFrame (bytes : List Byte) (cutShort : Bool) : Option Frame :=
  if cutShort then none else (frameOfBytes bytes).filter Frame.isGood

/-- A hop count byte as the hop-limit test reads it: above 31 as 31 (R190). -/
def Frame.hopCount (f : Frame) : Nat := min f.hop.toNat hopLimit

/-- The frame as it is passed on: hop count plus one and a new check (R20, R31). -/
def Frame.forwarded (f : Frame) : Frame := ({ f with hop := f.hop + 1 } : Frame).sealed

/-! Bodies -/

/-- A zone entry of a CLAIM or COMMIT as its bytes stand; a CLAIM's has no acknowledgement byte. -/
structure WireEntry where
  zone : Byte
  verdict : Byte
  ack : Byte
  owner : Byte
  deriving DecidableEq, Repr

/-- The content of a CLAIM or COMMIT as its bytes stand (R190). -/
structure Content where
  slot : Byte
  generation : Byte
  level : Byte
  mode : Byte
  wait : Byte
  gain : Word16
  duration : Word16
  entries : List WireEntry
  deriving DecidableEq, Repr

/-- The entries of a CLAIM body, three bytes each (R190). -/
def claimEntries : List Byte → List WireEntry
  | zone :: verdict :: owner :: rest => { zone, verdict, ack := 0, owner } :: claimEntries rest
  | _ => []

/-- The entries of a COMMIT body, four bytes each (R190). -/
def commitEntries : List Byte → List WireEntry
  | zone :: verdict :: ack :: owner :: rest => { zone, verdict, ack, owner } :: commitEntries rest
  | _ => []

/-- The content of a body with entries of `size` bytes; none when it is not well formed (R16). -/
def contentWith (size : Nat) (entriesOf : List Byte → List WireEntry) : List Byte → Option Content
  | slot :: generation :: level :: mode :: wait :: g1 :: g0 :: d1 :: d0 :: n :: rest =>
    if 1 ≤ n.toNat ∧ n.toNat ≤ 8 ∧ rest.length = size * n.toNat then
      some { slot, generation, level, mode, wait, gain := joinBytes g1 g0, duration := joinBytes d1 d0,
             entries := entriesOf rest }
    else none
  | _ => none

/-- The content of a CLAIM body (R190). -/
def claimContent : List Byte → Option Content := contentWith 3 claimEntries

/-- The content of a COMMIT body (R190). -/
def commitContent : List Byte → Option Content := contentWith 4 commitEntries

/-- The bytes of a content before its entries. -/
def Content.head (c : Content) : List Byte :=
  [c.slot, c.generation, c.level, c.mode, c.wait] ++ splitBytes c.gain ++ splitBytes c.duration ++
    [byteOf c.entries.length]

/-- A CLAIM body (R190). -/
def Content.claimBody (c : Content) : List Byte :=
  c.head ++ c.entries.flatMap fun e => [e.zone, e.verdict, e.owner]

/-- A COMMIT body (R190). -/
def Content.commitBody (c : Content) : List Byte :=
  c.head ++ c.entries.flatMap fun e => [e.zone, e.verdict, e.ack, e.owner]

/-- The samples of an AUDIO body, two bytes each (R190). -/
def samplesOfBytes : List Byte → List Sample
  | high :: low :: rest => joinBytes high low :: samplesOfBytes rest
  | _ => []

/-- The bytes of samples (R189). -/
def bytesOfSamples (samples : List Sample) : List Byte := samples.flatMap splitBytes

/-- What a well-formed frame of a known kind says (R190). -/
inductive Message where
  | presence (sequence flags first last : Byte)
  | claim (content : Content)
  | commit (content : Content)
  | withdraw (slot generation : Byte)
  | notice (slot generation zone event reason : Byte)
  | audio (slot generation : Byte) (samples : List Sample)
  deriving DecidableEq, Repr

/-- The message of a PRESENCE body. -/
def presenceMessage : List Byte → Option Message
  | [sequence, flags, first, last] => some (.presence sequence flags first last)
  | _ => none

/-- The message of a WITHDRAW body. -/
def withdrawMessage : List Byte → Option Message
  | [slot, generation] => some (.withdraw slot generation)
  | _ => none

/-- The message of a NOTICE body. -/
def noticeMessage : List Byte → Option Message
  | [slot, generation, zone, event, reason] => some (.notice slot generation zone event reason)
  | _ => none

/-- The message of an AUDIO body: 1 to 16 samples (R16). -/
def audioMessage : List Byte → Option Message
  | slot :: generation :: n :: rest =>
    if 1 ≤ n.toNat ∧ n.toNat ≤ 16 ∧ rest.length = 2 * n.toNat then
      some (.audio slot generation (samplesOfBytes rest))
    else none
  | _ => none

/-- The message a frame carries: none for an unknown kind or a body that is not well formed (R16, R190). -/
def Frame.message (f : Frame) : Option Message :=
  if f.kind = kindPresence then presenceMessage f.body
  else if f.kind = kindClaim then (claimContent f.body).map .claim
  else if f.kind = kindCommit then (commitContent f.body).map .commit
  else if f.kind = kindWithdraw then withdrawMessage f.body
  else if f.kind = kindNotice then noticeMessage f.body
  else if f.kind = kindAudio then audioMessage f.body
  else none

/-- The kind byte of a message (R190). -/
def Message.kind : Message → Byte
  | .presence _ _ _ _ => kindPresence
  | .claim _ => kindClaim
  | .commit _ => kindCommit
  | .withdraw _ _ => kindWithdraw
  | .notice _ _ _ _ _ => kindNotice
  | .audio _ _ _ => kindAudio

/-- The body of a message (R190). -/
def Message.body : Message → List Byte
  | .presence sequence flags first last => [sequence, flags, first, last]
  | .claim content => content.claimBody
  | .commit content => content.commitBody
  | .withdraw slot generation => [slot, generation]
  | .notice slot generation zone event reason => [slot, generation, zone, event, reason]
  | .audio slot generation samples => slot :: generation :: byteOf samples.length :: bytesOfSamples samples

/-- A frame as the Ring Port stores it for a unit: header with hop count 0, and the check over the whole (R23). -/
def frameOf (origin destination : Nat) (m : Message) : Frame :=
  ({ kind := m.kind, origin := byteOf origin, hop := 0, destination := byteOf destination,
     bodyLength := byteOf m.body.length, body := m.body, check := 0 } : Frame).sealed

end Sys2Proof.Machine
end

