-- ==== Sys2Proof/Machine/Ops.lean ====
section
/-! DEFINITION. The operations the blocks share: what the configuration says, posting a notice (R172), Ring Out
arbitration (R26), and storing frames in the transmit queues (R23). -/

namespace Sys2Proof.Machine

/-! What the configuration says -/

/-- The station's address, 0 while no configuration stands (R1). -/
def State.address (s : State) : Nat :=
  match s.config with
  | some c => c.station.address
  | none => 0

/-- The window's first bound: 1 while no window is loaded (R189). -/
def State.windowFirst (s : State) : Nat :=
  match s.config with
  | some c => c.first
  | none => 1

/-- The window's last bound: 0 while no window is loaded (R189). -/
def State.windowLast (s : State) : Nat :=
  match s.config with
  | some c => c.last
  | none => 0

/-- A zone number lies between two bounds (R2): no zone outside 1 to 240 lies in a window. -/
def inBounds (first last z : Nat) : Bool :=
  decide (1 ≤ z) && decide (z ≤ 240) && decide (first ≤ z) && decide (z ≤ last)

/-- A zone lies in the station's window (R2). -/
def State.owns (s : State) (z : Nat) : Bool := inBounds s.windowFirst s.windowLast z

/-- The vector base in force: 0 while no configuration stands (R174, R177). -/
def State.vectorBase (s : State) : Nat :=
  match s.config with
  | some c => c.station.vectorBase
  | none => 0

/-- Whether a ring state is one of JOINING, UP and BROKEN, in which the station is a full member (R36). -/
def RingState.isMember : RingState → Bool
  | .loading => false
  | .passive => false
  | .joining => true
  | .up => true
  | .broken => true

/-- The station's ring state, as every block but the Presence Unit sees it and STATUS reports it: it follows the load state,
READING being LOADING and FAILED being PASSIVE; in DONE it is the Presence Unit's (11.1, R36, R178, R187). -/
def State.ringState (s : State) : RingState :=
  match s.cl.loadState with
  | .reading => .loading
  | .failed => .passive
  | .done => s.pu.ringState

/-- Whether the station is in JOINING, UP or BROKEN. -/
def State.isMember (s : State) : Bool := s.ringState.isMember

/-! Posting (R172) -/

/-- Post a notice: stored with its vector (R174), or discarded with the overflow flag set when 32 wait (R172). -/
def post (n : HostNotice) (s : State) : State :=
  if s.cp.notices.length < noticeCapacity then
    { s with cp := { s.cp with notices := s.cp.notices ++ [{ vector := s.vectorBase + n.category.index, notice := n }] } }
  else { s with cp := { s.cp with overflow := true } }

/-! Ring Out (R26, R27) -/

/-- The Ring Port with the next frame begun, when the line is free and a frame waits: the oldest forward frame, else
the oldest control frame, else the oldest audio frame (R26). The frame leaves its queue at that moment (R27). -/
def RingPort.arbitrate (p : RingPort) : RingPort :=
  match p.out with
  | some _ => p
  | none =>
    match p.forward with
    | f :: rest => { p with forward := rest, out := some { frame := f, source := .forward, reported := false } }
    | [] =>
      match p.control with
      | f :: rest => { p with control := rest, out := some { frame := f, source := .control, reported := true } }
      | [] =>
        match p.audio with
        | f :: rest => { p with audio := rest, out := some { frame := f, source := .audio, reported := false } }
        | [] => p

/-- Whether the control queue has room for a request: a place set aside for a COMMIT counts as taken (R23, R97). -/
def RingPort.controlRoom (p : RingPort) : Bool :=
  decide (p.control.length + (if p.placeSetAside then 1 else 0) < controlCapacity)

/-- Store a frame in the control queue, or refuse it when there is no room (R23). -/
def RingPort.storeControl (f : Frame) (p : RingPort) : RingPort :=
  if p.controlRoom then ({ p with control := p.control ++ [f] } : RingPort).arbitrate else p

/-- Store the COMMIT in the place set aside for it (R97). -/
def RingPort.storeSetAside (f : Frame) (p : RingPort) : RingPort :=
  ({ p with placeSetAside := false, control := p.control ++ [f] } : RingPort).arbitrate

/-- Store a frame in the audio queue, or refuse it when the queue holds 8 (R25, R137). -/
def RingPort.storeAudio (f : Frame) (p : RingPort) : RingPort :=
  if p.audio.length < audioCapacity then ({ p with audio := p.audio ++ [f] } : RingPort).arbitrate else p

/-- Place a frame at the tail of the forward queue (R20). -/
def RingPort.placeForward (f : Frame) (p : RingPort) : RingPort :=
  ({ p with forward := p.forward ++ [f] } : RingPort).arbitrate

/-- The frame this station stores for a message (R23). -/
def State.frame (s : State) (destination : Nat) (m : Message) : Frame := frameOf s.address destination m

/-- Ask the Ring Port to store a message in the control queue (R23). -/
def storeControl (destination : Nat) (m : Message) (s : State) : State :=
  { s with rp := s.rp.storeControl (s.frame destination m) }

/-- Ask the Ring Port to store a message in the audio queue (R25). -/
def storeAudio (m : Message) (s : State) : State := { s with rp := s.rp.storeAudio (s.frame 0 m) }

/-! Records by key -/

/-- The zone record of an own zone. -/
def State.zone (s : State) (z : Nat) : Option ZoneRecord := s.za.find? fun r => r.zone == z

/-- Change the record of one zone. -/
def updateZone (z : Nat) (f : ZoneRecord → ZoneRecord) (s : State) : State :=
  { s with za := s.za.map fun r => if r.zone = z then f r else r }

/-- Change one slot's record. -/
def updateSlot (n : Nat) (f : Slot → Slot) (s : State) : State :=
  { s with cu := s.cu.modify n f }

/-- Do something for each item of a list, in order. -/
def forEach {α : Type} (items : List α) (act : α → State → State) (s : State) : State :=
  items.foldl (fun s a => act a s) s

end Sys2Proof.Machine
end

