-- ==== Sys2Proof/Machine/Flags.lean ====
section
/-! DEFINITION. The notice lines (R175, R176): the pending flags and the lines follow the queue and the masks at once, so
they are computed and not stored. -/

namespace Sys2Proof.Machine

/-- The line count in force: 3 acts as 2, 0 as 1, and 1 while no configuration stands (R175). -/
def State.lineCount (s : State) : Nat :=
  match s.config with
  | none => 1
  | some c => if c.station.lineCount = 4 then 4 else if 2 ≤ c.station.lineCount then 2 else 1

/-- The line a category maps to under a line count (R175). -/
def lineOf (count : Nat) (c : Category) : Nat :=
  match c with
  | .claim => 0
  | .zone => if count = 4 then 1 else 0
  | .ring => if count = 4 then 2 else if count = 2 then 1 else 0
  | .fault => if count = 4 then 3 else if count = 2 then 1 else 0

/-- A line's pending flag: the queue holds a notice of a category mapped to it (R175). -/
def State.linePending (s : State) (line : Nat) : Bool :=
  s.cp.notices.any fun q => lineOf s.lineCount q.notice.category == line

/-- A line is asserted, driven low: pending and unmasked (R176). -/
def State.lineAsserted (s : State) (line : Nat) : Bool := s.linePending line && !s.cp.masks.getD line false

end Sys2Proof.Machine
end

