-- ==== Sys2Proof/Machine/Listen.lean ====
section
/-! DEFINITION. The Listen Unit (chapter 6): references from the Zone Arbiter, samples received, samples yielded. -/

namespace Sys2Proof.Machine

/-- The lapse time in force (R119). -/
def State.lapseTime (s : State) : Nat :=
  match s.config with
  | some c => c.station.lapseTime
  | none => 0

/-- The start fill in force (R119). -/
def State.startFill (s : State) : Nat :=
  match s.config with
  | some c => c.station.startFill
  | none => 0

/-- A tag's listen entry. -/
def State.listenEntry (s : State) (t : Tag) : Option ListenEntry := s.lu.find? fun e => e.tag == t

/-- Change the entry of one tag. -/
def updateListen (t : Tag) (f : ListenEntry → ListenEntry) (s : State) : State :=
  { s with lu := s.lu.map fun e => if e.tag = t then f e else e }

/-- Whether a reference for a tag can be had: it has an entry, or a place is free (R120). -/
def State.canListen (s : State) (t : Tag) : Bool :=
  (s.listenEntry t).isSome || decide (s.lu.length < listenCapacity)

/-- A newly allocated entry (R120), gain and duration clamped (R63). -/
def newListenEntry (t : Tag) (gain duration : Nat) : ListenEntry :=
  { tag := t, gain := min gain gainMaximum, duration := min duration durationMaximum, references := 1, active := false,
    buffer := [], primed := false, lapse := none }

/-- Take a reference on a tag's entry, allocating one where it has none (R120). To be asked where `canListen` holds. -/
def takeReference (t : Tag) (gain duration : Nat) (s : State) : State :=
  if (s.listenEntry t).isSome then updateListen t (fun e => { e with references := e.references + 1 }) s
  else { s with lu := s.lu ++ [newListenEntry t gain duration] }

/-- Release a reference; at the last one the entry is freed (R120). -/
def releaseReference (t : Tag) (s : State) : State :=
  match s.listenEntry t with
  | none => s
  | some e =>
    if e.references ≤ 1 then { s with lu := s.lu.filter fun e => e.tag != t }
    else updateListen t (fun e => { e with references := e.references - 1 }) s

/-- Whether a tag is an active member in a zone record. -/
def ZoneRecord.isActive (r : ZoneRecord) (t : Tag) : Bool := r.active.any fun m => m.tag == t

/-- Whether a tag is in a group of the suspension stack. -/
def ZoneRecord.isSuspended (r : ZoneRecord) (t : Tag) : Bool :=
  r.stack.any fun g => g.members.any fun m => m.tag == t

/-- Whether a tag is on the wait list. -/
def ZoneRecord.isWaiting (r : ZoneRecord) (t : Tag) : Bool := r.waiting.any fun w => w.tag == t

/-- Whether a tag holds the reservation. -/
def ZoneRecord.isReserved (r : ZoneRecord) (t : Tag) : Bool :=
  match r.reservation with
  | some v => v.tag == t
  | none => false

/-- Whether a tag holds a role other than the reservation (R66, R122). -/
def ZoneRecord.isPlaced (r : ZoneRecord) (t : Tag) : Bool := r.isActive t || r.isSuspended t || r.isWaiting t

/-- Whether a tag holds any role (R57). -/
def ZoneRecord.hasRole (r : ZoneRecord) (t : Tag) : Bool := r.isPlaced t || r.isReserved t

/-- An entry after a report of its tag's standing (R121, R122): whether it is active in some own zone, and whether it
holds a role other than a reservation in some own zone. -/
def ListenEntry.report (lapseTime : Nat) (active placed : Bool) (e : ListenEntry) : ListenEntry :=
  { e with
    active := active
    buffer := if e.active && !active then [] else e.buffer
    primed := if e.active && !active then false else e.primed
    lapse := if placed then some (e.lapse.getD lapseTime) else none }

/-- The Zone Arbiter's report of a tag's standing, after a change to its roles (R57). -/
def reportStanding (t : Tag) (s : State) : State :=
  updateListen t (ListenEntry.report s.lapseTime (s.za.any (·.isActive t)) (s.za.any (·.isPlaced t))) s

/-- A role of a tag has ended: its reference is released and its standing reported (R57). -/
def releaseRole (t : Tag) (s : State) : State := reportStanding t (releaseReference t s)

/-- Samples appended to a buffer: as many as fill it to 64, then primed at the start fill (R124). -/
def ListenEntry.append (startFill : Nat) (samples : List Sample) (e : ListenEntry) : ListenEntry :=
  let buffer := (e.buffer ++ samples).take bufferCapacity
  { e with buffer := buffer, primed := e.primed || decide (startFill ≤ buffer.length) }

/-- An entry at the arrival of samples for its tag (R123). -/
def ListenEntry.arrive (lapseTime startFill : Nat) (samples : List Sample) (e : ListenEntry) : ListenEntry :=
  match e.lapse with
  | none => e
  | some _ =>
    let e := { e with lapse := some lapseTime }
    if e.active then e.append startFill samples else e

/-- The arrival of a block for a tag, from the ring (R123) or from the own Stream Sender (R125). -/
def arriveSamples (t : Tag) (samples : List Sample) (s : State) : State :=
  updateListen t (ListenEntry.arrive s.lapseTime s.startFill samples) s

/-- The sample an entry yields at a strobe (R126). -/
def ListenEntry.yielded (e : ListenEntry) : Sample :=
  if e.active && e.primed then e.buffer.headD 0 else 0

/-- An entry after a strobe (R126): the yielded sample has left; a primed entry found empty is unprimed. -/
def ListenEntry.afterYield (e : ListenEntry) : ListenEntry :=
  if e.active && e.primed then
    match e.buffer with
    | [] => { e with primed := false }
    | _ :: rest => { e with buffer := rest }
  else e

end Sys2Proof.Machine
end

