-- ==== Sys2Proof/Machine/Slots.lean ====
section
/-! DEFINITION. The Claim Unit's part that the Zone Arbiter reaches: the return of a slot to FREE (R87, R160), notices
from owners (R103, R104) and the all-terminal test (R105). -/

namespace Sys2Proof.Machine

/-- Terminal entry states (R88). -/
def EntryState.isTerminal : EntryState → Bool
  | .pending => false
  | .held => false
  | .waiting => false
  | .active => false
  | .suspended => false
  | .refused => true
  | .ended => true
  | .lost => true
  | .noOwner => true

/-- A place of a claim in a zone: ACTIVE, SUSPENDED or WAITING (R101, R138). -/
def EntryState.hasPlace : EntryState → Bool
  | .pending => false
  | .held => false
  | .waiting => true
  | .active => true
  | .suspended => true
  | .refused => false
  | .ended => false
  | .lost => false
  | .noOwner => false

/-- The slot with this number. -/
def State.slot (s : State) (n : Nat) : Option Slot := s.cu[n]?

/-- The tag of a slot's claim (R90). -/
def State.tagOf (s : State) (n : Nat) (k : Slot) : Tag :=
  { origin := s.address, slot := n, generation := k.generation }

/-- The issuer of a slot's claim. -/
def Slot.issuer (k : Slot) : Issuer :=
  match k.info with
  | some i => i.issuer
  | none => .host

/-- The zone entries of a slot's claim. -/
def Slot.entries (k : Slot) : List ZoneEntry :=
  match k.info with
  | some i => i.entries
  | none => []

/-- The slot with its zone entries changed. -/
def Slot.withEntries (entries : List ZoneEntry) (k : Slot) : Slot :=
  { k with info := k.info.map fun i => { i with entries := entries } }

/-- A key forgets the claim of a slot that returns to FREE (R160). -/
def Key.forget (n generation : Nat) (k : Key) : Key :=
  if k.remembered = some (n, generation) then { k with remembered := none } else k

/-- A slot returns to FREE with an outcome: its timers stop, its description stays (R87), and a key that remembers the
claim forgets it (R160). -/
def freeSlot (n : Nat) (outcome : ClaimOutcome) (s : State) : State :=
  match s.slot n with
  | none => s
  | some k =>
    let s := updateSlot n (fun k =>
      { k with state := .free, outcome := some outcome, durationLeft := none, returnTimer := none }) s
    { s with ku := s.ku.map (Key.forget n k.generation) }

/-- The outcomes that CLAIM_ENDED carries; the others are CLAIM_FAILED's (R113). -/
def ClaimOutcome.isEnding : ClaimOutcome → Bool
  | .done => true
  | .withdrawn => true
  | .autoEnd => true
  | .refused => false
  | .broken => false
  | .noOwner => false
  | .noReturn => false
  | .queueFull => false

/-- A claim ends: the slot becomes FREE and CLAIM_ENDED or CLAIM_FAILED is posted with the outcome (R113). -/
def finishClaim (n : Nat) (outcome : ClaimOutcome) (s : State) : State :=
  match s.slot n with
  | none => s
  | some k =>
    post (if outcome.isEnding then .claimEnded n k.generation k.issuer outcome
          else .claimFailed n k.generation k.issuer outcome)
      (freeSlot n outcome s)

/-- The all-terminal test: a LIVE claim whose entries are all terminal becomes FREE with outcome DONE (R105). -/
def allTerminalTest (n : Nat) (s : State) : State :=
  match s.slot n with
  | none => s
  | some k =>
    if k.state = .live ∧ k.entries.all (·.state.isTerminal) then finishClaim n .done s else s

/-- The entry state an event gives (R104). -/
def NoticeEvent.entryState : NoticeEvent → EntryState
  | .granted => .active
  | .suspended => .suspended
  | .resumed => .active
  | .ended _ => .ended

/-- The reason an ENDED event carries. -/
def NoticeEvent.reason : NoticeEvent → Option Reason
  | .granted => none
  | .suspended => none
  | .resumed => none
  | .ended r => some r

/-- An entry after an applied notice (R104). -/
def ZoneEntry.notice (e : ZoneEntry) (event : NoticeEvent) : ZoneEntry :=
  { e with
    state := event.entryState
    lastCode := match event.reason with
      | some r => some (.reason r)
      | none => e.lastCode }

/-- Whether a notice from `sender` is applied to a slot (R103): in COMMITTING or LIVE, at the notice's generation, with
an entry for the zone whose owner is the sender and which is not terminal. -/
def Slot.takesNotice (k : Slot) (sender generation zone : Nat) : Bool :=
  (k.state == .committing || k.state == .live) && (k.generation == generation) &&
    k.entries.any fun e => e.zone == zone && e.owner == some sender && !e.state.isTerminal

/-- A notice reaches the Claim Unit (R103): applied with CLAIM_ZONE posted (R104) and the all-terminal test after it
(R105), or ignored. -/
def applyNotice (sender slot generation zone : Nat) (event : NoticeEvent) (s : State) : State :=
  match s.slot slot with
  | none => s
  | some k =>
    if k.takesNotice sender generation zone then
      allTerminalTest slot
        (post (.claimZone slot generation k.issuer zone event.entryState event.reason)
          (updateSlot slot (fun k => k.withEntries (k.entries.map fun e =>
            if e.zone = zone ∧ e.owner = some sender ∧ e.state.isTerminal = false then e.notice event else e)) s))
    else s

end Sys2Proof.Machine
end

