-- ==== Sys2Proof/Machine/Zones.lean ====
section
/-! DEFINITION. The Zone Arbiter's changes of place: telling the origin and the host (R77, R78), ending a role, pushing,
resuming and promoting (R68, R73, R74), and settling (R71 to R75). -/

namespace Sys2Proof.Machine

/-- The hold time in force (R63). -/
def State.holdTime (s : State) : Nat :=
  match s.config with
  | some c => c.station.holdTime
  | none => 0

/-- The floor test: a level passes when it is strictly more urgent than the floor (R7). -/
def ZoneRecord.passes (r : ZoneRecord) (level : Nat) : Bool := decide (level < r.floor)

/-- The ms an auto-end or duration timer starts with: D times 10 ms, no timer for duration 0 (R76, R102). -/
def timerOf (duration : Nat) : Option Nat := if duration = 0 then none else some (duration * 10)

/-! Telling the origin and the host -/

/-- The ZONE notice that follows an event sent to an origin (R78). -/
def zoneNotice (z : Nat) (t : Tag) : NoticeEvent → HostNotice
  | .granted => .zoneGranted z t
  | .suspended => .zoneSuspended z t
  | .resumed => .zoneResumed z t
  | .ended reason => .zoneEnded z t reason

/-- The NOTICE frame's message for an event about a tag in a zone (R77). -/
def noticeFrame (z : Nat) (t : Tag) (event : NoticeEvent) : Message :=
  .notice (byteOf t.slot) (byteOf t.generation) (byteOf z) event.codes.1 event.codes.2

/-- An event is sent to the tag's origin: handed to the own Claim Unit, or stored as a NOTICE frame (R77). -/
def tellOrigin (z : Nat) (t : Tag) (event : NoticeEvent) (s : State) : State :=
  if t.origin = s.address then applyNotice s.address t.slot t.generation z event s
  else storeControl t.origin (noticeFrame z t event) s

/-- An event is sent to the origin and its ZONE notice posted after it (R77, R78). -/
def notify (z : Nat) (t : Tag) (event : NoticeEvent) (s : State) : State :=
  post (zoneNotice z t event) (tellOrigin z t event s)

/-! Ending a role -/

/-- A group without a tag's member record. -/
def Group.without (t : Tag) (g : Group) : Group := { g with members := g.members.filter fun m => m.tag != t }

/-- A zone record without a tag's active, suspended or waiting role; a group left with no member leaves the stack (R54),
an empty active set has no level (R53). -/
def ZoneRecord.without (r : ZoneRecord) (t : Tag) : ZoneRecord :=
  let active := r.active.filter fun m => m.tag != t
  { r with
    active := active
    activeLevel := if active.isEmpty then none else r.activeLevel
    stack := (r.stack.map (Group.without t)).filter fun g => !g.members.isEmpty
    waiting := r.waiting.filter fun w => w.tag != t }

/-- A tag's active, suspended or waiting role ends: it is removed, its listen reference released, the origin sent ENDED
where the reason travels (R14), and ZONE_ENDED posted. -/
def endRole (z : Nat) (reason : Reason) (t : Tag) (s : State) : State :=
  let s := releaseRole t (updateZone z (·.without t) s)
  if reason.travels then notify z t (.ended reason) s else post (.zoneEnded z t reason) s

/-- The reservation of a zone is removed quietly, where its tag satisfies `p`: the hold timer stops and the listen
reference is released (R55, R79 to R82). -/
def dropReservation (z : Nat) (p : Tag → Bool) (s : State) : State :=
  match (s.zone z).bind (·.reservation) with
  | none => s
  | some v =>
    if p v.tag then releaseRole v.tag (updateZone z (fun r => { r with reservation := none }) s) else s

/-- A superseded tag that satisfies `p` is cleared (R79 to R82). -/
def dropSuperseded (z : Nat) (p : Tag → Bool) (s : State) : State :=
  updateZone z (fun r => { r with superseded := r.superseded.filter fun t => !p t }) s

/-! Push, resume, promote -/

/-- The active set of a record pushed whole onto the stack (R54, R68). -/
def ZoneRecord.pushed (r : ZoneRecord) : ZoneRecord :=
  match r.activeLevel with
  | none => r
  | some level =>
    { r with active := [], activeLevel := none, stack := { level := level, members := r.active } :: r.stack }

/-- The active set is pushed: each member, in joining order, is sent SUSPENDED with ZONE_SUSPENDED posted (R68). -/
def pushActive (z : Nat) (s : State) : State :=
  match s.zone z with
  | none => s
  | some r =>
    forEach r.active (fun m s => notify z m.tag .suspended (reportStanding m.tag s)) (updateZone z (·.pushed) s)

/-- The top group of a record's stack taken off whole as the active set (R73). -/
def ZoneRecord.resumed (r : ZoneRecord) : ZoneRecord :=
  match r.stack with
  | [] => r
  | g :: rest => { r with active := g.members, activeLevel := some g.level, stack := rest }

/-- The top group is resumed: each member, in order, is sent RESUMED with ZONE_RESUMED posted (R73). -/
def resumeGroup (z : Nat) (s : State) : State :=
  match (s.zone z).bind (·.stack.head?) with
  | none => s
  | some g =>
    forEach g.members (fun m s => notify z m.tag .resumed (reportStanding m.tag s)) (updateZone z (·.resumed) s)

/-- The member record of a promoted waiter: its timer starts with the duration its listen entry holds (R74, R128). -/
def State.promotedMember (s : State) (w : Waiter) : Member :=
  { tag := w.tag
    left := match s.listenEntry w.tag with
      | some e => timerOf e.duration
      | none => none }

/-- The waiters promoted into an empty active set: the head, and under MIX the following waiters of its level, four in
all (R74). -/
def ZoneRecord.promotable (r : ZoneRecord) : List Waiter :=
  match r.waiting with
  | [] => []
  | w :: rest =>
    match r.policy with
    | .stack => [w]
    | .mix => w :: (rest.takeWhile fun v => v.level == w.level).take (mixCapacity - 1)

/-- The last step of a promotion (R74): GRANTED is sent and ZONE_GRANTED posted; a member promoted in the settling of
its own WAITING commit (`own`) is sent no GRANTED. -/
def grant (z : Nat) (own : Option Tag) (w : Waiter) (s : State) : State :=
  let s := reportStanding w.tag s
  if own = some w.tag then post (.zoneGranted z w.tag) s else notify z w.tag .granted s

/-- The head waiter, and under MIX those of its level, become the active set (R74). -/
def promote (z : Nat) (own : Option Tag) (s : State) : State :=
  match s.zone z with
  | none => s
  | some r =>
    forEach r.promotable (grant z own)
      (updateZone z (fun r =>
        { r with
          active := r.promotable.map s.promotedMember
          activeLevel := r.waiting.head?.map (·.level)
          waiting := r.waiting.drop r.promotable.length }) s)

/-- The head waiter joins the active set at its tail (R75). -/
def joinActive (z : Nat) (own : Option Tag) (w : Waiter) (s : State) : State :=
  grant z own w (updateZone z (fun r =>
    { r with active := r.active ++ [s.promotedMember w], waiting := r.waiting.tail }) s)

/-! Settling -/

/-- The roles a pass over an empty active set prunes: the top groups that fail the floor test, then every waiter that
fails it (R72). -/
def ZoneRecord.pruned (r : ZoneRecord) : List Tag :=
  (r.stack.takeWhile fun g => !r.passes g.level).flatMap (fun g => g.members.map (·.tag)) ++
    (r.waiting.filter fun w => !r.passes w.level).map (·.tag)

/-- What a pass takes into an empty active set. -/
inductive Taken where
  | nothing
  | group
  | waiter
  deriving DecidableEq, Repr

/-- The top group and the head waiter compared: the stack wins a tie (R73). -/
def ZoneRecord.taken (r : ZoneRecord) : Taken :=
  match r.stack, r.waiting with
  | [], [] => .nothing
  | _ :: _, [] => .group
  | [], _ :: _ => .waiter
  | g :: _, w :: _ => if w.level < g.level then .waiter else .group

/-- A pass that finds the active set empty: prune, then take the group or the waiter (R72, R73); none when it changes
nothing. -/
def emptyPass (z : Nat) (own : Option Tag) (r : ZoneRecord) (s : State) : Option State :=
  let s' := forEach r.pruned (endRole z .floor) s
  match (s'.zone z).map ZoneRecord.taken with
  | some .group => some (resumeGroup z s')
  | some .waiter => some (promote z own s')
  | _ => if r.pruned.isEmpty then none else some s'

/-- A pass that finds the active set non-empty at level `a` (R75); none when it changes nothing. -/
def activePass (z : Nat) (own : Option Tag) (r : ZoneRecord) (a : Nat) (s : State) : Option State :=
  match r.waiting with
  | [] => none
  | w :: _ =>
    if w.level < a then
      if r.passes w.level then some (promote z own (pushActive z s)) else some (endRole z .floor w.tag s)
    else if w.level = a ∧ r.policy = .mix ∧ r.active.length < mixCapacity then
      if r.passes w.level then some (joinActive z own w s) else some (endRole z .floor w.tag s)
    else none

/-- One pass of settling (R71); none when it changes nothing. -/
def settlePass (z : Nat) (own : Option Tag) (s : State) : Option State :=
  match s.zone z with
  | none => none
  | some r =>
    match r.activeLevel with
    | none => emptyPass z own r s
    | some a => activePass z own r a s

/-- Passes until one changes nothing (R71). -/
def settleLoop (z : Nat) (own : Option Tag) : Nat → State → State
  | 0, s => s
  | n + 1, s =>
    match settlePass z own s with
    | none => s
    | some s' => settleLoop z own n s'

/-- A bound on the passes that change something: one that fills the empty set, then one for each waiter. -/
def ZoneRecord.passBound (r : ZoneRecord) : Nat := r.waiting.length + 2

/-- Whether a zone is idle with nothing suspended or waiting (R73). -/
def ZoneRecord.isIdle (r : ZoneRecord) : Bool := r.active.isEmpty && r.stack.isEmpty && r.waiting.isEmpty

/-- Settling of a zone (R71). `own` is the tag whose WAITING commit started it (R70); `wasActive` is whether the active
set was non-empty at the start of the event, in which case a zone left idle posts ZONE_IDLE (R73). -/
def settle (z : Nat) (own : Option Tag) (wasActive : Bool) (s : State) : State :=
  match s.zone z with
  | none => s
  | some r =>
    let s' := settleLoop z own r.passBound s
    if wasActive && (s'.zone z).any ZoneRecord.isIdle then post (.zoneIdle z) s' else s'

end Sys2Proof.Machine
end

