-- ==== Sys2Proof/Machine/Owner.lean ====
section
/-! DEFINITION. The Zone Arbiter's events: CLAIM (R58 to R64), COMMIT (R66 to R70), WITHDRAW (R79), lapse (R80), cleanup
(R81), CLEAR ZONE (R82), SET FLOOR (R83), hold and auto-end expiry (R65, R76). -/

namespace Sys2Proof.Machine

/-- A claim's terms as an owner reads them from a CLAIM or COMMIT (R58, R66, R190). -/
structure Terms where
  tag : Tag
  level : Nat
  mode : Mode
  wait : Bool
  gain : Nat
  duration : Nat
  deriving DecidableEq, Repr

/-- The terms a content gives: a level above 7 is taken as 7, a mode byte of 1 is ALL, a wait byte other than 0 is set,
gain and duration are clamped (R190, R63). -/
def Content.terms (origin : Nat) (c : Content) : Terms :=
  { tag := { origin := origin, slot := c.slot.toNat, generation := c.generation.toNat }
    level := min c.level.toNat 7
    mode := modeOfByte c.mode
    wait := decide (c.wait ≠ 0)
    gain := min c.gain.toNat gainMaximum
    duration := min c.duration.toNat durationMaximum }

/-! CLAIM -/

/-- A level is strictly more urgent than a zone's active level, or the active set is empty. -/
def ZoneRecord.outranked (r : ZoneRecord) (level : Nat) : Bool :=
  match r.activeLevel with
  | none => true
  | some a => decide (level < a)

/-- The answer of the reservation and the active set to a level (R60, R61). -/
def ZoneRecord.bid (r : ZoneRecord) (level : Nat) : Verdict :=
  match r.reservation with
  | some v => if level < v.level ∧ r.outranked level then .held else .busy
  | none =>
    match r.activeLevel with
    | none => .held
    | some a =>
      if level < a then .held
      else if level = a then
        match r.policy with
        | .mix => if r.active.length < mixCapacity then .held else .full
        | .stack => .busy
      else .lower

/-- A refusal written as WAITING for a claim that may wait (R62). -/
def ZoneRecord.converted (r : ZoneRecord) (mode : Mode) (wait : Bool) : Verdict → Verdict
  | .busy => if wait ∧ mode = .any ∧ r.waiting.length < waitCapacity then .waiting else .busy
  | .full => if wait ∧ mode = .any ∧ r.waiting.length < waitCapacity then .waiting else .full
  | .lower => if wait ∧ mode = .any ∧ r.waiting.length < waitCapacity then .waiting else .lower
  | v => v

/-- The verdict before the listen test: the tests of R59, then R60 to R62. -/
def ZoneRecord.verdict (r : ZoneRecord) (t : Terms) : Verdict :=
  if r.hasRole t.tag then .busy
  else if !r.passes t.level then .floor
  else r.converted t.mode t.wait (r.bid t.level)

/-- The old reservation broken: its tag becomes the superseded tag, its listen reference is released (R64). -/
def breakReservation (z : Nat) (s : State) : State :=
  match (s.zone z).bind (·.reservation) with
  | none => s
  | some v =>
    releaseRole v.tag (updateZone z (fun r => { r with reservation := none, superseded := some v.tag }) s)

/-- HELD: the reference is taken, a reservation in the way is broken, and the tag becomes the reservation (R63). -/
def reserve (z : Nat) (t : Terms) (s : State) : State :=
  let s := breakReservation z (takeReference t.tag t.gain t.duration s)
  updateZone z (fun r => { r with reservation := some { tag := t.tag, level := t.level, hold := s.holdTime } }) s

/-- The verdict on an own entry and what it does to the zone (R58 to R63). -/
def answer (z : Nat) (t : Terms) (r : ZoneRecord) (s : State) : Verdict × State :=
  match r.verdict t with
  | .held => if s.canListen t.tag then (.held, reserve z t s) else (.noroom, s)
  | v => (v, s)

/-- One entry of a CLAIM (R4): answered when it is own, left with OWNERSHIP_CLASH posted when another has answered it,
left when its zone is not in the window. -/
def answerEntry (t : Terms) (e : WireEntry) (s : State) : WireEntry × State :=
  match s.zone e.zone.toNat with
  | none => (e, s)
  | some r =>
    if e.verdict = 0 ∧ e.owner = 0 then
      let answered := answer e.zone.toNat t r s
      ({ e with verdict := answered.1.code, owner := byteOf s.address }, answered.2)
    else (e, post (.ownershipClash e.zone.toNat e.owner.toNat) s)

/-- Entries taken in list order, each whole before the next (R58, R66). -/
def eachEntry (take : WireEntry → State → WireEntry × State) : List WireEntry → State → List WireEntry × State
  | [], s => ([], s)
  | e :: rest, s =>
    let one := take e s
    let more := eachEntry take rest one.2
    (one.1 :: more.1, more.2)

/-- A CLAIM at the Zone Arbiter (R58): the content with its own entries answered. -/
def claimAtOwner (origin : Nat) (c : Content) (s : State) : Content × State :=
  let answered := eachEntry (answerEntry (c.terms origin)) c.entries s
  ({ c with entries := answered.1 }, answered.2)

/-! COMMIT -/

/-- How the active set takes a committed level (R67). -/
inductive Admission where
  | sole
  | push
  | join
  | outranked
  deriving DecidableEq, Repr

/-- The active set's choice of R67. -/
def ZoneRecord.admission (r : ZoneRecord) (level : Nat) : Admission :=
  match r.activeLevel with
  | none => .sole
  | some a =>
    if level < a then .push
    else if level = a ∧ r.policy = .mix ∧ r.active.length < mixCapacity then .join
    else .outranked

/-- A committed tag enters the active set at its tail, its auto-end timer started (R67, R68). -/
def enterActive (z : Nat) (t : Terms) (s : State) : State :=
  reportStanding t.tag (updateZone z (fun r =>
    { r with active := r.active ++ [{ tag := t.tag, left := timerOf t.duration }], activeLevel := some t.level }) s)

/-- The steps after the choice of R67 for an entry answered TAKEN: the timer, ZONE_GRANTED, settling (R68). -/
def takeIn (z : Nat) (t : Terms) (wasActive : Bool) (s : State) : State :=
  settle z none wasActive (post (.zoneGranted z t.tag) (enterActive z t s))

/-- A HELD entry (R67, R69). -/
def commitHeld (z : Nat) (t : Terms) (r : ZoneRecord) (s : State) : Ack × State :=
  if r.isReserved t.tag then
    let s := updateZone z (fun r => { r with reservation := none }) s
    if !r.passes t.level then (.floor, releaseRole t.tag s)
    else
      match r.admission t.level with
      | .sole => (.taken, takeIn z t (!r.active.isEmpty) s)
      | .push => (.taken, takeIn z t true (pushActive z s))
      | .join => (.taken, takeIn z t (!r.active.isEmpty) s)
      | .outranked => (.outranked, releaseRole t.tag s)
  else if r.superseded = some t.tag then
    (.preempted, updateZone z (fun r => { r with superseded := none }) s)
  else (.lapsed, s)

/-- A wait list with a tag at its place: after every entry whose level is equal or more urgent (R56). -/
def insertWaiter (w : Waiter) : List Waiter → List Waiter
  | [] => [w]
  | v :: rest => if w.level < v.level then w :: v :: rest else v :: insertWaiter w rest

/-- A tag joins the wait list with a listen reference (R70). A reservation of its own is removed, as its claim commits (R55),
and its reference released, so the tag keeps one place (R57); a reservation of another claim plays no part. -/
def joinWaiting (z : Nat) (t : Terms) (s : State) : State :=
  reportStanding t.tag
    (updateZone z (fun r => { r with waiting := insertWaiter { tag := t.tag, level := t.level } r.waiting })
      (dropReservation z (· == t.tag) (takeReference t.tag t.gain t.duration s)))

/-- A WAITING entry (R70). -/
def commitWaiting (z : Nat) (t : Terms) (r : ZoneRecord) (s : State) : Ack × State :=
  if !r.passes t.level then (.floor, s)
  else if waitCapacity ≤ r.waiting.length then (.full, s)
  else if !s.canListen t.tag then (.noroom, s)
  else
    let s := settle z (some t.tag) (!r.active.isEmpty) (joinWaiting z t s)
    (if (s.zone z).any (·.isActive t.tag) then .taken else .queued, s)

/-- One entry of a COMMIT (R5, R66): an own entry with verdict HELD or WAITING is acknowledged, LAPSED where it is stale;
every other entry is left. -/
def acknowledgeEntry (t : Terms) (e : WireEntry) (s : State) : WireEntry × State :=
  match s.zone e.zone.toNat with
  | none => (e, s)
  | some r =>
    if e.owner.toNat = s.address then
      match verdictOfByte e.verdict with
      | .held =>
        if r.isPlaced t.tag then ({ e with ack := Ack.lapsed.code }, s)
        else
          let answered := commitHeld e.zone.toNat t r s
          ({ e with ack := answered.1.code }, answered.2)
      | .waiting =>
        if r.isPlaced t.tag then ({ e with ack := Ack.lapsed.code }, s)
        else
          let answered := commitWaiting e.zone.toNat t r s
          ({ e with ack := answered.1.code }, answered.2)
      | _ => (e, s)
    else (e, s)

/-- A COMMIT at the Zone Arbiter (R66): the content with its own entries acknowledged. -/
def commitAtOwner (origin : Nat) (c : Content) (s : State) : Content × State :=
  let answered := eachEntry (acknowledgeEntry (c.terms origin)) c.entries s
  ({ c with entries := answered.1 }, answered.2)

/-! Endings -/

/-- The tags of a record's active set, stack groups from the top and wait list, in that order (R81, R82). -/
def ZoneRecord.placedTags (r : ZoneRecord) : List Tag :=
  r.active.map (·.tag) ++ r.stack.flatMap (fun g => g.members.map (·.tag)) ++ r.waiting.map (·.tag)

/-- In one zone, every role whose tag satisfies `p` ends with a reason; the reservation goes quietly, the superseded tag
is cleared, and a zone that changed is settled (R79 to R82). -/
def endWhere (reason : Reason) (p : Tag → Bool) (z : Nat) (s : State) : State :=
  match s.zone z with
  | none => s
  | some r =>
    let tags := r.placedTags.filter p
    let s := dropSuperseded z p (dropReservation z p (forEach tags (endRole z reason) s))
    if tags.isEmpty then s else settle z none (!r.active.isEmpty) s

/-- The own zones in order of zone number (R79). -/
def State.ownZones (s : State) : List Nat := s.za.map (·.zone)

/-- Every own zone in turn, lowest first (R79 to R81). -/
def endEverywhere (reason : Reason) (p : Tag → Bool) (s : State) : State :=
  forEach s.ownZones (endWhere reason p) s

/-- A WITHDRAW at the Zone Arbiter (R79). -/
def withdrawAtOwner (t : Tag) : State → State := endEverywhere .withdrawn (· == t)

/-- A lapse request (R80). -/
def lapseAtOwner (t : Tag) : State → State := endEverywhere .silent (· == t)

/-- A cleanup request for a peer (R81). -/
def cleanupAtOwner (peer : Nat) : State → State := endEverywhere .originLost (·.origin == peer)

/-- CLEAR ZONE in an own zone (R82). -/
def clearZoneAt (z : Nat) : State → State := endWhere .cleared (fun _ => true) z

/-- SET FLOOR in an own zone (R83). -/
def setFloorAt (z floor : Nat) (s : State) : State :=
  settle z none ((s.zone z).any fun r => !r.active.isEmpty)
    (post (.zoneFloor z floor) (updateZone z (fun r => { r with floor := floor }) s))

/-- A reservation's hold timer expires: the reservation is removed and its reference released (R65). -/
def holdExpiryAt (z : Nat) : State → State := dropReservation z fun _ => true

/-- An active member's auto-end timer expires (R76): nothing where no such timer runs. -/
def autoEndExpiryAt (z : Nat) (t : Tag) (s : State) : State :=
  match s.zone z with
  | none => s
  | some r =>
    if r.active.any fun m => m.tag == t && m.left.isSome then settle z none true (endRole z .autoEnd t s) else s

end Sys2Proof.Machine
end

