-- ==== Sys2Proof/Machine/Claims.lean ====
section
/-! DEFINITION. Claims at the origin (chapter 5): issue, the two decisions, withdrawal, ending, timeouts, loss of an
owner. -/

namespace Sys2Proof.Machine

/-! Contents -/

/-- The content of a slot's CLAIM: every entry BLANK with owner 0 (R90). -/
def claimContentOf (n generation : Nat) (i : ClaimInfo) : Content :=
  { slot := byteOf n, generation := byteOf generation, level := byteOf i.level, mode := modeCode i.mode,
    wait := flagCode i.wait, gain := BitVec.ofNat 16 i.gain, duration := BitVec.ofNat 16 i.duration,
    entries := i.entries.map fun e => { zone := byteOf e.zone, verdict := 0, ack := 0, owner := 0 } }

/-- The verdict an entry's last code holds, as a byte; BLANK where it holds none. -/
def ZoneEntry.verdictByte (e : ZoneEntry) : Byte :=
  match e.lastCode with
  | some (.verdict v) => v.code
  | some (.ack _) => 0
  | some (.reason _) => 0
  | none => 0

/-- The content of a slot's COMMIT: zone, owner and verdict as they stood at the CLAIM return, acknowledgement NONE
(R97). -/
def commitContentOf (n generation : Nat) (i : ClaimInfo) : Content :=
  { claimContentOf n generation i with
    entries := i.entries.map fun e =>
      { zone := byteOf e.zone, verdict := e.verdictByte, ack := 0, owner := byteOf (e.owner.getD 0) } }

/-- Whether a returned content names the record's zones, in the same number and order (R93, R99). -/
def Content.names (c : Content) (entries : List ZoneEntry) : Bool :=
  c.entries.map (·.zone.toNat) == entries.map (·.zone)

/-! Withdrawal -/

/-- Withdrawing a slot's claim (R96): the own Zone Arbiter takes the WITHDRAW, then a ring claim's WITHDRAW frame is
stored, or not sent when the control queue is full. -/
def withdrawClaim (n : Nat) (s : State) : State :=
  match s.slot n with
  | none => s
  | some k =>
    let s' := withdrawAtOwner (s.tagOf n k) s
    if k.info.any fun i => i.cls == .ofRing then
      storeControl 0 (.withdraw (byteOf n) (byteOf k.generation)) s'
    else s'

/-- A claim withdrawn and its slot freed with an outcome (R94, R100, R106, R107, R109). -/
def withdrawAndFinish (n : Nat) (outcome : ClaimOutcome) (s : State) : State :=
  finishClaim n outcome (withdrawClaim n s)

/-! The COMMIT return -/

/-- The entry state an acknowledgement gives (R99). -/
def Ack.entryState : Ack → EntryState
  | .taken => .active
  | .queued => .waiting
  | .none => .refused
  | .lapsed => .refused
  | .preempted => .refused
  | .outranked => .refused
  | .floor => .refused
  | .full => .refused
  | .noroom => .refused

/-- An entry still PENDING takes its state from the acknowledgement; any other keeps its state (R99). -/
def ZoneEntry.acknowledged (w : WireEntry) (e : ZoneEntry) : ZoneEntry :=
  if e.state = .pending then
    { e with state := (ackOfByte w.ack).entryState, lastCode := some (.ack (ackOfByte w.ack)) }
  else e

/-- A slot enters LIVE (R102): CLAIM_LIVE, the duration timer, the all-terminal test. -/
def enterLive (n : Nat) (s : State) : State :=
  match s.slot n with
  | none => s
  | some k =>
    allTerminalTest n
      (post (.claimLive n k.generation k.issuer)
        (updateSlot n (fun k =>
          { k with state := .live, durationLeft := k.info.bind fun i => timerOf i.duration, returnTimer := none }) s))

/-- Whether a claim goes LIVE at its COMMIT return: in ALL mode when every entry of the frame is TAKEN and no entry of
the record is terminal (R100); in ANY mode when an entry has a place (R101). -/
def goesLive (mode : Mode) (wire : List WireEntry) (entries : List ZoneEntry) : Bool :=
  match mode with
  | .all => (wire.all fun w => ackOfByte w.ack == .taken) && entries.all fun e => !e.state.isTerminal
  | .any => entries.any fun e => e.state.hasPlace

/-- The decision at the COMMIT return (R100, R101). -/
def commitDecision (n : Nat) (wire : List WireEntry) (s : State) : State :=
  match (s.slot n).bind (·.info) with
  | none => s
  | some i =>
    if goesLive i.mode wire i.entries then enterLive n s
    else
      match i.mode with
      | .all => withdrawAndFinish n .broken s
      | .any => finishClaim n .refused s

/-- The COMMIT return (R99): the return timer stops, the entries are matched by position, the decision follows. -/
def takeCommitReturn (n : Nat) (wire : List WireEntry) (s : State) : State :=
  commitDecision n wire
    (updateSlot n (fun k =>
      { k.withEntries (List.zipWith ZoneEntry.acknowledged wire k.entries) with returnTimer := none }) s)

/-! Commit -/

/-- An entry in HELD or WAITING becomes PENDING at the commit (R97). -/
def ZoneEntry.toCommit (e : ZoneEntry) : ZoneEntry :=
  if e.state = .held ∨ e.state = .waiting then { e with state := .pending } else e

/-- An own entry (R5) takes its acknowledgement at the commit; every other waits for the return (R97). -/
def State.acknowledgeOwn (s : State) (w : WireEntry) (e : ZoneEntry) : ZoneEntry :=
  if s.owns e.zone ∧ w.owner.toNat = s.address then e.acknowledged w else e

/-- A place of the control queue is set aside for the COMMIT (R97). -/
def setPlaceAside (s : State) : State := { s with rp := { s.rp with placeSetAside := true } }

/-- Store a COMMIT in the place set aside (R97). -/
def storeCommit (c : Content) (s : State) : State := { s with rp := s.rp.storeSetAside (s.frame 0 (.commit c)) }

/-- The commit of a claim once the control queue has room (R97). -/
def runCommit (n : Nat) (k : Slot) (i : ClaimInfo) (s : State) : State :=
  let content := commitContentOf n k.generation i
  let s := updateSlot n (fun k => { k.withEntries (k.entries.map ZoneEntry.toCommit) with state := .committing }) s
  match i.cls with
  | .ofRing =>
    let answered := commitAtOwner s.address content (setPlaceAside s)
    let s := updateSlot n (fun k =>
      k.withEntries (List.zipWith s.acknowledgeOwn answered.1.entries k.entries)) answered.2
    storeCommit answered.1 s
  | .ofWindow =>
    let answered := commitAtOwner s.address content s
    takeCommitReturn n answered.1.entries answered.2

/-- To commit (R97): a ring claim with no room in the control queue ends with QUEUE_FULL. -/
def commitClaim (n : Nat) (s : State) : State :=
  match s.slot n with
  | none => s
  | some k =>
    match k.info with
    | none => s
    | some i =>
      if i.cls = .ofRing ∧ controlCapacity ≤ s.rp.control.length then finishClaim n .queueFull s
      else runCommit n k i s

/-! The CLAIM return -/

/-- The entry state a verdict gives (R93). -/
def Verdict.entryState : Verdict → EntryState
  | .blank => .noOwner
  | .held => .held
  | .waiting => .waiting
  | .busy => .refused
  | .lower => .refused
  | .full => .refused
  | .floor => .refused
  | .noroom => .refused

/-- An entry at the CLAIM return: owner, last code and state from the answered entry (R93). -/
def ZoneEntry.answered (w : WireEntry) (e : ZoneEntry) : ZoneEntry :=
  { e with
    owner := if w.owner = 0 then none else some w.owner.toNat
    lastCode := some (.verdict (verdictOfByte w.verdict))
    state := (verdictOfByte w.verdict).entryState }

/-- The outcome of a claim that does not commit (R94, R95). -/
def refusalOutcome (entries : List ZoneEntry) : ClaimOutcome :=
  if entries.all (·.state == .noOwner) then .noOwner else .refused

/-- Whether a claim commits at its CLAIM return (R94, R95). -/
def commits (mode : Mode) (entries : List ZoneEntry) : Bool :=
  match mode with
  | .all => entries.all (·.state == .held)
  | .any => entries.any fun e => e.state == .held || e.state == .waiting

/-- The decision at the CLAIM return (R94, R95). -/
def claimDecision (n : Nat) (s : State) : State :=
  match (s.slot n).bind (·.info) with
  | none => s
  | some i =>
    if commits i.mode i.entries then commitClaim n s
    else
      match i.mode with
      | .all => withdrawAndFinish n (refusalOutcome i.entries) s
      | .any => finishClaim n (refusalOutcome i.entries) s

/-- The CLAIM return (R93): the return timer stops, the entries are matched by position, the decision follows. -/
def takeClaimReturn (n : Nat) (wire : List WireEntry) (s : State) : State :=
  claimDecision n
    (updateSlot n (fun k =>
      { k.withEntries (List.zipWith ZoneEntry.answered wire k.entries) with returnTimer := none }) s)

/-- Whether a returned content is the return its slot awaits in a state (R93, R99). -/
def Slot.awaits (k : Slot) (state : SlotState) (c : Content) : Bool :=
  k.state == state && k.generation == c.generation.toNat && c.names k.entries

/-- A returned own CLAIM: the CLAIM return of its slot, or ignored (R93, R110). -/
def claimReturned (c : Content) (s : State) : State :=
  match s.slot c.slot.toNat with
  | none => s
  | some k => if k.awaits .asking c then takeClaimReturn c.slot.toNat c.entries s else s

/-- A returned own COMMIT: the COMMIT return of its slot, or ignored (R99, R110). -/
def commitReturned (c : Content) (s : State) : State :=
  match s.slot c.slot.toNat with
  | none => s
  | some k => if k.awaits .committing c then takeCommitReturn c.slot.toNat c.entries s else s

/-! Issue -/

/-- The result of an issue request (R89). -/
inductive IssueResult where
  | accepted (slot generation : Nat)
  | refused (code : ResultCode)
  deriving DecidableEq, Repr

/-- Step 1 of the issue checks: the arguments' ranges (R89). -/
def descValid (d : ClaimDesc) : Bool :=
  decide (1 ≤ d.zones.length) && decide (d.zones.length ≤ 8) &&
    (d.zones.all fun z => decide (1 ≤ z) && decide (z ≤ 240)) && decide d.zones.Nodup && decide (d.level ≤ 7) &&
    decide (d.gain ≤ gainMaximum) && decide (d.duration ≤ durationMaximum) && decide (d.port ≤ 3)

/-- The class of a claim: local when all its zones are in the window (R10). -/
def State.classOf (s : State) (d : ClaimDesc) : ClaimClass := if d.zones.all s.owns then .ofWindow else .ofRing

/-- Step 2 of the issue checks: the ring state permits the class, or the code it answers (R89). -/
def stateRefusal : RingState → ClaimClass → Option ResultCode
  | .loading, _ => some .starting
  | .passive, _ => some .passive
  | .joining, .ofRing => some .starting
  | .broken, .ofRing => some .ringBroken
  | .joining, .ofWindow => none
  | .broken, .ofWindow => none
  | .up, _ => none

/-- The lowest-numbered FREE slot (R90). -/
def State.freeSlotNumber (s : State) : Option Nat := s.cu.findIdx? fun k => k.state == .free

/-- The claim record at issue (R90). -/
def issueInfo (issuer : Issuer) (cls : ClaimClass) (d : ClaimDesc) : ClaimInfo :=
  { issuer := issuer, cls := cls, port := d.port, level := d.level, mode := d.mode, wait := d.wait, gain := d.gain,
    duration := d.duration
    entries := d.zones.map fun z => { zone := z, owner := none, state := .pending, lastCode := none } }

/-- The slot taken by an issue: the generation advanced modulo 16, any outcome removed (R90). -/
def Slot.taken (i : ClaimInfo) (k : Slot) : Slot :=
  { generation := (k.generation + 1) % 16, state := .asking, outcome := none, info := some i, durationLeft := none,
    returnTimer := none }

/-- An accepted issue in a slot (R90, R92): the own Zone Arbiter answers, then a ring claim's CLAIM is stored and a local
claim's decision is taken. -/
def runIssue (n : Nat) (k : Slot) (i : ClaimInfo) (s : State) : State :=
  let generation := (k.generation + 1) % 16
  let s := updateSlot n (Slot.taken i) s
  let answered := claimAtOwner s.address (claimContentOf n generation i) s
  match i.cls with
  | .ofRing => storeControl 0 (.claim answered.1) answered.2
  | .ofWindow => takeClaimReturn n answered.1.entries answered.2

/-- An issue request (R89, R90): the four checks in order, then the issue. -/
def issue (issuer : Issuer) (d : ClaimDesc) (s : State) : IssueResult × State :=
  if !descValid d then (.refused .badArgs, s)
  else
    match stateRefusal s.ringState (s.classOf d) with
    | some code => (.refused code, s)
    | none =>
      match s.freeSlotNumber with
      | none => (.refused .noSlot, s)
      | some n =>
        match s.slot n with
        | none => (.refused .noSlot, s)
        | some k =>
          if s.classOf d = .ofRing ∧ controlCapacity ≤ s.rp.control.length then (.refused .queueFull, s)
          else (.accepted n ((k.generation + 1) % 16), runIssue n k (issueInfo issuer (s.classOf d) d) s)

/-! Ending, timeouts, loss -/

/-- Whether an END request finds its claim: the slot is not FREE and carries the generation (R106). -/
def State.claimExists (s : State) (n generation : Nat) : Bool :=
  (s.slot n).any fun k => k.state != .free && k.generation == generation

/-- An END request (R106): OK and the claim withdrawn, or BAD_ARGS. -/
def endRequest (n generation : Nat) (s : State) : ResultCode × State :=
  if s.claimExists n generation then (.ok, withdrawAndFinish n .withdrawn s) else (.badArgs, s)

/-- A LIVE slot's duration timer expires (R107): nothing where no such timer runs. -/
def durationExpiry (n : Nat) (s : State) : State :=
  match s.slot n with
  | none => s
  | some k => if k.state = .live ∧ k.durationLeft.isSome then withdrawAndFinish n .autoEnd s else s

/-- A slot's return timer expires in ASKING or COMMITTING (R109): nothing where no such timer runs. -/
def returnExpiry (n : Nat) (s : State) : State :=
  match s.slot n with
  | none => s
  | some k =>
    if (k.state = .asking ∨ k.state = .committing) ∧ k.returnTimer.isSome then withdrawAndFinish n .noReturn s else s

/-- The return timeout in force (R91). -/
def State.returnTimeout (s : State) : Nat :=
  match s.config with
  | some c => c.station.returnTimeout
  | none => 0

/-- Whether a completion report starts a slot's return timer: the slot is in the state and at the generation the report
names (R91, R98), and for a CLAIM the timer has not started (R91). -/
def Slot.startsTimer (state : SlotState) (generation : Nat) (k : Slot) : Bool :=
  k.state == state && k.generation == generation && (state != .asking || k.returnTimer.isNone)

/-- A completion report of a CLAIM (`state` ASKING) or a COMMIT (`state` COMMITTING) starts the return timer of its slot with
the full return timeout (R91, R98). -/
def claimSent (state : SlotState) (slot generation : Byte) (s : State) : State :=
  updateSlot slot.toNat (fun k =>
    if k.startsTimer state generation.toNat then { k with returnTimer := some s.returnTimeout } else k) s

/-- Whether cleanup for a peer marks an entry LOST: it is not terminal and the peer owns it (R111). -/
def ZoneEntry.isLostWith (peer : Nat) (e : ZoneEntry) : Bool := !e.state.isTerminal && e.owner == some peer

/-- Cleanup for a peer in one slot (R111): entries LOST, a CLAIM_ZONE for each, the all-terminal test in LIVE. -/
def cleanupSlot (peer n : Nat) (s : State) : State :=
  match s.slot n with
  | none => s
  | some k =>
    if (k.state = .committing ∨ k.state = .live) ∧ k.entries.any (ZoneEntry.isLostWith peer) then
      allTerminalTest n
        (forEach (k.entries.filter (ZoneEntry.isLostWith peer))
          (fun e => post (.claimZone n k.generation k.issuer e.zone .lost none))
          (updateSlot n (fun k => k.withEntries (k.entries.map fun e =>
            if e.isLostWith peer then { e with state := .lost } else e)) s))
    else s

/-- A cleanup request for a peer at the origin (R111): every slot, in slot order, each whole before the next (log 19). -/
def cleanupAtOrigin (peer : Nat) (s : State) : State := forEach (List.range 8) (cleanupSlot peer) s

end Sys2Proof.Machine
end

