-- ==== Sys2Proof/Machine/Presence.lean ====
section
/-! DEFINITION. The Presence Unit (chapter 3): sending PRESENCE, proving the ring, the peer table, starting cleanup. -/

namespace Sys2Proof.Machine

/-- The presence period in force (R37). -/
def State.presencePeriod (s : State) : Nat :=
  match s.config with
  | some c => c.station.presencePeriod
  | none => 0

/-- The time a peer may be silent: three of the own periods (R47). -/
def State.peerAge (s : State) : Nat := 3 * s.presencePeriod

/-! Sending -/

/-- The ring state after a missed return (R41). -/
def RingState.afterMiss : RingState → RingState
  | .loading => .loading
  | .passive => .passive
  | .joining => .joining
  | .up => .broken
  | .broken => .broken

/-- A missed return (R41): the record is emptied, UP becomes BROKEN with RING_BROKEN posted. -/
def missReturn (s : State) : State :=
  let s' := { s with pu := { s.pu with outstanding := none, ringState := s.pu.ringState.afterMiss } }
  if s.pu.ringState = .up then post .ringBroken s' else s'

/-- A PRESENCE still outstanding at the next sending is given up (R38). -/
def giveUpPresence (s : State) : State := if s.pu.outstanding.isSome then missReturn s else s

/-- The sequence number after one (R38). -/
def nextSequence (n : Nat) : Nat := (n + 1) % 256

/-- A recent-sequence list with one more, the last 16 kept (R38). -/
def recordRecent (recent : List Nat) (n : Nat) : List Nat :=
  (recent ++ [n]).drop ((recent ++ [n]).length - recentCapacity)

/-- The PRESENCE the station sends next (R38). -/
def State.presenceMessage (s : State) : Message :=
  .presence (byteOf (nextSequence s.pu.sequence)) (flagCode (s.pu.ringState == .joining)) (byteOf s.windowFirst)
    (byteOf s.windowLast)

/-- Store the next PRESENCE, or skip it when the control queue has no room (R38). -/
def storePresence (s : State) : State :=
  if s.rp.controlRoom then
    let n := nextSequence s.pu.sequence
    { storeControl 0 s.presenceMessage s with
      pu := { s.pu with
        sequence := n
        recent := recordRecent s.pu.recent n
        outstanding := some { sequence := n, phase := .queued } } }
  else s

/-- Sending a PRESENCE (R38). -/
def sendPresence (s : State) : State := storePresence (giveUpPresence s)

/-- The period timer starts with the configured period (R37). -/
def startPeriod (s : State) : State := { s with pu := { s.pu with period := some s.presencePeriod } }

/-- Entry to JOINING (R37). -/
def enterJoining (s : State) : State :=
  startPeriod (sendPresence { s with pu := { s.pu with ringState := .joining } })

/-- The period timer expires (R37, R38): nothing where it does not run. -/
def periodExpiry (s : State) : State := if s.pu.period.isSome then startPeriod (sendPresence s) else s

/-- The completion of a PRESENCE is reported (R39). -/
def presenceSent (sequence : Nat) (s : State) : State :=
  if s.pu.outstanding = some { sequence := sequence, phase := .queued } then
    { s with pu := { s.pu with
        outstanding := some { sequence := sequence, phase := .timing s.returnTimeout } } }
  else s

/-- Whether a return timer runs. -/
def PresencePhase.isTiming : PresencePhase → Bool
  | .queued => false
  | .timing _ => true

/-- The return timer of a PRESENCE expires (R41): nothing where it does not run. -/
def presenceReturnExpiry (s : State) : State :=
  if s.pu.outstanding.any (·.phase.isTiming) then missReturn s else s

/-! Own returns -/

/-- Whether a returned PRESENCE proves the ring (R40). -/
def State.proves (s : State) (sequence first last : Nat) : Bool :=
  (s.pu.outstanding.any fun o => o.phase.isTiming && o.sequence == sequence) &&
    first == s.windowFirst && last == s.windowLast

/-- Whether a return that proves nothing bears the marks of another station (R42). -/
def State.showsClash (s : State) (sequence first last : Nat) : Bool :=
  !(first == s.windowFirst && last == s.windowLast) ||
    s.pu.outstanding == some { sequence := sequence, phase := .queued } || !s.pu.recent.contains sequence

/-- The ring is proved (R40): UP, with RING_UP posted on the change. -/
def proveRing (s : State) : State :=
  let s' := { s with pu := { s.pu with outstanding := none, ringState := .up } }
  if s.pu.ringState = .up then s' else post .ringUp s'

/-- An address clash (R42): reported once. -/
def reportClash (s : State) : State :=
  if s.pu.clashReported then s
  else post (.addressClash s.address) { s with pu := { s.pu with clashReported := true } }

/-- A returned own PRESENCE (R40, R42). -/
def presenceReturned (sequence first last : Nat) (s : State) : State :=
  if s.proves sequence first last then proveRing s
  else if s.showsClash sequence first last then reportClash s
  else s

/-! The peer table -/

/-- A peer's entry. -/
def State.peer (s : State) (a : Nat) : Option Peer := s.pu.peers.find? fun p => p.address == a

/-- A peer in its place in address order (R43). -/
def insertPeer (p : Peer) : List Peer → List Peer
  | [] => [p]
  | q :: rest => if p.address < q.address then p :: q :: rest else q :: insertPeer p rest

/-- The lowest zone two windows share (R46). -/
def lowestShared (first last first' last' : Nat) : Option Nat :=
  (List.range' 1 240).find? fun z => inBounds first last z && inBounds first' last' z

/-- The overlap test of a peer's window (R46). -/
def testOverlap (peer first last : Nat) (s : State) : State :=
  match lowestShared s.windowFirst s.windowLast first last with
  | some z => post (.ownershipClash z peer) s
  | none => s

/-- Cleanup for a peer handed to the Zone Arbiter and the Claim Unit (R48). -/
def startCleanup (peer : Nat) (cause : CleanupCause) (s : State) : State :=
  { s with cleanups := s.cleanups ++ [{ side := .owner, peer := peer, cause := cause },
                                      { side := .origin, peer := peer, cause := cause }] }

/-- A PRESENCE of an unknown peer (R44). -/
def addPeer (a : Nat) (joining : Bool) (first last : Nat) (s : State) : State :=
  let entry : Peer := { address := a, first := first, last := last, joining := joining, age := s.peerAge }
  testOverlap a first last
    (post (.peerJoined a) { s with pu := { s.pu with peers := insertPeer entry s.pu.peers } })

/-- A peer's entry after a PRESENCE (R45). -/
def Peer.heard (age : Nat) (joining : Bool) (first last : Nat) (p : Peer) : Peer :=
  { p with first := first, last := last, joining := joining, age := age }

/-- A PRESENCE of a known peer (R45). -/
def hearPeer (p : Peer) (joining : Bool) (first last : Nat) (s : State) : State :=
  let s' := { s with pu := { s.pu with
    peers := s.pu.peers.map fun q =>
      if q.address = p.address then Peer.heard s.peerAge joining first last q else q } }
  let s' := if p.first = first ∧ p.last = last then s' else testOverlap p.address first last s'
  if joining && !p.joining then startCleanup p.address .restarted (post (.peerRestarted p.address) s') else s'

/-- A PRESENCE dispatched from a peer (R44, R45). -/
def presenceFromPeer (a : Nat) (joining : Bool) (first last : Nat) (s : State) : State :=
  match s.peer a with
  | none => addPeer a joining first last s
  | some p => hearPeer p joining first last s

/-- A peer's age timer expires (R47): nothing where the table does not hold the peer. -/
def ageExpiry (a : Nat) (s : State) : State :=
  if (s.peer a).isSome then
    startCleanup a .lost (post (.peerLeft a)
      { s with pu := { s.pu with peers := s.pu.peers.filter fun p => p.address != a } })
  else s

end Sys2Proof.Machine
end

