-- ==== Sys2Proof/Machine/RingPort.lean ====
section
/-! DEFINITION. The Ring Port's events (chapter 2): arrivals, dispatch and amendment, forwarding, completions. -/

namespace Sys2Proof.Machine

/-! Arrivals -/

/-- A frame that is not good is counted (R29). -/
def countCheckError (s : State) : State := { s with rp := { s.rp with checkErrors := countUp s.rp.checkErrors } }

/-- A frame dropped at a full forward queue is counted (R30). -/
def countOverrun (s : State) : State := { s with rp := { s.rp with overruns := countUp s.rp.overruns } }

/-- A frame passed on (R20): hop count plus one, a new check, a place in the forward queue. -/
def passOn (f : Frame) (s : State) : State := { s with rp := s.rp.placeForward f.forwarded }

/-- An own frame that has returned is handed to its unit or dropped (R17). -/
def returnOwn (f : Frame) (s : State) : State :=
  match f.message with
  | some (.presence sequence _ first last) => presenceReturned sequence.toNat first.toNat last.toNat s
  | some (.claim c) => claimReturned c s
  | some (.commit c) => commitReturned c s
  | some (.withdraw _ _) => s
  | some (.notice _ _ _ _ _) => s
  | some (.audio _ _ _) => s
  | none => s

/-- The tag a peer frame carries: its origin field and the slot and generation of its body (R8). -/
def Frame.tag (f : Frame) (slot generation : Byte) : Tag :=
  { origin := f.origin.toNat, slot := slot.toNat, generation := generation.toNat }

/-- A NOTICE for this station reaches the Claim Unit (R19); an event or reason outside the codes is ignored (R190). -/
def noticeArrived (sender : Nat) (slot generation zone event reason : Byte) (s : State) : State :=
  match noticeEventOfBytes event reason with
  | some e => applyNotice sender slot.toNat generation.toNat zone.toNat e s
  | none => s

/-- Dispatch by kind (R19): the frame as its unit leaves it, and the state after. -/
def dispatch (f : Frame) (m : Message) (s : State) : Frame × State :=
  match m with
  | .presence _ flags first last =>
    (f, presenceFromPeer f.origin.toNat (flags.getLsbD 0) first.toNat last.toNat s)
  | .claim c =>
    let answered := claimAtOwner f.origin.toNat c s
    ({ f with body := answered.1.claimBody }, answered.2)
  | .commit c =>
    let answered := commitAtOwner f.origin.toNat c s
    ({ f with body := answered.1.commitBody }, answered.2)
  | .withdraw slot generation => (f, withdrawAtOwner (f.tag slot generation) s)
  | .notice slot generation zone event reason =>
    (f, if f.destination.toNat = s.address then noticeArrived f.origin.toNat slot generation zone event reason s else s)
  | .audio slot generation samples => (f, arriveSamples (f.tag slot generation) samples s)

/-- The message a peer frame is dispatched for: none when its origin is out of range, its kind unknown or its body not
well formed (R16). -/
def Frame.dispatched (f : Frame) : Option Message :=
  if 1 ≤ f.origin.toNat ∧ f.origin.toNat ≤ 32 then f.message else none

/-- A peer frame that found room (R16, R19, R20). -/
def takePeerFrame (f : Frame) (s : State) : State :=
  match f.dispatched with
  | none => passOn f s
  | some m =>
    let taken := dispatch f m s
    passOn taken.1 taken.2

/-- A good frame that is not stripped (R18, R21, R31): `take` is what the mode does with one that finds room. -/
def carry (take : Frame → State → State) (f : Frame) (s : State) : State :=
  if f.hopCount = hopLimit then s
  else if forwardCapacity ≤ s.rp.forward.length then countOverrun s
  else take f s

/-- A good frame at a full member (R17 to R21) or a repeater (R31). -/
def takeGoodFrame (f : Frame) (s : State) : State :=
  if s.isMember then
    if f.origin.toNat = s.address then returnOwn f s else carry takePeerFrame f s
  else carry passOn f s

/-- A frame's arrival (R15): lost without a count while RSTN is low (R33). -/
def arriveFrame (bytes : List Byte) (cutShort : Bool) (s : State) : State :=
  if s.rstnLow then s
  else
    match goodFrame bytes cutShort with
    | none => countCheckError s
    | some f => takeGoodFrame f s

/-! Completions -/

/-- The completion of a control-queue frame reported to its unit (R28). -/
def reportSent (f : Frame) (s : State) : State :=
  match f.message with
  | some (.presence sequence _ _ _) => presenceSent sequence.toNat s
  | some (.claim c) => claimSent .asking c.slot c.generation s
  | some (.commit c) => claimSent .committing c.slot c.generation s
  | some (.withdraw _ _) => s
  | some (.notice _ _ _ _ _) => s
  | some (.audio _ _ _) => s
  | none => s

/-- Ring Out becomes free and takes the next frame (R26). -/
def freeLine (s : State) : State := { s with rp := ({ s.rp with out := none } : RingPort).arbitrate }

/-- A transmission completes (R28): nothing where no frame is on Ring Out. -/
def completeTransmission (s : State) : State :=
  match s.rp.out with
  | none => s
  | some o => freeLine (if o.reported then reportSent o.frame s else s)

end Sys2Proof.Machine
end

