-- ==== Sys2Proof/Machine/Stream.lean ====
section
/-! DEFINITION. The Stream Sender (chapter 7): assembling blocks and sending them for the LIVE claims on each port. -/

namespace Sys2Proof.Machine

/-- The block length in force (R134). -/
def State.blockLength (s : State) : Nat :=
  match s.config with
  | some c => c.station.blockLength
  | none => 0

/-- Whether a slot's claim is on a source port: LIVE and naming it (R135). -/
def Slot.onPort (p : Nat) (k : Slot) : Bool := k.state == .live && k.info.any fun i => i.port == p

/-- Whether a slot has an own zone entry in ACTIVE, SUSPENDED or WAITING (R138). -/
def State.hasOwnPlace (s : State) (k : Slot) : Bool := k.entries.any fun e => s.owns e.zone && e.state.hasPlace

/-- One block sent for one claim (R136, R138): the AUDIO request of a ring claim, then the delivery. -/
def sendBlockFor (n : Nat) (k : Slot) (block : List Sample) (s : State) : State :=
  let sent :=
    if k.info.any fun i => i.cls == .ofRing then storeAudio (.audio (byteOf n) (byteOf k.generation) block) s else s
  if s.hasOwnPlace k then arriveSamples (s.tagOf n k) block sent else sent

/-- One block of a port sent for the claim in a slot, if the claim is on the port (R135). -/
def sendBlockToSlot (p : Nat) (block : List Sample) (n : Nat) (s : State) : State :=
  match s.slot n with
  | none => s
  | some k => if k.onPort p then sendBlockFor n k block s else s

/-- A port's block sent for its claims, in slot order (R139). -/
def sendPort (p : Nat) (s : State) : State :=
  forEach (List.range 8) (sendBlockToSlot p (s.ss.getD p [])) s

/-- Every port's block sent, in port order, and the buffers emptied (R139). -/
def completeBlocks (s : State) : State :=
  { forEach [0, 1, 2, 3] sendPort s with ss := [[], [], [], []] }

/-- The four ports read into their buffers (R133). -/
def readPorts (samples : List Sample) (s : State) : State :=
  { s with ss := List.zipWith (fun buffer sample => buffer ++ [sample]) s.ss samples }

/-- Whether the buffers hold a block (R134). -/
def State.blocksComplete (s : State) : Bool := s.ss.any fun buffer => decide (s.blockLength ≤ buffer.length)

/-- A strobe at the Stream Sender (R133, R134); ignored in LOADING and PASSIVE (R140). -/
def sendStrobe (samples : List Sample) (s : State) : State :=
  if s.isMember then
    let s := readPorts samples s
    if s.blocksComplete then completeBlocks s else s
  else s

end Sys2Proof.Machine
end

