-- ==== Sys2Proof/Machine/Mix.lean ====
section
/-! DEFINITION. The Mix Engine (chapter 8): zone outputs, meters, auto-trim, and what SET TRIM and METER do. -/

namespace Sys2Proof.Machine

/-- The meter window in force (R142). -/
def State.meterWindow (s : State) : Nat :=
  match s.config with
  | some c => c.station.meterWindow
  | none => 0

/-- The clip threshold in force (R142). -/
def State.clipThreshold (s : State) : Nat :=
  match s.config with
  | some c => c.station.clipThreshold
  | none => 0

/-! A zone's output -/

/-- What a member adds to its zone's sum: its sample times its gain (R143, R144). -/
def State.product (s : State) (t : Tag) : Int :=
  match s.listenEntry t with
  | some e => e.yielded.toInt * (e.gain : Int)
  | none => 0

/-- The exact sum over a zone's active members (R144). -/
def State.zoneSum (s : State) (z : Nat) : Int :=
  match s.zone z with
  | some r => (r.active.map fun m => s.product m.tag).sum
  | none => 0

/-- A sum divided by 2 to the power 14 + trim, rounded toward minus infinity (R145). -/
def shifted (trim : Nat) (sum : Int) : Int := sum / (2 ^ (14 + trim) : Nat)

/-- A value limited to the range of a zone port (R146). -/
def saturated (v : Int) : Int := max (-32768) (min 32767 v)

/-- Whether a value is a clip: saturation changes it (R146). -/
def isClip (v : Int) : Bool := saturated v != v

/-- A zone's shifted value at a strobe. -/
def State.zoneValue (s : State) (m : MixZone) : Int := shifted m.trim (s.zoneSum m.zone)

/-! The meter -/

/-- A clip as a count. -/
def clipCount (clip : Bool) : Nat := if clip then 1 else 0

/-- The meter after one output (R146, R148). -/
def MixZone.counted (value : Int) (m : MixZone) : MixZone :=
  { m with
    count := m.count + 1
    sum := m.sum + (saturated value).natAbs
    peak := max m.peak (saturated value).natAbs
    clips := m.clips + clipCount (isClip value)
    totalClips := if isClip value then countUp m.totalClips else m.totalClips }

/-- Whether auto-trim raises the trim at a window end (R150). -/
def MixZone.autoTrims (threshold : Nat) (m : MixZone) : Bool :=
  decide (threshold ≠ 0) && decide (threshold ≤ m.clips) && decide (m.trim < 7)

/-- The fields at the end of a window of `w` outputs (R149, R150). -/
def MixZone.windowEnd (w threshold : Nat) (m : MixZone) : MixZone :=
  { m with
    last := some { mean := m.sum / w, peak := m.peak, clips := m.clips }
    trim := if m.autoTrims threshold then m.trim + 1 else m.trim
    count := 0
    sum := 0
    peak := 0
    clips := 0 }

/-- The fields after a strobe with this shifted value (R148 to R150). -/
def MixZone.afterStrobe (w threshold : Nat) (value : Int) (m : MixZone) : MixZone :=
  let m := m.counted value
  if w ≤ m.count then m.windowEnd w threshold else m

/-! The strobe -/

/-- The samples the eight zone ports carry: an output for each own zone in order, 0 beyond the window (R147). -/
def State.zoneOutputs (s : State) : List Sample :=
  (s.me.zones.map (fun m => BitVec.ofInt 16 (saturated (s.zoneValue m))) ++ List.replicate 8 0).take 8

/-- The Mix Engine's fields after a strobe. -/
def State.meteredZones (s : State) : List MixZone :=
  s.me.zones.map fun m => m.afterStrobe s.meterWindow s.clipThreshold (s.zoneValue m)

/-- The ZONE_TRIMMED notices of a strobe, lowest zone first (R150). -/
def State.trimNotices (s : State) : List HostNotice :=
  s.me.zones.filterMap fun m =>
    let after := m.afterStrobe s.meterWindow s.clipThreshold (s.zoneValue m)
    if after.trim = m.trim then none else some (.zoneTrimmed m.zone after.trim)

/-- A strobe at the Mix Engine: the yields taken, every output driven, every meter advanced (R143 to R150). In LOADING
and PASSIVE nothing is computed and every port carries 0 (R153). -/
def mixStrobe (s : State) : State :=
  if s.isMember then
    forEach s.trimNotices post
      { s with
        lu := s.lu.map ListenEntry.afterYield
        me := { zones := s.meteredZones, ports := s.zoneOutputs } }
  else { s with me := { s.me with ports := List.replicate 8 0 } }

/-! Host commands -/

/-- The Mix Engine's fields of an own zone. -/
def State.mixZone (s : State) (z : Nat) : Option MixZone := s.me.zones.find? fun m => m.zone == z

/-- Change the Mix Engine's fields of one zone. -/
def updateMixZone (z : Nat) (f : MixZone → MixZone) (s : State) : State :=
  { s with me := { s.me with zones := s.me.zones.map fun m => if m.zone = z then f m else m } }

/-- SET TRIM in an own zone (R151). -/
def setTrimAt (z trim : Nat) : State → State := updateMixZone z fun m => { m with trim := trim }

/-- METER's clearing of the total clips (R152). -/
def clearTotalClips (z : Nat) : State → State := updateMixZone z fun m => { m with totalClips := 0 }

/-- The Mix Engine's fields of a zone when they are created, and after a soft reset (R142, R154). -/
def MixZone.fresh (zone trim : Nat) : MixZone :=
  { zone := zone, trim := trim, count := 0, sum := 0, peak := 0, clips := 0, last := none, totalClips := 0 }

end Sys2Proof.Machine
end

