-- ==== Sys2Proof/Machine/Keys.lean ====
section
/-! DEFINITION. The Key Unit (chapter 9): debounce, presses and releases, the remembered claim. -/

namespace Sys2Proof.Machine

/-- The debounced state a contact level reads as: a closed contact is PRESSED (R157). -/
def keyStateOf (closed : Bool) : KeyState := if closed then .pressed else .released

/-- The level of a key's contact, closed or open. -/
def State.keyClosed (s : State) (n : Nat) : Bool := s.keyInputs.getD n false

/-- Change one key's state. -/
def updateKey (n : Nat) (f : Key → Key) (s : State) : State := { s with ku := s.ku.modify n f }

/-- The keys sampled anew: each debounced state takes the level found, no timer runs, nothing is remembered (R162). -/
def State.sampledKeys (s : State) : List Key :=
  (List.range 4).map fun n =>
    { debounced := some (keyStateOf (s.keyClosed n)), timer := none, remembered := none }

/-- A key after its contact's level has changed (R157): the timer starts when the level has come to differ from the
debounced state and stops when it has returned to it. -/
def Key.levelChanged (closed : Bool) (k : Key) : Key :=
  match k.debounced with
  | none => k
  | some d => { k with timer := if d = keyStateOf closed then none else some debounceTime }

/-- A contact's level changes (R157); in LOADING and PASSIVE the level alone changes (R162). -/
def keyInput (n : Nat) (closed : Bool) (s : State) : State :=
  if s.keyClosed n = closed then s
  else updateKey n (Key.levelChanged closed) { s with keyInputs := s.keyInputs.set n closed }

/-- A defined preset (R155). -/
def State.preset (s : State) (number : Nat) : Option Preset :=
  match s.config with
  | some c => c.presets.find? fun p => p.number == number
  | none => none

/-- A key's binding and its preset's description; none for an unbound key (R156). -/
def State.bound (s : State) (n : Nat) : Option (KeyBinding × ClaimDesc) :=
  match s.config with
  | none => none
  | some c =>
    match c.keys.getD n none with
    | none => none
    | some b => (s.preset b.preset).map fun p => (b, p.desc)

/-- A press that issues the preset (R158): the accepted claim is remembered while it exists (R160), a refused one is
posted as KEY_REFUSED (R161). -/
def keyIssue (n : Nat) (b : KeyBinding) (d : ClaimDesc) (s : State) : State :=
  let issued := issue (.key n) d s
  match issued.1 with
  | .accepted slot generation =>
    if issued.2.claimExists slot generation then
      updateKey n (fun k => { k with remembered := some (slot, generation) }) issued.2
    else issued.2
  | .refused code => post (.keyRefused n b.preset code) issued.2

/-- The remembered claim of a key that still exists (R160). -/
def State.liveMemory (s : State) (n : Nat) : Option (Nat × Nat) :=
  (s.ku[n]?.bind (·.remembered)).filter fun m => s.claimExists m.1 m.2

/-- A key ends its remembered claim and forgets it (R158, R159). -/
def keyEnd (n : Nat) (m : Nat × Nat) (s : State) : State :=
  updateKey n (fun k => { k with remembered := none }) (endRequest m.1 m.2 s).2

/-- A press (R158, R159): ignored on an unbound key (R156). -/
def keyPress (n : Nat) (s : State) : State :=
  match s.bound n with
  | none => s
  | some (b, d) =>
    match b.action with
    | .momentary => keyIssue n b d s
    | .latch =>
      match s.liveMemory n with
      | some m => keyEnd n m s
      | none => keyIssue n b d s

/-- A release (R158, R159): ignored on an unbound key (R156). -/
def keyRelease (n : Nat) (s : State) : State :=
  match s.bound n with
  | none => s
  | some (b, _) =>
    match b.action with
    | .momentary =>
      match s.liveMemory n with
      | some m => keyEnd n m s
      | none => s
    | .latch => s

/-- The press or release of a key whose debounced state changes to a level (R157). -/
def keyChanged (n : Nat) (closed : Bool) : State → State := if closed then keyPress n else keyRelease n

/-- A debounce timer expires (R157): the debounced state takes the level, and its change is acted on. Nothing where the
timer does not run. -/
def debounceExpiry (n : Nat) (s : State) : State :=
  match s.ku[n]? with
  | none => s
  | some k =>
    if k.timer.isSome then
      let level := keyStateOf (s.keyClosed n)
      let s' := updateKey n (fun k => { k with debounced := some level, timer := none }) s
      if k.debounced = some level then s' else keyChanged n (s.keyClosed n) s'
    else s

end Sys2Proof.Machine
end

