-- ==== Sys2Proof/Machine/Operands.lean ====
section
/-! DEFINITION. The operands that arrive as bytes: the claim description of CLAIM and of a preset entry (R155, R167,
R192, R193), and the one-byte codes and ranges of the other commands. -/

namespace Sys2Proof.Machine

/-- A mode code (R192, R193). -/
def modeOfCode (b : Byte) : Option Mode :=
  match b.toNat with
  | 0 => some .any
  | 1 => some .all
  | _ => none

/-- A flag or mask code (R189, R193). -/
def flagOfCode (b : Byte) : Option Bool :=
  match b.toNat with
  | 0 => some false
  | 1 => some true
  | _ => none

/-- A claim description as its bytes give it (R167): none for a zone count outside 1 to 8 or an undefined code. Only the
first zone-count places are read; the ranges are tested by the issue checks. -/
def claimDescOf (count : Byte) (places : List Byte) (level mode wait : Byte) (gain duration : Word16) (port : Byte) :
    Option ClaimDesc :=
  match modeOfCode mode, flagOfCode wait with
  | some m, some w =>
    if 1 ≤ count.toNat ∧ count.toNat ≤ 8 then
      some { zones := (places.take count.toNat).map BitVec.toNat, level := level.toNat, mode := m, wait := w,
             gain := gain.toNat, duration := duration.toNat, port := port.toNat }
    else none
  | _, _ => none

/-- Four mask codes (R176): none when one of them is not defined. -/
def masksOf (m0 m1 m2 m3 : Byte) : Option (List Bool) :=
  match flagOfCode m0, flagOfCode m1, flagOfCode m2, flagOfCode m3 with
  | some a, some b, some c, some d => some [a, b, c, d]
  | _, _, _, _ => none

/-- A floor SET FLOOR accepts (R169). -/
def isFloor (f : Nat) : Bool := decide (1 ≤ f) && decide (f ≤ 7)

/-- A trim SET TRIM accepts (R169). -/
def isTrim (t : Nat) : Bool := decide (t ≤ 7)

end Sys2Proof.Machine
end

