-- ==== Sys2Proof/Machine/Loader.lean ====
section
/-! DEFINITION. The checks of the configuration image (R179 to R185, R192). The bytes are those the memory acknowledges,
from address 0; a byte asked for beyond them is not acknowledged. -/

namespace Sys2Proof.Machine

/-! Reading -/

/-- The byte at an offset. -/
def byteAt (bytes : List Byte) (i : Nat) : Nat := (bytes.getD i 0).toNat

/-- The two bytes at an offset as one field (R189). -/
def wordAt (bytes : List Byte) (i : Nat) : Nat := (joinBytes (bytes.getD i 0) (bytes.getD (i + 1) 0)).toNat

/-- The sum of an image: every byte but the two of the sum field, modulo 65536 (R180). -/
def imageSum (image : List Byte) : Nat :=
  ((image.take 6 ++ image.drop 8).foldl (fun n b => n + b.toNat) 0) % 65536

/-- The image read and summed (R179, R180). -/
def readImage (memory : List Byte) : Except FaultCode (List Byte) :=
  if memory.length < 8 then .error .noMemory
  else if byteAt memory 0 ≠ 0xD7 ∨ byteAt memory 1 ≠ 0x4C then .error .badImage
  else if wordAt memory 2 < 8 ∨ 2048 < wordAt memory 2 then .error .badImage
  else if memory.length < wordAt memory 2 then .error .noMemory
  else
    let image := memory.take (wordAt memory 2)
    if imageSum image ≠ wordAt image 6 then .error .badSum else .ok image

/-! The chain -/

/-- A visited block: its first byte and the byte after its last. -/
structure Extent where
  first : Nat
  next : Nat
  deriving DecidableEq, Repr

/-- Whether two blocks share a byte. -/
def Extent.overlaps (a b : Extent) : Bool := decide (a.first < b.next) && decide (b.first < a.next)

/-- The recorded block bodies (R181). -/
structure Blocks where
  station : Option (List Byte)
  zones : Option (List Byte)
  presets : Option (List Byte)
  keys : Option (List Byte)
  deriving DecidableEq, Repr

/-- A block recorded, or skipped when its type is none of the four; none for a second block of a known type (R181). -/
def Blocks.record (type : Nat) (body : List Byte) (b : Blocks) : Option Blocks :=
  match type with
  | 1 => if b.station.isSome then none else some { b with station := some body }
  | 2 => if b.zones.isSome then none else some { b with zones := some body }
  | 3 => if b.presets.isSome then none else some { b with presets := some body }
  | 4 => if b.keys.isSome then none else some { b with keys := some body }
  | _ => some b

/-- The walk from a block's offset (R181): `left` is how many more blocks may be visited, sixteen in all. -/
def walkFrom (image : List Byte) : Nat → Nat → List Extent → Blocks → Except FaultCode Blocks
  | 0, _, _, _ => .error .badChain
  | left + 1, offset, visited, blocks =>
    let bodyLength := wordAt image (offset + 1)
    let extent : Extent := { first := offset, next := offset + 5 + bodyLength }
    if offset < 8 ∨ image.length < offset + 5 ∨ image.length < extent.next ∨ visited.any extent.overlaps then
      .error .badChain
    else
      match blocks.record (byteAt image offset) ((image.drop (offset + 5)).take bodyLength) with
      | none => .error .badChain
      | some blocks' =>
        let next := wordAt image (offset + 3)
        if next = 0 then .ok blocks' else walkFrom image left next (extent :: visited) blocks'

/-- The walk of an image's chain (R181). -/
def walkChain (image : List Byte) : Except FaultCode Blocks :=
  let none' : Blocks := { station := none, zones := none, presets := none, keys := none }
  if wordAt image 4 = 0 then .ok none' else walkFrom image 16 (wordAt image 4) [] none'

/-! The contents -/

/-- A field with a range and a default for 0 (R182). -/
def rangedField (low high default value : Nat) : Option Nat :=
  if low ≤ value ∧ value ≤ high then some value else if value = 0 then some default else none

/-- A ranged field that is a multiple of 10 (R182). -/
def tensField (low high default value : Nat) : Option Nat :=
  if value % 10 = 0 then rangedField low high default value else none

/-- A field with a range and no default. -/
def plainField (low high value : Nat) : Option Nat := if low ≤ value ∧ value ≤ high then some value else none

/-- The STATION block's values (R182, R192). -/
def stationOf (body : List Byte) : Option StationConfig := do
  if body.length ≠ 14 then none
  else
    let address ← plainField 1 32 (byteAt body 0)
    let presencePeriod ← tensField 100 2000 500 (wordAt body 1)
    let returnTimeout ← rangedField 10 200 50 (byteAt body 3)
    let holdTime ← rangedField 5 100 20 (byteAt body 4)
    let lapseTime ← tensField 50 2000 250 (wordAt body 5)
    let startFill ← rangedField 4 48 16 (byteAt body 7)
    let blockLength ← rangedField 1 16 8 (byteAt body 8)
    let meterWindow ← rangedField 256 65535 4800 (wordAt body 9)
    let lineCount ← plainField 0 4 (byteAt body 12)
    let vectorBase ← plainField 0 252 (byteAt body 13)
    some { address, presencePeriod, returnTimeout, holdTime, lapseTime, startFill, blockLength, meterWindow,
           clipThreshold := byteAt body 11, lineCount, vectorBase }

/-- A policy code (R192). -/
def policyOfCode (b : Nat) : Option Policy :=
  match b with
  | 0 => some .stack
  | 1 => some .mix
  | _ => none

/-- The zone entries of a ZONES body, three bytes each (R183). -/
def zoneEntriesOf : List Byte → Option (List ZoneConfig)
  | [] => some []
  | policy :: floor :: trim :: rest => do
    let policy ← policyOfCode policy.toNat
    let floor ← rangedField 1 7 7 floor.toNat
    let trim ← plainField 0 7 trim.toNat
    let more ← zoneEntriesOf rest
    some ({ policy, floor, trim } :: more)
  | _ => none

/-- A window's zone count: 0 when first is greater than last (R183). -/
def windowWidth (first last : Nat) : Nat := last + 1 - first

/-- The ZONES block's window and entries (R183). -/
def zonesOf (body : List Byte) : Option (Nat × Nat × List ZoneConfig) := do
  if body.length < 2 then none
  else
    let first ← plainField 1 240 (byteAt body 0)
    let last ← plainField 1 240 (byteAt body 1)
    if 8 < windowWidth first last ∨ body.length ≠ 2 + 3 * windowWidth first last then none
    else
      let zones ← zoneEntriesOf (body.drop 2)
      some (first, last, zones)

/-- The preset entries of a PRESETS body, eighteen bytes each (R184, R192). -/
def presetEntriesOf : List Byte → Option (List Preset)
  | [] => some []
  | number :: n :: p0 :: p1 :: p2 :: p3 :: p4 :: p5 :: p6 :: p7 :: level :: mode :: wait :: g1 :: g0 :: d1 :: d0 ::
      port :: rest => do
    let number ← plainField 0 7 number.toNat
    let desc ← claimDescOf n [p0, p1, p2, p3, p4, p5, p6, p7] level mode wait (joinBytes g1 g0) (joinBytes d1 d0) port
    let more ← presetEntriesOf rest
    if !descValid desc ∨ more.any fun q => q.number == number then none
    else some ({ number, desc } :: more)
  | _ => none

/-- The PRESETS block's presets (R184). -/
def presetsOf (body : List Byte) : Option (List Preset) :=
  match body with
  | [] => none
  | count :: rest =>
    if 8 < count.toNat ∨ rest.length ≠ 18 * count.toNat then none else presetEntriesOf rest

/-- A binding (R185): NONE is empty, its preset number unchecked. -/
def bindingOf (action number : Nat) : Option (Option KeyBinding) :=
  match action with
  | 0 => some none
  | 1 => if number ≤ 7 then some (some { action := .momentary, preset := number }) else none
  | 2 => if number ≤ 7 then some (some { action := .latch, preset := number }) else none
  | _ => none

/-- The KEYS block's bindings (R185). -/
def keysOf : List Byte → Option (List (Option KeyBinding))
  | [a0, n0, a1, n1, a2, n2, a3, n3] => do
    let k0 ← bindingOf a0.toNat n0.toNat
    let k1 ← bindingOf a1.toNat n1.toNat
    let k2 ← bindingOf a2.toNat n2.toNat
    let k3 ← bindingOf a3.toNat n3.toNat
    some [k0, k1, k2, k3]
  | _ => none

/-- The contents of the recorded blocks, a missing block taken as the rules say (R182 to R185). -/
def contentsOf (stationBody : List Byte) (b : Blocks) : Option Configuration := do
  let station ← stationOf stationBody
  let (first, last, zones) ← match b.zones with
    | some body => zonesOf body
    | none => some (1, 0, [])
  let presets ← match b.presets with
    | some body => presetsOf body
    | none => some []
  let keys ← match b.keys with
    | some body => keysOf body
    | none => some [none, none, none, none]
  some { station, first, last, zones, presets, keys }

/-- A whole load (R179 to R185): the configuration, or the code of the first check that fails. -/
def loadImage (memory : List Byte) : Except FaultCode Configuration :=
  match readImage memory with
  | .error code => .error code
  | .ok image =>
    match walkChain image with
    | .error code => .error code
    | .ok blocks =>
      match blocks.station with
      | none => .error .noStation
      | some body =>
        match contentsOf body blocks with
        | none => .error .badField
        | some c => .ok c

end Sys2Proof.Machine
end

