-- ==== Sys2Proof/Machine/Resets.lean ====
section
/-! DEFINITION. Resets and loads: power-on and RSTN reset (R33), the start and the end of a load (R178, R186, R187), the
soft reset (R171, R188). -/

namespace Sys2Proof.Machine

/-- Power-on, or RSTN driven low (R33): every block at its reset state, held there while RSTN is low. The contacts'
levels and the commands that wait are outside the blocks. -/
def hardReset (s : State) : State :=
  { State.reset with pending := s.pending, keyInputs := s.keyInputs, rstnLow := true }

/-- The Configuration Loader starts a load (R178): READING with no fault code. The station is then in LOADING, since its ring
state follows the load state (11.1); what the Presence Unit holds stands as it is (R51). -/
def startLoad (s : State) : State := { s with cl := { loadState := .reading, faultCode := none } }

/-- RSTN rises and a load begins (R178): nothing where RSTN is not low. -/
def beginLoad (s : State) : State := if s.rstnLow then startLoad { s with rstnLow := false } else s

/-! What is taken from a configuration -/

/-- The zone record of the i-th own zone, empty (R52, R3, R86). -/
def ZoneRecord.empty (zone port : Nat) (z : ZoneConfig) : ZoneRecord :=
  { zone := zone, port := port, policy := z.policy, floor := z.floor, active := [], activeLevel := none,
    reservation := none, superseded := none, stack := [], waiting := [] }

/-- The zone records of a configuration, all empty. -/
def zoneRecordsOf (c : Configuration) : List ZoneRecord :=
  c.zones.mapIdx fun i z => ZoneRecord.empty (c.first + i) i z

/-- The Mix Engine's fields of a configuration, all fresh (R142, R154). -/
def mixZonesOf (c : Configuration) : List MixZone :=
  c.zones.mapIdx fun i z => MixZone.fresh (c.first + i) z.trim

/-- The zone records and the Mix Engine's fields at their configured values. -/
def takeZones (c : Configuration) (s : State) : State :=
  { s with za := zoneRecordsOf c, me := { s.me with zones := mixZonesOf c } }

/-- The keys sampled (R162). -/
def sampleKeys (s : State) : State := { s with ku := s.sampledKeys }

/-! The end of a load -/

/-- A load succeeds (R186): every configured value taken at once, then JOINING entered (R37). -/
def loadSucceeded (c : Configuration) (s : State) : State :=
  enterJoining (sampleKeys (takeZones c { s with config := some c, cl := { loadState := .done, faultCode := none } }))

/-- A load fails (R187): FAILED with the code, PASSIVE, CONFIG_FAULT posted. -/
def loadFailed (code : FaultCode) (s : State) : State :=
  post (.configFault code)
    { s with
      cl := { loadState := .failed, faultCode := some code }
      pu := { s.pu with ringState := .passive } }

/-- The end of a load as the image decides it (R179 to R187): nothing where no load is in progress. -/
def endLoad (memory : List Byte) (s : State) : State :=
  if s.cl.loadState = .reading ∧ s.rstnLow = false then
    match loadImage memory with
    | .ok c => loadSucceeded c s
    | .error code => loadFailed code s
  else s

/-! The soft reset -/

/-- The Ring Port after a soft reset in the ring states (R34). -/
def RingPort.softReset (p : RingPort) : RingPort :=
  { p with
    control := []
    audio := []
    placeSetAside := false
    out := p.out.map fun o => { o with reported := false } }

/-- A slot after a soft reset in the ring states (R117). -/
def Slot.softReset (k : Slot) : Slot := { Slot.reset with generation := k.generation }

/-- The Presence Unit before it enters JOINING at a soft reset (R50). -/
def PresenceUnit.softReset (p : PresenceUnit) : PresenceUnit :=
  { p with outstanding := none, peers := [], clashReported := false }

/-- Every block after a soft reset in the ring states, before JOINING is entered (R34, R50, R86, R117, R132, R141, R154,
R162, R177). -/
def clearedState (c : Configuration) (s : State) : State :=
  sampleKeys (takeZones c
    { s with
      cleanups := []
      rp := s.rp.softReset
      pu := s.pu.softReset
      cu := s.cu.map Slot.softReset
      lu := []
      ss := [[], [], [], []]
      cp := ControlPort.reset })

/-- A soft reset in the ring states (R50, R188). -/
def memberReset (c : Configuration) (s : State) : State := enterJoining (clearedState c s)

/-- The Presence Unit's own part of a soft reset in LOADING or PASSIVE (R51): as it stands, its ring state unchanged, but
for the clash-reported flag. -/
def PresenceUnit.repeaterReset (p : PresenceUnit) : PresenceUnit := { p with clashReported := false }

/-- A soft reset in LOADING or PASSIVE: the Presence Unit's part (R51), the Control Port's (R177), and a load that begins at
once (R178, R188). -/
def repeaterReset (s : State) : State :=
  startLoad { s with pu := s.pu.repeaterReset, cp := ControlPort.reset }

/-- The soft reset (R171). -/
def softReset (s : State) : State :=
  if s.isMember then
    match s.config with
    | some c => memberReset c s
    | none => s
  else repeaterReset s

end Sys2Proof.Machine
end

