-- ==== Sys2Proof/Machine/Control.lean ====
section
/-! DEFINITION. The Control Port's commands (chapter 10) and their responses (R193). -/

namespace Sys2Proof.Machine

/-! Answering -/

/-- The response the host reads (R163). -/
def respond (bytes : List Byte) (s : State) : State := { s with cp := { s.cp with response := bytes } }

/-- A result other than OK, or an OK with no data, is one byte (R163, R193). -/
def answerCode (code : ResultCode) : State → State := respond [code.code]

/-- OK with data. -/
def answerData (data : List Byte) : State → State := respond (ResultCode.ok.code :: data)

/-- A command acts: not while RSTN is low (R163). -/
def whenListening (act : State → State) (s : State) : State := if s.rstnLow then s else act s

/-- A command that is answered PASSIVE in LOADING and PASSIVE (R165). -/
def whenMember (act : State → State) : State → State :=
  whenListening fun s => if s.isMember then act s else answerCode .passive s

/-- A command on an own zone: NOT_OWNED for any other (R169). -/
def onOwnZone (zone : Byte) (act : Nat → State → State) : State → State :=
  whenMember fun s => if s.owns zone.toNat then act zone.toNat s else answerCode .notOwned s

/-! Fields of responses (R193) -/

/-- A two-byte field. -/
def twoBytes (n : Nat) : List Byte := splitBytes (BitVec.ofNat 16 n)

/-- A remaining time in units of 10 ms, rounded up; 0xFFFF when absent. -/
def remainingBytes : Option Nat → List Byte
  | none => [0xFF, 0xFF]
  | some ms => twoBytes ((ms + 9) / 10)

/-- A list preceded by its count. -/
def countedBytes {α : Type} (item : α → List Byte) (items : List α) : List Byte :=
  byteOf items.length :: items.flatMap item

/-- A member record: tag and auto-end remaining. -/
def Member.bytes (m : Member) : List Byte := tagBytes m.tag ++ remainingBytes m.left

/-- A stack group: level and counted members. -/
def Group.bytes (g : Group) : List Byte := byteOf g.level :: countedBytes Member.bytes g.members

/-- A wait entry: tag and level. -/
def Waiter.bytes (w : Waiter) : List Byte := tagBytes w.tag ++ [byteOf w.level]

/-- A reservation's flag, tag and level. -/
def reservationBytes : Option Reservation → List Byte
  | none => [0, 0, 0, 0, 0]
  | some v => 1 :: tagBytes v.tag ++ [byteOf v.level]

/-- A superseded tag's flag and tag. -/
def supersededBytes : Option Tag → List Byte
  | none => [0, 0, 0, 0]
  | some t => 1 :: tagBytes t

/-- An active level, 0xFF when absent. -/
def levelByte : Option Nat → Byte
  | none => 0xFF
  | some a => byteOf a

/-- The data of ZONE STATUS. -/
def ZoneRecord.statusBytes (trim : Nat) (r : ZoneRecord) : List Byte :=
  [policyCode r.policy, byteOf r.floor, byteOf trim, levelByte r.activeLevel] ++ countedBytes Member.bytes r.active ++
    reservationBytes r.reservation ++ supersededBytes r.superseded ++ countedBytes Group.bytes r.stack ++
    countedBytes Waiter.bytes r.waiting

/-- A zone entry in CLAIM STATUS. -/
def ZoneEntry.statusBytes (e : ZoneEntry) : List Byte :=
  [byteOf e.zone, byteOf (e.owner.getD 0), e.state.code] ++ lastCodeBytes e.lastCode

/-- The described part of CLAIM STATUS. -/
def ClaimInfo.statusBytes (left : Option Nat) (outcome : Option ClaimOutcome) (i : ClaimInfo) : List Byte :=
  [i.issuer.code, i.cls.code, byteOf i.port, byteOf i.level, modeCode i.mode, flagCode i.wait] ++ twoBytes i.gain ++
    twoBytes i.duration ++ remainingBytes left ++ [outcomeByte outcome] ++
    countedBytes ZoneEntry.statusBytes i.entries

/-- The data of CLAIM STATUS. -/
def Slot.statusBytes (k : Slot) : List Byte :=
  [k.state.code, byteOf k.generation] ++
    match k.info with
    | none => [0]
    | some i => 1 :: i.statusBytes k.durationLeft k.outcome

/-- A meter record's flag and fields. -/
def recordBytes : Option MeterRecord → List Byte
  | none => [0, 0, 0, 0, 0, 0, 0]
  | some r => 1 :: (twoBytes r.mean ++ twoBytes r.peak ++ twoBytes r.clips)

/-- The data of METER. -/
def MixZone.meterBytes (m : MixZone) : List Byte :=
  byteOf m.trim :: recordBytes m.last ++ twoBytes m.count ++ twoBytes m.totalClips

/-- A peer in PEERS. -/
def Peer.bytes (p : Peer) : List Byte := [byteOf p.address, byteOf p.first, byteOf p.last, flagCode p.joining]

/-- The data of STATUS (R166). -/
def State.statusBytes (s : State) : List Byte :=
  [s.ringState.code, byteOf s.address, byteOf s.windowFirst, byteOf s.windowLast, faultByte s.cl.faultCode] ++
    twoBytes s.rp.checkErrors ++ twoBytes s.rp.overruns ++ [flagCode s.cp.overflow, byteOf s.cp.notices.length]

/-- The data of NOTICE, with the notices left (R173). -/
def QueuedNotice.bytes (left : Nat) (q : QueuedNotice) : List Byte :=
  [q.notice.kindCode, byteOf q.vector] ++ q.notice.sixBytes ++ [byteOf left]

/-! The commands -/

/-- STATUS (R166): the station as it stands; the counters and the overflow flag are cleared. -/
def statusCommand : State → State := whenListening fun s =>
  answerData s.statusBytes
    { s with rp := { s.rp with checkErrors := 0, overruns := 0 }, cp := { s.cp with overflow := false } }

/-- The answer to an issue (R167). -/
def answerIssue (issued : IssueResult × State) : State :=
  match issued.1 with
  | .accepted slot generation => answerData [byteOf slot, byteOf generation] issued.2
  | .refused code => answerCode code issued.2

/-- CLAIM (R167): BAD_ARGS before any other result. -/
def claimCommand (d : Option ClaimDesc) : State → State := whenListening fun s =>
  match d with
  | none => answerCode .badArgs s
  | some d => answerIssue (issue .host d s)

/-- The code that answers CLAIM PRESET whatever its number, in LOADING and PASSIVE (R165, R167). -/
def presetRefusal : RingState → Option ResultCode
  | .loading => some .starting
  | .passive => some .passive
  | .joining => none
  | .up => none
  | .broken => none

/-- CLAIM PRESET (R167). -/
def presetCommand (number : Nat) : State → State := whenListening fun s =>
  match presetRefusal s.ringState with
  | some code => answerCode code s
  | none =>
    match s.preset number with
    | none => answerCode .badArgs s
    | some p => answerIssue (issue .host p.desc s)

/-- END (R168). -/
def endCommand (slot generation : Nat) : State → State := whenMember fun s =>
  if slot < 8 ∧ generation < 16 then
    let ended := endRequest slot generation s
    answerCode ended.1 ended.2
  else answerCode .badArgs s

/-- CLAIM STATUS (R115, R168). -/
def claimStatusCommand (slot : Nat) : State → State := whenMember fun s =>
  match s.slot slot with
  | none => answerCode .badArgs s
  | some k => answerData k.statusBytes s

/-- The trim the Mix Engine holds for a zone (R84). -/
def State.trimOf (s : State) (z : Nat) : Nat :=
  match s.mixZone z with
  | some m => m.trim
  | none => 0

/-- ZONE STATUS (R84). -/
def zoneStatusCommand (zone : Byte) : State → State := onOwnZone zone fun z s =>
  match s.zone z with
  | none => answerCode .notOwned s
  | some r => answerData (r.statusBytes (s.trimOf z)) s

/-- SET FLOOR (R83, R169). -/
def setFloorCommand (zone floor : Byte) : State → State := onOwnZone zone fun z s =>
  if isFloor floor.toNat then answerCode .ok (setFloorAt z floor.toNat s) else answerCode .badArgs s

/-- SET TRIM (R151, R169). -/
def setTrimCommand (zone trim : Byte) : State → State := onOwnZone zone fun z s =>
  if isTrim trim.toNat then answerCode .ok (setTrimAt z trim.toNat s) else answerCode .badArgs s

/-- CLEAR ZONE (R82, R169). -/
def clearZoneCommand (zone : Byte) : State → State := onOwnZone zone fun z s => answerCode .ok (clearZoneAt z s)

/-- METER (R152). -/
def meterCommand (zone : Byte) : State → State := onOwnZone zone fun z s =>
  match s.mixZone z with
  | none => answerCode .notOwned s
  | some m => answerData m.meterBytes (clearTotalClips z s)

/-- NOTICE (R173). -/
def noticeCommand : State → State := whenListening fun s =>
  match s.cp.notices with
  | [] => answerCode .empty s
  | q :: rest => answerData (q.bytes rest.length) { s with cp := { s.cp with notices := rest } }

/-- SET MASK (R176). -/
def setMaskCommand (masks : Option (List Bool)) : State → State := whenListening fun s =>
  match masks with
  | none => answerCode .badArgs s
  | some masks => answerCode .ok { s with cp := { s.cp with masks := masks } }

/-- PEERS (R170). -/
def peersCommand : State → State := whenMember fun s => answerData (countedBytes Peer.bytes s.pu.peers) s

/-- RESET (R171). -/
def resetCommand : State → State := whenListening fun s => answerCode .ok (softReset s)

/-- A command byte that names no command (R164). -/
def unknownCommand : State → State := whenListening (answerCode .badCommand)

end Sys2Proof.Machine
end

