-- ==== Sys2Proof/Machine/Timers.lean ====
section
/-! DEFINITION. Cleanup requests and the lapse timer as events, the passage of a millisecond, and which event of the
station itself is due (log 2, log 7). -/

namespace Sys2Proof.Machine

/-! Events of their own -/

/-- A cleanup request leaves the ones that wait. -/
def takeRequest (side : CleanupSide) (peer : Nat) (cause : CleanupCause) (s : State) : State :=
  { s with cleanups := s.cleanups.erase { side := side, peer := peer, cause := cause } }

/-- A listen entry's lapse timer expires (R129): the timer stops and the tag's roles end. Nothing where it does not
run. -/
def lapseExpiry (t : Tag) (s : State) : State :=
  if (s.listenEntry t).any (·.lapse.isSome) then
    lapseAtOwner t (updateListen t (fun e => { e with lapse := none }) s)
  else s

/-! One millisecond -/

/-- A running timer after one millisecond. -/
def oneLess (t : Option Nat) : Option Nat := t.map (· - 1)

/-- A phase after one millisecond. -/
def PresencePhase.oneLess : PresencePhase → PresencePhase
  | .queued => .queued
  | .timing left => .timing (left - 1)

/-- The Presence Unit's timers after one millisecond. -/
def PresenceUnit.oneLess (p : PresenceUnit) : PresenceUnit :=
  { p with
    outstanding := p.outstanding.map fun o => { o with phase := o.phase.oneLess }
    peers := p.peers.map fun q => { q with age := q.age - 1 }
    period := Machine.oneLess p.period }

/-- A zone's timers after one millisecond: the hold timer and the active members' auto-end timers; those of stack members
are paused (R76). -/
def ZoneRecord.oneLess (r : ZoneRecord) : ZoneRecord :=
  { r with
    active := r.active.map fun m => { m with left := Machine.oneLess m.left }
    reservation := r.reservation.map fun v => { v with hold := v.hold - 1 } }

/-- A slot's timers after one millisecond. -/
def Slot.oneLess (k : Slot) : Slot :=
  { k with durationLeft := Machine.oneLess k.durationLeft, returnTimer := Machine.oneLess k.returnTimer }

/-- A listen entry's timer after one millisecond. -/
def ListenEntry.oneLess (e : ListenEntry) : ListenEntry := { e with lapse := Machine.oneLess e.lapse }

/-- A key's timer after one millisecond. -/
def Key.oneLess (k : Key) : Key := { k with timer := Machine.oneLess k.timer }

/-- One millisecond passes: every running timer has one less left (log 2). -/
def tick (s : State) : State :=
  { s with
    pu := s.pu.oneLess
    za := s.za.map ZoneRecord.oneLess
    cu := s.cu.map Slot.oneLess
    lu := s.lu.map ListenEntry.oneLess
    ku := s.ku.map Key.oneLess }

/-! What is due -/

/-- The command that takes a cleanup request. -/
def CleanupRequest.command (r : CleanupRequest) : Instr :=
  match r.side with
  | .owner => .cleanupRequestAtOwner r.peer r.cause
  | .origin => .cleanupRequestAtOrigin r.peer r.cause

/-- The number and value of the first item that satisfies a test. -/
def firstWhere {α : Type} (p : α → Bool) (items : List α) : Option Nat := items.findIdx? p

/-- A zone's due hold expiry. -/
def ZoneRecord.dueHold (r : ZoneRecord) : Option Instr :=
  if r.reservation.any (·.hold == 0) then some (.holdTimerExpiry r.zone) else none

/-- A zone's due auto-end expiry. -/
def ZoneRecord.dueAutoEnd (r : ZoneRecord) : Option Instr :=
  (r.active.find? fun m => m.left == some 0).map fun m => .autoEndTimerExpiry r.zone m.tag

/-- A listen entry's due lapse expiry. -/
def ListenEntry.dueLapse (e : ListenEntry) : Option Instr :=
  if e.lapse == some 0 then some (.lapseTimerExpiry e.tag) else none

/-- The Presence Unit's due expiry of a return timer. -/
def PresenceUnit.dueReturn (p : PresenceUnit) : Option Instr :=
  if p.outstanding.any (·.phase == .timing 0) then some .presenceReturnTimerExpiry else none

/-- The Presence Unit's due period expiry. -/
def PresenceUnit.duePeriod (p : PresenceUnit) : Option Instr :=
  if p.period == some 0 then some .periodTimerExpiry else none

/-- A peer's due age expiry. -/
def Peer.dueAge (p : Peer) : Option Instr := if p.age == 0 then some (.ageTimerExpiry p.address) else none

/-- The event of the station itself that is taken next when no command waits: a cleanup request, else a timer that has
run down, in a fixed order (log 2, log 7). -/
def dueEvent (s : State) : Option Instr :=
  match s.cleanups with
  | r :: _ => some r.command
  | [] =>
    (s.za.findSome? ZoneRecord.dueHold) <|> (s.za.findSome? ZoneRecord.dueAutoEnd) <|>
      (s.lu.findSome? ListenEntry.dueLapse) <|> s.pu.dueReturn <|> s.pu.duePeriod <|>
      (s.pu.peers.findSome? Peer.dueAge) <|>
      ((firstWhere (fun k : Slot => k.returnTimer == some 0) s.cu).map .claimReturnTimerExpiry) <|>
      ((firstWhere (fun k : Slot => k.durationLeft == some 0) s.cu).map .durationTimerExpiry) <|>
      ((firstWhere (fun k : Key => k.timer == some 0) s.ku).map .debounceTimerExpiry)

end Sys2Proof.Machine
end

