-- ==== Sys2Proof/Machine/Commands.lean ====
section
/-! DEFINITION. The meaning of each command: its effect on everything but the queue of commands. No command stops the
station, so each answers a next state. -/

namespace Sys2Proof.Machine

/-- Power-on, or RSTN driven low (R33). -/
def execRstnReset (s : State) : Host.Outcome State Fault Refusal := .next (hardReset s)

/-- A load begins at the end of a power-on or RSTN reset (R178). -/
def execLoadBegins (s : State) : Host.Outcome State Fault Refusal := .next (beginLoad s)

/-- A load ends with every check passed (R186). -/
def execLoadSucceeds (memory : List Byte) (s : State) : Host.Outcome State Fault Refusal := .next (endLoad memory s)

/-- A load ends with a check failed (R187). -/
def execLoadFails (memory : List Byte) (s : State) : Host.Outcome State Fault Refusal := .next (endLoad memory s)

/-- A reception on Ring In ends (R15). -/
def execFrameArrival (bytes : List Byte) (cutShort : Bool) (s : State) : Host.Outcome State Fault Refusal :=
  .next (arriveFrame bytes cutShort s)

/-- The frame on Ring Out is sent (R28). -/
def execTransmissionCompletion (s : State) : Host.Outcome State Fault Refusal := .next (completeTransmission s)

/-- A strobe at the Stream Sender (R133). -/
def execSampleStrobeSend (s0 s1 s2 s3 : Sample) (s : State) : Host.Outcome State Fault Refusal :=
  .next (sendStrobe [s0, s1, s2, s3] s)

/-- The strobe that completes the blocks (R134). -/
def execBlockCompletion (s0 s1 s2 s3 : Sample) (s : State) : Host.Outcome State Fault Refusal :=
  .next (sendStrobe [s0, s1, s2, s3] s)

/-- A strobe at the Mix Engine (R143). -/
def execSampleStrobeMix (s : State) : Host.Outcome State Fault Refusal := .next (mixStrobe s)

/-- The strobe that ends the meter windows (R149). -/
def execMeterWindowEnd (s : State) : Host.Outcome State Fault Refusal := .next (mixStrobe s)

/-- The presence period ends (R38). -/
def execPeriodTimerExpiry (s : State) : Host.Outcome State Fault Refusal := .next (periodExpiry s)

/-- A PRESENCE has not returned in time (R41). -/
def execPresenceReturnTimerExpiry (s : State) : Host.Outcome State Fault Refusal := .next (presenceReturnExpiry s)

/-- A peer has been silent for three periods (R47). -/
def execAgeTimerExpiry (peer : Nat) (s : State) : Host.Outcome State Fault Refusal := .next (ageExpiry peer s)

/-- The Zone Arbiter takes a cleanup request (R81). -/
def execCleanupRequestAtOwner (peer : Nat) (cause : CleanupCause) (s : State) : Host.Outcome State Fault Refusal :=
  .next (cleanupAtOwner peer (takeRequest .owner peer cause s))

/-- The Claim Unit takes a cleanup request (R111). -/
def execCleanupRequestAtOrigin (peer : Nat) (cause : CleanupCause) (s : State) : Host.Outcome State Fault Refusal :=
  .next (cleanupAtOrigin peer (takeRequest .origin peer cause s))

/-- A reservation is held no longer (R65). -/
def execHoldTimerExpiry (zone : Nat) (s : State) : Host.Outcome State Fault Refusal := .next (holdExpiryAt zone s)

/-- An active member has had its duration (R76). -/
def execAutoEndTimerExpiry (zone : Nat) (tag : Tag) (s : State) : Host.Outcome State Fault Refusal :=
  .next (autoEndExpiryAt zone tag s)

/-- A tag has had no audio for the lapse time (R129). -/
def execLapseTimerExpiry (tag : Tag) (s : State) : Host.Outcome State Fault Refusal := .next (lapseExpiry tag s)

/-- A CLAIM or COMMIT has not returned in time (R109). -/
def execClaimReturnTimerExpiry (slot : Nat) (s : State) : Host.Outcome State Fault Refusal :=
  .next (returnExpiry slot s)

/-- A LIVE claim has had its duration (R107). -/
def execDurationTimerExpiry (slot : Nat) (s : State) : Host.Outcome State Fault Refusal := .next (durationExpiry slot s)

/-- A contact opens or closes (R157). -/
def execKeyInputChange (key : Nat) (closed : Bool) (s : State) : Host.Outcome State Fault Refusal :=
  .next (keyInput key closed s)

/-- A contact has settled (R157). -/
def execDebounceTimerExpiry (key : Nat) (s : State) : Host.Outcome State Fault Refusal := .next (debounceExpiry key s)

/-- STATUS (R166). -/
def execStatus (s : State) : Host.Outcome State Fault Refusal := .next (statusCommand s)

/-- CLAIM (R167). -/
def execClaim (zoneCount : Byte) (places : List Byte) (level mode wait : Byte) (gain duration : Word16) (port : Byte)
    (s : State) : Host.Outcome State Fault Refusal :=
  .next (claimCommand (claimDescOf zoneCount places level mode wait gain duration port) s)

/-- CLAIM PRESET (R167). -/
def execClaimPreset (number : Byte) (s : State) : Host.Outcome State Fault Refusal :=
  .next (presetCommand number.toNat s)

/-- END (R168). -/
def execEndClaim (slot generation : Byte) (s : State) : Host.Outcome State Fault Refusal :=
  .next (endCommand slot.toNat generation.toNat s)

/-- CLAIM STATUS (R115). -/
def execClaimStatus (slot : Byte) (s : State) : Host.Outcome State Fault Refusal :=
  .next (claimStatusCommand slot.toNat s)

/-- ZONE STATUS (R84). -/
def execZoneStatus (zone : Byte) (s : State) : Host.Outcome State Fault Refusal := .next (zoneStatusCommand zone s)

/-- SET FLOOR (R83). -/
def execSetFloor (zone floor : Byte) (s : State) : Host.Outcome State Fault Refusal :=
  .next (setFloorCommand zone floor s)

/-- SET TRIM (R151). -/
def execSetTrim (zone trim : Byte) (s : State) : Host.Outcome State Fault Refusal := .next (setTrimCommand zone trim s)

/-- CLEAR ZONE (R82). -/
def execClearZone (zone : Byte) (s : State) : Host.Outcome State Fault Refusal := .next (clearZoneCommand zone s)

/-- METER (R152). -/
def execMeter (zone : Byte) (s : State) : Host.Outcome State Fault Refusal := .next (meterCommand zone s)

/-- NOTICE (R173). -/
def execNotice (s : State) : Host.Outcome State Fault Refusal := .next (noticeCommand s)

/-- SET MASK (R176). -/
def execSetMask (m0 m1 m2 m3 : Byte) (s : State) : Host.Outcome State Fault Refusal :=
  .next (setMaskCommand (masksOf m0 m1 m2 m3) s)

/-- PEERS (R170). -/
def execPeers (s : State) : Host.Outcome State Fault Refusal := .next (peersCommand s)

/-- RESET (R171). -/
def execReset (s : State) : Host.Outcome State Fault Refusal := .next (resetCommand s)

/-- A command byte that names no command (R164). -/
def execBadCommand (_command : Byte) (s : State) : Host.Outcome State Fault Refusal := .next (unknownCommand s)

/-- A transaction ends before its command has acted: nothing changes (R164). -/
def execTransactionCutShort (_clocked : List Byte) (s : State) : Host.Outcome State Fault Refusal := .next s

end Sys2Proof.Machine
end

