-- ==== Sys2Proof/Machine/Dispatch.lean ====
section
/-! DEFINITION. The commands' meanings, one arm per constructor. -/

namespace Sys2Proof.Machine

/-- What a command does. -/
def exec (i : Instr) (s : State) : Host.Outcome State Fault Refusal :=
  match i with
  | .rstnReset => Sys2Proof.Machine.execRstnReset s
  | .loadBegins => Sys2Proof.Machine.execLoadBegins s
  | .loadSucceeds memory => Sys2Proof.Machine.execLoadSucceeds memory s
  | .loadFails memory => Sys2Proof.Machine.execLoadFails memory s
  | .frameArrival bytes cutShort => Sys2Proof.Machine.execFrameArrival bytes cutShort s
  | .transmissionCompletion => Sys2Proof.Machine.execTransmissionCompletion s
  | .sampleStrobeSend s0 s1 s2 s3 => Sys2Proof.Machine.execSampleStrobeSend s0 s1 s2 s3 s
  | .blockCompletion s0 s1 s2 s3 => Sys2Proof.Machine.execBlockCompletion s0 s1 s2 s3 s
  | .sampleStrobeMix => Sys2Proof.Machine.execSampleStrobeMix s
  | .meterWindowEnd => Sys2Proof.Machine.execMeterWindowEnd s
  | .periodTimerExpiry => Sys2Proof.Machine.execPeriodTimerExpiry s
  | .presenceReturnTimerExpiry => Sys2Proof.Machine.execPresenceReturnTimerExpiry s
  | .ageTimerExpiry peer => Sys2Proof.Machine.execAgeTimerExpiry peer s
  | .cleanupRequestAtOwner peer cause => Sys2Proof.Machine.execCleanupRequestAtOwner peer cause s
  | .cleanupRequestAtOrigin peer cause => Sys2Proof.Machine.execCleanupRequestAtOrigin peer cause s
  | .holdTimerExpiry zone => Sys2Proof.Machine.execHoldTimerExpiry zone s
  | .autoEndTimerExpiry zone tag => Sys2Proof.Machine.execAutoEndTimerExpiry zone tag s
  | .lapseTimerExpiry tag => Sys2Proof.Machine.execLapseTimerExpiry tag s
  | .claimReturnTimerExpiry slot => Sys2Proof.Machine.execClaimReturnTimerExpiry slot s
  | .durationTimerExpiry slot => Sys2Proof.Machine.execDurationTimerExpiry slot s
  | .keyInputChange key closed => Sys2Proof.Machine.execKeyInputChange key closed s
  | .debounceTimerExpiry key => Sys2Proof.Machine.execDebounceTimerExpiry key s
  | .status => Sys2Proof.Machine.execStatus s
  | .claim zoneCount places level mode wait gain duration port => Sys2Proof.Machine.execClaim zoneCount places level mode wait gain duration port s
  | .claimPreset number => Sys2Proof.Machine.execClaimPreset number s
  | .endClaim slot generation => Sys2Proof.Machine.execEndClaim slot generation s
  | .claimStatus slot => Sys2Proof.Machine.execClaimStatus slot s
  | .zoneStatus zone => Sys2Proof.Machine.execZoneStatus zone s
  | .setFloor zone floor => Sys2Proof.Machine.execSetFloor zone floor s
  | .setTrim zone trim => Sys2Proof.Machine.execSetTrim zone trim s
  | .clearZone zone => Sys2Proof.Machine.execClearZone zone s
  | .meter zone => Sys2Proof.Machine.execMeter zone s
  | .notice => Sys2Proof.Machine.execNotice s
  | .setMask m0 m1 m2 m3 => Sys2Proof.Machine.execSetMask m0 m1 m2 m3 s
  | .peers => Sys2Proof.Machine.execPeers s
  | .reset => Sys2Proof.Machine.execReset s
  | .badCommand command => Sys2Proof.Machine.execBadCommand command s
  | .transactionCutShort clocked => Sys2Proof.Machine.execTransactionCutShort clocked s

end Sys2Proof.Machine
end

