-- ==== Sys2Proof/Machine/Step.lean ====
section
/-! DEFINITION. A step: the command at the front of the queue, or with none waiting what the station does by itself. -/

namespace Sys2Proof.Machine

/-- The state with one command fewer waiting: the queue's rest. -/
def State.withPending (rest : List Instr) (s : State) : State := { s with pending := rest }

/-- What the station does when no command waits (log 2): an event of its own that is due, else a millisecond passes. -/
def idle (s : State) : Host.Outcome State Fault Refusal :=
  match dueEvent s with
  | some c => exec c s
  | none => .next (tick s)

/-- One step: the command at the front of the queue takes effect, the rest waits on. -/
def step (s : State) : Host.Outcome State Fault Refusal :=
  match s.pending with
  | c :: rest => exec c (s.withPending rest)
  | [] => idle s

/-- The state with the command a word spells at the front of its queue; as it stands when the word spells none (log 6). -/
def State.withFetchWord (s : State) (nbits w : Nat) : State :=
  match decodeTableWord nbits w with
  | some c => s.withPending (c :: s.pending)
  | none => s

end Sys2Proof.Machine
end

