-- ==== Sys2Proof/Machine/Transactions.lean ====
section
/-! DEFINITION. What SDO carries (R163): the bytes driven while a transaction is clocked, and high impedance outside one. It
follows the bytes clocked in and the response, so it is computed and not stored (log 5). -/

namespace Sys2Proof.Machine

/-- How many bytes of a transaction come before its response: the command byte, its argument bytes and the turnaround byte
(R163). A command byte that names no command takes no arguments (R164). -/
def bytesBeforeResponse : List Byte → Nat
  | [] => 1
  | command :: _ => (argumentCount command).getD 0 + 2

/-- The byte driven while byte `i` of a transaction is clocked (R163): 0 before the response, then the response, then 0.
`clocked` is all that the host clocks in while CSN is low. -/
def drivenByte (clocked response : List Byte) (i : Nat) : Byte :=
  if i < bytesBeforeResponse clocked then 0 else response.getD (i - bytesBeforeResponse clocked) 0

/-- SDO while byte `i` of a transaction is clocked, in the state its command leaves (R163); `none` is high impedance. With no
transaction CSN is high. While RSTN is low the port ignores CSN and SCK and drives nothing (log 20). -/
def State.sdo (s : State) (transaction : Option (List Byte)) (i : Nat) : Option Byte :=
  match transaction with
  | none => none
  | some clocked => if s.rstnLow then none else some (drivenByte clocked s.cp.response i)

end Sys2Proof.Machine
end

