-- ==== Sys2Proof/Safety.lean ====
section
/-! DEFINITION. What every reachable state of a station satisfies: the capacities, the agreement of the blocks about the
mode, the laws of a zone record and the laws of the listen table. -/

namespace Sys2Proof.Machine

/-! Capacities -/

/-- The transmit side of a Ring Port with `aside` as its set-aside mark: the control and audio capacities, with a place
kept for a COMMIT counted (R23, R24, R25, R97), and a free line only while no frame waits (R26). -/
structure RingPort.Within (aside : Bool) (p : RingPort) : Prop where
  mark : p.placeSetAside = aside
  control : p.control.length + (if aside then 1 else 0) ≤ controlCapacity
  audio : p.audio.length ≤ audioCapacity
  line : p.out = none → p.forward = [] ∧ p.control = [] ∧ p.audio = []

/-- The listen table's capacities (R120, R124), and no sample in an entry that is not active (R124). -/
structure ListenWithin (entries : List ListenEntry) : Prop where
  places : entries.length ≤ listenCapacity
  buffers : ∀ e ∈ entries, e.buffer.length ≤ bufferCapacity
  silent : ∀ e ∈ entries, e.active = false → e.buffer = [] ∧ e.primed = false

/-- The tables: at most 31 peers in strict order of address, none at the station's own (R43); a sequence number of one byte with
at most 16 recent ones (R38); trims of 0 to 7 (R142). -/
structure State.TablesWithin (s : State) : Prop where
  peers : s.pu.peers.length ≤ 31
  order : s.pu.peers.Pairwise fun p q => p.address < q.address
  addresses : ∀ p ∈ s.pu.peers, 1 ≤ p.address ∧ p.address ≤ 32 ∧ p.address ≠ s.address
  sequence : s.pu.sequence ≤ 255
  recent : s.pu.recent.length ≤ recentCapacity
  trims : ∀ m ∈ s.me.zones, m.trim ≤ 7

/-- Every capacity of the station (R21, R24, R25, R29, R30, R120, R124, R172). -/
structure State.Bounded (s : State) : Prop where
  port : s.rp.Within false
  forward : s.rp.forward.length ≤ forwardCapacity
  checkErrors : s.rp.checkErrors ≤ counterMaximum
  overruns : s.rp.overruns ≤ counterMaximum
  notices : s.cp.notices.length ≤ noticeCapacity
  listen : ListenWithin s.lu
  tables : s.TablesWithin

/-! Mode -/

/-- A zone entry of a configuration in its ranges (R183). -/
def zoneInRange (z : ZoneConfig) : Prop := 1 ≤ z.floor ∧ z.floor ≤ 7 ∧ z.trim ≤ 7

/-- A STATION block's values in their ranges (R182). -/
structure StationInRange (c : StationConfig) : Prop where
  address : 1 ≤ c.address ∧ c.address ≤ 32
  presencePeriod : 100 ≤ c.presencePeriod ∧ c.presencePeriod ≤ 2000 ∧ c.presencePeriod % 10 = 0
  returnTimeout : 10 ≤ c.returnTimeout ∧ c.returnTimeout ≤ 200
  holdTime : 5 ≤ c.holdTime ∧ c.holdTime ≤ 100
  lapseTime : 50 ≤ c.lapseTime ∧ c.lapseTime ≤ 2000 ∧ c.lapseTime % 10 = 0
  startFill : 4 ≤ c.startFill ∧ c.startFill ≤ 48
  blockLength : 1 ≤ c.blockLength ∧ c.blockLength ≤ 16
  meterWindow : 256 ≤ c.meterWindow ∧ c.meterWindow ≤ 65535
  clipThreshold : c.clipThreshold ≤ 255
  lineCount : c.lineCount ≤ 4
  vectorBase : c.vectorBase ≤ 252

/-- A configuration as every successful load leaves it (R182 to R186): the bounds are 1 and 0 without a ZONES block. -/
structure ConfigValid (c : Configuration) : Prop where
  station : StationInRange c.station
  window : (c.first = 1 ∧ c.last = 0) ∨ (1 ≤ c.first ∧ c.first ≤ 240 ∧ 1 ≤ c.last ∧ c.last ≤ 240)
  width : c.zones.length = windowWidth c.first c.last ∧ c.zones.length ≤ 8
  zones : ∀ z ∈ c.zones, zoneInRange z
  presets : ∀ p ∈ c.presets, p.number ≤ 7 ∧ descValid p.desc = true
  distinct : (c.presets.map (·.number)).Nodup
  keys : c.keys.length = 4
  bindings : ∀ b, some b ∈ c.keys → b.preset ≤ 7

/-- What the blocks hold in LOADING and PASSIVE (R31, R49, R85, R130, R140, R153, R162). -/
structure State.Repeating (s : State) : Prop where
  queues : s.rp.control = [] ∧ s.rp.audio = []
  presence : s.pu.outstanding = none ∧ s.pu.peers = [] ∧ s.pu.period = none
  cleanups : s.cleanups = []
  zones : s.za = []
  listen : s.lu = []
  claims : ∀ k ∈ s.cu, k.state = .free ∧ k.durationLeft = none ∧ k.returnTimer = none
  buffers : ∀ b ∈ s.ss, b = []
  mix : s.me.zones = [] ∧ s.me.ports = List.replicate 8 0
  keys : ∀ k ∈ s.ku, k = Key.reset

/-- The agreement of the blocks about the mode (R36, R51, R177, R178, R186, R187). What the Presence Unit holds is a full
member's ring state exactly when the station is one, and is PASSIVE once a load has failed. -/
structure State.Coherent (s : State) : Prop where
  rstn : s.rstnLow = true → s.cl.loadState = .reading ∧ s.pu.ringState = .loading
  reading : s.cl.loadState = .reading ↔ s.ringState = .loading
  failed : s.cl.loadState = .failed ↔ s.ringState = .passive
  unit : s.pu.ringState.isMember = s.isMember
  stays : s.cl.loadState = .failed → s.pu.ringState = .passive
  fault : s.cl.faultCode.isSome = true ↔ s.cl.loadState = .failed
  configured : s.config.isSome = s.isMember
  valid : ∀ c, s.config = some c → ConfigValid c
  repeating : s.isMember = false → s.Repeating
  period : s.isMember = true → s.pu.period.isSome = true

/-! Shape -/

/-- The fixed shape of the blocks: eight slots, four keys, four block buffers, eight zone ports, four masks, and the
generations (R87, R133, R147, R156, R176). -/
structure State.Shaped (s : State) : Prop where
  slots : s.cu.length = 8
  generations : ∀ k ∈ s.cu, k.generation < 16
  keys : s.ku.length = 4
  inputs : s.keyInputs.length = 4
  buffers : s.ss.length = 4
  ports : s.me.ports.length = 8
  masks : s.cp.masks.length = 4

/-- The zone records and the Mix Engine's fields stand for the zones of the window, in order (R52, R142). -/
def State.ZonesMatch (s : State) : Prop :=
  s.za.map (·.zone) = s.me.zones.map (·.zone) ∧
    ∀ c, s.config = some c → s.za.map (·.zone) = List.range' c.first c.zones.length

/-! Zone records -/

/-- The tag of a reservation. -/
def Reservation.tags : Option Reservation → List Tag
  | none => []
  | some v => [v.tag]

/-- Every tag with a role in a zone, once for each place (R57). -/
def ZoneRecord.tags (r : ZoneRecord) : List Tag := r.placedTags ++ Reservation.tags r.reservation

/-- The levels of the active set and of the stack groups from the top (R54). -/
def ZoneRecord.levels (r : ZoneRecord) : List Nat := r.activeLevel.toList ++ r.stack.map (·.level)

/-- How many members a zone may hear together (R53). -/
def memberLimit : Policy → Nat
  | .stack => 1
  | .mix => mixCapacity

/-- The laws of a zone record within an event (R7, R53, R54, R56). No tag has two places among the active set, the
reservation, the stack and the wait list (R57). -/
structure ZoneRecord.Sound (r : ZoneRecord) : Prop where
  floor : 1 ≤ r.floor ∧ r.floor ≤ 7
  level : r.activeLevel = none ↔ r.active = []
  members : r.active.length ≤ memberLimit r.policy
  order : r.levels.Pairwise (· < ·)
  urgent : ∀ a ∈ r.levels, a ≤ 6
  groups : ∀ g ∈ r.stack, g.members ≠ [] ∧ g.members.length ≤ memberLimit r.policy
  waiters : r.waiting.length ≤ waitCapacity
  sorted : (r.waiting.map (·.level)).Pairwise (· ≤ ·)
  single : r.placedTags.Nodup
  reserved : ∀ t ∈ Reservation.tags r.reservation, t ∉ r.placedTags

/-- The laws of a zone record between events: an empty active set leaves nothing suspended or waiting (R71, R73). -/
structure ZoneRecord.Lawful (r : ZoneRecord) : Prop extends r.Sound where
  rest : r.active = [] → r.stack = [] ∧ r.waiting = []

/-- Every zone record is lawful. -/
def State.Arbitrated (s : State) : Prop := ∀ r ∈ s.za, r.Lawful

/-! The listen table -/

/-- How many roles a tag has in the own zones. -/
def State.roleCount (s : State) (t : Tag) : Nat := (s.za.flatMap ZoneRecord.tags).count t

/-- An entry agrees with its tag's roles (R120, R121, R122). -/
structure State.Agrees (s : State) (e : ListenEntry) : Prop where
  references : e.references = s.roleCount e.tag
  needed : 1 ≤ e.references
  active : e.active = s.za.any (·.isActive e.tag)
  lapse : e.lapse.isSome = s.za.any (·.isPlaced e.tag)

/-- The listen table holds an entry for a tag exactly when the tag has a role in an own zone (R120). -/
structure State.Heard (s : State) : Prop where
  single : (s.lu.map (·.tag)).Nodup
  agrees : ∀ e ∈ s.lu, s.Agrees e
  held : ∀ t, 0 < s.roleCount t → (s.listenEntry t).isSome = true

/-- Every law together. -/
structure State.Safe (s : State) : Prop where
  bounded : s.Bounded
  coherent : s.Coherent
  shaped : s.Shaped
  matched : s.ZonesMatch
  arbitrated : s.Arbitrated
  heard : s.Heard

end Sys2Proof.Machine
end

