-- ==== Sys2Proof/WellFormed.lean ====
section
/-! DEFINITION. Which commands can be given: the operands lie in the ranges the spec gives them. An argument byte of a
Control Port command may have any value, since the station itself answers a value out of range (R165 to R169). -/

namespace Sys2Proof

/-- The bytes a transaction cut short has clocked: no whole command (R164). -/
def incompleteTransaction : List Byte → Bool
  | [] => true
  | command :: rest =>
    match argumentCount command with
    | none => false
    | some n => decide (rest.length < n)

/-- A station address (R1). -/
def isAddress (a : Nat) : Bool := decide (1 ≤ a) && decide (a ≤ 32)

/-- A zone number (R2). -/
def isZone (z : Nat) : Bool := decide (1 ≤ z) && decide (z ≤ 240)

/-- A tag a frame can carry: an address and two bytes (R8, R190). -/
def Tag.carried (t : Tag) : Bool := isAddress t.origin && decide (t.slot < 256) && decide (t.generation < 256)

/-- The commands that can be given. -/
def Instr.wellFormed : Instr → Bool
  | .rstnReset => true
  | .loadBegins => true
  | .loadSucceeds _ => true
  | .loadFails _ => true
  | .frameArrival _ _ => true
  | .transmissionCompletion => true
  | .sampleStrobeSend _ _ _ _ => true
  | .blockCompletion _ _ _ _ => true
  | .sampleStrobeMix => true
  | .meterWindowEnd => true
  | .periodTimerExpiry => true
  | .presenceReturnTimerExpiry => true
  | .ageTimerExpiry peer => isAddress peer
  | .cleanupRequestAtOwner peer _ => isAddress peer
  | .cleanupRequestAtOrigin peer _ => isAddress peer
  | .holdTimerExpiry zone => isZone zone
  | .autoEndTimerExpiry zone tag => isZone zone && tag.carried
  | .lapseTimerExpiry tag => tag.carried
  | .claimReturnTimerExpiry slot => decide (slot < 8)
  | .durationTimerExpiry slot => decide (slot < 8)
  | .keyInputChange key _ => decide (key < 4)
  | .debounceTimerExpiry key => decide (key < 4)
  | .status => true
  | .claim _ places _ _ _ _ _ _ => decide (places.length = 8)
  | .claimPreset _ => true
  | .endClaim _ _ => true
  | .claimStatus _ => true
  | .zoneStatus _ => true
  | .setFloor _ _ => true
  | .setTrim _ _ => true
  | .clearZone _ => true
  | .meter _ => true
  | .notice => true
  | .setMask _ _ _ _ => true
  | .peers => true
  | .reset => true
  | .badCommand command => (argumentCount command).isNone
  | .transactionCutShort clocked => incompleteTransaction clocked

end Sys2Proof
end

