-- ==== Sys2Proof/Certificates/Slice0/Obligations.lean ====
section
/-! DEFINITION. The statements for the provers: the queue of commands, resets and loads, the ring, presence, zones,
claims, audio, the mix, the keys, the Control Port, and the laws every step keeps. -/

open Sys2Proof Sys2Proof.Machine

/-! The queue of commands -/

/-- A step takes the command at the front of the queue, and the rest waits on. -/
def Obligations.StepTakesFrontCommand : Prop :=
  ∀ (c : Instr) (rest : List Instr) (s : State), s.pending = c :: rest → step s = exec c (s.withPending rest)

/-- Every command answers a next state, with the queue of commands as it stood. -/
def Sys2Proof.Clause.CommandsKeepTheQueue : Prop :=
  ∀ (c : Instr) (s : State), ∃ t, exec c s = .next t ∧ t.pending = s.pending

/-- With no command waiting and nothing due, a millisecond passes: every running timer has one ms less, those of members on a
suspension stack excepted, and nothing else changes. The model's choice (log 2). -/
def Obligations.IdleMillisecond : Prop :=
  ∀ s : State, s.pending = [] → dueEvent s = none →
    step s = .next
      { s with
        pu := { s.pu with
          outstanding := s.pu.outstanding.map fun o => { o with phase := match o.phase with
            | .queued => .queued
            | .timing left => .timing (left - 1) }
          peers := s.pu.peers.map fun p => { p with age := p.age - 1 }
          period := s.pu.period.map (· - 1) }
        za := s.za.map fun r =>
          { r with
            active := r.active.map fun m => { m with left := m.left.map (· - 1) }
            reservation := r.reservation.map fun v => { v with hold := v.hold - 1 } }
        cu := s.cu.map fun k =>
          { k with durationLeft := k.durationLeft.map (· - 1), returnTimer := k.returnTimer.map (· - 1) }
        lu := s.lu.map fun e => { e with lapse := e.lapse.map (· - 1) }
        ku := s.ku.map fun k => { k with timer := k.timer.map (· - 1) } }

/-- Only the two ends of a reset move the RSTN pin's level, and only a key's change moves a contact's level. -/
def Sys2Proof.Clause.OnlyPinEventsMovePins : Prop :=
  ∀ (c : Instr) (s t : State), exec c s = .next t →
    (c ≠ .rstnReset → c ≠ .loadBegins → t.rstnLow = s.rstnLow) ∧
    ((∀ key closed, c ≠ .keyInputChange key closed) → t.keyInputs = s.keyInputs)

/-- Every command answers a next state with the queue of commands as it stood, and only the events of a pin move its level. -/
def Obligations.EveryCommandCompletes : Prop := Clause.CommandsKeepTheQueue ∧ Clause.OnlyPinEventsMovePins

/-! Resets and loads -/

/-- Power-on or RSTN reset from any state: every block at its reset state. The contacts' levels and the waiting commands
stay (log 3); the empty response is the model's choice (log 5). -/
def Sys2Proof.Clause.RstnResetClearsEveryBlock : Prop :=
  ∀ s : State,
    exec .rstnReset s = .next
      { pending := s.pending, rstnLow := true, keyInputs := s.keyInputs, config := none, cleanups := [],
        rp := { forward := [], control := [], audio := [], placeSetAside := false, out := none, checkErrors := 0,
                overruns := 0 },
        pu := { ringState := .loading, sequence := 0, recent := [], outstanding := none, peers := [],
                clashReported := false, period := none },
        za := [],
        cu := List.replicate 8 { generation := 0, state := .free, outcome := none, info := none, durationLeft := none,
                                 returnTimer := none },
        lu := [], ss := [[], [], [], []], me := { zones := [], ports := List.replicate 8 0 },
        ku := List.replicate 4 { debounced := none, timer := none, remembered := none },
        cp := { notices := [], overflow := false, masks := [false, false, false, false], response := [] },
        cl := { loadState := .reading, faultCode := none } }

/-- A load begins when RSTN rises: READING, no fault code, the station in LOADING, no field else changed; where RSTN is high
nothing changes (log 8). -/
def Sys2Proof.Clause.LoadBegins : Prop :=
  ∀ s : State,
    (s.rstnLow = true →
      ∃ t, exec .loadBegins s = .next t ∧ t.ringState = .loading ∧
        t = { s with rstnLow := false, cl := { loadState := .reading, faultCode := none } }) ∧
    (s.rstnLow = false → exec .loadBegins s = .next s)

/-- Power-on or RSTN reset with every contact open and no command waiting, and then the begin of the load, leave the state
after reset (log 3, log 4). -/
def Sys2Proof.Clause.ResetStateIsReached : Prop :=
  ∀ s : State, s.pending = [] → s.keyInputs = [false, false, false, false] →
    ∃ t, exec .rstnReset s = .next t ∧ exec .loadBegins t = .next State.reset

/-- Power-on or RSTN reset, its end, and the state the two leave. -/
def Obligations.ResetThenLoad : Prop := Clause.RstnResetClearsEveryBlock ∧ Clause.LoadBegins ∧ Clause.ResetStateIsReached

/-- A load succeeds: every configured value taken at once, the keys sampled, JOINING entered with its PRESENCE stored and
the period timer started. -/
def Obligations.LoadSuccessTakesEveryValue : Prop :=
  ∀ (memory : List Byte) (c : Configuration) (s : State), s.Bounded → s.Coherent → s.Shaped →
    s.cl.loadState = .reading → s.rstnLow = false → loadImage memory = .ok c →
    ∃ t, exec (.loadSucceeds memory) s = .next t ∧
      t.config = some c ∧ t.cl = { loadState := .done, faultCode := none } ∧
      t.pu = { s.pu with ringState := .joining, sequence := (s.pu.sequence + 1) % 256,
                         recent := recordRecent s.pu.recent ((s.pu.sequence + 1) % 256),
                         outstanding := some { sequence := (s.pu.sequence + 1) % 256, phase := .queued },
                         period := some c.station.presencePeriod } ∧
      t.rp = s.rp.storeControl (frameOf c.station.address 0
        (.presence (byteOf ((s.pu.sequence + 1) % 256)) 1 (byteOf c.first) (byteOf c.last))) ∧
      t.za = zoneRecordsOf c ∧ t.me = { zones := mixZonesOf c, ports := s.me.ports } ∧
      (∀ n < 4, t.ku[n]? = some { debounced := some (if s.keyClosed n then .pressed else .released), timer := none,
                                  remembered := none }) ∧
      t.cu = s.cu ∧ t.lu = s.lu ∧ t.ss = s.ss ∧ t.cp = s.cp ∧ t.cleanups = s.cleanups ∧ t.rstnLow = s.rstnLow

/-- A load fails: FAILED with the code, PASSIVE, CONFIG_FAULT posted under vector base 0, nothing else changed. -/
def Obligations.LoadFailureEntersPassive : Prop :=
  ∀ (memory : List Byte) (code : FaultCode) (s : State), s.Coherent → s.cp.notices.length < 32 →
    s.cl.loadState = .reading → s.rstnLow = false → loadImage memory = .error code →
    exec (.loadFails memory) s = .next
      { s with
        cl := { loadState := .failed, faultCode := some code }
        pu := { s.pu with ringState := .passive }
        cp := { s.cp with notices := s.cp.notices ++ [{ vector := 3, notice := .configFault code }] } }

/-- The order of the image's checks: the header's bytes, the magic, the length, the rest of the image, the sum, the chain,
the STATION block, the fields. -/
def Sys2Proof.Clause.ImageChecksInOrder : Prop :=
  ∀ memory : List Byte,
    (memory.length < 8 → loadImage memory = .error .noMemory) ∧
    (8 ≤ memory.length →
      (¬(memory[0]? = some 0xD7 ∧ memory[1]? = some 0x4C) → loadImage memory = .error .badImage) ∧
      (memory[0]? = some 0xD7 → memory[1]? = some 0x4C →
        let total := wordAt memory 2
        let image := memory.take total
        (total < 8 ∨ 2048 < total → loadImage memory = .error .badImage) ∧
        (8 ≤ total → total ≤ 2048 → memory.length < total → loadImage memory = .error .noMemory) ∧
        (8 ≤ total → total ≤ 2048 → total ≤ memory.length →
          (imageSum image ≠ wordAt image 6 → loadImage memory = .error .badSum) ∧
          (imageSum image = wordAt image 6 →
            (∀ code, walkChain image = .error code → loadImage memory = .error code ∧ code = .badChain) ∧
            (∀ blocks, walkChain image = .ok blocks →
              (blocks.station = none → loadImage memory = .error .noStation) ∧
              (∀ body, blocks.station = some body → contentsOf body blocks = none →
                loadImage memory = .error .badField) ∧
              (∀ body c, blocks.station = some body → contentsOf body blocks = some c →
                loadImage memory = .ok c))))))

/-- The body of the block at an offset of an image. -/
def Sys2Proof.Clause.bodyAt (image : List Byte) (o : Nat) : List Byte := (image.drop (o + 5)).take (wordAt image (o + 1))

/-- The offsets of a whole chain, in the order in which its blocks are visited: each block's bytes lie behind the image header
and within the image and apart from every other's, at most sixteen are visited, and no known type comes twice. -/
structure Sys2Proof.Clause.Chain (image : List Byte) (offsets : List Nat) : Prop where
  starts : offsets.head? = if wordAt image 4 = 0 then none else some (wordAt image 4)
  linked : ∀ i o, offsets[i]? = some o →
    offsets[i + 1]? = if wordAt image (o + 3) = 0 then none else some (wordAt image (o + 3))
  behind : ∀ o ∈ offsets, 8 ≤ o
  within : ∀ o ∈ offsets, o + 5 + wordAt image (o + 1) ≤ image.length
  apart : offsets.Pairwise fun o p => o + 5 + wordAt image (o + 1) ≤ p ∨ p + 5 + wordAt image (p + 1) ≤ o
  sixteen : offsets.length ≤ 16
  once : ∀ type ∈ [1, 2, 3, 4], (offsets.filter fun o => byteAt image o == type).length ≤ 1

/-- The walk of a chain succeeds exactly on a whole chain, with the bodies of its STATION, ZONES, PRESETS and KEYS blocks
recorded and blocks of other types skipped; in every other case it is BAD_CHAIN. -/
def Sys2Proof.Clause.ChainIsWalked : Prop :=
  ∀ image : List Byte,
    (∀ offsets, Clause.Chain image offsets →
      let recorded := fun type => (offsets.find? fun o => byteAt image o == type).map (Clause.bodyAt image)
      walkChain image = .ok { station := recorded 1, zones := recorded 2, presets := recorded 3, keys := recorded 4 }) ∧
    ((¬∃ offsets, Clause.Chain image offsets) → walkChain image = .error .badChain)

/-- The Loader reads no byte at or beyond the total length. -/
def Sys2Proof.Clause.BytesBeyondTheImageAreNotRead : Prop :=
  ∀ image extra : List Byte, image.length = wordAt image 2 → 8 ≤ image.length →
    loadImage (image ++ extra) = loadImage image

/-- The checks of the configuration image, the walk of its chain, and the bytes that are not read. -/
def Obligations.ImageIsChecked : Prop :=
  Clause.ImageChecksInOrder ∧ Clause.ChainIsWalked ∧ Clause.BytesBeyondTheImageAreNotRead

/-- Every configuration that a load takes has every field in its range. -/
def Obligations.LoadedConfigurationInRange : Prop :=
  ∀ (memory : List Byte) (c : Configuration), loadImage memory = .ok c → ConfigValid c

/-- A soft reset in the ring states. That cleanup requests still waiting are dropped is the model's choice (log 7). -/
def Sys2Proof.Clause.SoftResetInRingStates : Prop :=
  ∀ (c : Configuration) (s : State), s.rstnLow = false → s.isMember = true → s.config = some c →
    ∃ t, exec .reset s = .next t ∧
      t.config = some c ∧ t.cl = s.cl ∧ t.cleanups = [] ∧ t.lu = [] ∧ t.ss = [[], [], [], []] ∧
      t.za = zoneRecordsOf c ∧ t.me = { zones := mixZonesOf c, ports := s.me.ports } ∧
      t.cu = s.cu.map (fun k => { generation := k.generation, state := .free, outcome := none, info := none,
                                  durationLeft := none, returnTimer := none }) ∧
      t.pu = { ringState := .joining, sequence := (s.pu.sequence + 1) % 256,
               recent := recordRecent s.pu.recent ((s.pu.sequence + 1) % 256),
               outstanding := some { sequence := (s.pu.sequence + 1) % 256, phase := .queued }, peers := [],
               clashReported := false, period := some c.station.presencePeriod } ∧
      t.cp = { notices := [], overflow := false, masks := [false, false, false, false], response := [0] } ∧
      t.rp = ({ s.rp with
                control := [frameOf c.station.address 0
                  (.presence (byteOf ((s.pu.sequence + 1) % 256)) 1 (byteOf c.first) (byteOf c.last))]
                audio := []
                placeSetAside := false
                out := s.rp.out.map fun o => { o with reported := false } } : RingPort).arbitrate ∧
      (∀ n < 4, t.ku[n]? = some { debounced := some (if s.keyClosed n then .pressed else .released), timer := none,
                                  remembered := none })

/-- A soft reset in LOADING or PASSIVE: a load begins at once, the Presence Unit stands as it was, its ring state unchanged,
but for its clash-reported flag, and the Ring Port is left as it stands. What the other blocks see is LOADING, by the load
state (log 12). -/
def Sys2Proof.Clause.SoftResetRestartsLoading : Prop :=
  ∀ s : State, s.rstnLow = false → s.isMember = false →
    ∃ t, exec .reset s = .next t ∧ t.pu.ringState = s.pu.ringState ∧ t.ringState = .loading ∧ t =
      { s with
        cl := { loadState := .reading, faultCode := none }
        pu := { s.pu with clashReported := false }
        cp := { notices := [], overflow := false, masks := [false, false, false, false], response := [0] } }

/-- The soft reset, in the ring states and in LOADING and PASSIVE. -/
def Obligations.SoftResetInEveryState : Prop := Clause.SoftResetInRingStates ∧ Clause.SoftResetRestartsLoading

/-! The ring -/

/-- A frame that is not good raises the check-error counter, which stops at 65535, in every mode; nothing else. -/
def Sys2Proof.Clause.BadFrameIsCounted : Prop :=
  ∀ (bytes : List Byte) (cutShort : Bool) (s : State), s.rstnLow = false → goodFrame bytes cutShort = none →
    exec (.frameArrival bytes cutShort) s = .next
      { s with rp := { s.rp with
          checkErrors := if s.rp.checkErrors < 65535 then s.rp.checkErrors + 1 else s.rp.checkErrors } }

/-- What makes received bytes a good frame. -/
def Sys2Proof.Clause.GoodFrameTest : Prop :=
  ∀ (bytes : List Byte) (cutShort : Bool) (f : Frame),
    goodFrame bytes cutShort = some f ↔
      cutShort = false ∧ f.bytes = bytes ∧ f.bodyLength.toNat = f.body.length ∧ f.body.length ≤ 42 ∧
        f.check = checkOf f.covered

/-- Which received bytes are a good frame, and what becomes of the others. -/
def Obligations.FrameIsGoodOrCounted : Prop := Clause.BadFrameIsCounted ∧ Clause.GoodFrameTest

/-- Frames and messages come back whole from their bytes. -/
def Obligations.FrameRoundTrip : Prop :=
  ∀ (origin destination : Nat) (m : Message), 1 ≤ origin → origin ≤ 32 → destination ≤ 32 →
    (∀ c, m = .claim c → 1 ≤ c.entries.length ∧ c.entries.length ≤ 8 ∧ ∀ e ∈ c.entries, e.ack = 0) →
    (∀ c, m = .commit c → 1 ≤ c.entries.length ∧ c.entries.length ≤ 8) →
    (∀ slot generation samples, m = .audio slot generation samples → 1 ≤ samples.length ∧ samples.length ≤ 16) →
    ∃ f, goodFrame (frameOf origin destination m).bytes false = some f ∧ f.message = some m ∧
      f.origin.toNat = origin ∧ f.hop = 0 ∧ f.destination.toNat = destination

/-- A frame as it is passed on: hop count plus one, the check computed anew, every other field as received. -/
def Sys2Proof.Clause.carriedOn (f : Frame) : Frame :=
  { f with hop := f.hop + 1, check := checkOf ({ f with hop := f.hop + 1 } : Frame).covered }

/-- An own frame that returns is stripped: a WITHDRAW, NOTICE or AUDIO, or a frame with no message, is dropped. -/
def Sys2Proof.Clause.OwnFramesAreStripped : Prop :=
  ∀ (bytes : List Byte) (f : Frame) (s : State), s.rstnLow = false → s.isMember = true →
    goodFrame bytes false = some f → f.origin.toNat = s.address →
    (f.message = none ∨ f.kind = 4 ∨ f.kind = 5 ∨ f.kind = 6 →
      exec (.frameArrival bytes false) s = .next s) ∧
    ∃ t n, exec (.frameArrival bytes false) s = .next t ∧ t.rp.forward = s.rp.forward.drop n

/-- The tests of a peer frame's arrival: the hop limit, then room, then dispatch; what is not dispatched is passed on. -/
def Sys2Proof.Clause.PeerFrameTestsInOrder : Prop :=
  ∀ (bytes : List Byte) (f : Frame) (s : State), s.rstnLow = false → s.isMember = true →
    goodFrame bytes false = some f → f.origin.toNat ≠ s.address →
    (31 ≤ f.hop.toNat → exec (.frameArrival bytes false) s = .next s) ∧
    (f.hop.toNat < 31 → 4 ≤ s.rp.forward.length →
      exec (.frameArrival bytes false) s = .next
        { s with rp := { s.rp with overruns := if s.rp.overruns < 65535 then s.rp.overruns + 1 else s.rp.overruns } }) ∧
    (f.hop.toNat < 31 → s.rp.forward.length < 4 → (f.origin.toNat = 0 ∨ 32 < f.origin.toNat ∨ f.message = none) →
      exec (.frameArrival bytes false) s = .next
        { s with rp := s.rp.placeForward (Clause.carriedOn f) })

/-- A repeater: in LOADING and PASSIVE every good frame within the hop limit is passed on and nothing is dispatched. -/
def Sys2Proof.Clause.RepeaterPassesFramesOn : Prop :=
  ∀ (bytes : List Byte) (f : Frame) (s : State), s.rstnLow = false → s.isMember = false →
    goodFrame bytes false = some f →
    (31 ≤ f.hop.toNat → exec (.frameArrival bytes false) s = .next s) ∧
    (f.hop.toNat < 31 → 4 ≤ s.rp.forward.length →
      exec (.frameArrival bytes false) s = .next
        { s with rp := { s.rp with overruns := if s.rp.overruns < 65535 then s.rp.overruns + 1 else s.rp.overruns } }) ∧
    (f.hop.toNat < 31 → s.rp.forward.length < 4 →
      exec (.frameArrival bytes false) s = .next
        { s with rp := s.rp.placeForward (Clause.carriedOn f) })

/-- A good frame of a peer with an origin in range, below the hop limit, at a full member with room: it is dispatched. -/
def Sys2Proof.Clause.peerArrival (bytes : List Byte) (f : Frame) (s : State) : Prop :=
  s.rstnLow = false ∧ s.isMember = true ∧ goodFrame bytes false = some f ∧ f.origin.toNat ≠ s.address ∧
    1 ≤ f.origin.toNat ∧ f.origin.toNat ≤ 32 ∧ f.hop.toNat < 31 ∧ s.rp.forward.length < 4

/-- An own good frame that has come back to a full member. -/
def Sys2Proof.Clause.ownReturn (bytes : List Byte) (f : Frame) (s : State) : Prop :=
  s.rstnLow = false ∧ s.isMember = true ∧ goodFrame bytes false = some f ∧ f.origin.toNat = s.address

/-- The tests of a good frame at its arrival: own frames, peer frames, and frames at a repeater. -/
def Obligations.ArrivalsAreTestedInOrder : Prop := Clause.OwnFramesAreStripped ∧ Clause.PeerFrameTestsInOrder ∧ Clause.RepeaterPassesFramesOn

/-- A frame joins the forward queue: on a free line with empty queues it is sent at once, else it joins the tail and the
arbiter takes the oldest. -/
def Sys2Proof.Clause.ForwardQueueOrder : Prop :=
  ∀ (f : Frame) (p : RingPort),
    (∀ o, p.out = some o → p.placeForward f = { p with forward := p.forward ++ [f] }) ∧
    (p.out = none → p.forward = [] →
      p.placeForward f = { p with out := some { frame := f, source := .forward, reported := false } }) ∧
    (∀ g rest, p.out = none → p.forward = g :: rest →
      p.placeForward f =
        { p with forward := rest ++ [f], out := some { frame := g, source := .forward, reported := false } })

/-- A completion frees Ring Out, which takes the oldest forward frame, else the oldest control frame, else the oldest AUDIO;
a frame from the forward or audio queue is reported to no unit, and with no frame on the line nothing happens (log 8). -/
def Sys2Proof.Clause.CompletionTakesTheNextFrame : Prop :=
  ∀ s : State,
    (s.rp.out = none → exec .transmissionCompletion s = .next s) ∧
    ∀ o, s.rp.out = some o → o.reported = false →
      (∀ f rest, s.rp.forward = f :: rest →
        exec .transmissionCompletion s = .next
          { s with rp := { s.rp with
              forward := rest, out := some { frame := f, source := .forward, reported := false } } }) ∧
      (∀ f rest, s.rp.forward = [] → s.rp.control = f :: rest →
        exec .transmissionCompletion s = .next
          { s with rp := { s.rp with
              control := rest, out := some { frame := f, source := .control, reported := true } } }) ∧
      (∀ f rest, s.rp.forward = [] → s.rp.control = [] → s.rp.audio = f :: rest →
        exec .transmissionCompletion s = .next
          { s with rp := { s.rp with audio := rest, out := some { frame := f, source := .audio, reported := false } } }) ∧
      (s.rp.forward = [] → s.rp.control = [] → s.rp.audio = [] →
        exec .transmissionCompletion s = .next { s with rp := { s.rp with out := none } })

/-- The arbiter of Ring Out: when a frame joins the forward queue, and when a transmission completes. -/
def Obligations.RingOutOrder : Prop := Clause.ForwardQueueOrder ∧ Clause.CompletionTakesTheNextFrame

/-- The completion of a frame of the control queue: Ring Out takes the next frame, and a PRESENCE, CLAIM or COMMIT starts the
return timer that awaits it. A CLAIM starts a timer that has not started; a COMMIT starts its slot's with the full timeout. -/
def Obligations.CompletionStartsReturnTimers : Prop :=
  ∀ (s : State) (o : OutFrame), s.rp.out = some o → o.reported = true →
    ∃ t, exec .transmissionCompletion s = .next t ∧
      t.rp = ({ s.rp with out := none } : RingPort).arbitrate ∧ t.za = s.za ∧ t.lu = s.lu ∧ t.cp = s.cp ∧ t.me = s.me ∧
      (∀ sequence flags first last, o.frame.message = some (.presence sequence flags first last) →
        t.cu = s.cu ∧
        t.pu = if s.pu.outstanding = some { sequence := sequence.toNat, phase := .queued } then
            { s.pu with outstanding := some { sequence := sequence.toNat, phase := .timing s.returnTimeout } }
          else s.pu) ∧
      (∀ c, o.frame.message = some (.claim c) → t.pu = s.pu ∧
        ∀ n k, s.slot n = some k →
          t.slot n = some (if n = c.slot.toNat ∧ k.state = .asking ∧ k.generation = c.generation.toNat ∧
              k.returnTimer = none then { k with returnTimer := some s.returnTimeout } else k)) ∧
      (∀ c, o.frame.message = some (.commit c) → t.pu = s.pu ∧
        ∀ n k, s.slot n = some k →
          t.slot n = some (if n = c.slot.toNat ∧ k.state = .committing ∧ k.generation = c.generation.toNat then
              { k with returnTimer := some s.returnTimeout } else k)) ∧
      (∀ slot generation, o.frame.message = some (.withdraw slot generation) → t.pu = s.pu ∧ t.cu = s.cu) ∧
      (∀ slot generation zone event reason,
        o.frame.message = some (.notice slot generation zone event reason) → t.pu = s.pu ∧ t.cu = s.cu)

/-! Presence -/

/-- What a missed return does, in words of its own: the record emptied, UP left for BROKEN with RING_BROKEN posted. -/
def Sys2Proof.Clause.missed (s : State) : State :=
  if s.pu.ringState = .up then
    post .ringBroken { s with pu := { s.pu with outstanding := none, ringState := .broken } }
  else { s with pu := { s.pu with outstanding := none } }

/-- A missed return: at the return timer's expiry, and at a sending that finds a PRESENCE outstanding in either phase. -/
def Obligations.MissedReturn : Prop :=
  ∀ (s : State) (o : Outstanding), s.pu.outstanding = some o →
    (∀ left, o.phase = .timing left → exec .presenceReturnTimerExpiry s = .next (Clause.missed s)) ∧
    (∀ left, s.pu.period = some left →
      exec .periodTimerExpiry s = exec .periodTimerExpiry (Clause.missed s))

/-- The period timer's expiry with no PRESENCE outstanding: the next PRESENCE stored, or skipped at a full control queue. -/
def Obligations.PeriodExpirySendsPresence : Prop :=
  ∀ (s : State) (left : Nat), s.pu.period = some left → s.pu.outstanding = none → s.rp.placeSetAside = false →
    let n := (s.pu.sequence + 1) % 256
    let flag : Byte := if s.pu.ringState = .joining then 1 else 0
    (s.rp.control.length < 16 →
      exec .periodTimerExpiry s = .next
        { s with
          rp := ({ s.rp with control := s.rp.control ++
            [frameOf s.address 0 (.presence (byteOf n) flag (byteOf s.windowFirst) (byteOf s.windowLast))] } :
              RingPort).arbitrate
          pu := { s.pu with
            sequence := n
            recent := (s.pu.recent ++ [n]).drop (s.pu.recent.length + 1 - 16)
            outstanding := some { sequence := n, phase := .queued }
            period := some s.presencePeriod } }) ∧
    (16 ≤ s.rp.control.length →
      exec .periodTimerExpiry s = .next { s with pu := { s.pu with period := some s.presencePeriod } })

/-- A returned own PRESENCE that proves the ring: UP, RING_UP posted on the change, the record emptied. -/
def Sys2Proof.Clause.ReturnedPresenceProvesRing : Prop :=
  ∀ (bytes : List Byte) (f : Frame) (sequence flags first last : Byte) (left : Nat) (s : State),
    s.rstnLow = false → s.isMember = true → goodFrame bytes false = some f → f.origin.toNat = s.address →
    f.message = some (.presence sequence flags first last) →
    s.pu.outstanding = some { sequence := sequence.toNat, phase := .timing left } →
    first.toNat = s.windowFirst → last.toNat = s.windowLast →
    (s.pu.ringState = .joining ∨ s.pu.ringState = .broken →
      exec (.frameArrival bytes false) s = .next
        (post .ringUp { s with pu := { s.pu with outstanding := none, ringState := .up } })) ∧
    (s.pu.ringState = .up →
      exec (.frameArrival bytes false) s = .next { s with pu := { s.pu with outstanding := none } })

/-- A returned own PRESENCE that does not prove the ring: a clash, reported once, or a late return, dropped. -/
def Sys2Proof.Clause.ReturnedPresenceShowsClash : Prop :=
  ∀ (bytes : List Byte) (f : Frame) (sequence flags first last : Byte) (s : State),
    s.rstnLow = false → s.isMember = true → goodFrame bytes false = some f → f.origin.toNat = s.address →
    f.message = some (.presence sequence flags first last) →
    (∀ left, s.pu.outstanding = some { sequence := sequence.toNat, phase := .timing left } →
      first.toNat ≠ s.windowFirst ∨ last.toNat ≠ s.windowLast) →
    ((first.toNat ≠ s.windowFirst ∨ last.toNat ≠ s.windowLast ∨
        s.pu.outstanding = some { sequence := sequence.toNat, phase := .queued } ∨ sequence.toNat ∉ s.pu.recent) →
      exec (.frameArrival bytes false) s = .next
        (if s.pu.clashReported then s
         else post (.addressClash s.address) { s with pu := { s.pu with clashReported := true } })) ∧
    (first.toNat = s.windowFirst → last.toNat = s.windowLast →
        s.pu.outstanding ≠ some { sequence := sequence.toNat, phase := .queued } → sequence.toNat ∈ s.pu.recent →
      exec (.frameArrival bytes false) s = .next s)

/-- A returned own PRESENCE: the proof of the ring, a clash, or a late return. -/
def Obligations.ReturnedPresence : Prop := Clause.ReturnedPresenceProvesRing ∧ Clause.ReturnedPresenceShowsClash

/-- A PRESENCE from a peer not in the table adds it: PEER_JOINED, then OWNERSHIP_CLASH for the lowest zone the windows share;
no cleanup. -/
def Obligations.UnknownPeerIsAdded : Prop :=
  ∀ (bytes : List Byte) (f : Frame) (sequence flags first last : Byte) (s : State),
    s.rstnLow = false → s.isMember = true → goodFrame bytes false = some f → f.origin.toNat ≠ s.address →
    1 ≤ f.origin.toNat → f.origin.toNat ≤ 32 → f.hop.toNat < 31 → s.rp.forward.length < 4 →
    f.message = some (.presence sequence flags first last) → (∀ p ∈ s.pu.peers, p.address ≠ f.origin.toNat) →
    s.pu.peers.Pairwise (fun p q => p.address < q.address) →
    ∃ t, exec (.frameArrival bytes false) s = .next t ∧ t.cleanups = s.cleanups ∧
      t.rp = s.rp.placeForward (Clause.carriedOn f) ∧ t.za = s.za ∧ t.cu = s.cu ∧ t.lu = s.lu ∧
      t.pu.ringState = s.pu.ringState ∧
      t.pu.peers.Pairwise (fun p q => p.address < q.address) ∧
      (∀ p, p ∈ t.pu.peers ↔ p ∈ s.pu.peers ∨
        p = { address := f.origin.toNat, first := first.toNat, last := last.toNat, joining := flags.getLsbD 0,
              age := 3 * s.presencePeriod }) ∧
      ((∀ z, ¬(s.owns z ∧ inBounds first.toNat last.toNat z)) →
        t.cp = (post (.peerJoined f.origin.toNat) s).cp) ∧
      (∀ z, s.owns z → inBounds first.toNat last.toNat z →
        (∀ z' < z, ¬(s.owns z' ∧ inBounds first.toNat last.toNat z')) →
        t.cp = (post (.ownershipClash z f.origin.toNat) (post (.peerJoined f.origin.toNat) s)).cp)

/-- A PRESENCE from a known peer: its entry is renewed, a changed window that overlaps posts OWNERSHIP_CLASH for the lowest
shared zone, and a joining flag on a clear mark is a restart, which is posted and starts cleanup once. -/
def Obligations.KnownPeerIsRenewed : Prop :=
  ∀ (bytes : List Byte) (f : Frame) (sequence flags first last : Byte) (p : Peer) (s : State),
    s.rstnLow = false → s.isMember = true → goodFrame bytes false = some f → f.origin.toNat ≠ s.address →
    1 ≤ f.origin.toNat → f.origin.toNat ≤ 32 → f.hop.toNat < 31 → s.rp.forward.length < 4 →
    f.message = some (.presence sequence flags first last) → s.peer f.origin.toNat = some p →
    ∃ t, exec (.frameArrival bytes false) s = .next t ∧
      t.rp = s.rp.placeForward (Clause.carriedOn f) ∧ t.za = s.za ∧ t.cu = s.cu ∧ t.lu = s.lu ∧
      t.peer f.origin.toNat = some { p with first := first.toNat, last := last.toNat, joining := flags.getLsbD 0,
                                            age := 3 * s.presencePeriod } ∧
      (∀ a, a ≠ f.origin.toNat → t.peer a = s.peer a) ∧
      (flags.getLsbD 0 = true → p.joining = false →
        t.cleanups = s.cleanups ++ [{ side := .owner, peer := f.origin.toNat, cause := .restarted },
                                    { side := .origin, peer := f.origin.toNat, cause := .restarted }]) ∧
      (¬(flags.getLsbD 0 = true ∧ p.joining = false) → t.cleanups = s.cleanups) ∧
      let restarted := flags.getLsbD 0 = true ∧ p.joining = false
      let shared := fun z => s.owns z = true ∧ inBounds first.toNat last.toNat z = true
      let told := fun u : State => if restarted then post (.peerRestarted f.origin.toNat) u else u
      (((p.first = first.toNat ∧ p.last = last.toNat) ∨ ∀ z, ¬shared z) → t.cp = (told s).cp) ∧
      (∀ z, (p.first ≠ first.toNat ∨ p.last ≠ last.toNat) → shared z → (∀ z' < z, ¬shared z') →
        t.cp = (told (post (.ownershipClash z f.origin.toNat) s)).cp)

/-- An age timer's expiry removes the peer, posts PEER_LEFT and starts cleanup on both sides; nothing where the table does not
hold the peer (log 8). -/
def Obligations.SilentPeerIsRemoved : Prop :=
  ∀ (a : Nat) (s : State),
    (∀ p, s.peer a = some p →
      exec (.ageTimerExpiry a) s = .next
        { post (.peerLeft a) s with
          pu := { s.pu with peers := s.pu.peers.filter fun p => p.address ≠ a }
          cleanups := s.cleanups ++ [{ side := .owner, peer := a, cause := .lost },
                                     { side := .origin, peer := a, cause := .lost }] }) ∧
    (s.peer a = none → exec (.ageTimerExpiry a) s = .next s)

/-! Zones -/

/-- The verdict when the tag has a role in the zone, or fails the floor test: written as it is, and the state unchanged. -/
def Sys2Proof.Clause.TagPresentAndFloorRefuse : Prop :=
  ∀ (z : Nat) (t : Terms) (r : ZoneRecord) (s : State),
    (t.tag ∈ r.tags → answer z t r s = (.busy, s)) ∧
    (t.tag ∉ r.tags → r.floor ≤ t.level → answer z t r s = (.floor, s))

/-- The verdict in a zone with a reservation, and in one without: the table of the active level, the policy and the wait
flag, before the listen test. -/
def Sys2Proof.Clause.VerdictOfALevel : Prop :=
  ∀ (t : Terms) (r : ZoneRecord), t.tag ∉ r.tags → t.level < r.floor →
    let written : Verdict → Verdict := fun v =>
      if t.wait = true ∧ t.mode = .any ∧ r.waiting.length < 4 then .waiting else v
    (∀ v, r.reservation = some v →
      ((t.level < v.level ∧ ∀ a, r.activeLevel = some a → t.level < a) → r.verdict t = .held) ∧
      (¬(t.level < v.level ∧ ∀ a, r.activeLevel = some a → t.level < a) → r.verdict t = written .busy)) ∧
    (r.reservation = none →
      (r.activeLevel = none → r.verdict t = .held) ∧
      ∀ a, r.activeLevel = some a →
        (t.level < a → r.verdict t = .held) ∧
        (a < t.level → r.verdict t = written .lower) ∧
        (t.level = a → r.policy = .stack → r.verdict t = written .busy) ∧
        (t.level = a → r.policy = .mix → r.active.length < 4 → r.verdict t = .held) ∧
        (t.level = a → r.policy = .mix → 4 ≤ r.active.length → r.verdict t = written .full))

/-- The verdict on a claim in an own zone. -/
def Obligations.VerdictTable : Prop := Clause.TagPresentAndFloorRefuse ∧ Clause.VerdictOfALevel

/-- A refusal is written as WAITING when the claim may wait; WAITING and every refusal record nothing in the zone and take no
reference, and an ALL claim is never answered WAITING. -/
def Obligations.WaitingIsWrittenForRefusals : Prop :=
  ∀ (z : Nat) (t : Terms) (r : ZoneRecord) (s : State),
    (r.bid t.level = .busy ∨ r.bid t.level = .full ∨ r.bid t.level = .lower → t.tag ∉ r.tags → t.level < r.floor →
      answer z t r s =
        (if t.wait = true ∧ t.mode = .any ∧ r.waiting.length < 4 then .waiting else r.bid t.level, s)) ∧
    ((answer z t r s).1 = .waiting → (answer z t r s).2 = s ∧ t.mode = .any ∧ t.wait = true) ∧
    (t.level < r.floor → 4 ≤ r.waiting.length → commitWaiting z t r s = (.full, s)) ∧
    (t.level < r.floor → r.waiting.length < 4 → s.canListen t.tag = false → commitWaiting z t r s = (.noroom, s))

/-- A HELD verdict makes the tag the reservation with the hold timer started, after breaking a reservation in the way; with
no listen place it is NOROOM and nothing changes. -/
def Obligations.HeldMakesTheReservation : Prop :=
  ∀ (z : Nat) (t : Terms) (r : ZoneRecord) (s : State), s.ZonesMatch → s.Coherent → s.zone z = some r →
    r.verdict t = .held →
    (s.canListen t.tag = false → answer z t r s = (.noroom, s)) ∧
    (s.canListen t.tag = true →
      (answer z t r s).1 = .held ∧
      (answer z t r s).2.zone z = some { r with
        reservation := some { tag := t.tag, level := t.level, hold := s.holdTime }
        superseded := match r.reservation with
          | some v => some v.tag
          | none => r.superseded } ∧
      (∀ z', z' ≠ z → (answer z t r s).2.zone z' = s.zone z') ∧
      (answer z t r s).2.rp = s.rp ∧ (answer z t r s).2.cp = s.cp ∧ (answer z t r s).2.cu = s.cu ∧
      (answer z t r s).2.me = s.me)

/-- An owner writes its verdict and address into its own BLANK entries of a CLAIM, and leaves every other entry alone. -/
def Sys2Proof.Clause.OwnerWritesOnlyItsOwnEntries : Prop :=
  ∀ (origin : Nat) (c : Content) (s : State), s.ZonesMatch → s.Coherent →
    (claimAtOwner origin c s).1.entries.length = c.entries.length ∧
    ∀ (i : Nat) (e : WireEntry), c.entries[i]? = some e →
      ∃ w, (claimAtOwner origin c s).1.entries[i]? = some w ∧
        ((s.owns e.zone.toNat = true ∧ e.verdict = 0 ∧ e.owner = 0) →
          w.zone = e.zone ∧ w.ack = e.ack ∧ w.owner.toNat = s.address ∧ 1 ≤ w.verdict.toNat ∧ w.verdict.toNat ≤ 7) ∧
        (¬(s.owns e.zone.toNat = true ∧ e.verdict = 0 ∧ e.owner = 0) → w = e)

/-- An owner acknowledges the HELD and WAITING entries of a COMMIT that carry its address, and leaves every other alone. -/
def Sys2Proof.Clause.OwnerAcknowledgesItsOwnEntries : Prop :=
  ∀ (origin : Nat) (c : Content) (s : State), s.ZonesMatch → s.Coherent →
    (commitAtOwner origin c s).1.entries.length = c.entries.length ∧
    ∀ (i : Nat) (e : WireEntry), c.entries[i]? = some e →
      ∃ w, (commitAtOwner origin c s).1.entries[i]? = some w ∧
        ((s.owns e.zone.toNat = true ∧ e.owner.toNat = s.address ∧ (e.verdict = 1 ∨ e.verdict = 2)) →
          w.zone = e.zone ∧ w.verdict = e.verdict ∧ w.owner = e.owner ∧ 1 ≤ w.ack.toNat ∧ w.ack.toNat ≤ 8) ∧
        (¬(s.owns e.zone.toNat = true ∧ e.owner.toNat = s.address ∧ (e.verdict = 1 ∨ e.verdict = 2)) → w = e)

/-- A peer's CLAIM or COMMIT that finds room is taken by the owner and carried on with the body the owner leaves, hop count
plus one and a new check. -/
def Sys2Proof.Clause.PeerFramesAreAnsweredAndCarriedOn : Prop :=
  ∀ (bytes : List Byte) (f : Frame) (c : Content) (s : State), Clause.peerArrival bytes f s →
    (f.message = some (.claim c) →
      let answered := claimAtOwner f.origin.toNat c s
      exec (.frameArrival bytes false) s = .next
        { answered.2 with
          rp := answered.2.rp.placeForward (Clause.carriedOn { f with body := answered.1.claimBody }) }) ∧
    (f.message = some (.commit c) →
      let answered := commitAtOwner f.origin.toNat c s
      exec (.frameArrival bytes false) s = .next
        { answered.2 with
          rp := answered.2.rp.placeForward (Clause.carriedOn { f with body := answered.1.commitBody }) })

/-- A claim's terms as an owner reads them from a content: out-of-range values taken at their limits. -/
def Sys2Proof.Clause.termsIn (origin : Nat) (c : Content) : Terms :=
  { tag := { origin := origin, slot := c.slot.toNat, generation := c.generation.toNat }
    level := min c.level.toNat 7
    mode := if c.mode = 1 then .all else .any
    wait := decide (c.wait ≠ 0)
    gain := min c.gain.toNat 32767
    duration := min c.duration.toNat 6000 }

/-- An owner takes the entries of a CLAIM and of a COMMIT in list order, each whole before the next. -/
def Sys2Proof.Clause.EntriesAreTakenInOrder : Prop :=
  ∀ (origin : Nat) (c : Content) (e : WireEntry) (rest : List WireEntry) (s : State), c.entries = e :: rest →
    (let one := claimAtOwner origin { c with entries := [e] } s
     let more := claimAtOwner origin { c with entries := rest } one.2
     claimAtOwner origin c s = ({ c with entries := one.1.entries ++ more.1.entries }, more.2)) ∧
    (let one := commitAtOwner origin { c with entries := [e] } s
     let more := commitAtOwner origin { c with entries := rest } one.2
     commitAtOwner origin c s = ({ c with entries := one.1.entries ++ more.1.entries }, more.2))

/-- One entry of a CLAIM: outside the window it is left; BLANK with owner 0 it takes the verdict and the station's address;
answered by another it is left, with OWNERSHIP_CLASH posted. -/
def Sys2Proof.Clause.OneEntryOfAClaim : Prop :=
  ∀ (origin : Nat) (c : Content) (e : WireEntry) (s : State), c.entries = [e] →
    (s.zone e.zone.toNat = none → claimAtOwner origin c s = (c, s)) ∧
    (∀ r, s.zone e.zone.toNat = some r →
      (e.verdict = 0 → e.owner = 0 →
        let answered := answer e.zone.toNat (Clause.termsIn origin c) r s
        claimAtOwner origin c s =
          ({ c with entries := [{ e with verdict := answered.1.code, owner := byteOf s.address }] }, answered.2)) ∧
      (¬(e.verdict = 0 ∧ e.owner = 0) →
        claimAtOwner origin c s = (c, post (.ownershipClash e.zone.toNat e.owner.toNat) s)))

/-- One entry of a COMMIT with verdict HELD or WAITING and this station as owner: LAPSED with the zone unchanged for a tag
that has a place in the zone already, else acknowledged by the verdict it carries. Every other entry is left. -/
def Sys2Proof.Clause.OneEntryOfACommit : Prop :=
  ∀ (origin : Nat) (c : Content) (e : WireEntry) (s : State), c.entries = [e] →
    let t := Clause.termsIn origin c
    let written := fun ack : Byte => { c with entries := [{ e with ack := ack }] }
    ((s.zone e.zone.toNat = none ∨ e.owner.toNat ≠ s.address ∨ (e.verdict ≠ 1 ∧ e.verdict ≠ 2)) →
      commitAtOwner origin c s = (c, s)) ∧
    (∀ r, s.zone e.zone.toNat = some r → e.owner.toNat = s.address →
      ((e.verdict = 1 ∨ e.verdict = 2) → t.tag ∈ r.placedTags → commitAtOwner origin c s = (written 3, s)) ∧
      (e.verdict = 1 → t.tag ∉ r.placedTags →
        let answered := commitHeld e.zone.toNat t r s
        commitAtOwner origin c s = (written answered.1.code, answered.2)) ∧
      (e.verdict = 2 → t.tag ∉ r.placedTags →
        let answered := commitWaiting e.zone.toNat t r s
        commitAtOwner origin c s = (written answered.1.code, answered.2)))

/-- What an owner writes into a CLAIM and into a COMMIT, entry by entry, and the frame that goes on. -/
def Obligations.OwnersWriteOnlyTheirEntries : Prop :=
  Clause.OwnerWritesOnlyItsOwnEntries ∧ Clause.OwnerAcknowledgesItsOwnEntries ∧
    Clause.PeerFramesAreAnsweredAndCarriedOn ∧ Clause.EntriesAreTakenInOrder ∧ Clause.OneEntryOfAClaim ∧
    Clause.OneEntryOfACommit

/-- A HELD entry of a COMMIT whose tag holds the reservation: FLOOR, TAKEN or OUTRANKED, and what each leaves. Settling is
the model's `settle`. -/
def Sys2Proof.Clause.CommitTakesTheReservation : Prop :=
  ∀ (z : Nat) (t : Terms) (r : ZoneRecord) (v : Reservation) (s : State), s.ZonesMatch → s.Coherent →
    s.zone z = some r → r.reservation = some v → v.tag = t.tag →
    let member : Member := { tag := t.tag, left := if t.duration = 0 then none else some (t.duration * 10) }
    let without := updateZone z (fun r => { r with reservation := none }) s
    let entered := fun (active : List Member) (s : State) =>
      settle z none (!r.active.isEmpty)
        (post (.zoneGranted z t.tag) (reportStanding t.tag (updateZone z (fun r =>
          { r with active := active, activeLevel := some t.level }) s)))
    (r.floor ≤ t.level → commitHeld z t r s = (.floor, releaseRole t.tag without)) ∧
    (t.level < r.floor →
      (r.activeLevel = none → r.active = [] → commitHeld z t r s = (.taken, entered [member] without)) ∧
      (∀ a, r.activeLevel = some a → r.policy = .mix → t.level = a → r.active.length < 4 →
        commitHeld z t r s = (.taken, entered (r.active ++ [member]) without)) ∧
      (∀ a, r.activeLevel = some a → r.active ≠ [] → t.level < a →
        commitHeld z t r s = (.taken, entered [member] (pushActive z without))) ∧
      (∀ a, r.activeLevel = some a → a < t.level ∨ (t.level = a ∧ (r.policy = .stack ∨ 4 ≤ r.active.length)) →
        commitHeld z t r s = (.outranked, releaseRole t.tag without)))

/-- A HELD entry of a COMMIT whose tag does not hold the reservation: PREEMPTED when superseded, else LAPSED. -/
def Sys2Proof.Clause.LostReservationIsAnswered : Prop :=
  ∀ (z : Nat) (t : Terms) (r : ZoneRecord) (s : State), (∀ v, r.reservation = some v → v.tag ≠ t.tag) →
    (r.superseded = some t.tag →
      commitHeld z t r s = (.preempted, updateZone z (fun r => { r with superseded := none }) s)) ∧
    (r.superseded ≠ some t.tag → commitHeld z t r s = (.lapsed, s))

/-- A HELD entry of a COMMIT, with its reservation and without. -/
def Obligations.CommitAnswersHeldEntries : Prop := Clause.CommitTakesTheReservation ∧ Clause.LostReservationIsAnswered

/-- A WAITING entry of a COMMIT: three tests in order, then a place behind every entry as urgent, and settling. Where the tag
holds the zone's reservation, that is removed with its reference as the tag joins (log 9); another claim's reservation stays. -/
def Obligations.CommitJoinsTheWaitList : Prop :=
  ∀ (z : Nat) (t : Terms) (r : ZoneRecord) (s : State),
    (r.floor ≤ t.level → commitWaiting z t r s = (.floor, s)) ∧
    (t.level < r.floor → 4 ≤ r.waiting.length → commitWaiting z t r s = (.full, s)) ∧
    (t.level < r.floor → r.waiting.length < 4 → s.canListen t.tag = false → commitWaiting z t r s = (.noroom, s)) ∧
    (t.level < r.floor → r.waiting.length < 4 → s.canListen t.tag = true →
      (r.waiting.map (·.level)).Pairwise (· ≤ ·) → s.ZonesMatch → s.Coherent → s.zone z = some r →
      ∃ before after, r.waiting = before ++ after ∧ (∀ w ∈ before, w.level ≤ t.level) ∧
        (∀ w ∈ after, t.level < w.level) ∧
        (let taken := takeReference t.tag t.gain t.duration s
         let rid := if r.isReserved t.tag then
           releaseRole t.tag (updateZone z (fun r => { r with reservation := none }) taken) else taken
         (commitWaiting z t r s).2 = settle z (some t.tag) (!r.active.isEmpty)
           (reportStanding t.tag (updateZone z (fun r =>
             { r with waiting := before ++ { tag := t.tag, level := t.level } :: after }) rid))) ∧
        (∀ r', (commitWaiting z t r s).2.zone z = some r' →
          r'.reservation = if r.isReserved t.tag then none else r.reservation) ∧
        (commitWaiting z t r s).1 =
          if ((commitWaiting z t r s).2.zone z).any (·.isActive t.tag) then .taken else .queued)

/-- The member record of a waiter that is let in: its auto-end timer starts with the duration its listen entry holds. -/
def Sys2Proof.Clause.memberOf (s : State) (w : Waiter) : Member :=
  { tag := w.tag
    left := match s.listenEntry w.tag with
      | some e => if e.duration = 0 then none else some (e.duration * 10)
      | none => none }

/-- The waiters let in together: the head alone under STACK; under MIX the head and those behind it at its level, four in
all. -/
def Sys2Proof.Clause.letIn (policy : Policy) : List Waiter → List Waiter
  | [] => []
  | w :: rest =>
    match policy with
    | .stack => [w]
    | .mix => ((w :: rest).takeWhile fun v => v.level == w.level).take 4

/-- A pass of settling over an empty active set: the top groups and the waiters that fail the floor test are pruned; then the
top group is resumed, where no waiter is more urgent, or the head waiter is promoted, or the zone is left empty. -/
def Sys2Proof.Clause.PassOverAnEmptySet : Prop :=
  ∀ (z : Nat) (own : Option Tag) (r : ZoneRecord) (s : State), s.ZonesMatch → s.Coherent → s.zone z = some r →
    r.Sound → r.active = [] →
    let stack := r.stack.dropWhile fun g => decide (r.floor ≤ g.level)
    let waiting := r.waiting.filter fun w => decide (w.level < r.floor)
    let left := fun r' : ZoneRecord =>
      ∃ t, settlePass z own s = some t ∧ t.zone z = some r' ∧ ∀ z', z' ≠ z → t.zone z' = s.zone z'
    (r.stack = [] → r.waiting = [] → settlePass z own s = none) ∧
    (¬(r.stack = [] ∧ r.waiting = []) → stack = [] → waiting = [] → left { r with stack := [], waiting := [] }) ∧
    (∀ g rest, stack = g :: rest → (∀ w ∈ waiting.head?, g.level ≤ w.level) →
      left { r with active := g.members, activeLevel := some g.level, stack := rest, waiting := waiting }) ∧
    (∀ w rest, waiting = w :: rest → (∀ g ∈ stack.head?, w.level < g.level) →
      let entering := Clause.letIn r.policy waiting
      left { r with
        active := entering.map (Clause.memberOf s)
        activeLevel := some w.level
        stack := stack
        waiting := waiting.drop entering.length })

/-- A pass of settling over an active set: a more urgent head waiter displaces the set, a head waiter at its level joins it
under MIX with room, one due either way that fails the floor test ends, and any other waits on. -/
def Sys2Proof.Clause.PassOverAnActiveSet : Prop :=
  ∀ (z : Nat) (own : Option Tag) (r : ZoneRecord) (a : Nat) (s : State), s.ZonesMatch → s.Coherent →
    s.zone z = some r → r.Sound → r.activeLevel = some a →
    let left := fun r' : ZoneRecord =>
      ∃ t, settlePass z own s = some t ∧ t.zone z = some r' ∧ ∀ z', z' ≠ z → t.zone z' = s.zone z'
    (r.waiting = [] → settlePass z own s = none) ∧
    ∀ w rest, r.waiting = w :: rest →
      let displaces := w.level < a
      let joins := w.level = a ∧ r.policy = .mix ∧ r.active.length < 4
      let entering := Clause.letIn r.policy r.waiting
      (displaces → w.level < r.floor →
        left { r with
          active := entering.map (Clause.memberOf s)
          activeLevel := some w.level
          stack := { level := a, members := r.active } :: r.stack
          waiting := r.waiting.drop entering.length }) ∧
      (joins → w.level < r.floor → left { r with active := r.active ++ [Clause.memberOf s w], waiting := rest }) ∧
      (displaces ∨ joins → r.floor ≤ w.level → left { r with waiting := rest }) ∧
      (¬(displaces ∨ joins) → settlePass z own s = none)

/-- No pass over a settled zone changes anything. -/
def Sys2Proof.Clause.SettledZonesAreAtRest : Prop :=
  ∀ (z : Nat) (own : Option Tag) (wasActive : Bool) (s : State), s.ZonesMatch → s.Coherent →
    (∀ r ∈ s.za, r.Sound) → settlePass z own (settle z own wasActive s) = none

/-- What a pass of settling does to the record, and that settling comes to rest. -/
def Obligations.SettlingComesToRest : Prop :=
  Clause.PassOverAnEmptySet ∧ Clause.PassOverAnActiveSet ∧ Clause.SettledZonesAreAtRest

/-- A hold timer's expiry removes the reservation and changes nothing else in any record, nor any notice, frame or claim;
nothing where the zone holds no reservation (log 8). -/
def Sys2Proof.Clause.HoldExpiryRemovesTheReservation : Prop :=
  ∀ (z : Nat) (s : State), s.ZonesMatch → s.Coherent →
    (∀ r v, s.zone z = some r → r.reservation = some v →
      ∃ t, exec (.holdTimerExpiry z) s = .next t ∧ t.zone z = some { r with reservation := none } ∧
        (∀ z', z' ≠ z → t.zone z' = s.zone z') ∧ t.rp = s.rp ∧ t.cp = s.cp ∧ t.cu = s.cu ∧ t.pu = s.pu ∧ t.me = s.me ∧
        ∀ u, u ≠ v.tag → t.listenEntry u = s.listenEntry u) ∧
    ((∀ r, s.zone z = some r → r.reservation = none) → exec (.holdTimerExpiry z) s = .next s)

/-- An auto-end expiry of an active member: the tag has no place left in the zone, its role told and posted with AUTO_END
before settling. -/
def Sys2Proof.Clause.AutoEndExpiryEndsTheMember : Prop :=
  ∀ (z : Nat) (tag : Tag) (r : ZoneRecord) (m : Member) (s : State), s.Safe → s.zone z = some r → m ∈ r.active →
    m.tag = tag → m.left.isSome = true →
    ∃ t, exec (.autoEndTimerExpiry z tag) s = .next t ∧
      (∃ r', t.zone z = some r' ∧ tag ∉ r'.placedTags ∧ r'.Lawful) ∧
      (∀ z', z' ≠ z → t.zone z' = s.zone z') ∧
      t = settle z none true (notify z tag (.ended .autoEnd)
        (reportStanding tag (releaseReference tag (updateZone z (·.without tag) s))))

/-- The two timers of a zone: a hold timer and an auto-end timer. -/
def Obligations.ZoneTimersExpire : Prop := Clause.HoldExpiryRemovesTheReservation ∧ Clause.AutoEndExpiryEndsTheMember

/-- CLEAR ZONE leaves nothing in the zone's record but its fixed fields and floor, and touches no other zone. -/
def Obligations.ClearZoneEmptiesTheRecord : Prop :=
  ∀ (zone : Byte) (r : ZoneRecord) (s : State), s.Safe → s.rstnLow = false → s.zone zone.toNat = some r →
    ∃ t, exec (.clearZone zone) s = .next t ∧ t.cp.response = [0] ∧
      t.zone zone.toNat = some { r with active := [], activeLevel := none, reservation := none, superseded := none,
                                        stack := [], waiting := [] } ∧
      ∀ z', z' ≠ zone.toNat → t.zone z' = s.zone z'

/-- SET FLOOR sets the floor, posts ZONE_FLOOR and settles the zone; the tags that were active keep their places. In a zone at
rest the floor and the notice are all that changes, so its members play on. -/
def Obligations.SetFloorKeepsActiveMembers : Prop :=
  ∀ (zone floor : Byte) (r : ZoneRecord) (s : State), s.Safe → s.rstnLow = false → s.zone zone.toNat = some r →
    (1 ≤ floor.toNat → floor.toNat ≤ 7 →
      let lowered := updateZone zone.toNat (fun r => { r with floor := floor.toNat }) s
      let settled := settle zone.toNat none (!r.active.isEmpty) (post (.zoneFloor zone.toNat floor.toNat) lowered)
      let t := { settled with cp := { settled.cp with response := [0] } }
      exec (.setFloor zone floor) s = .next t ∧
        (settlePass zone.toNat none s = none →
          t = { s with
            za := s.za.map fun q => if q.zone = zone.toNat then { q with floor := floor.toNat } else q
            cp := { (post (.zoneFloor zone.toNat floor.toNat) s).cp with response := [0] } }) ∧
        (∃ r', t.zone zone.toNat = some r' ∧ r'.floor = floor.toNat ∧ r'.policy = r.policy ∧
          ∀ m ∈ r.active, ∃ m', m'.tag = m.tag ∧
            (m' ∈ r'.active ∨ ∃ g ∈ r'.stack, m' ∈ g.members)) ∧
        ∀ z', z' ≠ zone.toNat → t.zone z' = s.zone z') ∧
    (¬(1 ≤ floor.toNat ∧ floor.toNat ≤ 7) →
      exec (.setFloor zone floor) s = .next { s with cp := { s.cp with response := [2] } })

/-- Cleanup at the owner: no role and no superseded tag of the peer is left in any own zone; the request is taken off. -/
def Sys2Proof.Clause.CleanupEndsEveryRoleOfThePeer : Prop :=
  ∀ (peer : Nat) (cause : CleanupCause) (s : State), s.Safe →
    ∃ t, exec (.cleanupRequestAtOwner peer cause) s = .next t ∧
      t.cleanups = s.cleanups.erase { side := .owner, peer := peer, cause := cause } ∧
      ∀ r ∈ t.za, (∀ u ∈ r.tags, u.origin ≠ peer) ∧ ∀ u, r.superseded = some u → u.origin ≠ peer

/-- A WITHDRAW from the ring: no role and no superseded tag of the claim is left in any own zone, and its entry is freed. -/
def Sys2Proof.Clause.WithdrawEndsEveryRoleOfTheTag : Prop :=
  ∀ (bytes : List Byte) (f : Frame) (slot generation : Byte) (s : State), s.Safe → s.rstnLow = false →
    s.isMember = true → goodFrame bytes false = some f → f.origin.toNat ≠ s.address → 1 ≤ f.origin.toNat →
    f.origin.toNat ≤ 32 → f.hop.toNat < 31 → s.rp.forward.length < 4 → f.message = some (.withdraw slot generation) →
    let tag : Tag := { origin := f.origin.toNat, slot := slot.toNat, generation := generation.toNat }
    ∃ t, exec (.frameArrival bytes false) s = .next t ∧ t.listenEntry tag = none ∧
      ∀ r ∈ t.za, tag ∉ r.tags ∧ r.superseded ≠ some tag

/-- A lapse: no role of the tag is left in any own zone and its listen entry is freed within the event; nothing where the
timer does not run (log 8). -/
def Sys2Proof.Clause.LapseEndsEveryRoleOfTheTag : Prop :=
  ∀ (tag : Tag) (e : ListenEntry) (s : State), s.Safe → s.listenEntry tag = some e →
    (e.lapse.isSome = true →
      ∃ t, exec (.lapseTimerExpiry tag) s = .next t ∧ t.listenEntry tag = none ∧
        ∀ r ∈ t.za, tag ∉ r.tags ∧ r.superseded ≠ some tag) ∧
    (e.lapse = none → exec (.lapseTimerExpiry tag) s = .next s)

/-- Cleanup, WITHDRAW and lapse leave no role of the claims they end. -/
def Obligations.NoRoleIsLeft : Prop := Clause.CleanupEndsEveryRoleOfThePeer ∧ Clause.WithdrawEndsEveryRoleOfTheTag ∧ Clause.LapseEndsEveryRoleOfTheTag

/-! Claims -/

/-- The four issue checks, in order, of a claim description: the first that fails gives the code and changes nothing. -/
def Obligations.IssueChecksInOrder : Prop :=
  ∀ (issuer : Issuer) (d : ClaimDesc) (s : State),
    let valid := 1 ≤ d.zones.length ∧ d.zones.length ≤ 8 ∧ (∀ z ∈ d.zones, 1 ≤ z ∧ z ≤ 240) ∧ d.zones.Nodup ∧
      d.level ≤ 7 ∧ d.gain ≤ 32767 ∧ d.duration ≤ 6000 ∧ d.port ≤ 3
    let ofRing := ∃ z ∈ d.zones, s.owns z = false
    let free := ∃ k ∈ s.cu, k.state = .free
    (¬valid → issue issuer d s = (.refused .badArgs, s)) ∧
    (valid → s.ringState = .loading → issue issuer d s = (.refused .starting, s)) ∧
    (valid → s.ringState = .passive → issue issuer d s = (.refused .passive, s)) ∧
    (valid → s.ringState = .joining → ofRing → issue issuer d s = (.refused .starting, s)) ∧
    (valid → s.ringState = .broken → ofRing → issue issuer d s = (.refused .ringBroken, s)) ∧
    (valid → s.isMember = true → (ofRing → s.ringState = .up) →
      (¬free → issue issuer d s = (.refused .noSlot, s)) ∧
      (free → ofRing → 16 ≤ s.rp.control.length → issue issuer d s = (.refused .queueFull, s)) ∧
      (free → (ofRing → s.rp.control.length < 16) → ∃ slot generation t, issue issuer d s = (.accepted slot generation, t)))

/-- An accepted CLAIM takes the lowest FREE slot and advances its generation by one modulo 16; every other slot keeps its
own; the response gives the slot and the generation. A ring claim waits in ASKING; a local claim's run ends within the
command, LIVE or FREE. -/
def Sys2Proof.Clause.AcceptedClaimTakesASlot : Prop :=
  ∀ (count : Byte) (places : List Byte) (level mode wait : Byte) (gain duration : Word16) (port : Byte)
    (d : ClaimDesc) (n : Nat) (k : Slot) (s : State),
    s.rstnLow = false → s.isMember = true → claimDescOf count places level mode wait gain duration port = some d →
    descValid d = true → (s.classOf d = .ofRing → s.ringState = .up ∧ s.rp.control.length < 16) →
    s.slot n = some k → k.state = .free → (∀ m < n, ∀ q, s.slot m = some q → q.state ≠ .free) →
    ∃ t, exec (.claim count places level mode wait gain duration port) s = .next t ∧
      (∃ u, issue .host d s = (.accepted n ((k.generation + 1) % 16), u) ∧
        t = { u with cp := { u.cp with response := [0, byteOf n, byteOf ((k.generation + 1) % 16)] } }) ∧
      (t.slot n).map (·.generation) = some ((k.generation + 1) % 16) ∧
      (∀ m, m ≠ n → (t.slot m).map (·.generation) = (s.slot m).map (·.generation)) ∧
      (s.classOf d = .ofRing →
        (t.slot n).map (·.state) = some .asking ∧
        ((t.slot n).bind (·.info)).map (fun i => i.entries.map (·.zone)) = some d.zones) ∧
      (s.classOf d = .ofWindow →
        (t.slot n).map (fun q => (q.state, q.outcome.isSome)) ∈ [some (.live, false), some (.free, true)] ∧
        (t.slot n).map (·.returnTimer) = some none)

/-- The claim record at the end of a local claim on one zone, with the entry's state and last code. -/
def Sys2Proof.Clause.localRecord (issuer : Issuer) (d : ClaimDesc) (z : Nat) (s : State) (state : EntryState)
    (code : LastCode) : ClaimInfo :=
  { issuer := issuer, cls := .ofWindow, port := d.port, level := d.level, mode := d.mode, wait := d.wait, gain := d.gain,
    duration := d.duration, entries := [{ zone := z, owner := some s.address, state := state, lastCode := some code }] }

/-- A local claim on one idle zone it may have goes LIVE and ACTIVE within its issue: the zone takes its tag as the sole
member, ZONE_GRANTED and then CLAIM_LIVE are posted, and no frame is stored. -/
def Sys2Proof.Clause.LocalClaimGoesLive : Prop :=
  ∀ (issuer : Issuer) (d : ClaimDesc) (z n : Nat) (k : Slot) (r : ZoneRecord) (s : State), s.Safe → descValid d = true →
    d.zones = [z] → s.zone z = some r → s.slot n = some k → k.state = .free →
    (∀ m < n, ∀ q, s.slot m = some q → q.state ≠ .free) →
    let generation := (k.generation + 1) % 16
    let tag : Tag := { origin := s.address, slot := n, generation := generation }
    let timer := if d.duration = 0 then none else some (d.duration * 10)
    r.active = [] → r.reservation = none → d.level < r.floor → s.canListen tag = true →
    ∃ t, issue issuer d s = (.accepted n generation, t) ∧
      t.slot n = some { generation := generation, state := .live, outcome := none, durationLeft := timer,
                        returnTimer := none,
                        info := some (Clause.localRecord issuer d z s .active (.ack .taken)) } ∧
      (∀ m, m ≠ n → t.slot m = s.slot m) ∧
      t.zone z = some { r with active := [{ tag := tag, left := timer }], activeLevel := some d.level } ∧
      (∀ z', z' ≠ z → t.zone z' = s.zone z') ∧
      (t.listenEntry tag).map (fun e => e.active) = some true ∧
      t.cp = (post (.claimLive n generation issuer) (post (.zoneGranted z tag) s)).cp ∧
      t.rp = s.rp ∧ t.pu = s.pu ∧ t.ku = s.ku

/-- A local ANY claim on one zone that refuses it is FREE within its issue, with outcome REFUSED and CLAIM_FAILED posted; no
zone, listen entry or frame changes. -/
def Sys2Proof.Clause.LocalClaimIsRefused : Prop :=
  ∀ (issuer : Issuer) (d : ClaimDesc) (z n : Nat) (k : Slot) (r : ZoneRecord) (s : State), s.Safe → descValid d = true →
    d.zones = [z] → d.mode = .any → s.zone z = some r → s.slot n = some k → k.state = .free →
    (∀ m < n, ∀ q, s.slot m = some q → q.state ≠ .free) →
    let generation := (k.generation + 1) % 16
    let verdict := r.verdict
      { tag := { origin := s.address, slot := n, generation := generation }, level := d.level, mode := .any,
        wait := d.wait, gain := d.gain, duration := d.duration }
    verdict ≠ .held → verdict ≠ .waiting →
    ∃ t, issue issuer d s = (.accepted n generation, t) ∧
      t.slot n = some { generation := generation, state := .free, outcome := some .refused, durationLeft := none,
                        returnTimer := none,
                        info := some (Clause.localRecord issuer d z s .refused (.verdict verdict)) } ∧
      (∀ m, m ≠ n → t.slot m = s.slot m) ∧
      t.cp = (post (.claimFailed n generation issuer .refused) s).cp ∧ t.rp = s.rp ∧ t.za = s.za ∧ t.lu = s.lu ∧
      t.pu = s.pu

/-- The slot of an accepted claim, and the run of a local claim to LIVE or to FREE. -/
def Obligations.ClaimTakesTheLowestFreeSlot : Prop :=
  Clause.AcceptedClaimTakesASlot ∧ Clause.LocalClaimGoesLive ∧ Clause.LocalClaimIsRefused

/-- A ring claim with no own zone: its CLAIM is stored with every entry BLANK, and nothing but the slot, the Ring Port and the
response changes. -/
def Obligations.RingClaimIsStored : Prop :=
  ∀ (count : Byte) (places : List Byte) (level mode wait : Byte) (gain duration : Word16) (port : Byte)
    (d : ClaimDesc) (n : Nat) (k : Slot) (s : State),
    s.rstnLow = false → s.ringState = .up → s.za = [] →
    claimDescOf count places level mode wait gain duration port = some d → descValid d = true →
    (∀ z ∈ d.zones, s.owns z = false) → s.rp.control.length < 16 → s.rp.placeSetAside = false →
    s.slot n = some k → k.state = .free → (∀ m < n, ∀ q, s.slot m = some q → q.state ≠ .free) →
    let g := (k.generation + 1) % 16
    exec (.claim count places level mode wait gain duration port) s = .next
      { s with
        cu := s.cu.set n { generation := g, state := .asking, outcome := none, durationLeft := none, returnTimer := none,
                           info := some { issuer := .host, cls := .ofRing, port := d.port, level := d.level,
                                          mode := d.mode, wait := d.wait, gain := d.gain, duration := d.duration,
                                          entries := d.zones.map fun z =>
                                            { zone := z, owner := none, state := .pending, lastCode := none } } }
        rp := ({ s.rp with control := s.rp.control ++ [frameOf s.address 0 (.claim
          { slot := byteOf n, generation := byteOf g, level := level, mode := mode, wait := wait, gain := gain,
            duration := duration,
            entries := d.zones.map fun z => { zone := byteOf z, verdict := 0, ack := 0, owner := 0 } })] } :
              RingPort).arbitrate
        cp := { s.cp with response := [0, byteOf n, byteOf g] } }

/-- A CLAIM that carries no claim description is BAD_ARGS; one that an issue check refuses is answered with its code. -/
def Sys2Proof.Clause.RefusedClaimIsAnswered : Prop :=
  ∀ (count : Byte) (places : List Byte) (level mode wait : Byte) (gain duration : Word16) (port : Byte) (s : State),
    s.rstnLow = false →
    ((count.toNat = 0 ∨ 8 < count.toNat ∨ 1 < mode.toNat ∨ 1 < wait.toNat) →
      exec (.claim count places level mode wait gain duration port) s = .next
        { s with cp := { s.cp with response := [2] } }) ∧
    (∀ d code, claimDescOf count places level mode wait gain duration port = some d →
      issue .host d s = (.refused code, s) →
      exec (.claim count places level mode wait gain duration port) s = .next
        { s with cp := { s.cp with response := [code.code] } })

/-- CLAIM PRESET: the state code in LOADING and PASSIVE, BAD_ARGS for a preset not defined, else the preset's issue. -/
def Sys2Proof.Clause.PresetIsIssued : Prop :=
  ∀ (number : Byte) (s : State), s.rstnLow = false →
    (s.ringState = .loading →
      exec (.claimPreset number) s = .next { s with cp := { s.cp with response := [5] } }) ∧
    (s.ringState = .passive →
      exec (.claimPreset number) s = .next { s with cp := { s.cp with response := [8] } }) ∧
    (s.isMember = true → s.preset number.toNat = none →
      exec (.claimPreset number) s = .next { s with cp := { s.cp with response := [2] } }) ∧
    (∀ p, s.isMember = true → s.preset number.toNat = some p →
      (∀ code t, issue .host p.desc s = (.refused code, t) →
        exec (.claimPreset number) s = .next { t with cp := { t.cp with response := [code.code] } }) ∧
      (∀ slot generation t, issue .host p.desc s = (.accepted slot generation, t) →
        exec (.claimPreset number) s = .next
          { t with cp := { t.cp with response := [0, byteOf slot, byteOf generation] } }))

/-- The answers of CLAIM and CLAIM PRESET to a request that is not accepted, and of a preset that is. -/
def Obligations.IssueCommandsAreAnswered : Prop := Clause.RefusedClaimIsAnswered ∧ Clause.PresetIsIssued

/-- END, the duration timer and the return timer withdraw the claim and free the slot with their outcomes: the own Zone Arbiter
takes the WITHDRAW, which leaves the tag no role; a ring claim's WITHDRAW frame is stored; CLAIM_ENDED or CLAIM_FAILED is posted
after the Zone Arbiter's notices; and no key remembers the claim. -/
def Sys2Proof.Clause.EndingsFreeTheSlot : Prop :=
  ∀ (n : Nat) (k : Slot) (s : State), s.Safe → s.slot n = some k →
    let tag : Tag := { origin := s.address, slot := n, generation := k.generation }
    let withdrawn := withdrawAtOwner tag s
    let ended := fun (outcome : ClaimOutcome) (t : State) =>
      t.slot n = some { k with state := .free, outcome := some outcome, durationLeft := none, returnTimer := none } ∧
      (∀ m, m ≠ n → t.slot m = withdrawn.slot m) ∧
      t.za = withdrawn.za ∧ t.lu = withdrawn.lu ∧
      (∀ r ∈ t.za, tag ∉ r.tags ∧ r.superseded ≠ some tag) ∧
      t.rp = (if k.info.any fun i => i.cls == .ofRing then
          withdrawn.rp.storeControl (frameOf s.address 0 (.withdraw (byteOf n) (byteOf k.generation)))
        else withdrawn.rp) ∧
      ∀ key ∈ t.ku, key.remembered ≠ some (n, k.generation)
    (∀ slot generation : Byte, slot.toNat = n → generation.toNat = k.generation → k.state ≠ .free →
      s.rstnLow = false → s.isMember = true →
      ∃ t, exec (.endClaim slot generation) s = .next t ∧ ended .withdrawn t ∧
        t.cp = { (post (.claimEnded n k.generation k.issuer .withdrawn) withdrawn).cp with response := [0] }) ∧
    (k.state = .live → k.durationLeft.isSome = true →
      ∃ t, exec (.durationTimerExpiry n) s = .next t ∧ ended .autoEnd t ∧
        t.cp = (post (.claimEnded n k.generation k.issuer .autoEnd) withdrawn).cp) ∧
    ((k.state = .asking ∨ k.state = .committing) → k.returnTimer.isSome = true →
      ∃ t, exec (.claimReturnTimerExpiry n) s = .next t ∧ ended .noReturn t ∧
        t.cp = (post (.claimFailed n k.generation k.issuer .noReturn) withdrawn).cp)

/-- END that finds no claim is BAD_ARGS and changes nothing; a timer that does not run does nothing (log 8). -/
def Sys2Proof.Clause.EndingsThatFindNothing : Prop :=
  ∀ (slot generation : Byte) (n : Nat) (s : State),
    (s.rstnLow = false → s.isMember = true →
      (8 ≤ slot.toNat ∨ 16 ≤ generation.toNat ∨
        ∀ k, s.slot slot.toNat = some k → k.state = .free ∨ k.generation ≠ generation.toNat) →
      exec (.endClaim slot generation) s = .next { s with cp := { s.cp with response := [2] } }) ∧
    ((∀ k, s.slot n = some k → k.state ≠ .live ∨ k.durationLeft = none) →
      exec (.durationTimerExpiry n) s = .next s) ∧
    ((∀ k, s.slot n = some k → (k.state ≠ .asking ∧ k.state ≠ .committing) ∨ k.returnTimer = none) →
      exec (.claimReturnTimerExpiry n) s = .next s)

/-- END, duration and return timeout: what they free, and what they do where they find nothing. -/
def Obligations.ClaimsAreEnded : Prop := Clause.EndingsFreeTheSlot ∧ Clause.EndingsThatFindNothing

/-- A returned CLAIM or COMMIT that is not the return of its slot is ignored. -/
def Sys2Proof.Clause.LateReturnsAreIgnored : Prop :=
  ∀ (bytes : List Byte) (f : Frame) (c : Content) (s : State),
    s.rstnLow = false → s.isMember = true → goodFrame bytes false = some f → f.origin.toNat = s.address →
    (f.message = some (.claim c) →
      (∀ k, s.slot c.slot.toNat = some k → k.state ≠ .asking ∨ k.generation ≠ c.generation.toNat ∨
        c.entries.map (·.zone.toNat) ≠ k.entries.map (·.zone)) →
      exec (.frameArrival bytes false) s = .next s) ∧
    (f.message = some (.commit c) →
      (∀ k, s.slot c.slot.toNat = some k → k.state ≠ .committing ∨ k.generation ≠ c.generation.toNat ∨
        c.entries.map (·.zone.toNat) ≠ k.entries.map (·.zone)) →
      exec (.frameArrival bytes false) s = .next s)

/-- The return of a ring claim in ANY mode with no entry HELD or WAITING: every entry takes its verdict and owner, the slot is
FREE with its outcome, CLAIM_FAILED is posted, and no frame is stored and no zone touched. -/
def Sys2Proof.Clause.AnyClaimRefusedAtItsReturn : Prop :=
  ∀ (bytes : List Byte) (f : Frame) (c : Content) (k : Slot) (i : ClaimInfo) (s : State),
    s.rstnLow = false → s.isMember = true → goodFrame bytes false = some f → f.origin.toNat = s.address →
    f.message = some (.claim c) → s.slot c.slot.toNat = some k → k.state = .asking →
    k.generation = c.generation.toNat → k.info = some i → c.entries.map (·.zone.toNat) = i.entries.map (·.zone) →
    i.mode = .any → (∀ w ∈ c.entries, w.verdict ≠ 1 ∧ w.verdict ≠ 2) →
    let outcome : ClaimOutcome := if c.entries.all (fun w => w.verdict == 0) then .noOwner else .refused
    ∃ t, exec (.frameArrival bytes false) s = .next t ∧
      t.slot c.slot.toNat = some { k with
        state := .free
        outcome := some outcome
        durationLeft := none
        returnTimer := none
        info := some { i with entries := List.zipWith (fun (w : WireEntry) (e : ZoneEntry) =>
          { zone := e.zone
            owner := if w.owner = 0 then none else some w.owner.toNat
            state := if w.verdict = 0 then .noOwner else .refused
            lastCode := some (.verdict (verdictOfByte w.verdict)) }) c.entries i.entries } } ∧
      (∀ m, m ≠ c.slot.toNat → t.slot m = s.slot m) ∧
      t.cp = (post (.claimFailed c.slot.toNat k.generation i.issuer outcome) s).cp ∧
      t.rp = s.rp ∧ t.za = s.za ∧ t.lu = s.lu ∧ t.pu = s.pu

/-- An entry at the CLAIM return: owner, verdict and state from the answered entry. -/
def Sys2Proof.Clause.answeredEntry (w : WireEntry) (e : ZoneEntry) : ZoneEntry :=
  { zone := e.zone
    owner := if w.owner = 0 then none else some w.owner.toNat
    state := if w.verdict = 0 then .noOwner else if w.verdict = 1 then .held else if w.verdict = 2 then .waiting else .refused
    lastCode := some (.verdict (verdictOfByte w.verdict)) }

/-- An entry that an acknowledgement reaches: one still PENDING takes state and last code from it, any other keeps its own. -/
def Sys2Proof.Clause.acknowledgedEntry (w : WireEntry) (e : ZoneEntry) : ZoneEntry :=
  if e.state = .pending then
    { e with
      state := if w.ack = 1 then .active else if w.ack = 2 then .waiting else .refused
      lastCode := some (.ack (ackOfByte w.ack)) }
  else e

/-- A returned frame is the return of its slot: state, generation, and the record's zones in order. -/
def Sys2Proof.Clause.returnOf (state : SlotState) (c : Content) (k : Slot) (i : ClaimInfo) (s : State) : Prop :=
  s.slot c.slot.toNat = some k ∧ k.state = state ∧ k.generation = c.generation.toNat ∧ k.info = some i ∧
    c.entries.map (·.zone.toNat) = i.entries.map (·.zone)

/-- The return of a ring claim that commits: with 16 control frames the slot is FREE with QUEUE_FULL and nothing else is done;
with room the slot is COMMITTING, the own Zone Arbiter acknowledges the content with a control place set aside, and the COMMIT
is stored in that place. -/
def Sys2Proof.Clause.ClaimCommitsAtItsReturn : Prop :=
  ∀ (bytes : List Byte) (f : Frame) (c : Content) (k : Slot) (i : ClaimInfo) (s : State), Clause.ownReturn bytes f s →
    f.message = some (.claim c) → Clause.returnOf .asking c k i s → i.cls = .ofRing →
    (i.mode = .all ∧ (∀ w ∈ c.entries, w.verdict = 1)) ∨ (i.mode = .any ∧ ∃ w ∈ c.entries, w.verdict = 1 ∨ w.verdict = 2) →
    let n := c.slot.toNat
    let entries := List.zipWith Clause.answeredEntry c.entries i.entries
    (16 ≤ s.rp.control.length →
      ∃ t, exec (.frameArrival bytes false) s = .next t ∧
        t.slot n = some { k with state := .free, outcome := some .queueFull, durationLeft := none, returnTimer := none,
                                 info := some { i with entries := entries } } ∧
        (∀ m, m ≠ n → t.slot m = s.slot m) ∧
        t.cp = (post (.claimFailed n k.generation i.issuer .queueFull) s).cp ∧
        t.rp = s.rp ∧ t.za = s.za ∧ t.lu = s.lu ∧ t.pu = s.pu) ∧
    (s.rp.control.length < 16 →
      let pending := entries.map fun e => if e.state = .held ∨ e.state = .waiting then { e with state := .pending } else e
      let content : Content :=
        { slot := c.slot, generation := c.generation, level := byteOf i.level, mode := modeCode i.mode,
          wait := flagCode i.wait, gain := BitVec.ofNat 16 i.gain, duration := BitVec.ofNat 16 i.duration,
          entries := c.entries.map fun w => { w with verdict := (verdictOfByte w.verdict).code, ack := 0 } }
      let committing := { s with
        cu := s.cu.set n { k with state := .committing, returnTimer := none, info := some { i with entries := pending } }
        rp := { s.rp with placeSetAside := true } }
      let answered := commitAtOwner s.address content committing
      ∃ t, exec (.frameArrival bytes false) s = .next t ∧
        t.rp = ({ answered.2.rp with
          placeSetAside := false
          control := answered.2.rp.control ++ [frameOf s.address 0 (.commit answered.1)] } : RingPort).arbitrate ∧
        t.slot n = (answered.2.slot n).map (fun q => { q with info := q.info.map fun j => { j with
          entries := List.zipWith (fun w e => if s.owns e.zone ∧ w.owner.toNat = s.address then
            Clause.acknowledgedEntry w e else e) answered.1.entries j.entries } }) ∧
        (t.slot n).map (fun q => (q.state, q.generation, q.returnTimer)) = some (.committing, k.generation, none) ∧
        (∀ m, m ≠ n → t.slot m = answered.2.slot m) ∧
        t.za = answered.2.za ∧ t.lu = answered.2.lu ∧ t.cp = answered.2.cp ∧ t.pu = s.pu)

/-- The return of an ALL claim that is refused: the claim is withdrawn, its slot is FREE with its outcome, and CLAIM_FAILED is
posted after the Zone Arbiter's notices. -/
def Sys2Proof.Clause.AllClaimRefusedAtItsReturn : Prop :=
  ∀ (bytes : List Byte) (f : Frame) (c : Content) (k : Slot) (i : ClaimInfo) (s : State), Clause.ownReturn bytes f s →
    f.message = some (.claim c) → Clause.returnOf .asking c k i s → i.cls = .ofRing → i.mode = .all →
    (∃ w ∈ c.entries, w.verdict ≠ 1) →
    let n := c.slot.toNat
    let entries := List.zipWith Clause.answeredEntry c.entries i.entries
    let outcome : ClaimOutcome := if c.entries.all (fun w => w.verdict == 0) then .noOwner else .refused
    let withdrawn := withdrawAtOwner { origin := s.address, slot := n, generation := k.generation }
      { s with cu := s.cu.set n { k with returnTimer := none, info := some { i with entries := entries } } }
    ∃ t, exec (.frameArrival bytes false) s = .next t ∧
      t.slot n = some { k with state := .free, outcome := some outcome, durationLeft := none, returnTimer := none,
                               info := some { i with entries := entries } } ∧
      (∀ m, m ≠ n → t.slot m = withdrawn.slot m) ∧ t.za = withdrawn.za ∧ t.lu = withdrawn.lu ∧
      t.rp = withdrawn.rp.storeControl (frameOf s.address 0 (.withdraw c.slot c.generation)) ∧
      t.cp = (post (.claimFailed n k.generation i.issuer outcome) withdrawn).cp ∧ t.pu = s.pu

/-- The COMMIT return: the entries still PENDING are acknowledged. An ALL claim with every acknowledgement TAKEN and no entry
terminal, and an ANY claim with a place, goes LIVE with its duration timer started and CLAIM_LIVE posted; else an ALL claim is
withdrawn and BROKEN, and an ANY claim is REFUSED with nothing withdrawn. -/
def Sys2Proof.Clause.CommitReturnDecides : Prop :=
  ∀ (bytes : List Byte) (f : Frame) (c : Content) (k : Slot) (i : ClaimInfo) (s : State), Clause.ownReturn bytes f s →
    f.message = some (.commit c) → Clause.returnOf .committing c k i s → i.cls = .ofRing →
    let n := c.slot.toNat
    let entries := List.zipWith Clause.acknowledgedEntry c.entries i.entries
    let slot : Slot := { k with returnTimer := none, info := some { i with entries := entries } }
    let live := (i.mode = .all ∧ (∀ w ∈ c.entries, w.ack = 1) ∧ ∀ e ∈ entries, e.state.isTerminal = false) ∨
      (i.mode = .any ∧ ∃ e ∈ entries, e.state = .active ∨ e.state = .suspended ∨ e.state = .waiting)
    (live →
      ∃ t, exec (.frameArrival bytes false) s = .next t ∧
        t.slot n = some { slot with
          state := .live
          durationLeft := if i.duration = 0 then none else some (i.duration * 10) } ∧
        (∀ m, m ≠ n → t.slot m = s.slot m) ∧ t.cp = (post (.claimLive n k.generation i.issuer) s).cp ∧
        t.rp = s.rp ∧ t.za = s.za ∧ t.lu = s.lu ∧ t.pu = s.pu) ∧
    (¬live → i.mode = .all →
      let withdrawn := withdrawAtOwner { origin := s.address, slot := n, generation := k.generation }
        { s with cu := s.cu.set n slot }
      ∃ t, exec (.frameArrival bytes false) s = .next t ∧
        t.slot n = some { slot with state := .free, outcome := some .broken, durationLeft := none } ∧
        (∀ m, m ≠ n → t.slot m = withdrawn.slot m) ∧ t.za = withdrawn.za ∧ t.lu = withdrawn.lu ∧
        t.rp = withdrawn.rp.storeControl (frameOf s.address 0 (.withdraw c.slot c.generation)) ∧
        t.cp = (post (.claimFailed n k.generation i.issuer .broken) withdrawn).cp ∧ t.pu = s.pu) ∧
    (¬live → i.mode = .any →
      ∃ t, exec (.frameArrival bytes false) s = .next t ∧
        t.slot n = some { slot with state := .free, outcome := some .refused, durationLeft := none } ∧
        (∀ m, m ≠ n → t.slot m = s.slot m) ∧ t.cp = (post (.claimFailed n k.generation i.issuer .refused) s).cp ∧
        t.rp = s.rp ∧ t.za = s.za ∧ t.lu = s.lu ∧ t.pu = s.pu)

/-- Returned CLAIM and COMMIT frames: ignored ones, refused claims, commits, and the decision that ends in LIVE or FREE. -/
def Obligations.ReturnsAtTheOrigin : Prop :=
  Clause.LateReturnsAreIgnored ∧ Clause.AnyClaimRefusedAtItsReturn ∧ Clause.ClaimCommitsAtItsReturn ∧
    Clause.AllClaimRefusedAtItsReturn ∧ Clause.CommitReturnDecides

/-- The entries of a slot a notice is about: for the zone, owned by the sender and not terminal. -/
def Sys2Proof.Clause.concerns (sender zone : Nat) (e : ZoneEntry) : Bool :=
  e.zone == zone && e.owner == some sender && !e.state.isTerminal

/-- A NOTICE frame for this station, carrying a slot's generation from the owner of a live entry: GRANTED, SUSPENDED and RESUMED
set the entry's state, ENDED ends it with its reason, and CLAIM_ZONE is posted; a LIVE claim left with terminal entries alone is
then FREE with outcome DONE. Any other NOTICE, and one with an event or reason outside the codes, changes no slot. Either way it
is passed on. -/
def Obligations.NoticeSetsTheEntry : Prop :=
  ∀ (bytes : List Byte) (f : Frame) (slot generation zone event reason : Byte) (k : Slot) (s : State),
    Clause.peerArrival bytes f s → f.message = some (.notice slot generation zone event reason) →
    s.slot slot.toNat = some k →
    let n := slot.toNat
    let takes := f.destination.toNat = s.address ∧ (k.state = .committing ∨ k.state = .live) ∧
      k.generation = generation.toNat ∧ ∃ e ∈ k.entries, Clause.concerns f.origin.toNat zone.toNat e
    let setting := fun g : ZoneEntry → ZoneEntry => k.withEntries (k.entries.map fun e =>
      if Clause.concerns f.origin.toNat zone.toNat e then g e else e)
    let known := (1 ≤ event.toNat ∧ event.toNat ≤ 3) ∨ (event = 4 ∧ 1 ≤ reason.toNat ∧ reason.toNat ≤ 4)
    (¬(takes ∧ known) → exec (.frameArrival bytes false) s = .next { s with rp := s.rp.placeForward (Clause.carriedOn f) }) ∧
    (takes → 1 ≤ event.toNat → event.toNat ≤ 3 →
      let state : EntryState := if event = 2 then .suspended else .active
      exec (.frameArrival bytes false) s = .next
        { s with
          rp := s.rp.placeForward (Clause.carriedOn f)
          cu := s.cu.set n (setting fun e => { e with state := state })
          cp := (post (.claimZone n k.generation k.issuer zone.toNat state none) s).cp }) ∧
    (takes → event = 4 → 1 ≤ reason.toNat → reason.toNat ≤ 4 →
      let why : Reason := if reason = 1 then .autoEnd else if reason = 2 then .silent else if reason = 3 then .floor else .cleared
      let ended := setting fun e => { e with state := .ended, lastCode := some (.reason why) }
      let told := post (.claimZone n k.generation k.issuer zone.toNat .ended (some why)) s
      exec (.frameArrival bytes false) s = .next
        (if k.state = .live ∧ ∀ e ∈ ended.entries, e.state.isTerminal = true then
          { s with
            rp := s.rp.placeForward (Clause.carriedOn f)
            cu := s.cu.set n { ended with state := .free, outcome := some .done, durationLeft := none, returnTimer := none }
            ku := s.ku.map fun key =>
              if key.remembered = some (n, k.generation) then { key with remembered := none } else key
            cp := (post (.claimEnded n k.generation k.issuer .done) told).cp }
        else
          { s with
            rp := s.rp.placeForward (Clause.carriedOn f)
            cu := s.cu.set n ended
            cp := told.cp }))

/-- Cleanup at the origin: every live entry the peer owns in a COMMITTING or LIVE slot is LOST, a slot in ASKING or FREE is
as it was, no zone is touched and no frame stored. -/
def Obligations.CleanupMarksEntriesLost : Prop :=
  ∀ (peer : Nat) (cause : CleanupCause) (s : State), s.Shaped →
    ∃ t, exec (.cleanupRequestAtOrigin peer cause) s = .next t ∧
      t.cleanups = s.cleanups.erase { side := .origin, peer := peer, cause := cause } ∧
      t.za = s.za ∧ t.rp = s.rp ∧ t.lu = s.lu ∧ t.pu = s.pu ∧
      ∀ n k, s.slot n = some k →
        (k.state = .free ∨ k.state = .asking → t.slot n = some k) ∧
        (k.state = .committing ∨ k.state = .live →
          (t.slot n).map (·.entries) = some (k.entries.map fun e =>
            if e.state.isTerminal = false ∧ e.owner = some peer then { e with state := .lost } else e)) ∧
        (k.state = .committing → (t.slot n).map (·.state) = some .committing) ∧
        (k.state = .live → (∃ e ∈ k.entries, e.state.isTerminal = false ∧ e.owner = some peer) →
          (∀ e ∈ k.entries, e.state.isTerminal = true ∨ e.owner = some peer) →
          (t.slot n).map (fun q => (q.state, q.outcome)) = some (.free, some .done))

/-- A slot's generation changes only when the slot is taken from FREE, and then by one modulo 16, in every command but a
power-on or RSTN reset. -/
def Obligations.GenerationsAdvanceOnlyFromFree : Prop :=
  ∀ (c : Instr) (s t : State), c ≠ .rstnReset → exec c s = .next t → t.cu.length = s.cu.length ∧
    ∀ n k q, s.slot n = some k → t.slot n = some q →
      q.generation = k.generation ∨ (k.state = .free ∧ q.generation = (k.generation + 1) % 16)

/-! Audio -/

/-- An AUDIO from the ring: the tag's entry alone changes, by the table of the lapse timer and the active flag; the frame is
passed on. -/
def Obligations.AudioReachesItsEntry : Prop :=
  ∀ (bytes : List Byte) (f : Frame) (slot generation : Byte) (samples : List Sample) (s : State),
    s.rstnLow = false → s.isMember = true → goodFrame bytes false = some f → f.origin.toNat ≠ s.address →
    1 ≤ f.origin.toNat → f.origin.toNat ≤ 32 → f.hop.toNat < 31 → s.rp.forward.length < 4 →
    f.message = some (.audio slot generation samples) →
    let tag : Tag := { origin := f.origin.toNat, slot := slot.toNat, generation := generation.toNat }
    exec (.frameArrival bytes false) s = .next
      { s with
        rp := s.rp.placeForward (Clause.carriedOn f)
        lu := s.lu.map fun e =>
          if e.tag = tag ∧ e.lapse.isSome then
            if e.active then
              { e with
                lapse := some s.lapseTime
                buffer := (e.buffer ++ samples).take 64
                primed := e.primed || decide (s.startFill ≤ ((e.buffer ++ samples).take 64).length) }
            else { e with lapse := some s.lapseTime }
          else e }

/-- A strobe at the Stream Sender that completes no block: each port's sample joins its buffer, and nothing else. -/
def Sys2Proof.Clause.StrobeFillsTheBuffers : Prop :=
  ∀ (s0 s1 s2 s3 : Sample) (b0 b1 b2 b3 : List Sample) (s : State), s.isMember = true → s.ss = [b0, b1, b2, b3] →
    b0.length + 1 < s.blockLength → b1.length + 1 < s.blockLength → b2.length + 1 < s.blockLength →
    b3.length + 1 < s.blockLength →
    exec (.sampleStrobeSend s0 s1 s2 s3) s = .next
      { s with ss := [b0 ++ [s0], b1 ++ [s1], b2 ++ [s2], b3 ++ [s3]] }

/-- A strobe that completes the blocks empties the four buffers; with no claim LIVE nothing else changes, and a LIVE ring claim
with no own zone is sent its port's block in one AUDIO frame, or loses it at a full audio queue. A frame stored on a free line
begins at once (log 15). -/
def Sys2Proof.Clause.BlockCompletionSendsTheBlocks : Prop :=
  ∀ (s0 s1 s2 s3 : Sample) (b0 b1 b2 b3 : List Sample) (s : State), s.Bounded → s.isMember = true →
    s.ss = [b0, b1, b2, b3] → b0.length + 1 = s.blockLength →
    (∃ t, exec (.blockCompletion s0 s1 s2 s3) s = .next t ∧ t.ss = [[], [], [], []] ∧ t.cu = s.cu ∧ t.za = s.za ∧
      t.pu = s.pu ∧ t.cp = s.cp ∧ t.rp.control = s.rp.control ∧ t.rp.forward = s.rp.forward) ∧
    ((∀ k ∈ s.cu, k.state ≠ .live) →
      exec (.blockCompletion s0 s1 s2 s3) s = .next { s with ss := [[], [], [], []] }) ∧
    (∀ n k i, n < 8 → s.slot n = some k → k.state = .live → k.info = some i → i.cls = .ofRing → i.port = 0 →
      (∀ m q, m ≠ n → s.slot m = some q → q.state ≠ .live) → (∀ e ∈ i.entries, s.owns e.zone = false) →
      exec (.blockCompletion s0 s1 s2 s3) s = .next
        { s with
          ss := [[], [], [], []]
          rp := if s.rp.audio.length < 8 then
              ({ s.rp with audio := s.rp.audio ++ [frameOf s.address 0
                (.audio (byteOf n) (byteOf k.generation) (b0 ++ [s0]))] } : RingPort).arbitrate
            else s.rp })

/-- The claims a completion sends blocks for, in order: ports S0 to S3, within a port the slots; those LIVE on the port. -/
def Sys2Proof.Clause.claimsInOrder (s : State) : List (Nat × Nat × Slot × ClaimInfo) :=
  (List.range 4).flatMap fun p => (List.range 8).filterMap fun n =>
    match s.slot n with
    | none => none
    | some k =>
      match k.info with
      | none => none
      | some i => if k.state = .live ∧ i.port = p then some (p, n, k, i) else none

/-- The strobe that completes the blocks, for any claims: in order of ports and slots each LIVE ring claim's AUDIO frame is
stored or lost at a full audio queue, and each LIVE claim with an own zone entry ACTIVE, SUSPENDED or WAITING has its block
delivered to its own listen entry as an AUDIO from the ring would be. A frame stored on a free line begins at once (log 15). -/
def Sys2Proof.Clause.BlocksAreSentInOrder : Prop :=
  ∀ (s0 s1 s2 s3 : Sample) (b0 b1 b2 b3 : List Sample) (s : State), s.isMember = true →
    s.ss = [b0, b1, b2, b3] → b0.length + 1 = s.blockLength →
    let block := fun p : Nat => [b0 ++ [s0], b1 ++ [s1], b2 ++ [s2], b3 ++ [s3]].getD p []
    let stored := fun (rp : RingPort) (x : Nat × Nat × Slot × ClaimInfo) =>
      if x.2.2.2.cls = .ofRing ∧ rp.audio.length < 8 then
        ({ rp with audio := rp.audio ++
          [frameOf s.address 0 (.audio (byteOf x.2.1) (byteOf x.2.2.1.generation) (block x.1))] } : RingPort).arbitrate
      else rp
    let delivered := fun (lu : List ListenEntry) (x : Nat × Nat × Slot × ClaimInfo) =>
      if ∃ e ∈ x.2.2.2.entries, s.owns e.zone = true ∧ (e.state = .active ∨ e.state = .suspended ∨ e.state = .waiting) then
        lu.map fun e =>
          if e.tag = { origin := s.address, slot := x.2.1, generation := x.2.2.1.generation } ∧ e.lapse.isSome then
            if e.active then
              { e with
                lapse := some s.lapseTime
                buffer := (e.buffer ++ block x.1).take 64
                primed := e.primed || decide (s.startFill ≤ ((e.buffer ++ block x.1).take 64).length) }
            else { e with lapse := some s.lapseTime }
          else e
      else lu
    exec (.blockCompletion s0 s1 s2 s3) s = .next
      { s with
        ss := [[], [], [], []]
        rp := (Clause.claimsInOrder s).foldl stored s.rp
        lu := (Clause.claimsInOrder s).foldl delivered s.lu }

/-- In LOADING and PASSIVE a strobe is ignored by the Stream Sender, and the Mix Engine drives every port to 0. -/
def Sys2Proof.Clause.StrobesOfARepeater : Prop :=
  ∀ (s0 s1 s2 s3 : Sample) (s : State), s.isMember = false →
    exec (.sampleStrobeSend s0 s1 s2 s3) s = .next s ∧ exec (.blockCompletion s0 s1 s2 s3) s = .next s ∧
    exec .sampleStrobeMix s = .next { s with me := { s.me with ports := List.replicate 8 0 } } ∧
    exec .meterWindowEnd s = .next { s with me := { s.me with ports := List.replicate 8 0 } }

/-- Strobes at the Stream Sender, and both strobes at a repeater. -/
def Obligations.StrobesAtTheStreamSender : Prop :=
  Clause.StrobeFillsTheBuffers ∧ Clause.BlockCompletionSendsTheBlocks ∧ Clause.BlocksAreSentInOrder ∧
    Clause.StrobesOfARepeater

/-! The mix -/

/-- The yields of a strobe at the Mix Engine, be it the one that ends a meter window or not (log 11): an active, primed entry loses its oldest sample, or is unprimed when it has none;
every other entry is as it was. Zones, claims, the ring and presence are untouched. -/
def Sys2Proof.Clause.StrobeYieldsTheOldestSample : Prop :=
  ∀ (c : Instr) (s : State), c = .sampleStrobeMix ∨ c = .meterWindowEnd → s.isMember = true →
    ∃ t, exec c s = .next t ∧ t.rp = s.rp ∧ t.pu = s.pu ∧ t.za = s.za ∧ t.cu = s.cu ∧ t.ss = s.ss ∧ t.ku = s.ku ∧
      t.cp.masks = s.cp.masks ∧ t.cp.response = s.cp.response ∧
      t.lu.length = s.lu.length ∧
      ∀ (i : Nat) (e : ListenEntry), s.lu[i]? = some e →
        (e.active = false ∨ e.primed = false → e.yielded = 0 ∧ t.lu[i]? = some e) ∧
        (∀ x rest, e.active = true → e.primed = true → e.buffer = x :: rest →
          e.yielded = x ∧ t.lu[i]? = some { e with buffer := rest }) ∧
        (e.active = true → e.primed = true → e.buffer = [] →
          e.yielded = 0 ∧ t.lu[i]? = some { e with primed := false })

/-- A zone port carries the sum of its members' samples times their gains, divided by 2 to the power 14 + trim and rounded
down, limited to 16 bits; ports beyond the window carry 0. -/
def Sys2Proof.Clause.PortsCarryTheMix : Prop :=
  ∀ (c : Instr) (s : State), c = .sampleStrobeMix ∨ c = .meterWindowEnd → s.isMember = true → s.me.zones.length ≤ 8 →
    ∃ t, exec c s = .next t ∧ t.me.ports.length = 8 ∧
      (∀ (i : Nat) (m : MixZone) (r : ZoneRecord), s.me.zones[i]? = some m → s.zone m.zone = some r →
        ∃ port : Sample, t.me.ports[i]? = some port ∧
          let sum : Int := (r.active.map fun a => match s.listenEntry a.tag with
            | some e => e.yielded.toInt * (e.gain : Int)
            | none => 0).sum
          let value : Int := Int.fdiv sum ((2 ^ (14 + m.trim) : Nat) : Int)
          (32767 < value → port.toInt = 32767) ∧ (value < -32768 → port.toInt = -32768) ∧
            (-32768 ≤ value → value ≤ 32767 → port.toInt = value)) ∧
      ∀ i, s.me.zones.length ≤ i → i < 8 → t.me.ports[i]? = some 0

/-- A strobe at the Mix Engine: the yields and the zone ports. -/
def Obligations.StrobeMixesTheZones : Prop := Clause.StrobeYieldsTheOldestSample ∧ Clause.PortsCarryTheMix

/-- The meter of a zone at a strobe: the output is counted, and at the window's end the record is formed, the window restarts
and the trim may rise by one. -/
def Sys2Proof.Clause.MeterTakesTheOutput : Prop :=
  ∀ (c : Instr) (i : Nat) (m : MixZone) (s : State), c = .sampleStrobeMix ∨ c = .meterWindowEnd →
    s.isMember = true → s.me.zones[i]? = some m →
    let value := s.zoneValue m
    let output := (saturated value).natAbs
    let clip := if value < -32768 ∨ 32767 < value then 1 else 0
    let count := m.count + 1
    let sum := m.sum + output
    let peak := max m.peak output
    let clips := m.clips + clip
    let total := if clip = 1 ∧ m.totalClips < 65535 then m.totalClips + 1 else m.totalClips
    ∃ t, exec c s = .next t ∧
      (count < s.meterWindow → t.me.zones[i]? =
        some { m with count := count, sum := sum, peak := peak, clips := clips, totalClips := total }) ∧
      (s.meterWindow ≤ count → t.me.zones[i]? =
        some { zone := m.zone, count := 0, sum := 0, peak := 0, clips := 0, totalClips := total,
               last := some { mean := sum / s.meterWindow, peak := peak, clips := clips },
               trim := if s.clipThreshold ≠ 0 ∧ s.clipThreshold ≤ clips ∧ m.trim < 7 then m.trim + 1 else m.trim })

/-- ZONE_TRIMMED is posted with the new trim for each zone whose trim rises at its window's end, in order of zone number. -/
def Sys2Proof.Clause.TrimmedZonesArePosted : Prop :=
  ∀ (c : Instr) (s : State), c = .sampleStrobeMix ∨ c = .meterWindowEnd → s.isMember = true →
    let trimmed := s.me.zones.filterMap fun m =>
      let value := s.zoneValue m
      let clips := m.clips + if value < -32768 ∨ 32767 < value then 1 else 0
      if s.meterWindow ≤ m.count + 1 ∧ s.clipThreshold ≠ 0 ∧ s.clipThreshold ≤ clips ∧ m.trim < 7 then
        some (HostNotice.zoneTrimmed m.zone (m.trim + 1))
      else none
    ∃ t, exec c s = .next t ∧ t.cp = (trimmed.foldl (fun u notice => post notice u) s).cp

/-- The meters at a strobe, and the notices of auto-trim. -/
def Obligations.MeterCountsTheOutput : Prop := Clause.MeterTakesTheOutput ∧ Clause.TrimmedZonesArePosted

/-! Keys -/

/-- A contact's change: its level is kept, and the debounce timer of 20 ms starts when the level differs from the debounced
state and stops when it has returned to it. -/
def Sys2Proof.Clause.ContactChangeTimesTheDebounce : Prop :=
  ∀ (n : Nat) (closed : Bool) (k : Key) (s : State), s.ku[n]? = some k →
    (s.keyClosed n = closed → exec (.keyInputChange n closed) s = .next s) ∧
    (s.keyClosed n ≠ closed →
      exec (.keyInputChange n closed) s = .next
        { s with
          keyInputs := s.keyInputs.set n closed
          ku := s.ku.set n (match k.debounced with
            | none => k
            | some d => { k with timer :=
                if d = (if closed then KeyState.pressed else KeyState.released) then none else some 20 }) })

/-- A debounce expiry of an unbound key takes the contact's level and does nothing more; with no timer running, nothing. -/
def Sys2Proof.Clause.UnboundKeysAreIgnored : Prop :=
  ∀ (n : Nat) (k : Key) (s : State), s.ku[n]? = some k →
    (k.timer = none → exec (.debounceTimerExpiry n) s = .next s) ∧
    (k.timer.isSome = true → s.bound n = none →
      exec (.debounceTimerExpiry n) s = .next
        { s with ku := s.ku.set n { k with
            debounced := some (if s.keyClosed n then .pressed else .released), timer := none } })

/-- Contacts, debounce timers and unbound keys. -/
def Obligations.ContactsAreDebounced : Prop := Clause.ContactChangeTimesTheDebounce ∧ Clause.UnboundKeysAreIgnored

/-- A press whose issue is refused posts KEY_REFUSED, and a press whose claim is accepted and still exists is remembered. -/
def Sys2Proof.Clause.PressIssuesThePreset : Prop :=
  ∀ (n : Nat) (k : Key) (b : KeyBinding) (d : ClaimDesc) (s : State), s.ku[n]? = some k → k.timer.isSome = true →
    k.debounced ≠ some .pressed → k.remembered = none → s.keyClosed n = true → s.bound n = some (b, d) →
    let pressed := { s with ku := s.ku.set n { k with debounced := some .pressed, timer := none } }
    (∀ code t, issue (.key n) d pressed = (.refused code, t) →
      exec (.debounceTimerExpiry n) s = .next (post (.keyRefused n b.preset code) t)) ∧
    (∀ slot generation t, issue (.key n) d pressed = (.accepted slot generation, t) →
      (t.claimExists slot generation = true →
        exec (.debounceTimerExpiry n) s = .next
          { t with ku := t.ku.modify n fun k => { k with remembered := some (slot, generation) } }) ∧
      (t.claimExists slot generation = false → exec (.debounceTimerExpiry n) s = .next t))

/-- The release of a MOMENTARY key, and the next press of a LATCH key, end the claim the key remembers. -/
def Sys2Proof.Clause.KeyEndsItsClaim : Prop :=
  ∀ (n : Nat) (k : Key) (q : Slot) (slot : Nat) (b : KeyBinding) (d : ClaimDesc) (s : State), s.Safe →
    s.ku[n]? = some k → k.timer.isSome = true → k.remembered = some (slot, q.generation) → s.slot slot = some q →
    q.state ≠ .free → s.bound n = some (b, d) →
    (b.action = .momentary ∧ s.keyClosed n = false ∧ k.debounced = some .pressed ∨
      b.action = .latch ∧ s.keyClosed n = true ∧ k.debounced = some .released) →
    ∃ t, exec (.debounceTimerExpiry n) s = .next t ∧
      (t.slot slot).map (fun p => (p.state, p.outcome, p.generation)) = some (.free, some .withdrawn, q.generation) ∧
      (t.ku[n]?).map (·.remembered) = some none

/-- Presses that issue a preset, and presses and releases that end the remembered claim. -/
def Obligations.KeysIssueAndEndClaims : Prop := Clause.PressIssuesThePreset ∧ Clause.KeyEndsItsClaim

/-! The Control Port -/

/-- While RSTN is low no transaction acts and no frame is received or counted. -/
def Sys2Proof.Clause.NoTransactionOrFrameActsWhileRstnIsLow : Prop :=
  ∀ (c : Instr) (bytes : List Byte) (cutShort : Bool) (s : State), s.rstnLow = true →
    ((transactionBytes c).isSome = true → exec c s = .next s) ∧ exec (.frameArrival bytes cutShort) s = .next s

/-- A command byte that names no command is BAD_COMMAND; a transaction cut short before its command acts changes nothing. -/
def Sys2Proof.Clause.UnknownAndCutShortCommands : Prop :=
  ∀ (command : Byte) (clocked : List Byte) (s : State),
    exec (.transactionCutShort clocked) s = .next s ∧
    (s.rstnLow = false →
      exec (.badCommand command) s = .next { s with cp := { s.cp with response := [1] } })

/-- Commands and frames while RSTN is low, unknown command bytes and transactions cut short. -/
def Obligations.CommandsThatDoNotAct : Prop := Clause.NoTransactionOrFrameActsWhileRstnIsLow ∧ Clause.UnknownAndCutShortCommands

/-- In LOADING and PASSIVE every command but STATUS, NOTICE, SET MASK, RESET, CLAIM and CLAIM PRESET is answered PASSIVE and
changes nothing. -/
def Sys2Proof.Clause.CommandsAnsweredPassive : Prop :=
  ∀ (a b : Byte) (s : State), s.rstnLow = false → s.isMember = false →
    ∀ c ∈ [Instr.endClaim a b, .claimStatus a, .zoneStatus a, .setFloor a b, .setTrim a b, .clearZone a, .meter a, .peers],
      exec c s = .next { s with cp := { s.cp with response := [8] } }

/-- A zone outside the window is NOT_OWNED for every zone command, whatever its other argument, and nothing changes. -/
def Sys2Proof.Clause.ZonesOutsideTheWindow : Prop :=
  ∀ (zone value : Byte) (s : State), s.rstnLow = false → s.isMember = true → s.owns zone.toNat = false →
    ∀ c ∈ [Instr.zoneStatus zone, .setFloor zone value, .setTrim zone value, .clearZone zone, .meter zone],
      exec c s = .next { s with cp := { s.cp with response := [4] } }

/-- PASSIVE and NOT_OWNED answers. -/
def Obligations.CommandsRefusedByStateOrZone : Prop := Clause.CommandsAnsweredPassive ∧ Clause.ZonesOutsideTheWindow

/-- STATUS gives the station as it stands and clears the two counters and the overflow flag; nothing else changes. -/
def Obligations.StatusReadsAndClears : Prop :=
  ∀ s : State, s.rstnLow = false →
    exec .status s = .next
      { s with
        rp := { s.rp with checkErrors := 0, overruns := 0 }
        cp := { s.cp with
          overflow := false
          response := [0,
            (match s.ringState with
              | .loading => 0
              | .passive => 1
              | .joining => 2
              | .up => 3
              | .broken => 4),
            BitVec.ofNat 8 s.address, BitVec.ofNat 8 s.windowFirst, BitVec.ofNat 8 s.windowLast,
            (match s.cl.faultCode with
              | none => 0
              | some .noMemory => 1
              | some .badImage => 2
              | some .badSum => 3
              | some .badChain => 4
              | some .noStation => 5
              | some .badField => 6),
            (BitVec.ofNat 16 s.rp.checkErrors).extractLsb' 8 8, (BitVec.ofNat 16 s.rp.checkErrors).extractLsb' 0 8,
            (BitVec.ofNat 16 s.rp.overruns).extractLsb' 8 8, (BitVec.ofNat 16 s.rp.overruns).extractLsb' 0 8,
            (if s.cp.overflow then 1 else 0), BitVec.ofNat 8 s.cp.notices.length] } }

/-- NOTICE removes the head notice and returns its kind, vector, fields and the number left; EMPTY on an empty queue. -/
def Sys2Proof.Clause.NoticePopsTheHead : Prop :=
  ∀ s : State, s.rstnLow = false →
    (s.cp.notices = [] → exec .notice s = .next { s with cp := { s.cp with response := [9] } }) ∧
    (∀ q rest, s.cp.notices = q :: rest →
      exec .notice s = .next
        { s with cp := { s.cp with
            notices := rest
            response := [0, q.notice.kindCode, BitVec.ofNat 8 q.vector] ++ q.notice.sixBytes ++
              [BitVec.ofNat 8 rest.length] } })

/-- A post: stored at the tail with its vector while fewer than 32 wait, else discarded with the overflow flag set; nothing
else in the station changes. -/
def Sys2Proof.Clause.PostsAreQueued : Prop :=
  ∀ (n : HostNotice) (s : State),
    (s.cp.notices.length < 32 →
      post n s = { s with cp := { s.cp with
        notices := s.cp.notices ++ [{ notice := n, vector := s.vectorBase + match n.category with
          | .claim => 0
          | .zone => 1
          | .ring => 2
          | .fault => 3 }] } }) ∧
    (32 ≤ s.cp.notices.length → post n s = { s with cp := { s.cp with overflow := true } })

/-- The notice queue: a post, and the NOTICE command. -/
def Obligations.NoticesAreQueuedAndPopped : Prop := Clause.NoticePopsTheHead ∧ Clause.PostsAreQueued

/-- SET MASK sets the four masks at once from codes 0 and 1; any other code is BAD_ARGS and every mask keeps its setting. -/
def Sys2Proof.Clause.SetMaskSetsAllFour : Prop :=
  ∀ (m0 m1 m2 m3 : Byte) (s : State), s.rstnLow = false →
    (m0.toNat ≤ 1 → m1.toNat ≤ 1 → m2.toNat ≤ 1 → m3.toNat ≤ 1 →
      exec (.setMask m0 m1 m2 m3) s = .next
        { s with cp := { s.cp with masks := [m0 == 1, m1 == 1, m2 == 1, m3 == 1], response := [0] } }) ∧
    ((1 < m0.toNat ∨ 1 < m1.toNat ∨ 1 < m2.toNat ∨ 1 < m3.toNat) →
      exec (.setMask m0 m1 m2 m3) s = .next { s with cp := { s.cp with response := [2] } })

/-- The notice lines: the mapping of categories under each line count, and a line asserted while a notice of its categories
waits and its mask is clear. -/
def Sys2Proof.Clause.NoticeLinesFollowTheQueue : Prop :=
  ∀ (s : State) (line : Nat), line < 4 →
    (s.lineAsserted line = true ↔ s.cp.masks.getD line false = false ∧
      ∃ q ∈ s.cp.notices,
        line = if s.lineCount = 4 then q.notice.category.index
          else if s.lineCount = 2 ∧ (q.notice.category = .ring ∨ q.notice.category = .fault) then 1 else 0) ∧
    (s.config = none → s.lineCount = 1) ∧
    (∀ c, s.config = some c → c.station.lineCount ≤ 4 →
      s.lineCount = if c.station.lineCount = 0 then 1 else if c.station.lineCount = 3 then 2 else c.station.lineCount)

/-- The masks and the notice lines. -/
def Obligations.MasksAndLines : Prop := Clause.SetMaskSetsAllFour ∧ Clause.NoticeLinesFollowTheQueue

/-- PEERS gives the peer table: the count, then each peer's address, window and joining mark; nothing changes. -/
def Obligations.PeersReadsTheTable : Prop :=
  ∀ s : State, s.rstnLow = false → s.isMember = true →
    exec .peers s = .next { s with cp := { s.cp with
      response := [0, BitVec.ofNat 8 s.pu.peers.length] ++ s.pu.peers.flatMap fun p =>
        [BitVec.ofNat 8 p.address, BitVec.ofNat 8 p.first, BitVec.ofNat 8 p.last, if p.joining then 1 else 0] } }

/-- CLAIM STATUS reads a slot's record and changes nothing; a slot outside 0 to 7 is BAD_ARGS. -/
def Sys2Proof.Clause.ClaimStatusReadsTheSlot : Prop :=
  ∀ (slot : Byte) (s : State), s.Shaped → s.rstnLow = false → s.isMember = true →
    (8 ≤ slot.toNat → exec (.claimStatus slot) s = .next { s with cp := { s.cp with response := [2] } }) ∧
    (∀ k, s.slot slot.toNat = some k →
      exec (.claimStatus slot) s = .next { s with cp := { s.cp with
        response := [0, k.state.code, BitVec.ofNat 8 k.generation] ++
          match k.info with
          | none => [0]
          | some i =>
            [1,
              (match i.issuer with
                | .key number => BitVec.ofNat 8 number
                | .host => 4),
              (if i.cls = .ofRing then 1 else 0), BitVec.ofNat 8 i.port, BitVec.ofNat 8 i.level,
              (if i.mode = .all then 1 else 0), (if i.wait then 1 else 0)] ++
            splitBytes (BitVec.ofNat 16 i.gain) ++ splitBytes (BitVec.ofNat 16 i.duration) ++
            (match k.durationLeft with
              | none => [0xFF, 0xFF]
              | some ms => splitBytes (BitVec.ofNat 16 ((ms + 9) / 10))) ++
            [match k.outcome with
              | none => 0
              | some .done => 1
              | some .refused => 2
              | some .broken => 3
              | some .noOwner => 4
              | some .noReturn => 5
              | some .queueFull => 6
              | some .withdrawn => 7
              | some .autoEnd => 8] ++
            BitVec.ofNat 8 i.entries.length :: (i.entries.flatMap fun e =>
              [BitVec.ofNat 8 e.zone, BitVec.ofNat 8 (e.owner.getD 0), e.state.code] ++ lastCodeBytes e.lastCode) } })

/-- ZONE STATUS reads an own zone's record and its trim, and changes nothing. -/
def Sys2Proof.Clause.ZoneStatusReadsTheRecord : Prop :=
  ∀ (zone : Byte) (r : ZoneRecord) (m : MixZone) (s : State), s.rstnLow = false → s.isMember = true →
    s.owns zone.toNat = true → s.zone zone.toNat = some r → s.mixZone zone.toNat = some m →
    exec (.zoneStatus zone) s = .next { s with cp := { s.cp with
      response := [0, (if r.policy = .mix then 1 else 0), BitVec.ofNat 8 r.floor, BitVec.ofNat 8 m.trim,
          (match r.activeLevel with
            | none => 255
            | some a => BitVec.ofNat 8 a)] ++
        BitVec.ofNat 8 r.active.length :: (r.active.flatMap fun a => tagBytes a.tag ++ remainingBytes a.left) ++
        (match r.reservation with
          | none => [0, 0, 0, 0, 0]
          | some v => 1 :: tagBytes v.tag ++ [BitVec.ofNat 8 v.level]) ++
        (match r.superseded with
          | none => [0, 0, 0, 0]
          | some u => 1 :: tagBytes u) ++
        BitVec.ofNat 8 r.stack.length :: (r.stack.flatMap fun g => BitVec.ofNat 8 g.level ::
          BitVec.ofNat 8 g.members.length :: g.members.flatMap fun a => tagBytes a.tag ++ remainingBytes a.left) ++
        BitVec.ofNat 8 r.waiting.length :: r.waiting.flatMap fun w => tagBytes w.tag ++ [BitVec.ofNat 8 w.level] } }

/-- CLAIM STATUS and ZONE STATUS. -/
def Obligations.RecordsAreRead : Prop := Clause.ClaimStatusReadsTheSlot ∧ Clause.ZoneStatusReadsTheRecord

/-- SET TRIM sets an own zone's trim, 0 to 7, and posts nothing; any other trim is BAD_ARGS and the zone keeps its own. -/
def Sys2Proof.Clause.SetTrimSetsTheTrim : Prop :=
  ∀ (zone trim : Byte) (s : State), s.rstnLow = false → s.isMember = true → s.owns zone.toNat = true →
    (trim.toNat ≤ 7 →
      ∃ t, exec (.setTrim zone trim) s = .next t ∧
        t = { s with me := t.me, cp := { s.cp with response := [0] } } ∧ t.me.ports = s.me.ports ∧
        (∀ m, s.mixZone zone.toNat = some m → t.mixZone zone.toNat = some { m with trim := trim.toNat }) ∧
        ∀ z, z ≠ zone.toNat → t.mixZone z = s.mixZone z) ∧
    (7 < trim.toNat → exec (.setTrim zone trim) s = .next { s with cp := { s.cp with response := [2] } })

/-- METER reads an own zone's trim, last record, window count and total clips, and clears the total clips alone. -/
def Sys2Proof.Clause.MeterReadsAndClearsTotal : Prop :=
  ∀ (zone : Byte) (m : MixZone) (s : State), s.rstnLow = false → s.isMember = true → s.owns zone.toNat = true →
    s.mixZone zone.toNat = some m →
    ∃ t, exec (.meter zone) s = .next t ∧
      t = { s with me := t.me, cp := { s.cp with response := t.cp.response } } ∧ t.me.ports = s.me.ports ∧
      t.mixZone zone.toNat = some { m with totalClips := 0 } ∧ (∀ z, z ≠ zone.toNat → t.mixZone z = s.mixZone z) ∧
      t.cp.response = [0, BitVec.ofNat 8 m.trim] ++
        (match m.last with
          | none => [0, 0, 0, 0, 0, 0, 0]
          | some r => 1 :: (splitBytes (BitVec.ofNat 16 r.mean) ++ splitBytes (BitVec.ofNat 16 r.peak) ++
              splitBytes (BitVec.ofNat 16 r.clips))) ++
        splitBytes (BitVec.ofNat 16 m.count) ++ splitBytes (BitVec.ofNat 16 m.totalClips)

/-- SET TRIM and METER. -/
def Obligations.TrimAndMeter : Prop := Clause.SetTrimSetsTheTrim ∧ Clause.MeterReadsAndClearsTotal

/-- The bytes of every well-formed Control Port command are read back as that command, whatever input bytes follow those of a
command that acts. -/
def Sys2Proof.Clause.TransactionsAreReadBack : Prop :=
  ∀ (i : Instr) (bytes extra : List Byte), i.wellFormed = true → transactionBytes i = some bytes →
    commandOfTransaction bytes = i ∧
    ((∀ clocked, i ≠ .transactionCutShort clocked) → commandOfTransaction (bytes ++ extra) = i)

/-- What SDO carries over a transaction of a command, `extra` being the bytes clocked after its last argument byte: 0 during
command, argument and turnaround bytes, then the response, then 0. The response is a result code, alone unless it is OK. SDO is
high impedance while CSN is high, and while RSTN is low (log 20). A transaction cut short reads 0 throughout. -/
def Sys2Proof.Clause.SdoCarriesTheResponse : Prop :=
  ∀ (c : Instr) (bytes extra : List Byte) (s : State), c.wellFormed = true → transactionBytes c = some bytes →
    ∃ t, exec c s = .next t ∧ (∀ i, t.sdo none i = none) ∧
      (s.rstnLow = true → ∀ i, t.sdo (some (bytes ++ extra)) i = none) ∧
      (s.rstnLow = false → (∀ clocked, c ≠ .transactionCutShort clocked) →
        (∀ i ≤ bytes.length, t.sdo (some (bytes ++ extra)) i = some 0) ∧
        (∀ i, t.sdo (some (bytes ++ extra)) (bytes.length + 1 + i) = some (t.cp.response.getD i 0)) ∧
        ∃ code data, t.cp.response = code :: data ∧ (code ≠ 0 → data = [])) ∧
      (s.rstnLow = false → (∃ clocked, c = .transactionCutShort clocked) →
        ∀ i < bytes.length, t.sdo (some bytes) i = some 0)

/-- A transaction's bytes as they are read from SDI, and the bytes on SDO. -/
def Obligations.TransactionRoundTrip : Prop := Clause.TransactionsAreReadBack ∧ Clause.SdoCarriesTheResponse

/-! The laws every step keeps -/

/-- The state after reset satisfies every law. -/
def Obligations.ResetIsSafe : Prop := State.reset.Safe

/-- Every step keeps the capacities of queues, buffers, tables and counters, and the order of the peer table. -/
def Obligations.StepKeepsCapacities : Prop :=
  ∀ s t : State, s.Coherent → s.Bounded → step s = .next t → t.Bounded

/-- Every step keeps the blocks agreed about the mode. -/
def Obligations.StepKeepsTheModeCoherent : Prop :=
  ∀ s t : State, s.Shaped → s.Coherent → step s = .next t → t.Shaped ∧ t.Coherent

/-- Every step keeps the zone records lawful, one for each zone of the window. -/
def Obligations.StepKeepsZonesLawful : Prop :=
  ∀ s t : State, s.Coherent → s.ZonesMatch → s.Arbitrated → step s = .next t → t.ZonesMatch ∧ t.Arbitrated

/-- Every step keeps the listen table the exact account of the roles in the own zones. -/
def Obligations.StepKeepsTheListenTable : Prop := ∀ s t : State, s.Safe → step s = .next t → t.Heard
end

