-- ==== Sys2Proof/Laws/State.lean ====
section
/-! SUPPORT. One lemma per field per update, so that no later proof unfolds a record update. -/

namespace Sys2Proof.Machine

/-! post -/

@[simp] theorem post_pending (n : HostNotice) (s : State) : (post n s).pending = s.pending := by
  unfold post; split <;> rfl
@[simp] theorem post_rstnLow (n : HostNotice) (s : State) : (post n s).rstnLow = s.rstnLow := by
  unfold post; split <;> rfl
@[simp] theorem post_keyInputs (n : HostNotice) (s : State) : (post n s).keyInputs = s.keyInputs := by
  unfold post; split <;> rfl
@[simp] theorem post_config (n : HostNotice) (s : State) : (post n s).config = s.config := by
  unfold post; split <;> rfl
@[simp] theorem post_cleanups (n : HostNotice) (s : State) : (post n s).cleanups = s.cleanups := by
  unfold post; split <;> rfl
@[simp] theorem post_rp (n : HostNotice) (s : State) : (post n s).rp = s.rp := by
  unfold post; split <;> rfl
@[simp] theorem post_pu (n : HostNotice) (s : State) : (post n s).pu = s.pu := by
  unfold post; split <;> rfl
@[simp] theorem post_za (n : HostNotice) (s : State) : (post n s).za = s.za := by
  unfold post; split <;> rfl
@[simp] theorem post_cu (n : HostNotice) (s : State) : (post n s).cu = s.cu := by
  unfold post; split <;> rfl
@[simp] theorem post_lu (n : HostNotice) (s : State) : (post n s).lu = s.lu := by
  unfold post; split <;> rfl
@[simp] theorem post_ss (n : HostNotice) (s : State) : (post n s).ss = s.ss := by
  unfold post; split <;> rfl
@[simp] theorem post_me (n : HostNotice) (s : State) : (post n s).me = s.me := by
  unfold post; split <;> rfl
@[simp] theorem post_ku (n : HostNotice) (s : State) : (post n s).ku = s.ku := by
  unfold post; split <;> rfl
@[simp] theorem post_cl (n : HostNotice) (s : State) : (post n s).cl = s.cl := by
  unfold post; split <;> rfl

/-! storeControl -/

@[simp] theorem storeControl_pending (d : Nat) (m : Message) (s : State) : (storeControl d m s).pending = s.pending := rfl
@[simp] theorem storeControl_rstnLow (d : Nat) (m : Message) (s : State) : (storeControl d m s).rstnLow = s.rstnLow := rfl
@[simp] theorem storeControl_keyInputs (d : Nat) (m : Message) (s : State) : (storeControl d m s).keyInputs = s.keyInputs := rfl
@[simp] theorem storeControl_config (d : Nat) (m : Message) (s : State) : (storeControl d m s).config = s.config := rfl
@[simp] theorem storeControl_cleanups (d : Nat) (m : Message) (s : State) : (storeControl d m s).cleanups = s.cleanups := rfl
@[simp] theorem storeControl_pu (d : Nat) (m : Message) (s : State) : (storeControl d m s).pu = s.pu := rfl
@[simp] theorem storeControl_za (d : Nat) (m : Message) (s : State) : (storeControl d m s).za = s.za := rfl
@[simp] theorem storeControl_cu (d : Nat) (m : Message) (s : State) : (storeControl d m s).cu = s.cu := rfl
@[simp] theorem storeControl_lu (d : Nat) (m : Message) (s : State) : (storeControl d m s).lu = s.lu := rfl
@[simp] theorem storeControl_ss (d : Nat) (m : Message) (s : State) : (storeControl d m s).ss = s.ss := rfl
@[simp] theorem storeControl_me (d : Nat) (m : Message) (s : State) : (storeControl d m s).me = s.me := rfl
@[simp] theorem storeControl_ku (d : Nat) (m : Message) (s : State) : (storeControl d m s).ku = s.ku := rfl
@[simp] theorem storeControl_cp (d : Nat) (m : Message) (s : State) : (storeControl d m s).cp = s.cp := rfl
@[simp] theorem storeControl_cl (d : Nat) (m : Message) (s : State) : (storeControl d m s).cl = s.cl := rfl

/-! storeAudio -/

@[simp] theorem storeAudio_pending (m : Message) (s : State) : (storeAudio m s).pending = s.pending := rfl
@[simp] theorem storeAudio_rstnLow (m : Message) (s : State) : (storeAudio m s).rstnLow = s.rstnLow := rfl
@[simp] theorem storeAudio_keyInputs (m : Message) (s : State) : (storeAudio m s).keyInputs = s.keyInputs := rfl
@[simp] theorem storeAudio_config (m : Message) (s : State) : (storeAudio m s).config = s.config := rfl
@[simp] theorem storeAudio_cleanups (m : Message) (s : State) : (storeAudio m s).cleanups = s.cleanups := rfl
@[simp] theorem storeAudio_pu (m : Message) (s : State) : (storeAudio m s).pu = s.pu := rfl
@[simp] theorem storeAudio_za (m : Message) (s : State) : (storeAudio m s).za = s.za := rfl
@[simp] theorem storeAudio_cu (m : Message) (s : State) : (storeAudio m s).cu = s.cu := rfl
@[simp] theorem storeAudio_lu (m : Message) (s : State) : (storeAudio m s).lu = s.lu := rfl
@[simp] theorem storeAudio_ss (m : Message) (s : State) : (storeAudio m s).ss = s.ss := rfl
@[simp] theorem storeAudio_me (m : Message) (s : State) : (storeAudio m s).me = s.me := rfl
@[simp] theorem storeAudio_ku (m : Message) (s : State) : (storeAudio m s).ku = s.ku := rfl
@[simp] theorem storeAudio_cp (m : Message) (s : State) : (storeAudio m s).cp = s.cp := rfl
@[simp] theorem storeAudio_cl (m : Message) (s : State) : (storeAudio m s).cl = s.cl := rfl

/-! updateZone -/

@[simp] theorem updateZone_pending (z : Nat) (f : ZoneRecord → ZoneRecord) (s : State) : (updateZone z f s).pending = s.pending := rfl
@[simp] theorem updateZone_rstnLow (z : Nat) (f : ZoneRecord → ZoneRecord) (s : State) : (updateZone z f s).rstnLow = s.rstnLow := rfl
@[simp] theorem updateZone_keyInputs (z : Nat) (f : ZoneRecord → ZoneRecord) (s : State) : (updateZone z f s).keyInputs = s.keyInputs := rfl
@[simp] theorem updateZone_config (z : Nat) (f : ZoneRecord → ZoneRecord) (s : State) : (updateZone z f s).config = s.config := rfl
@[simp] theorem updateZone_cleanups (z : Nat) (f : ZoneRecord → ZoneRecord) (s : State) : (updateZone z f s).cleanups = s.cleanups := rfl
@[simp] theorem updateZone_rp (z : Nat) (f : ZoneRecord → ZoneRecord) (s : State) : (updateZone z f s).rp = s.rp := rfl
@[simp] theorem updateZone_pu (z : Nat) (f : ZoneRecord → ZoneRecord) (s : State) : (updateZone z f s).pu = s.pu := rfl
@[simp] theorem updateZone_cu (z : Nat) (f : ZoneRecord → ZoneRecord) (s : State) : (updateZone z f s).cu = s.cu := rfl
@[simp] theorem updateZone_lu (z : Nat) (f : ZoneRecord → ZoneRecord) (s : State) : (updateZone z f s).lu = s.lu := rfl
@[simp] theorem updateZone_ss (z : Nat) (f : ZoneRecord → ZoneRecord) (s : State) : (updateZone z f s).ss = s.ss := rfl
@[simp] theorem updateZone_me (z : Nat) (f : ZoneRecord → ZoneRecord) (s : State) : (updateZone z f s).me = s.me := rfl
@[simp] theorem updateZone_ku (z : Nat) (f : ZoneRecord → ZoneRecord) (s : State) : (updateZone z f s).ku = s.ku := rfl
@[simp] theorem updateZone_cp (z : Nat) (f : ZoneRecord → ZoneRecord) (s : State) : (updateZone z f s).cp = s.cp := rfl
@[simp] theorem updateZone_cl (z : Nat) (f : ZoneRecord → ZoneRecord) (s : State) : (updateZone z f s).cl = s.cl := rfl

/-! updateSlot -/

@[simp] theorem updateSlot_pending (n : Nat) (f : Slot → Slot) (s : State) : (updateSlot n f s).pending = s.pending := rfl
@[simp] theorem updateSlot_rstnLow (n : Nat) (f : Slot → Slot) (s : State) : (updateSlot n f s).rstnLow = s.rstnLow := rfl
@[simp] theorem updateSlot_keyInputs (n : Nat) (f : Slot → Slot) (s : State) : (updateSlot n f s).keyInputs = s.keyInputs := rfl
@[simp] theorem updateSlot_config (n : Nat) (f : Slot → Slot) (s : State) : (updateSlot n f s).config = s.config := rfl
@[simp] theorem updateSlot_cleanups (n : Nat) (f : Slot → Slot) (s : State) : (updateSlot n f s).cleanups = s.cleanups := rfl
@[simp] theorem updateSlot_rp (n : Nat) (f : Slot → Slot) (s : State) : (updateSlot n f s).rp = s.rp := rfl
@[simp] theorem updateSlot_pu (n : Nat) (f : Slot → Slot) (s : State) : (updateSlot n f s).pu = s.pu := rfl
@[simp] theorem updateSlot_za (n : Nat) (f : Slot → Slot) (s : State) : (updateSlot n f s).za = s.za := rfl
@[simp] theorem updateSlot_lu (n : Nat) (f : Slot → Slot) (s : State) : (updateSlot n f s).lu = s.lu := rfl
@[simp] theorem updateSlot_ss (n : Nat) (f : Slot → Slot) (s : State) : (updateSlot n f s).ss = s.ss := rfl
@[simp] theorem updateSlot_me (n : Nat) (f : Slot → Slot) (s : State) : (updateSlot n f s).me = s.me := rfl
@[simp] theorem updateSlot_ku (n : Nat) (f : Slot → Slot) (s : State) : (updateSlot n f s).ku = s.ku := rfl
@[simp] theorem updateSlot_cp (n : Nat) (f : Slot → Slot) (s : State) : (updateSlot n f s).cp = s.cp := rfl
@[simp] theorem updateSlot_cl (n : Nat) (f : Slot → Slot) (s : State) : (updateSlot n f s).cl = s.cl := rfl

/-! updateListen -/

@[simp] theorem updateListen_pending (t : Tag) (f : ListenEntry → ListenEntry) (s : State) : (updateListen t f s).pending = s.pending := rfl
@[simp] theorem updateListen_rstnLow (t : Tag) (f : ListenEntry → ListenEntry) (s : State) : (updateListen t f s).rstnLow = s.rstnLow := rfl
@[simp] theorem updateListen_keyInputs (t : Tag) (f : ListenEntry → ListenEntry) (s : State) : (updateListen t f s).keyInputs = s.keyInputs := rfl
@[simp] theorem updateListen_config (t : Tag) (f : ListenEntry → ListenEntry) (s : State) : (updateListen t f s).config = s.config := rfl
@[simp] theorem updateListen_cleanups (t : Tag) (f : ListenEntry → ListenEntry) (s : State) : (updateListen t f s).cleanups = s.cleanups := rfl
@[simp] theorem updateListen_rp (t : Tag) (f : ListenEntry → ListenEntry) (s : State) : (updateListen t f s).rp = s.rp := rfl
@[simp] theorem updateListen_pu (t : Tag) (f : ListenEntry → ListenEntry) (s : State) : (updateListen t f s).pu = s.pu := rfl
@[simp] theorem updateListen_za (t : Tag) (f : ListenEntry → ListenEntry) (s : State) : (updateListen t f s).za = s.za := rfl
@[simp] theorem updateListen_cu (t : Tag) (f : ListenEntry → ListenEntry) (s : State) : (updateListen t f s).cu = s.cu := rfl
@[simp] theorem updateListen_ss (t : Tag) (f : ListenEntry → ListenEntry) (s : State) : (updateListen t f s).ss = s.ss := rfl
@[simp] theorem updateListen_me (t : Tag) (f : ListenEntry → ListenEntry) (s : State) : (updateListen t f s).me = s.me := rfl
@[simp] theorem updateListen_ku (t : Tag) (f : ListenEntry → ListenEntry) (s : State) : (updateListen t f s).ku = s.ku := rfl
@[simp] theorem updateListen_cp (t : Tag) (f : ListenEntry → ListenEntry) (s : State) : (updateListen t f s).cp = s.cp := rfl
@[simp] theorem updateListen_cl (t : Tag) (f : ListenEntry → ListenEntry) (s : State) : (updateListen t f s).cl = s.cl := rfl

/-! takeReference -/

@[simp] theorem takeReference_pending (t : Tag) (g d : Nat) (s : State) : (takeReference t g d s).pending = s.pending := by
  unfold takeReference; split <;> rfl
@[simp] theorem takeReference_rstnLow (t : Tag) (g d : Nat) (s : State) : (takeReference t g d s).rstnLow = s.rstnLow := by
  unfold takeReference; split <;> rfl
@[simp] theorem takeReference_keyInputs (t : Tag) (g d : Nat) (s : State) : (takeReference t g d s).keyInputs = s.keyInputs := by
  unfold takeReference; split <;> rfl
@[simp] theorem takeReference_config (t : Tag) (g d : Nat) (s : State) : (takeReference t g d s).config = s.config := by
  unfold takeReference; split <;> rfl
@[simp] theorem takeReference_cleanups (t : Tag) (g d : Nat) (s : State) : (takeReference t g d s).cleanups = s.cleanups := by
  unfold takeReference; split <;> rfl
@[simp] theorem takeReference_rp (t : Tag) (g d : Nat) (s : State) : (takeReference t g d s).rp = s.rp := by
  unfold takeReference; split <;> rfl
@[simp] theorem takeReference_pu (t : Tag) (g d : Nat) (s : State) : (takeReference t g d s).pu = s.pu := by
  unfold takeReference; split <;> rfl
@[simp] theorem takeReference_za (t : Tag) (g d : Nat) (s : State) : (takeReference t g d s).za = s.za := by
  unfold takeReference; split <;> rfl
@[simp] theorem takeReference_cu (t : Tag) (g d : Nat) (s : State) : (takeReference t g d s).cu = s.cu := by
  unfold takeReference; split <;> rfl
@[simp] theorem takeReference_ss (t : Tag) (g d : Nat) (s : State) : (takeReference t g d s).ss = s.ss := by
  unfold takeReference; split <;> rfl
@[simp] theorem takeReference_me (t : Tag) (g d : Nat) (s : State) : (takeReference t g d s).me = s.me := by
  unfold takeReference; split <;> rfl
@[simp] theorem takeReference_ku (t : Tag) (g d : Nat) (s : State) : (takeReference t g d s).ku = s.ku := by
  unfold takeReference; split <;> rfl
@[simp] theorem takeReference_cp (t : Tag) (g d : Nat) (s : State) : (takeReference t g d s).cp = s.cp := by
  unfold takeReference; split <;> rfl
@[simp] theorem takeReference_cl (t : Tag) (g d : Nat) (s : State) : (takeReference t g d s).cl = s.cl := by
  unfold takeReference; split <;> rfl

/-! releaseReference -/

@[simp] theorem releaseReference_pending (t : Tag) (s : State) : (releaseReference t s).pending = s.pending := by
  unfold releaseReference; split <;> first | rfl | (split <;> rfl)
@[simp] theorem releaseReference_rstnLow (t : Tag) (s : State) : (releaseReference t s).rstnLow = s.rstnLow := by
  unfold releaseReference; split <;> first | rfl | (split <;> rfl)
@[simp] theorem releaseReference_keyInputs (t : Tag) (s : State) : (releaseReference t s).keyInputs = s.keyInputs := by
  unfold releaseReference; split <;> first | rfl | (split <;> rfl)
@[simp] theorem releaseReference_config (t : Tag) (s : State) : (releaseReference t s).config = s.config := by
  unfold releaseReference; split <;> first | rfl | (split <;> rfl)
@[simp] theorem releaseReference_cleanups (t : Tag) (s : State) : (releaseReference t s).cleanups = s.cleanups := by
  unfold releaseReference; split <;> first | rfl | (split <;> rfl)
@[simp] theorem releaseReference_rp (t : Tag) (s : State) : (releaseReference t s).rp = s.rp := by
  unfold releaseReference; split <;> first | rfl | (split <;> rfl)
@[simp] theorem releaseReference_pu (t : Tag) (s : State) : (releaseReference t s).pu = s.pu := by
  unfold releaseReference; split <;> first | rfl | (split <;> rfl)
@[simp] theorem releaseReference_za (t : Tag) (s : State) : (releaseReference t s).za = s.za := by
  unfold releaseReference; split <;> first | rfl | (split <;> rfl)
@[simp] theorem releaseReference_cu (t : Tag) (s : State) : (releaseReference t s).cu = s.cu := by
  unfold releaseReference; split <;> first | rfl | (split <;> rfl)
@[simp] theorem releaseReference_ss (t : Tag) (s : State) : (releaseReference t s).ss = s.ss := by
  unfold releaseReference; split <;> first | rfl | (split <;> rfl)
@[simp] theorem releaseReference_me (t : Tag) (s : State) : (releaseReference t s).me = s.me := by
  unfold releaseReference; split <;> first | rfl | (split <;> rfl)
@[simp] theorem releaseReference_ku (t : Tag) (s : State) : (releaseReference t s).ku = s.ku := by
  unfold releaseReference; split <;> first | rfl | (split <;> rfl)
@[simp] theorem releaseReference_cp (t : Tag) (s : State) : (releaseReference t s).cp = s.cp := by
  unfold releaseReference; split <;> first | rfl | (split <;> rfl)
@[simp] theorem releaseReference_cl (t : Tag) (s : State) : (releaseReference t s).cl = s.cl := by
  unfold releaseReference; split <;> first | rfl | (split <;> rfl)

/-! updateKey -/

@[simp] theorem updateKey_pending (n : Nat) (f : Key → Key) (s : State) : (updateKey n f s).pending = s.pending := rfl
@[simp] theorem updateKey_rstnLow (n : Nat) (f : Key → Key) (s : State) : (updateKey n f s).rstnLow = s.rstnLow := rfl
@[simp] theorem updateKey_keyInputs (n : Nat) (f : Key → Key) (s : State) : (updateKey n f s).keyInputs = s.keyInputs := rfl
@[simp] theorem updateKey_config (n : Nat) (f : Key → Key) (s : State) : (updateKey n f s).config = s.config := rfl
@[simp] theorem updateKey_cleanups (n : Nat) (f : Key → Key) (s : State) : (updateKey n f s).cleanups = s.cleanups := rfl
@[simp] theorem updateKey_rp (n : Nat) (f : Key → Key) (s : State) : (updateKey n f s).rp = s.rp := rfl
@[simp] theorem updateKey_pu (n : Nat) (f : Key → Key) (s : State) : (updateKey n f s).pu = s.pu := rfl
@[simp] theorem updateKey_za (n : Nat) (f : Key → Key) (s : State) : (updateKey n f s).za = s.za := rfl
@[simp] theorem updateKey_cu (n : Nat) (f : Key → Key) (s : State) : (updateKey n f s).cu = s.cu := rfl
@[simp] theorem updateKey_lu (n : Nat) (f : Key → Key) (s : State) : (updateKey n f s).lu = s.lu := rfl
@[simp] theorem updateKey_ss (n : Nat) (f : Key → Key) (s : State) : (updateKey n f s).ss = s.ss := rfl
@[simp] theorem updateKey_me (n : Nat) (f : Key → Key) (s : State) : (updateKey n f s).me = s.me := rfl
@[simp] theorem updateKey_cp (n : Nat) (f : Key → Key) (s : State) : (updateKey n f s).cp = s.cp := rfl
@[simp] theorem updateKey_cl (n : Nat) (f : Key → Key) (s : State) : (updateKey n f s).cl = s.cl := rfl

/-! updateMixZone -/

@[simp] theorem updateMixZone_pending (z : Nat) (f : MixZone → MixZone) (s : State) : (updateMixZone z f s).pending = s.pending := rfl
@[simp] theorem updateMixZone_rstnLow (z : Nat) (f : MixZone → MixZone) (s : State) : (updateMixZone z f s).rstnLow = s.rstnLow := rfl
@[simp] theorem updateMixZone_keyInputs (z : Nat) (f : MixZone → MixZone) (s : State) : (updateMixZone z f s).keyInputs = s.keyInputs := rfl
@[simp] theorem updateMixZone_config (z : Nat) (f : MixZone → MixZone) (s : State) : (updateMixZone z f s).config = s.config := rfl
@[simp] theorem updateMixZone_cleanups (z : Nat) (f : MixZone → MixZone) (s : State) : (updateMixZone z f s).cleanups = s.cleanups := rfl
@[simp] theorem updateMixZone_rp (z : Nat) (f : MixZone → MixZone) (s : State) : (updateMixZone z f s).rp = s.rp := rfl
@[simp] theorem updateMixZone_pu (z : Nat) (f : MixZone → MixZone) (s : State) : (updateMixZone z f s).pu = s.pu := rfl
@[simp] theorem updateMixZone_za (z : Nat) (f : MixZone → MixZone) (s : State) : (updateMixZone z f s).za = s.za := rfl
@[simp] theorem updateMixZone_cu (z : Nat) (f : MixZone → MixZone) (s : State) : (updateMixZone z f s).cu = s.cu := rfl
@[simp] theorem updateMixZone_lu (z : Nat) (f : MixZone → MixZone) (s : State) : (updateMixZone z f s).lu = s.lu := rfl
@[simp] theorem updateMixZone_ss (z : Nat) (f : MixZone → MixZone) (s : State) : (updateMixZone z f s).ss = s.ss := rfl
@[simp] theorem updateMixZone_ku (z : Nat) (f : MixZone → MixZone) (s : State) : (updateMixZone z f s).ku = s.ku := rfl
@[simp] theorem updateMixZone_cp (z : Nat) (f : MixZone → MixZone) (s : State) : (updateMixZone z f s).cp = s.cp := rfl
@[simp] theorem updateMixZone_cl (z : Nat) (f : MixZone → MixZone) (s : State) : (updateMixZone z f s).cl = s.cl := rfl

/-! respond -/

@[simp] theorem respond_pending (b : List Byte) (s : State) : (respond b s).pending = s.pending := rfl
@[simp] theorem respond_rstnLow (b : List Byte) (s : State) : (respond b s).rstnLow = s.rstnLow := rfl
@[simp] theorem respond_keyInputs (b : List Byte) (s : State) : (respond b s).keyInputs = s.keyInputs := rfl
@[simp] theorem respond_config (b : List Byte) (s : State) : (respond b s).config = s.config := rfl
@[simp] theorem respond_cleanups (b : List Byte) (s : State) : (respond b s).cleanups = s.cleanups := rfl
@[simp] theorem respond_rp (b : List Byte) (s : State) : (respond b s).rp = s.rp := rfl
@[simp] theorem respond_pu (b : List Byte) (s : State) : (respond b s).pu = s.pu := rfl
@[simp] theorem respond_za (b : List Byte) (s : State) : (respond b s).za = s.za := rfl
@[simp] theorem respond_cu (b : List Byte) (s : State) : (respond b s).cu = s.cu := rfl
@[simp] theorem respond_lu (b : List Byte) (s : State) : (respond b s).lu = s.lu := rfl
@[simp] theorem respond_ss (b : List Byte) (s : State) : (respond b s).ss = s.ss := rfl
@[simp] theorem respond_me (b : List Byte) (s : State) : (respond b s).me = s.me := rfl
@[simp] theorem respond_ku (b : List Byte) (s : State) : (respond b s).ku = s.ku := rfl
@[simp] theorem respond_cl (b : List Byte) (s : State) : (respond b s).cl = s.cl := rfl

/-! State.withPending -/

@[simp] theorem State.withPending_rstnLow (q : List Instr) (s : State) : (s.withPending q).rstnLow = s.rstnLow := rfl
@[simp] theorem State.withPending_keyInputs (q : List Instr) (s : State) : (s.withPending q).keyInputs = s.keyInputs := rfl
@[simp] theorem State.withPending_config (q : List Instr) (s : State) : (s.withPending q).config = s.config := rfl
@[simp] theorem State.withPending_cleanups (q : List Instr) (s : State) : (s.withPending q).cleanups = s.cleanups := rfl
@[simp] theorem State.withPending_rp (q : List Instr) (s : State) : (s.withPending q).rp = s.rp := rfl
@[simp] theorem State.withPending_pu (q : List Instr) (s : State) : (s.withPending q).pu = s.pu := rfl
@[simp] theorem State.withPending_za (q : List Instr) (s : State) : (s.withPending q).za = s.za := rfl
@[simp] theorem State.withPending_cu (q : List Instr) (s : State) : (s.withPending q).cu = s.cu := rfl
@[simp] theorem State.withPending_lu (q : List Instr) (s : State) : (s.withPending q).lu = s.lu := rfl
@[simp] theorem State.withPending_ss (q : List Instr) (s : State) : (s.withPending q).ss = s.ss := rfl
@[simp] theorem State.withPending_me (q : List Instr) (s : State) : (s.withPending q).me = s.me := rfl
@[simp] theorem State.withPending_ku (q : List Instr) (s : State) : (s.withPending q).ku = s.ku := rfl
@[simp] theorem State.withPending_cp (q : List Instr) (s : State) : (s.withPending q).cp = s.cp := rfl
@[simp] theorem State.withPending_cl (q : List Instr) (s : State) : (s.withPending q).cl = s.cl := rfl

/-! startLoad -/

@[simp] theorem startLoad_pending (s : State) : (startLoad s).pending = s.pending := rfl
@[simp] theorem startLoad_rstnLow (s : State) : (startLoad s).rstnLow = s.rstnLow := rfl
@[simp] theorem startLoad_keyInputs (s : State) : (startLoad s).keyInputs = s.keyInputs := rfl
@[simp] theorem startLoad_config (s : State) : (startLoad s).config = s.config := rfl
@[simp] theorem startLoad_cleanups (s : State) : (startLoad s).cleanups = s.cleanups := rfl
@[simp] theorem startLoad_rp (s : State) : (startLoad s).rp = s.rp := rfl
@[simp] theorem startLoad_za (s : State) : (startLoad s).za = s.za := rfl
@[simp] theorem startLoad_cu (s : State) : (startLoad s).cu = s.cu := rfl
@[simp] theorem startLoad_lu (s : State) : (startLoad s).lu = s.lu := rfl
@[simp] theorem startLoad_ss (s : State) : (startLoad s).ss = s.ss := rfl
@[simp] theorem startLoad_me (s : State) : (startLoad s).me = s.me := rfl
@[simp] theorem startLoad_ku (s : State) : (startLoad s).ku = s.ku := rfl
@[simp] theorem startLoad_cp (s : State) : (startLoad s).cp = s.cp := rfl
@[simp] theorem startLoad_cl (s : State) : (startLoad s).cl = { loadState := .reading, faultCode := none } := rfl
@[simp] theorem startLoad_pu (s : State) : (startLoad s).pu = s.pu := rfl
@[simp] theorem startLoad_ringState (s : State) : (startLoad s).ringState = .loading := rfl

/-! What the changed field becomes. -/

@[simp] theorem updateZone_za (z : Nat) (f : ZoneRecord → ZoneRecord) (s : State) :
    (updateZone z f s).za = s.za.map fun r => if r.zone = z then f r else r := rfl
@[simp] theorem updateSlot_cu (n : Nat) (f : Slot → Slot) (s : State) : (updateSlot n f s).cu = s.cu.modify n f := rfl
@[simp] theorem updateListen_lu (t : Tag) (f : ListenEntry → ListenEntry) (s : State) :
    (updateListen t f s).lu = s.lu.map fun e => if e.tag = t then f e else e := rfl
@[simp] theorem updateKey_ku (n : Nat) (f : Key → Key) (s : State) : (updateKey n f s).ku = s.ku.modify n f := rfl
@[simp] theorem updateMixZone_zones (z : Nat) (f : MixZone → MixZone) (s : State) :
    (updateMixZone z f s).me.zones = s.me.zones.map fun m => if m.zone = z then f m else m := rfl
@[simp] theorem updateMixZone_ports (z : Nat) (f : MixZone → MixZone) (s : State) :
    (updateMixZone z f s).me.ports = s.me.ports := rfl
@[simp] theorem respond_response (b : List Byte) (s : State) : (respond b s).cp.response = b := rfl
@[simp] theorem respond_notices (b : List Byte) (s : State) : (respond b s).cp.notices = s.cp.notices := rfl
@[simp] theorem respond_overflow (b : List Byte) (s : State) : (respond b s).cp.overflow = s.cp.overflow := rfl
@[simp] theorem respond_masks (b : List Byte) (s : State) : (respond b s).cp.masks = s.cp.masks := rfl
@[simp] theorem State.withPending_pending (q : List Instr) (s : State) : (s.withPending q).pending = q := rfl
@[simp] theorem post_masks (n : HostNotice) (s : State) : (post n s).cp.masks = s.cp.masks := by
  unfold post; split <;> rfl
@[simp] theorem post_response (n : HostNotice) (s : State) : (post n s).cp.response = s.cp.response := by
  unfold post; split <;> rfl
@[simp] theorem storeControl_rp (d : Nat) (m : Message) (s : State) :
    (storeControl d m s).rp = s.rp.storeControl (s.frame d m) := rfl
@[simp] theorem storeAudio_rp (m : Message) (s : State) : (storeAudio m s).rp = s.rp.storeAudio (s.frame 0 m) := rfl

end Sys2Proof.Machine
end

