-- ==== Sys2Proof/Laws/Port.lean ====
section
/-! SUPPORT. The Ring Port's operations keep its capacities, and a free line keeps no frame waiting. -/

namespace Sys2Proof.Machine

/-- Arbitration keeps the capacities: where it begins a frame, the frame leaves its queue. -/
theorem RingPort.arbitrate_within {p : RingPort} {b : Bool} (mark : p.placeSetAside = b)
    (control : p.control.length + (if b then 1 else 0) ≤ controlCapacity) (audio : p.audio.length ≤ audioCapacity) :
    p.arbitrate.Within b := by
  unfold RingPort.arbitrate
  split
  · rename_i h
    exact ⟨mark, control, audio, fun h' => by simp [h] at h'⟩
  · split
    · exact ⟨mark, control, audio, fun h' => by simp at h'⟩
    · split
      · rename_i h
        refine ⟨mark, ?_, audio, fun h' => by simp at h'⟩
        simp only [h, List.length_cons] at control
        simp only
        omega
      · split
        · rename_i h
          refine ⟨mark, control, ?_, fun h' => by simp at h'⟩
          simp only [h, List.length_cons] at audio
          simp only
          omega
        · exact ⟨mark, control, audio, fun _ => ⟨‹_›, ‹_›, ‹_›⟩⟩

/-- Arbitration takes frames out of the forward queue, never into it. -/
theorem RingPort.arbitrate_forward (p : RingPort) : p.arbitrate.forward.length ≤ p.forward.length := by
  unfold RingPort.arbitrate
  repeat' split
  all_goals simp_all

/-- Arbitration leaves the counters. -/
theorem RingPort.arbitrate_counters (p : RingPort) :
    p.arbitrate.checkErrors = p.checkErrors ∧ p.arbitrate.overruns = p.overruns := by
  unfold RingPort.arbitrate
  repeat' split
  all_goals exact ⟨rfl, rfl⟩

/-- What a request to store can do to the Ring Port. -/
structure RingPort.Stores (b : Bool) (p p' : RingPort) : Prop where
  forward : p'.forward.length ≤ p.forward.length
  checkErrors : p'.checkErrors = p.checkErrors
  overruns : p'.overruns = p.overruns
  within : p.Within b → p'.Within b

/-- A refused request leaves the Ring Port as it was. -/
theorem RingPort.Stores.refl (b : Bool) (p : RingPort) : RingPort.Stores b p p := ⟨Nat.le_refl _, rfl, rfl, id⟩

/-- Storing in the control queue. -/
theorem RingPort.storeControl_stores (b : Bool) (f : Frame) (p : RingPort) : RingPort.Stores b p (p.storeControl f) := by
  unfold RingPort.storeControl
  split
  · rename_i room
    refine ⟨RingPort.arbitrate_forward _, (RingPort.arbitrate_counters _).1, (RingPort.arbitrate_counters _).2, fun h => ?_⟩
    refine RingPort.arbitrate_within h.mark ?_ h.audio
    simp only [RingPort.controlRoom, h.mark, decide_eq_true_eq] at room
    simp only [List.length_append, List.length_singleton]
    omega
  · exact RingPort.Stores.refl b p

/-- Storing in the audio queue. -/
theorem RingPort.storeAudio_stores (b : Bool) (f : Frame) (p : RingPort) : RingPort.Stores b p (p.storeAudio f) := by
  unfold RingPort.storeAudio
  split
  · rename_i room
    refine ⟨RingPort.arbitrate_forward _, (RingPort.arbitrate_counters _).1, (RingPort.arbitrate_counters _).2, fun h => ?_⟩
    refine RingPort.arbitrate_within h.mark h.control ?_
    simp only [List.length_append, List.length_singleton]
    omega
  · exact RingPort.Stores.refl b p

/-- Storing a COMMIT in the place set aside for it (R97). -/
theorem RingPort.storeSetAside_stores (f : Frame) {p : RingPort} (h : p.Within true) :
    (p.storeSetAside f).Within false ∧ (p.storeSetAside f).forward.length ≤ p.forward.length ∧
      (p.storeSetAside f).checkErrors = p.checkErrors ∧ (p.storeSetAside f).overruns = p.overruns := by
  unfold RingPort.storeSetAside
  refine ⟨RingPort.arbitrate_within rfl ?_ h.audio, RingPort.arbitrate_forward _, (RingPort.arbitrate_counters _).1,
    (RingPort.arbitrate_counters _).2⟩
  have := h.control
  simp only [List.length_append, List.length_singleton]
  simpa using this

/-- Placing a frame in the forward queue: at most one frame more. -/
theorem RingPort.placeForward_within (f : Frame) {p : RingPort} (h : p.Within false) : (p.placeForward f).Within false :=
  RingPort.arbitrate_within h.mark h.control h.audio

/-- Placing a frame in the forward queue: at most one frame more. -/
theorem RingPort.placeForward_forward (f : Frame) (p : RingPort) :
    (p.placeForward f).forward.length ≤ p.forward.length + 1 := by
  refine Nat.le_trans (RingPort.arbitrate_forward _) ?_
  simp

end Sys2Proof.Machine
end

