-- ==== Sys2Proof/Laws/Quiet.lean ====
section
/-! SUPPORT. What the Zone Arbiter's and the Claim Unit's operations leave alone, and the capacities they keep: one lemma
per operation. -/

namespace Sys2Proof.Machine

/-- The fields of a zone record that settling and the claims leave alone: number, port, policy and floor. -/
def ZoneRecord.fixed (r : ZoneRecord) : Nat × Nat × Policy × Nat := (r.zone, r.port, r.policy, r.floor)

/-- All that an operation of the Zone Arbiter or the Claim Unit leaves alone, and the capacities it keeps. `b` is whether
a place is set aside for a COMMIT meanwhile (R97). -/
structure Quiet (b : Bool) (s s' : State) : Prop where
  pending : s'.pending = s.pending
  rstnLow : s'.rstnLow = s.rstnLow
  keyInputs : s'.keyInputs = s.keyInputs
  config : s'.config = s.config
  cleanups : s'.cleanups = s.cleanups
  pu : s'.pu = s.pu
  ss : s'.ss = s.ss
  me : s'.me = s.me
  cl : s'.cl = s.cl
  port : RingPort.Stores b s.rp s'.rp
  masks : s'.cp.masks = s.cp.masks
  response : s'.cp.response = s.cp.response
  notices : s.cp.notices.length ≤ noticeCapacity → s'.cp.notices.length ≤ noticeCapacity
  zones : s'.za.map ZoneRecord.fixed = s.za.map ZoneRecord.fixed
  slots : s'.cu.map (·.generation) = s.cu.map (·.generation)
  keys : s'.ku.map (fun k => (k.debounced, k.timer)) = s.ku.map (fun k => (k.debounced, k.timer))
  listen : ListenWithin s.lu → ListenWithin s'.lu

theorem Quiet.refl (b : Bool) (s : State) : Quiet b s s :=
  ⟨rfl, rfl, rfl, rfl, rfl, rfl, rfl, rfl, rfl, RingPort.Stores.refl b _, rfl, rfl, id, rfl, rfl, rfl, id⟩

theorem RingPort.Stores.trans {b : Bool} {p q r : RingPort} (h : RingPort.Stores b p q) (k : RingPort.Stores b q r) :
    RingPort.Stores b p r :=
  ⟨Nat.le_trans k.forward h.forward, k.checkErrors.trans h.checkErrors, k.overruns.trans h.overruns,
    fun w => k.within (h.within w)⟩

theorem Quiet.trans {b : Bool} {s t u : State} (h : Quiet b s t) (k : Quiet b t u) : Quiet b s u :=
  ⟨k.pending.trans h.pending, k.rstnLow.trans h.rstnLow, k.keyInputs.trans h.keyInputs, k.config.trans h.config,
    k.cleanups.trans h.cleanups, k.pu.trans h.pu, k.ss.trans h.ss, k.me.trans h.me, k.cl.trans h.cl,
    h.port.trans k.port, k.masks.trans h.masks, k.response.trans h.response, fun n => k.notices (h.notices n),
    k.zones.trans h.zones, k.slots.trans h.slots, k.keys.trans h.keys, fun n => k.listen (h.listen n)⟩

variable {b : Bool}

/-- Something quiet done for each item is quiet. -/
theorem forEach_quiet {α : Type} {act : α → State → State} (h : ∀ a s, Quiet b s (act a s)) :
    ∀ (items : List α) (s : State), Quiet b s (forEach items act s)
  | [], s => Quiet.refl b s
  | a :: rest, s => (h a s).trans (forEach_quiet h rest (act a s))

/-! The shared operations -/

theorem post_quiet (n : HostNotice) (s : State) : Quiet b s (post n s) := by
  refine ⟨by simp, by simp, by simp, by simp, by simp, by simp, by simp, by simp, by simp, ?_, by simp, by simp, ?_,
    by simp, by simp, by simp, by simp⟩
  · simpa using RingPort.Stores.refl b s.rp
  · intro h
    unfold post
    split
    · simp only [List.length_append, List.length_singleton]
      omega
    · exact h

theorem storeControl_quiet (d : Nat) (m : Message) (s : State) : Quiet b s (storeControl d m s) :=
  ⟨rfl, rfl, rfl, rfl, rfl, rfl, rfl, rfl, rfl, RingPort.storeControl_stores b _ _, rfl, rfl, id, rfl, rfl, rfl, id⟩

theorem storeAudio_quiet (m : Message) (s : State) : Quiet b s (storeAudio m s) :=
  ⟨rfl, rfl, rfl, rfl, rfl, rfl, rfl, rfl, rfl, RingPort.storeAudio_stores b _ _, rfl, rfl, id, rfl, rfl, rfl, id⟩

theorem updateZone_quiet (z : Nat) {f : ZoneRecord → ZoneRecord} (h : ∀ r, (f r).fixed = r.fixed) (s : State) :
    Quiet b s (updateZone z f s) := by
  refine ⟨rfl, rfl, rfl, rfl, rfl, rfl, rfl, rfl, rfl, RingPort.Stores.refl b _, rfl, rfl, id, ?_, rfl, rfl, id⟩
  rw [updateZone_za, List.map_map]
  refine List.map_congr_left fun r _ => ?_
  simp only [Function.comp]
  split
  · exact h r
  · rfl

/-- Changing an item of a list in a way a projection does not see. -/
theorem map_modify_same {α β : Type} {p : α → β} {f : α → α} (h : ∀ a, p (f a) = p a) (l : List α) (n : Nat) :
    (l.modify n f).map p = l.map p := by
  induction l generalizing n with
  | nil => cases n <;> rfl
  | cons a l ih =>
    cases n with
    | zero => simp [h]
    | succ n => simp [ih]

theorem updateSlot_quiet (n : Nat) {f : Slot → Slot} (h : ∀ k, (f k).generation = k.generation) (s : State) :
    Quiet b s (updateSlot n f s) :=
  ⟨rfl, rfl, rfl, rfl, rfl, rfl, rfl, rfl, rfl, RingPort.Stores.refl b _, rfl, rfl, id, rfl,
    map_modify_same h s.cu n, rfl, id⟩

/-- An operation on the listen table alone. -/
theorem listen_quiet {s s' : State} (same : s' = { s with lu := s'.lu }) (h : ListenWithin s.lu → ListenWithin s'.lu) :
    Quiet b s s' := by
  rw [same] at h ⊢
  exact ⟨rfl, rfl, rfl, rfl, rfl, rfl, rfl, rfl, rfl, RingPort.Stores.refl b _, rfl, rfl, id, rfl, rfl, rfl, h⟩

/-- Entries changed one by one, each in a way that keeps its own capacities. -/
theorem ListenWithin.map {entries : List ListenEntry} {f : ListenEntry → ListenEntry} (h : ListenWithin entries)
    (buffers : ∀ e ∈ entries, e.buffer.length ≤ bufferCapacity → (f e).buffer.length ≤ bufferCapacity)
    (silent : ∀ e ∈ entries, (e.active = false → e.buffer = [] ∧ e.primed = false) →
      (f e).active = false → (f e).buffer = [] ∧ (f e).primed = false) :
    ListenWithin (entries.map f) := by
  refine ⟨by simpa using h.places, fun e he => ?_, fun e he => ?_⟩
  · obtain ⟨e', mem, rfl⟩ := List.mem_map.mp he
    exact buffers e' mem (h.buffers e' mem)
  · obtain ⟨e', mem, rfl⟩ := List.mem_map.mp he
    exact silent e' mem (h.silent e' mem)

/-- Entries taken away. -/
theorem ListenWithin.filter {entries : List ListenEntry} (p : ListenEntry → Bool) (h : ListenWithin entries) :
    ListenWithin (entries.filter p) :=
  ⟨Nat.le_trans (List.length_filter_le _ _) h.places, fun e he => h.buffers e (List.mem_filter.mp he).1,
    fun e he => h.silent e (List.mem_filter.mp he).1⟩

/-- An entry changed in its references or its lapse timer alone. -/
theorem updateListen_quiet (t : Tag) {f : ListenEntry → ListenEntry}
    (h : ∀ e, (f e).buffer = e.buffer ∧ (f e).active = e.active ∧ (f e).primed = e.primed) (s : State) :
    Quiet b s (updateListen t f s) := by
  refine listen_quiet rfl fun w => w.map (fun e _ k => ?_) fun e _ k => ?_
  · split <;> simp_all
  · split <;> simp_all

theorem takeReference_quiet (t : Tag) (g d : Nat) {s : State} (room : s.canListen t = true) :
    Quiet b s (takeReference t g d s) := by
  unfold takeReference
  split
  · exact updateListen_quiet t (by intro; exact ⟨rfl, rfl, rfl⟩) s
  · rename_i none
    refine listen_quiet rfl fun w => ⟨?_, fun e he => ?_, fun e he => ?_⟩
    · simp only [State.canListen, Bool.or_eq_true, decide_eq_true_eq] at room
      simp only [List.length_append, List.length_singleton]
      rcases room with room | room
      · exact absurd room none
      · omega
    · rcases List.mem_append.mp he with he | he
      · exact w.buffers e he
      · simp only [List.mem_singleton] at he
        subst he
        simp [newListenEntry]
    · rcases List.mem_append.mp he with he | he
      · exact w.silent e he
      · simp only [List.mem_singleton] at he
        subst he
        exact fun _ => ⟨rfl, rfl⟩

theorem releaseReference_quiet (t : Tag) (s : State) : Quiet b s (releaseReference t s) := by
  unfold releaseReference
  split
  · exact Quiet.refl b s
  · split
    · exact listen_quiet rfl fun w => w.filter _
    · exact updateListen_quiet t (by intro; exact ⟨rfl, rfl, rfl⟩) s

theorem reportStanding_quiet (t : Tag) (s : State) : Quiet b s (reportStanding t s) := by
  refine listen_quiet rfl fun w => w.map (fun e _ k => ?_) fun e _ k => ?_
  · split
    · simp only [ListenEntry.report]
      split
      · exact Nat.zero_le _
      · exact k
    · exact k
  · split
    · simp only [ListenEntry.report]
      intro inactive
      cases active : e.active <;> simp_all
    · exact k

theorem releaseRole_quiet (t : Tag) (s : State) : Quiet b s (releaseRole t s) :=
  (releaseReference_quiet t s).trans (reportStanding_quiet t _)

/-! Slots -/

theorem freeSlot_quiet (n : Nat) (o : ClaimOutcome) (s : State) : Quiet b s (freeSlot n o s) := by
  unfold freeSlot
  split
  · exact Quiet.refl b s
  · rename_i k _
    refine ⟨rfl, rfl, rfl, rfl, rfl, rfl, rfl, rfl, rfl, RingPort.Stores.refl b _, rfl, rfl, id, rfl,
      map_modify_same (by intro; rfl) s.cu n, ?_, id⟩
    simp only [updateSlot_ku, List.map_map]
    refine List.map_congr_left fun k _ => ?_
    simp only [Function.comp, Key.forget]
    split <;> rfl

theorem finishClaim_quiet (n : Nat) (o : ClaimOutcome) (s : State) : Quiet b s (finishClaim n o s) := by
  unfold finishClaim
  split
  · exact Quiet.refl b s
  · exact (freeSlot_quiet n o s).trans (post_quiet _ _)

theorem allTerminalTest_quiet (n : Nat) (s : State) : Quiet b s (allTerminalTest n s) := by
  unfold allTerminalTest
  split
  · exact Quiet.refl b s
  · split
    · exact finishClaim_quiet n _ s
    · exact Quiet.refl b s

theorem applyNotice_quiet (sender slot generation zone : Nat) (e : NoticeEvent) (s : State) :
    Quiet b s (applyNotice sender slot generation zone e s) := by
  unfold applyNotice
  split
  · exact Quiet.refl b s
  · split
    · exact ((updateSlot_quiet slot (by intro; rfl) s).trans (post_quiet _ _)).trans (allTerminalTest_quiet slot _)
    · exact Quiet.refl b s

/-! Zones -/

theorem tellOrigin_quiet (z : Nat) (t : Tag) (e : NoticeEvent) (s : State) : Quiet b s (tellOrigin z t e s) := by
  unfold tellOrigin
  split
  · exact applyNotice_quiet _ _ _ _ _ s
  · exact storeControl_quiet _ _ s

theorem notify_quiet (z : Nat) (t : Tag) (e : NoticeEvent) (s : State) : Quiet b s (notify z t e s) :=
  (tellOrigin_quiet z t e s).trans (post_quiet _ _)

theorem endRole_quiet (z : Nat) (reason : Reason) (t : Tag) (s : State) : Quiet b s (endRole z reason t s) := by
  have removed := (updateZone_quiet (b := b) z (fun r : ZoneRecord => (rfl : (r.without t).fixed = r.fixed)) s).trans
    (releaseRole_quiet t _)
  unfold endRole
  simp only
  split
  · exact removed.trans (notify_quiet _ _ _ _)
  · exact removed.trans (post_quiet _ _)

theorem dropReservation_quiet (z : Nat) (p : Tag → Bool) (s : State) : Quiet b s (dropReservation z p s) := by
  unfold dropReservation
  split
  · exact Quiet.refl b s
  · split
    · exact (updateZone_quiet z (by intro; rfl) s).trans (releaseRole_quiet _ _)
    · exact Quiet.refl b s

theorem dropSuperseded_quiet (z : Nat) (p : Tag → Bool) (s : State) : Quiet b s (dropSuperseded z p s) :=
  updateZone_quiet z (by intro; rfl) s

theorem ZoneRecord.pushed_fixed (r : ZoneRecord) : r.pushed.fixed = r.fixed := by
  unfold ZoneRecord.pushed
  split <;> rfl

theorem ZoneRecord.resumed_fixed (r : ZoneRecord) : r.resumed.fixed = r.fixed := by
  unfold ZoneRecord.resumed
  split <;> rfl

theorem pushActive_quiet (z : Nat) (s : State) : Quiet b s (pushActive z s) := by
  unfold pushActive
  split
  · exact Quiet.refl b s
  · exact (updateZone_quiet z ZoneRecord.pushed_fixed s).trans
      (forEach_quiet (act := fun (m : Member) s => notify z m.tag .suspended (reportStanding m.tag s))
        (fun m s => (reportStanding_quiet m.tag s).trans (notify_quiet z m.tag .suspended _)) _ _)

theorem resumeGroup_quiet (z : Nat) (s : State) : Quiet b s (resumeGroup z s) := by
  unfold resumeGroup
  split
  · exact Quiet.refl b s
  · exact (updateZone_quiet z ZoneRecord.resumed_fixed s).trans
      (forEach_quiet (act := fun (m : Member) s => notify z m.tag .resumed (reportStanding m.tag s))
        (fun m s => (reportStanding_quiet m.tag s).trans (notify_quiet z m.tag .resumed _)) _ _)

theorem grant_quiet (z : Nat) (own : Option Tag) (w : Waiter) (s : State) : Quiet b s (grant z own w s) := by
  unfold grant
  simp only
  split
  · exact (reportStanding_quiet w.tag s).trans (post_quiet _ _)
  · exact (reportStanding_quiet w.tag s).trans (notify_quiet _ _ _ _)

theorem promote_quiet (z : Nat) (own : Option Tag) (s : State) : Quiet b s (promote z own s) := by
  unfold promote
  split
  · exact Quiet.refl b s
  · exact (updateZone_quiet z (by intro; rfl) s).trans (forEach_quiet (grant_quiet z own) _ _)

theorem joinActive_quiet (z : Nat) (own : Option Tag) (w : Waiter) (s : State) : Quiet b s (joinActive z own w s) :=
  (updateZone_quiet z (by intro; rfl) s).trans (grant_quiet z own w _)

theorem emptyPass_quiet {z : Nat} {own : Option Tag} {r : ZoneRecord} {s s' : State}
    (h : emptyPass z own r s = some s') : Quiet b s s' := by
  have pruned := forEach_quiet (b := b) (endRole_quiet z .floor) r.pruned s
  unfold emptyPass at h
  simp only at h
  split at h
  · cases h; exact pruned.trans (resumeGroup_quiet z _)
  · cases h; exact pruned.trans (promote_quiet z own _)
  · split at h
    · cases h
    · cases h; exact pruned

theorem activePass_quiet {z : Nat} {own : Option Tag} {r : ZoneRecord} {a : Nat} {s s' : State}
    (h : activePass z own r a s = some s') : Quiet b s s' := by
  unfold activePass at h
  split at h
  · cases h
  · split at h
    · split at h
      · cases h; exact (pushActive_quiet z s).trans (promote_quiet z own _)
      · cases h; exact endRole_quiet z _ _ s
    · split at h
      · split at h
        · cases h; exact joinActive_quiet z own _ s
        · cases h; exact endRole_quiet z _ _ s
      · cases h

theorem settlePass_quiet {z : Nat} {own : Option Tag} {s s' : State} (h : settlePass z own s = some s') :
    Quiet b s s' := by
  unfold settlePass at h
  split at h
  · cases h
  · split at h
    · exact emptyPass_quiet h
    · exact activePass_quiet h

theorem settleLoop_quiet (z : Nat) (own : Option Tag) : ∀ (n : Nat) (s : State), Quiet b s (settleLoop z own n s)
  | 0, s => Quiet.refl b s
  | n + 1, s => by
    unfold settleLoop
    split
    · exact Quiet.refl b s
    · rename_i s' h
      exact (settlePass_quiet h).trans (settleLoop_quiet z own n s')

theorem settle_quiet (z : Nat) (own : Option Tag) (w : Bool) (s : State) : Quiet b s (settle z own w s) := by
  unfold settle
  split
  · exact Quiet.refl b s
  · simp only
    split
    · exact (settleLoop_quiet z own _ s).trans (post_quiet _ _)
    · exact settleLoop_quiet z own _ s

/-! CLAIM and COMMIT at the owner -/

theorem breakReservation_quiet (z : Nat) (s : State) : Quiet b s (breakReservation z s) := by
  unfold breakReservation
  split
  · exact Quiet.refl b s
  · exact (updateZone_quiet z (by intro; rfl) s).trans (releaseRole_quiet _ _)

theorem reserve_quiet (z : Nat) (t : Terms) {s : State} (room : s.canListen t.tag = true) : Quiet b s (reserve z t s) :=
  ((takeReference_quiet t.tag t.gain t.duration room).trans (breakReservation_quiet z _)).trans
    (updateZone_quiet z (by intro; rfl) _)

theorem answer_quiet (z : Nat) (t : Terms) (r : ZoneRecord) (s : State) : Quiet b s (answer z t r s).2 := by
  unfold answer
  split
  · split
    · exact reserve_quiet z t ‹_›
    · exact Quiet.refl b s
  · exact Quiet.refl b s

theorem answerEntry_quiet (t : Terms) (e : WireEntry) (s : State) : Quiet b s (answerEntry t e s).2 := by
  unfold answerEntry
  split
  · exact Quiet.refl b s
  · split
    · exact answer_quiet _ t _ s
    · exact post_quiet _ s

theorem eachEntry_quiet {take : WireEntry → State → WireEntry × State} (h : ∀ e s, Quiet b s (take e s).2) :
    ∀ (entries : List WireEntry) (s : State), Quiet b s (eachEntry take entries s).2
  | [], s => Quiet.refl b s
  | e :: rest, s => (h e s).trans (eachEntry_quiet h rest _)

theorem claimAtOwner_quiet (origin : Nat) (c : Content) (s : State) : Quiet b s (claimAtOwner origin c s).2 :=
  eachEntry_quiet (answerEntry_quiet _) _ s

theorem enterActive_quiet (z : Nat) (t : Terms) (s : State) : Quiet b s (enterActive z t s) :=
  (updateZone_quiet z (by intro; rfl) s).trans (reportStanding_quiet _ _)

theorem takeIn_quiet (z : Nat) (t : Terms) (w : Bool) (s : State) : Quiet b s (takeIn z t w s) :=
  ((enterActive_quiet z t s).trans (post_quiet _ _)).trans (settle_quiet z none w _)

theorem commitHeld_quiet (z : Nat) (t : Terms) (r : ZoneRecord) (s : State) : Quiet b s (commitHeld z t r s).2 := by
  have removed := updateZone_quiet (b := b) z (f := fun r => { r with reservation := none }) (by intro; rfl) s
  unfold commitHeld
  split
  · simp only
    split
    · exact removed.trans (releaseRole_quiet _ _)
    · split
      · exact removed.trans (takeIn_quiet z t _ _)
      · exact removed.trans ((pushActive_quiet z _).trans (takeIn_quiet z t _ _))
      · exact removed.trans (takeIn_quiet z t _ _)
      · exact removed.trans (releaseRole_quiet _ _)
  · split
    · exact updateZone_quiet z (by intro; rfl) s
    · exact Quiet.refl b s

theorem joinWaiting_quiet (z : Nat) (t : Terms) {s : State} (room : s.canListen t.tag = true) :
    Quiet b s (joinWaiting z t s) :=
  (((takeReference_quiet t.tag t.gain t.duration room).trans (dropReservation_quiet z _ _)).trans
    (updateZone_quiet z (by intro; rfl) _)).trans (reportStanding_quiet _ _)

theorem commitWaiting_quiet (z : Nat) (t : Terms) (r : ZoneRecord) (s : State) : Quiet b s (commitWaiting z t r s).2 := by
  unfold commitWaiting
  split
  · exact Quiet.refl b s
  · split
    · exact Quiet.refl b s
    · split
      · exact Quiet.refl b s
      · rename_i room
        exact (joinWaiting_quiet z t (by simpa using room)).trans (settle_quiet z _ _ _)

theorem acknowledgeEntry_quiet (t : Terms) (e : WireEntry) (s : State) : Quiet b s (acknowledgeEntry t e s).2 := by
  unfold acknowledgeEntry
  split
  · exact Quiet.refl b s
  · split
    · split
      · split
        · exact Quiet.refl b s
        · exact commitHeld_quiet _ t _ s
      · split
        · exact Quiet.refl b s
        · exact commitWaiting_quiet _ t _ s
      · exact Quiet.refl b s
    · exact Quiet.refl b s

theorem commitAtOwner_quiet (origin : Nat) (c : Content) (s : State) : Quiet b s (commitAtOwner origin c s).2 :=
  eachEntry_quiet (acknowledgeEntry_quiet _) _ s

/-! Endings -/

theorem endWhere_quiet (reason : Reason) (p : Tag → Bool) (z : Nat) (s : State) : Quiet b s (endWhere reason p z s) := by
  unfold endWhere
  split
  · exact Quiet.refl b s
  · have ended : ∀ tags : List Tag, Quiet b s
        (dropSuperseded z p (dropReservation z p (forEach tags (endRole z reason) s))) := fun tags =>
      ((forEach_quiet (endRole_quiet z reason) tags s).trans (dropReservation_quiet z p _)).trans
        (dropSuperseded_quiet z p _)
    simp only
    split
    · exact ended _
    · exact (ended _).trans (settle_quiet z none _ _)

theorem endEverywhere_quiet (reason : Reason) (p : Tag → Bool) (s : State) : Quiet b s (endEverywhere reason p s) :=
  forEach_quiet (endWhere_quiet reason p) _ s

theorem autoEndExpiryAt_quiet (z : Nat) (t : Tag) (s : State) : Quiet b s (autoEndExpiryAt z t s) := by
  unfold autoEndExpiryAt
  split
  · exact Quiet.refl b s
  · split
    · exact (endRole_quiet z _ t s).trans (settle_quiet z none true _)
    · exact Quiet.refl b s

theorem lapseExpiry_quiet (t : Tag) (s : State) : Quiet b s (lapseExpiry t s) := by
  unfold lapseExpiry
  split
  · exact (updateListen_quiet t (by intro; exact ⟨rfl, rfl, rfl⟩) s).trans (endEverywhere_quiet _ _ _)
  · exact Quiet.refl b s

/-! Claims at the origin -/

theorem withdrawClaim_quiet (n : Nat) (s : State) : Quiet b s (withdrawClaim n s) := by
  unfold withdrawClaim
  split
  · exact Quiet.refl b s
  · simp only
    split
    · exact (endEverywhere_quiet _ _ s).trans (storeControl_quiet _ _ _)
    · exact endEverywhere_quiet _ _ s

theorem withdrawAndFinish_quiet (n : Nat) (o : ClaimOutcome) (s : State) : Quiet b s (withdrawAndFinish n o s) :=
  (withdrawClaim_quiet n s).trans (finishClaim_quiet n o _)

theorem enterLive_quiet (n : Nat) (s : State) : Quiet b s (enterLive n s) := by
  unfold enterLive
  split
  · exact Quiet.refl b s
  · exact ((updateSlot_quiet n (by intro; rfl) s).trans (post_quiet _ _)).trans (allTerminalTest_quiet n _)

theorem commitDecision_quiet (n : Nat) (w : List WireEntry) (s : State) : Quiet b s (commitDecision n w s) := by
  unfold commitDecision
  split
  · exact Quiet.refl b s
  · split
    · exact enterLive_quiet n s
    · split
      · exact withdrawAndFinish_quiet n _ s
      · exact finishClaim_quiet n _ s

theorem takeCommitReturn_quiet (n : Nat) (w : List WireEntry) (s : State) : Quiet b s (takeCommitReturn n w s) :=
  (updateSlot_quiet n (by intro; rfl) s).trans (commitDecision_quiet n w _)

/-- The COMMIT stored at the end of what was done with its place set aside (R97). -/
theorem storeCommit_quiet (c : Content) {s t : State} (room : s.rp.control.length < controlCapacity)
    (h : Quiet true (setPlaceAside s) t) : Quiet false s (storeCommit c t) := by
  have aside : s.rp.Within false → (setPlaceAside s).rp.Within true := fun w =>
    ⟨rfl, by simp only [setPlaceAside, if_true]; omega, w.audio, w.line⟩
  exact ⟨h.pending, h.rstnLow, h.keyInputs, h.config, h.cleanups, h.pu, h.ss, h.me, h.cl,
    ⟨Nat.le_trans (RingPort.arbitrate_forward _) h.port.forward,
      ((RingPort.arbitrate_counters _).1).trans h.port.checkErrors,
      ((RingPort.arbitrate_counters _).2).trans h.port.overruns,
      fun w => (RingPort.storeSetAside_stores _ (h.port.within (aside w))).1⟩,
    h.masks, h.response, h.notices, h.zones, h.slots, h.keys, h.listen⟩

/-- The commit of a claim, where the control queue has room for its COMMIT (R97). -/
theorem runCommit_quiet (n : Nat) (k : Slot) (i : ClaimInfo) {s : State}
    (room : i.cls = .ofRing → s.rp.control.length < controlCapacity) : Quiet false s (runCommit n k i s) := by
  unfold runCommit
  simp only
  split
  · rename_i ring
    refine Quiet.trans (t := updateSlot n
      (fun k => { k.withEntries (k.entries.map ZoneEntry.toCommit) with state := .committing }) s)
      (updateSlot_quiet n (by intro; rfl) s) (storeCommit_quiet _ (room ring) ?_)
    exact (commitAtOwner_quiet _ _ _).trans (updateSlot_quiet n (by intro; rfl) _)
  · exact ((updateSlot_quiet n (by intro; rfl) s).trans (commitAtOwner_quiet _ _ _)).trans
      (takeCommitReturn_quiet n _ _)

theorem commitClaim_quiet (n : Nat) (s : State) : Quiet false s (commitClaim n s) := by
  unfold commitClaim
  split
  · exact Quiet.refl _ s
  · split
    · exact Quiet.refl _ s
    · split
      · exact finishClaim_quiet n _ s
      · rename_i full
        refine runCommit_quiet n _ _ fun ring => ?_
        simp only [ring, true_and] at full
        omega

theorem claimDecision_quiet (n : Nat) (s : State) : Quiet false s (claimDecision n s) := by
  unfold claimDecision
  split
  · exact Quiet.refl _ s
  · split
    · exact commitClaim_quiet n s
    · split
      · exact withdrawAndFinish_quiet n _ s
      · exact finishClaim_quiet n _ s

theorem takeClaimReturn_quiet (n : Nat) (w : List WireEntry) (s : State) : Quiet false s (takeClaimReturn n w s) :=
  (updateSlot_quiet n (by intro; rfl) s).trans (claimDecision_quiet n _)

theorem claimReturned_quiet (c : Content) (s : State) : Quiet false s (claimReturned c s) := by
  unfold claimReturned
  split
  · exact Quiet.refl _ s
  · split
    · exact takeClaimReturn_quiet _ _ s
    · exact Quiet.refl _ s

theorem commitReturned_quiet (c : Content) (s : State) : Quiet b s (commitReturned c s) := by
  unfold commitReturned
  split
  · exact Quiet.refl _ s
  · split
    · exact takeCommitReturn_quiet _ _ s
    · exact Quiet.refl _ s

theorem endRequest_quiet (n g : Nat) (s : State) : Quiet b s (endRequest n g s).2 := by
  unfold endRequest
  split
  · exact withdrawAndFinish_quiet n _ s
  · exact Quiet.refl b s

theorem durationExpiry_quiet (n : Nat) (s : State) : Quiet b s (durationExpiry n s) := by
  unfold durationExpiry
  split
  · exact Quiet.refl b s
  · split
    · exact withdrawAndFinish_quiet n _ s
    · exact Quiet.refl b s

theorem returnExpiry_quiet (n : Nat) (s : State) : Quiet b s (returnExpiry n s) := by
  unfold returnExpiry
  split
  · exact Quiet.refl b s
  · split
    · exact withdrawAndFinish_quiet n _ s
    · exact Quiet.refl b s

theorem claimSent_quiet (state : SlotState) (slot generation : Byte) (s : State) :
    Quiet b s (claimSent state slot generation s) := by
  refine updateSlot_quiet _ (fun k => ?_) s
  split <;> rfl

theorem cleanupSlot_quiet (peer n : Nat) (s : State) : Quiet b s (cleanupSlot peer n s) := by
  unfold cleanupSlot
  split
  · exact Quiet.refl b s
  · split
    · exact ((updateSlot_quiet n (by intro; rfl) s).trans (forEach_quiet (fun e s => post_quiet _ s) _ _)).trans
        (allTerminalTest_quiet n _)
    · exact Quiet.refl b s

theorem cleanupAtOrigin_quiet (peer : Nat) (s : State) : Quiet b s (cleanupAtOrigin peer s) :=
  forEach_quiet (cleanupSlot_quiet peer) _ s

/-- An accepted issue after its slot has been taken (R90, R92). -/
theorem runIssue_quiet (n : Nat) (k : Slot) (i : ClaimInfo) (s : State) :
    Quiet false (updateSlot n (Slot.taken i) s) (runIssue n k i s) := by
  unfold runIssue
  simp only
  split
  · exact (claimAtOwner_quiet _ _ _).trans (storeControl_quiet _ _ _)
  · exact (claimAtOwner_quiet _ _ _).trans (takeClaimReturn_quiet _ _ _)

end Sys2Proof.Machine
end

