-- ==== Sys2Proof/Laws/Records.lean ====
section
/-! SUPPORT. Each change of a zone record keeps the record's laws (R53, R54, R56, R57). -/

namespace Sys2Proof.Machine

/-! Tags and levels -/

/-- The tags of the active set. -/
def ZoneRecord.activeTags (r : ZoneRecord) : List Tag := r.active.map (·.tag)

/-- The tags of the stack, from the top. -/
def ZoneRecord.stackTags (r : ZoneRecord) : List Tag := r.stack.flatMap fun g => g.members.map (·.tag)

/-- The tags of the wait list. -/
def ZoneRecord.waitingTags (r : ZoneRecord) : List Tag := r.waiting.map (·.tag)

theorem ZoneRecord.placedTags_eq (r : ZoneRecord) : r.placedTags = r.activeTags ++ r.stackTags ++ r.waitingTags := rfl

theorem ZoneRecord.isActive_iff (r : ZoneRecord) (t : Tag) : r.isActive t = true ↔ t ∈ r.activeTags := by
  simp only [ZoneRecord.isActive, ZoneRecord.activeTags, List.any_eq_true, List.mem_map, beq_iff_eq]

theorem ZoneRecord.isSuspended_iff (r : ZoneRecord) (t : Tag) : r.isSuspended t = true ↔ t ∈ r.stackTags := by
  simp only [ZoneRecord.isSuspended, ZoneRecord.stackTags, List.any_eq_true, List.mem_flatMap, List.mem_map, beq_iff_eq]

theorem ZoneRecord.isWaiting_iff (r : ZoneRecord) (t : Tag) : r.isWaiting t = true ↔ t ∈ r.waitingTags := by
  simp only [ZoneRecord.isWaiting, ZoneRecord.waitingTags, List.any_eq_true, List.mem_map, beq_iff_eq]

theorem ZoneRecord.isPlaced_iff (r : ZoneRecord) (t : Tag) : r.isPlaced t = true ↔ t ∈ r.placedTags := by
  simp only [ZoneRecord.isPlaced, Bool.or_eq_true, r.isActive_iff, r.isSuspended_iff, r.isWaiting_iff,
    r.placedTags_eq, List.mem_append]

theorem ZoneRecord.isReserved_iff (r : ZoneRecord) (t : Tag) :
    r.isReserved t = true ↔ t ∈ Reservation.tags r.reservation := by
  unfold ZoneRecord.isReserved
  cases r.reservation with
  | none => simp [Reservation.tags]
  | some v => exact beq_iff_eq.trans (eq_comm.trans List.mem_singleton.symm)

theorem ZoneRecord.hasRole_iff (r : ZoneRecord) (t : Tag) : r.hasRole t = true ↔ t ∈ r.tags := by
  simp only [ZoneRecord.hasRole, Bool.or_eq_true, r.isPlaced_iff, r.isReserved_iff, ZoneRecord.tags, List.mem_append]

/-! A role removed -/

/-- Groups without a tag, the empty ones gone: their tags are the others. -/
theorem stack_without_tags (t : Tag) (stack : List Group) :
    (((stack.map (Group.without t)).filter fun g => !g.members.isEmpty).flatMap fun g => g.members.map (·.tag)) =
      (stack.flatMap fun g => g.members.map (·.tag)).filter (· != t) := by
  induction stack with
  | nil => rfl
  | cons g rest ih =>
    have one : (g.without t).members.map (·.tag) = (g.members.map (·.tag)).filter (· != t) := by
      simp [Group.without, List.filter_map, Function.comp_def]
    simp only [List.map_cons, List.flatMap_cons, List.filter_append, ← one, ← ih]
    cases empty : (g.without t).members.isEmpty with
    | true => rw [List.filter_cons_of_neg (by simp [empty]), List.isEmpty_iff.mp empty]; rfl
    | false => rw [List.filter_cons_of_pos (by simp [empty]), List.flatMap_cons]

theorem ZoneRecord.without_placedTags (r : ZoneRecord) (t : Tag) :
    (r.without t).placedTags = r.placedTags.filter (· != t) := by
  simp only [ZoneRecord.placedTags, ZoneRecord.without]
  rw [stack_without_tags, List.filter_append, List.filter_append, List.filter_map, List.filter_map]
  rfl

/-- Groups without a tag keep their levels, the empty ones gone. -/
theorem stack_without_levels (t : Tag) (stack : List Group) :
    (((stack.map (Group.without t)).filter fun g => !g.members.isEmpty).map (·.level)).Sublist
      (stack.map (·.level)) := by
  have same : (stack.map (Group.without t)).map (·.level) = stack.map (·.level) := by
    simp [Group.without, Function.comp_def]
  exact same ▸ (List.filter_sublist.map Group.level)

theorem ZoneRecord.without_levels (r : ZoneRecord) (t : Tag) : ((r.without t).levels).Sublist r.levels := by
  refine List.Sublist.append ?_ (stack_without_levels t r.stack)
  simp only [ZoneRecord.without]
  split
  · exact List.nil_sublist _
  · exact List.Sublist.refl _

theorem ZoneRecord.without_placedTags_subset (r : ZoneRecord) (t : Tag) : (r.without t).placedTags ⊆ r.placedTags := by
  rw [r.without_placedTags]
  exact List.filter_sublist.subset

/-- A change that leaves the reservation and gives no tag a new place keeps the reservation's tag without one. -/
theorem ZoneRecord.Sound.apart {r r' : ZoneRecord} (h : r.Sound) (reservation : r'.reservation = r.reservation)
    (placed : r'.placedTags ⊆ r.placedTags) : ∀ t ∈ Reservation.tags r'.reservation, t ∉ r'.placedTags :=
  fun t mem place => h.reserved t (reservation ▸ mem) (placed place)

theorem ZoneRecord.Sound.without {r : ZoneRecord} (h : r.Sound) (t : Tag) : (r.without t).Sound := by
  refine ⟨h.floor, ?_, ?_, h.order.sublist (r.without_levels t), fun a mem => h.urgent a ((r.without_levels t).subset mem),
    ?_, ?_, ?_, ?_, h.apart rfl (r.without_placedTags_subset t)⟩
  · simp only [ZoneRecord.without]
    split
    · rename_i empty
      simpa using List.isEmpty_iff.mp empty
    · rename_i full
      have some : r.activeLevel ≠ none := fun none => by
        rw [h.level] at none
        simp [none] at full
      have full' : ¬ r.active.filter (fun m => m.tag != t) = [] := fun e => full (by simp [e])
      simp only [some, full']
  · exact Nat.le_trans (List.length_filter_le _ _) h.members
  · intro g mem
    obtain ⟨mem, full⟩ := List.mem_filter.mp mem
    obtain ⟨g', mem', rfl⟩ := List.mem_map.mp mem
    refine ⟨fun empty => by simp [empty] at full, ?_⟩
    exact Nat.le_trans (List.length_filter_le _ _) (h.groups g' mem').2
  · exact Nat.le_trans (List.length_filter_le _ _) h.waiters
  · exact h.sorted.sublist (List.filter_sublist.map _)
  · rw [ZoneRecord.without_placedTags]
    exact h.single.filter _

/-- A record without the tags of a list. -/
def ZoneRecord.withoutAll (ts : List Tag) (r : ZoneRecord) : ZoneRecord := ts.foldl ZoneRecord.without r

theorem ZoneRecord.Sound.withoutAll {r : ZoneRecord} (h : r.Sound) : ∀ ts : List Tag, (r.withoutAll ts).Sound := by
  intro ts
  induction ts generalizing r with
  | nil => exact h
  | cons t ts ih => exact ih (h.without t)

theorem ZoneRecord.withoutAll_fixed (ts : List Tag) (r : ZoneRecord) :
    (r.withoutAll ts).zone = r.zone ∧ (r.withoutAll ts).floor = r.floor ∧ (r.withoutAll ts).policy = r.policy ∧
      (r.withoutAll ts).port = r.port ∧ (r.withoutAll ts).reservation = r.reservation := by
  induction ts generalizing r with
  | nil => exact ⟨rfl, rfl, rfl, rfl, rfl⟩
  | cons t ts ih => exact ih (r.without t)

theorem ZoneRecord.withoutAll_active_nil (ts : List Tag) {r : ZoneRecord} (h : r.active = []) :
    (r.withoutAll ts).active = [] := by
  induction ts generalizing r with
  | nil => exact h
  | cons t ts ih => exact ih (by simp [ZoneRecord.without, h])

/-- A waiter left after tags were removed waited before, under another tag. -/
theorem ZoneRecord.mem_withoutAll_waiting {ts : List Tag} {r : ZoneRecord} {w : Waiter}
    (h : w ∈ (r.withoutAll ts).waiting) : w ∈ r.waiting ∧ w.tag ∉ ts := by
  induction ts generalizing r with
  | nil => exact ⟨h, by simp⟩
  | cons t ts ih =>
    obtain ⟨mem, rest⟩ := ih h
    obtain ⟨mem, other⟩ := List.mem_filter.mp mem
    exact ⟨mem, by simpa [rest] using other⟩

/-! Push, resume, promote, join -/

theorem ZoneRecord.pushed_placedTags (r : ZoneRecord) : r.pushed.placedTags = r.placedTags := by
  unfold ZoneRecord.pushed
  split
  · rfl
  · simp [ZoneRecord.placedTags]

theorem ZoneRecord.pushed_reservation (r : ZoneRecord) : r.pushed.reservation = r.reservation := by
  unfold ZoneRecord.pushed
  split <;> rfl

theorem ZoneRecord.Sound.pushed {r : ZoneRecord} (h : r.Sound) : r.pushed.Sound := by
  have apart := h.apart r.pushed_reservation (fun t mem => r.pushed_placedTags ▸ mem)
  revert apart
  unfold ZoneRecord.pushed
  split
  · exact fun _ => h
  · rename_i a level
    intro apart
    have full : r.active ≠ [] := fun e => by simp [h.level.mpr e] at level
    have same : r.levels = a :: r.stack.map (·.level) := by simp [ZoneRecord.levels, level]
    refine ⟨h.floor, by simp, by simp, ?_, ?_, ?_, h.waiters, h.sorted, ?_, apart⟩
    · exact (same ▸ h.order :)
    · exact (same ▸ h.urgent :)
    · intro g mem
      rcases List.mem_cons.mp mem with rfl | mem
      · exact ⟨full, h.members⟩
      · exact h.groups g mem
    · simpa [ZoneRecord.placedTags] using h.single

theorem ZoneRecord.pushed_active {r : ZoneRecord} (h : r.Sound) : r.pushed.active = [] := by
  unfold ZoneRecord.pushed
  split
  · rename_i none
    exact h.level.mp none
  · rfl

/-- The levels of a pushed record are the levels it had. -/
theorem ZoneRecord.pushed_levels (r : ZoneRecord) : r.pushed.levels = r.levels := by
  unfold ZoneRecord.pushed
  split
  · rfl
  · rename_i a level
    simp [ZoneRecord.levels, level]

/-- What promotion and a COMMIT need of a record: an empty active set, under a level strictly more urgent than every
group's. -/
structure ZoneRecord.Open (r : ZoneRecord) (level : Nat) : Prop where
  empty : r.active = []
  urgent : level ≤ 6
  above : ∀ g ∈ r.stack, level < g.level

theorem ZoneRecord.Sound.open_order {r : ZoneRecord} {level : Nat} (h : r.Sound) (o : r.Open level) :
    (level :: r.stack.map (·.level)).Pairwise (· < ·) ∧ ∀ a ∈ level :: r.stack.map (·.level), a ≤ 6 := by
  have none : r.activeLevel = none := h.level.mpr o.empty
  have same : r.levels = r.stack.map (·.level) := by simp [ZoneRecord.levels, none]
  refine ⟨List.pairwise_cons.mpr ⟨fun b mem => ?_, same ▸ h.order⟩, fun a mem => ?_⟩
  · obtain ⟨g, mem', rfl⟩ := List.mem_map.mp mem
    exact o.above g mem'
  · rcases List.mem_cons.mp mem with rfl | mem
    · exact o.urgent
    · exact h.urgent a (same ▸ mem)

/-- A record open to a level after its active set has been pushed. -/
theorem ZoneRecord.Sound.pushed_open {r : ZoneRecord} {a level : Nat} (h : r.Sound) (active : r.activeLevel = some a)
    (less : level < a) : r.pushed.Open level := by
  have levels : r.levels = a :: r.stack.map (·.level) := by simp [ZoneRecord.levels, active]
  have ha : a ≤ 6 := h.urgent a (by simp [levels])
  refine ⟨r.pushed_active h, by omega, fun g mem => ?_⟩
  have order := levels ▸ h.order
  simp only [ZoneRecord.pushed, active, List.mem_cons] at mem
  rcases mem with rfl | mem
  · exact less
  · have := (List.pairwise_cons.mp order).1 g.level (List.mem_map.mpr ⟨g, mem, rfl⟩)
    omega

theorem memberLimit_pos (p : Policy) : 1 ≤ memberLimit p := by cases p <;> decide

/-- A tag with no role that becomes an active member leaves the reservation's tag without a place. -/
theorem ZoneRecord.Sound.enterApart {r : ZoneRecord} {m : Member} {level : Option Nat} (h : r.Sound) (new : m.tag ∉ r.tags) :
    ∀ t ∈ Reservation.tags r.reservation,
      t ∉ ({ r with active := r.active ++ [m], activeLevel := level } : ZoneRecord).placedTags := by
  intro t mem place
  have old : t ∉ r.placedTags := h.reserved t mem
  have other : t ≠ m.tag := fun same => new (List.mem_append_right _ (same ▸ mem))
  simp only [ZoneRecord.placedTags, List.map_append, List.map_cons, List.map_nil, List.mem_append, List.mem_singleton] at place old
  grind

/-- A tag with no role joins an open record's active set alone (R67). -/
theorem ZoneRecord.Sound.enterSole {r : ZoneRecord} {m : Member} {level : Nat} (h : r.Sound) (o : r.Open level)
    (new : m.tag ∉ r.tags) : ({ r with active := r.active ++ [m], activeLevel := some level } : ZoneRecord).Sound := by
  obtain ⟨order, urgent⟩ := h.open_order o
  refine ⟨h.floor, by simp, ?_, by simpa [ZoneRecord.levels] using order, by simpa [ZoneRecord.levels] using urgent,
    h.groups, h.waiters, h.sorted, ?_, h.enterApart new⟩
  · simpa [o.empty] using memberLimit_pos r.policy
  · have single := h.single
    replace new : m.tag ∉ r.placedTags := fun mem => new (List.mem_append_left _ mem)
    simp only [ZoneRecord.placedTags, o.empty, List.map_nil, List.nil_append, List.map_cons, List.cons_append] at single new ⊢
    exact List.nodup_cons.mpr ⟨new, single⟩

/-- A tag with no role joins a MIX record's active set at its own level (R67). -/
theorem ZoneRecord.Sound.enterJoin {r : ZoneRecord} {m : Member} {level : Nat} (h : r.Sound)
    (active : r.activeLevel = some level) (mix : r.policy = .mix) (room : r.active.length < mixCapacity)
    (new : m.tag ∉ r.tags) : ({ r with active := r.active ++ [m], activeLevel := some level } : ZoneRecord).Sound := by
  have same : ({ r with active := r.active ++ [m], activeLevel := some level } : ZoneRecord).levels = r.levels := by
    simp [ZoneRecord.levels, active]
  refine ⟨h.floor, by simp, ?_, same ▸ h.order, same ▸ h.urgent, h.groups, h.waiters, h.sorted, ?_, h.enterApart new⟩
  · simp only [mix, memberLimit, List.length_append, List.length_singleton]
    omega
  · have single := h.single
    replace new : m.tag ∉ r.placedTags := fun mem => new (List.mem_append_left _ mem)
    simp only [ZoneRecord.placedTags, List.append_assoc] at single new ⊢
    simp only [List.map_append, List.map_cons, List.map_nil, List.append_assoc, List.singleton_append]
    exact List.perm_middle.nodup_iff.mpr (List.nodup_cons.mpr ⟨new, single⟩)

theorem ZoneRecord.resumed_placedTags_subset (r : ZoneRecord) : r.resumed.placedTags ⊆ r.placedTags := by
  unfold ZoneRecord.resumed
  split
  · exact List.Subset.refl _
  · rename_i g rest stack
    intro t mem
    simp only [ZoneRecord.placedTags, stack, List.flatMap_cons, List.mem_append] at mem ⊢
    rcases mem with (h | h) | h
    · exact .inl (.inr (.inl h))
    · exact .inl (.inr (.inr h))
    · exact .inr h

theorem ZoneRecord.resumed_reservation (r : ZoneRecord) : r.resumed.reservation = r.reservation := by
  unfold ZoneRecord.resumed
  split <;> rfl

theorem ZoneRecord.Sound.resumed {r : ZoneRecord} (h : r.Sound) (empty : r.active = []) : r.resumed.Sound := by
  have apart := h.apart r.resumed_reservation r.resumed_placedTags_subset
  revert apart
  unfold ZoneRecord.resumed
  split
  · exact fun _ => h
  · rename_i g rest stack
    intro apart
    have none : r.activeLevel = none := h.level.mpr empty
    have same : r.levels = g.level :: rest.map (·.level) := by simp [ZoneRecord.levels, none, stack]
    have top := h.groups g (by simp [stack])
    refine ⟨h.floor, by simp [top.1], top.2, ?_, ?_, fun g' mem => h.groups g' (by simp [stack, mem]), h.waiters,
      h.sorted, ?_, apart⟩
    · exact (same ▸ h.order :)
    · exact (same ▸ h.urgent :)
    · simpa [ZoneRecord.placedTags, empty, stack] using h.single

/-- The promoted waiters are the first of the list. -/
theorem ZoneRecord.promotable_eq (r : ZoneRecord) : r.promotable = r.waiting.take r.promotable.length := by
  unfold ZoneRecord.promotable
  split
  · rename_i none; simp [none]
  · rename_i w rest list
    split
    · simp [list]
    · rw [list, List.length_cons, List.take_succ_cons]
      congr 1
      obtain ⟨tail, whole⟩ := (List.take_prefix (mixCapacity - 1) (rest.takeWhile fun v => v.level == w.level)).trans
        (List.takeWhile_prefix _)
      refine Eq.trans ?_ (congrArg (List.take _) whole)
      rw [List.take_left']
      rfl

theorem ZoneRecord.promotable_length (r : ZoneRecord) : r.promotable.length ≤ memberLimit r.policy := by
  unfold ZoneRecord.promotable
  split
  · simp
  · split
    · rename_i stack; simp [stack, memberLimit]
    · rename_i mix
      simp only [List.length_cons, List.length_take, mix, memberLimit, mixCapacity]
      omega

/-- A record with the promoted waiters as its active set; `member` is the member record made of each. -/
def ZoneRecord.promoted (member : Waiter → Member) (r : ZoneRecord) : ZoneRecord :=
  { r with
    active := r.promotable.map member
    activeLevel := r.waiting.head?.map (·.level)
    waiting := r.waiting.drop r.promotable.length }

theorem ZoneRecord.promotable_ne_nil {r : ZoneRecord} {w : Waiter} {rest : List Waiter} (list : r.waiting = w :: rest) :
    r.promotable ≠ [] := by
  unfold ZoneRecord.promotable
  rw [list]
  split <;> simp_all
  split <;> simp_all

theorem ZoneRecord.promoted_placedTags_subset (r : ZoneRecord) {member : Waiter → Member}
    (tags : ∀ w, (member w).tag = w.tag) : (r.promoted member).placedTags ⊆ r.placedTags := by
  intro t mem
  simp only [ZoneRecord.placedTags, ZoneRecord.promoted, List.map_map, List.mem_append] at mem ⊢
  rcases mem with (h | h) | h
  · obtain ⟨w, hw, rfl⟩ := List.mem_map.mp h
    rw [r.promotable_eq] at hw
    exact .inr (List.mem_map.mpr ⟨w, List.mem_of_mem_take hw, (tags w).symm⟩)
  · exact .inl (.inr h)
  · obtain ⟨w, hw, rfl⟩ := List.mem_map.mp h
    exact .inr (List.mem_map.mpr ⟨w, List.mem_of_mem_drop hw, rfl⟩)

theorem ZoneRecord.Sound.promoted {r : ZoneRecord} {w : Waiter} {rest : List Waiter} {member : Waiter → Member}
    (h : r.Sound) (list : r.waiting = w :: rest) (o : r.Open w.level) (tags : ∀ w, (member w).tag = w.tag) :
    (r.promoted member).Sound := by
  obtain ⟨order, urgent⟩ := h.open_order o
  have level : (r.promoted member).levels = w.level :: r.stack.map (·.level) := by
    simp [ZoneRecord.promoted, ZoneRecord.levels, list]
  refine ⟨h.floor, ?_, ?_, level ▸ order, level ▸ urgent, h.groups, ?_, ?_, ?_,
    h.apart rfl (r.promoted_placedTags_subset tags)⟩
  · simp [ZoneRecord.promoted, list, ZoneRecord.promotable_ne_nil list]
  · simpa [ZoneRecord.promoted] using r.promotable_length
  · exact Nat.le_trans (by simp [ZoneRecord.promoted]) h.waiters
  · exact h.sorted.sublist ((List.drop_sublist _ _).map _)
  · have split : r.waiting.map (·.tag) =
        (r.promotable.map member).map (·.tag) ++ (r.waiting.drop r.promotable.length).map (·.tag) := by
      have both := congrArg (List.map (·.tag)) (List.take_append_drop r.promotable.length r.waiting)
      rw [List.map_append, ← r.promotable_eq] at both
      rw [← both, List.map_map]
      simp [Function.comp_def, tags]
    have single := h.single
    simp only [ZoneRecord.placedTags, ZoneRecord.promoted, o.empty, split, List.map_nil, List.nil_append] at single ⊢
    exact (List.perm_append_comm_assoc _ _ _ |>.trans (by simp)).nodup single

theorem ZoneRecord.promoted_active {r : ZoneRecord} {w : Waiter} {rest : List Waiter} {member : Waiter → Member}
    (list : r.waiting = w :: rest) : (r.promoted member).active ≠ [] := by
  simp [ZoneRecord.promoted, ZoneRecord.promotable_ne_nil list]

/-- A record whose head waiter has joined the active set. -/
def ZoneRecord.joined (m : Member) (r : ZoneRecord) : ZoneRecord :=
  { r with active := r.active ++ [m], waiting := r.waiting.tail }

theorem ZoneRecord.joined_placedTags_subset {r : ZoneRecord} {w : Waiter} {rest : List Waiter} {m : Member}
    (list : r.waiting = w :: rest) (tag : m.tag = w.tag) : (r.joined m).placedTags ⊆ r.placedTags := by
  intro t mem
  simp only [ZoneRecord.placedTags, ZoneRecord.joined, list, List.tail_cons, List.map_append, List.map_cons,
    List.map_nil, List.mem_append, List.mem_cons, List.not_mem_nil, or_false, tag] at mem ⊢
  grind

theorem ZoneRecord.Sound.joined {r : ZoneRecord} {w : Waiter} {rest : List Waiter} {m : Member} (h : r.Sound)
    (list : r.waiting = w :: rest) (tag : m.tag = w.tag) (active : r.activeLevel ≠ none) (mix : r.policy = .mix)
    (room : r.active.length < mixCapacity) : (r.joined m).Sound := by
  refine ⟨h.floor, by simp [ZoneRecord.joined, active], ?_, h.order, h.urgent, h.groups, ?_, ?_, ?_,
    h.apart rfl (ZoneRecord.joined_placedTags_subset list tag)⟩
  · simp only [ZoneRecord.joined, mix, memberLimit, List.length_append, List.length_singleton]
    omega
  · exact Nat.le_trans (by simp [ZoneRecord.joined]) h.waiters
  · exact h.sorted.sublist ((List.tail_sublist _).map _)
  · have single := h.single
    simp only [ZoneRecord.placedTags, ZoneRecord.joined, list, List.tail_cons, List.map_cons, List.map_append,
      List.map_nil, tag, List.append_assoc, List.singleton_append] at single ⊢
    refine (List.Perm.append_left _ ?_).nodup single
    exact List.perm_middle

/-! The wait list -/

theorem insertWaiter_perm (w : Waiter) (l : List Waiter) : (insertWaiter w l).Perm (w :: l) := by
  induction l with
  | nil => exact List.Perm.refl _
  | cons v rest ih =>
    unfold insertWaiter
    split
    · exact List.Perm.refl _
    · exact (List.Perm.cons v ih).trans (List.Perm.swap w v rest)

theorem insertWaiter_sorted (w : Waiter) {l : List Waiter} (h : (l.map (·.level)).Pairwise (· ≤ ·)) :
    ((insertWaiter w l).map (·.level)).Pairwise (· ≤ ·) := by
  induction l with
  | nil => simp [insertWaiter]
  | cons v rest ih =>
    obtain ⟨first, rest'⟩ := List.pairwise_cons.mp h
    unfold insertWaiter
    split
    · rename_i less
      refine List.pairwise_cons.mpr ⟨fun b mem => ?_, h⟩
      rcases List.mem_cons.mp mem with rfl | mem
      · exact Nat.le_of_lt less
      · exact Nat.le_trans (Nat.le_of_lt less) (first b mem)
    · rename_i le
      refine List.pairwise_cons.mpr ⟨fun b mem => ?_, ih rest'⟩
      have mem := ((insertWaiter_perm w rest).map (·.level)).mem_iff.mp mem
      rcases List.mem_cons.mp mem with rfl | mem
      · exact Nat.le_of_not_lt le
      · exact first b mem

/-- Where a waiter stands in an ordered list: behind every entry as urgent, before every less urgent one (R56). -/
theorem insertWaiter_split (w : Waiter) {l : List Waiter} (h : (l.map (·.level)).Pairwise (· ≤ ·)) :
    ∃ before after, l = before ++ after ∧ (∀ v ∈ before, v.level ≤ w.level) ∧ (∀ v ∈ after, w.level < v.level) ∧
      insertWaiter w l = before ++ w :: after := by
  induction l with
  | nil => exact ⟨[], [], rfl, by simp, by simp, rfl⟩
  | cons v rest ih =>
    obtain ⟨first, rest'⟩ := List.pairwise_cons.mp h
    by_cases less : w.level < v.level
    · refine ⟨[], v :: rest, rfl, by simp, fun u mem => ?_, by simp [insertWaiter, less]⟩
      rcases List.mem_cons.mp mem with rfl | mem
      · exact less
      · exact Nat.lt_of_lt_of_le less (first u.level (List.mem_map.mpr ⟨u, mem, rfl⟩))
    · obtain ⟨before, after, split, ahead, behind, placed⟩ := ih rest'
      refine ⟨v :: before, after, by simp [split], fun u mem => ?_, behind, by simp [insertWaiter, less, placed]⟩
      rcases List.mem_cons.mp mem with rfl | mem
      · exact Nat.le_of_not_lt less
      · exact ahead u mem

theorem ZoneRecord.Sound.joinWaiting {r : ZoneRecord} {w : Waiter} (h : r.Sound) (room : r.waiting.length < waitCapacity)
    (new : w.tag ∉ r.tags) : ({ r with waiting := insertWaiter w r.waiting } : ZoneRecord).Sound := by
  have perm : (r.activeTags ++ r.stackTags ++ (insertWaiter w r.waiting).map (·.tag)).Perm (w.tag :: r.placedTags) :=
    ((((insertWaiter_perm w r.waiting).map (·.tag)).append_left _).trans List.perm_middle)
  refine ⟨h.floor, h.level, h.members, h.order, h.urgent, h.groups, ?_, insertWaiter_sorted w h.sorted, ?_,
    fun t mem place => ?_⟩
  · have := (insertWaiter_perm w r.waiting).length_eq
    simp only [List.length_cons] at this
    simp only
    omega
  · exact perm.nodup_iff.mpr (List.nodup_cons.mpr ⟨fun mem => new (List.mem_append_left _ mem), h.single⟩)
  · rcases List.mem_cons.mp (perm.mem_iff.mp place) with rfl | place
    · exact new (List.mem_append_right _ mem)
    · exact h.reserved t mem place

/-- A record without its reservation. -/
def ZoneRecord.unreserved (r : ZoneRecord) : ZoneRecord := { r with reservation := none }

theorem ZoneRecord.Sound.unreserved {r : ZoneRecord} (h : r.Sound) : r.unreserved.Sound :=
  { h with reserved := fun _ mem => absurd mem List.not_mem_nil }

/-- A record whose waiters have one more; a reservation of the same tag is removed (R55, R70). -/
def ZoneRecord.waits (w : Waiter) (r : ZoneRecord) : ZoneRecord :=
  { r with
    reservation := if r.isReserved w.tag then none else r.reservation
    waiting := insertWaiter w r.waiting }

/-- A tag with no place but a reservation joins the wait list (R55, R56, R70). -/
theorem ZoneRecord.Sound.waits {r : ZoneRecord} {w : Waiter} (h : r.Sound) (room : r.waiting.length < waitCapacity)
    (new : w.tag ∉ r.placedTags) : (r.waits w).Sound := by
  unfold ZoneRecord.waits
  split
  · refine h.unreserved.joinWaiting room fun mem => ?_
    rcases List.mem_append.mp mem with mem | mem
    · exact new mem
    · exact absurd mem List.not_mem_nil
  · rename_i other
    refine h.joinWaiting room fun mem => ?_
    rcases List.mem_append.mp mem with mem | mem
    · exact new mem
    · exact other ((r.isReserved_iff w.tag).mpr mem)

end Sys2Proof.Machine
end

