-- ==== Sys2Proof/Laws/Zones.lean ====
section
/-! SUPPORT. What each operation of the Zone Arbiter does to the zone records, and that settling leaves every record
lawful (R53 to R57, R71). -/

namespace Sys2Proof.Machine

/-! Operations that touch no zone record and no listen entry -/

/-- An operation that leaves the zone records, the listen table and the configuration. -/
structure Aside (s s' : State) : Prop where
  za : s'.za = s.za
  lu : s'.lu = s.lu
  config : s'.config = s.config

theorem Aside.refl (s : State) : Aside s s := ⟨rfl, rfl, rfl⟩

theorem Aside.trans {s t u : State} (h : Aside s t) (k : Aside t u) : Aside s u :=
  ⟨k.za.trans h.za, k.lu.trans h.lu, k.config.trans h.config⟩

theorem post_aside (n : HostNotice) (s : State) : Aside s (post n s) := ⟨by simp, by simp, by simp⟩

theorem freeSlot_aside (n : Nat) (o : ClaimOutcome) (s : State) : Aside s (freeSlot n o s) := by
  unfold freeSlot
  split
  · exact Aside.refl s
  · exact ⟨rfl, rfl, rfl⟩

theorem finishClaim_aside (n : Nat) (o : ClaimOutcome) (s : State) : Aside s (finishClaim n o s) := by
  unfold finishClaim
  split
  · exact Aside.refl s
  · exact (freeSlot_aside n o s).trans (post_aside _ _)

theorem allTerminalTest_aside (n : Nat) (s : State) : Aside s (allTerminalTest n s) := by
  unfold allTerminalTest
  split
  · exact Aside.refl s
  · split
    · exact finishClaim_aside n _ s
    · exact Aside.refl s

theorem applyNotice_aside (sender slot generation zone : Nat) (e : NoticeEvent) (s : State) :
    Aside s (applyNotice sender slot generation zone e s) := by
  unfold applyNotice
  split
  · exact Aside.refl s
  · split
    · refine Aside.trans ?_ (allTerminalTest_aside slot _)
      exact Aside.trans (t := updateSlot slot _ s) ⟨rfl, rfl, rfl⟩ (post_aside _ _)
    · exact Aside.refl s

theorem notify_aside (z : Nat) (t : Tag) (e : NoticeEvent) (s : State) : Aside s (notify z t e s) := by
  refine Aside.trans ?_ (post_aside _ _)
  unfold tellOrigin
  split
  · exact applyNotice_aside _ _ _ _ _ s
  · exact ⟨rfl, rfl, rfl⟩

@[simp] theorem notify_za (z : Nat) (t : Tag) (e : NoticeEvent) (s : State) : (notify z t e s).za = s.za :=
  (notify_aside z t e s).za
@[simp] theorem notify_lu (z : Nat) (t : Tag) (e : NoticeEvent) (s : State) : (notify z t e s).lu = s.lu :=
  (notify_aside z t e s).lu
@[simp] theorem notify_config (z : Nat) (t : Tag) (e : NoticeEvent) (s : State) : (notify z t e s).config = s.config :=
  (notify_aside z t e s).config

@[simp] theorem reportStanding_za (t : Tag) (s : State) : (reportStanding t s).za = s.za := rfl
@[simp] theorem reportStanding_config (t : Tag) (s : State) : (reportStanding t s).config = s.config := rfl
@[simp] theorem releaseRole_za (t : Tag) (s : State) : (releaseRole t s).za = s.za := by simp [releaseRole]
@[simp] theorem releaseRole_config (t : Tag) (s : State) : (releaseRole t s).config = s.config := by simp [releaseRole]

/-- Something that leaves the zone records, done for each item. -/
theorem forEach_za {α : Type} {act : α → State → State} (h : ∀ a s, (act a s).za = s.za) :
    ∀ (items : List α) (s : State), (forEach items act s).za = s.za
  | [], _ => rfl
  | a :: rest, s => (forEach_za h rest (act a s)).trans (h a s)

/-! Changes of one record -/

/-- The records with the one of zone `z` changed. -/
def mapZone (z : Nat) (g : ZoneRecord → ZoneRecord) (l : List ZoneRecord) : List ZoneRecord :=
  l.map fun r => if r.zone = z then g r else r

theorem mapZone_comp (z : Nat) {g : ZoneRecord → ZoneRecord} (h : ∀ r, (g r).zone = r.zone)
    (f : ZoneRecord → ZoneRecord) (l : List ZoneRecord) : mapZone z f (mapZone z g l) = mapZone z (f ∘ g) l := by
  simp only [mapZone, List.map_map]
  refine List.map_congr_left fun r _ => ?_
  by_cases hz : r.zone = z <;> simp [Function.comp, h, hz]

theorem mapZone_id (z : Nat) {g : ZoneRecord → ZoneRecord} (h : ∀ r, g r = r) (l : List ZoneRecord) : mapZone z g l = l := by
  simp [mapZone, h]

theorem zone_mapZone {s s' : State} {z : Nat} {g : ZoneRecord → ZoneRecord} (h : s'.za = mapZone z g s.za)
    (same : ∀ r, (g r).zone = r.zone) : s'.zone z = (s.zone z).map g := by
  have all : ∀ l : List ZoneRecord, (mapZone z g l).find? (fun r => r.zone == z) =
      (l.find? fun r => r.zone == z).map g := by
    intro l
    induction l with
    | nil => rfl
    | cons r l ih =>
      by_cases hz : r.zone = z
      · simp [mapZone, hz, same]
      · simp only [mapZone, List.map_cons, if_neg hz]
        rw [List.find?_cons_of_neg (by simpa using hz), List.find?_cons_of_neg (by simpa using hz)]
        exact ih
  rw [State.zone, State.zone, h]
  exact all s.za

theorem zone_zone {s : State} {z : Nat} {r : ZoneRecord} (h : s.zone z = some r) : r.zone = z ∧ r ∈ s.za :=
  ⟨by simpa using List.find?_some h, List.mem_of_find?_eq_some h⟩

theorem endRole_za (z : Nat) (reason : Reason) (t : Tag) (s : State) :
    (endRole z reason t s).za = mapZone z (·.without t) s.za := by
  unfold endRole
  simp only
  split
  · simp [mapZone]
  · simp [mapZone]

theorem endRoles_za (z : Nat) (reason : Reason) (tags : List Tag) (s : State) :
    (forEach tags (endRole z reason) s).za = mapZone z (·.withoutAll tags) s.za := by
  induction tags generalizing s with
  | nil => exact (mapZone_id z (fun _ => rfl) s.za).symm
  | cons t rest ih =>
    refine (ih (endRole z reason t s)).trans ?_
    rw [endRole_za]
    exact mapZone_comp z (g := (·.without t)) (fun _ => rfl) _ s.za

/-- A tag's own reservation dropped: removed with its reference where the tag holds it, else nothing (R55). -/
theorem dropReservation_own {z : Nat} (t : Tag) {s : State} {r : ZoneRecord} (h : s.zone z = some r) :
    dropReservation z (· == t) s =
      if r.isReserved t then releaseRole t (updateZone z (fun r => { r with reservation := none }) s) else s := by
  unfold dropReservation ZoneRecord.isReserved
  cases hv : r.reservation with
  | none => simp [h, hv]
  | some v =>
    simp only [h, hv, Option.bind_some]
    split
    · rename_i same
      rw [beq_iff_eq.mp same]
    · rfl

theorem pushActive_za (z : Nat) (s : State) (h : (s.zone z).isSome = true) :
    (pushActive z s).za = mapZone z (·.pushed) s.za := by
  unfold pushActive
  split
  · simp_all
  · rw [forEach_za (fun m s => by simp)]
    rfl

theorem resumeGroup_za {z : Nat} {s : State} {r : ZoneRecord} (h : s.zone z = some r) (full : r.stack ≠ []) :
    (resumeGroup z s).za = mapZone z (·.resumed) s.za := by
  unfold resumeGroup
  split
  · simp_all
  · rw [forEach_za (fun m s => by simp)]
    rfl

@[simp] theorem grant_za (z : Nat) (own : Option Tag) (w : Waiter) (s : State) : (grant z own w s).za = s.za := by
  unfold grant
  simp only
  split <;> simp

theorem promote_za (z : Nat) (own : Option Tag) (s : State) (h : (s.zone z).isSome = true) :
    (promote z own s).za = mapZone z (ZoneRecord.promoted s.promotedMember) s.za := by
  unfold promote
  split
  · simp_all
  · rw [forEach_za (fun w s => by simp)]
    rfl

theorem joinActive_za (z : Nat) (own : Option Tag) (w : Waiter) (s : State) :
    (joinActive z own w s).za = mapZone z (ZoneRecord.joined (s.promotedMember w)) s.za := by
  unfold joinActive
  rw [grant_za]
  rfl

theorem enterActive_za (z : Nat) (t : Terms) (s : State) :
    (enterActive z t s).za = mapZone z (fun r =>
      { r with active := r.active ++ [{ tag := t.tag, left := timerOf t.duration }], activeLevel := some t.level })
      s.za := rfl

/-- With one record to a zone, joining the wait list changes that zone's record alone (R70). -/
theorem joinWaiting_za {z : Nat} (t : Terms) {s : State} {r : ZoneRecord} (h : s.zone z = some r)
    (one : ∀ q ∈ s.za, q.zone = z → q = r) :
    (joinWaiting z t s).za = mapZone z (·.waits { tag := t.tag, level := t.level }) s.za := by
  have at_z : (takeReference t.tag t.gain t.duration s).zone z = some r := by rw [State.zone, takeReference_za]; exact h
  unfold joinWaiting
  rw [reportStanding_za, updateZone_za, dropReservation_own t.tag at_z]
  split
  · rename_i reserved
    rw [releaseRole_za, updateZone_za, takeReference_za, mapZone, List.map_map]
    refine List.map_congr_left fun q mem => ?_
    by_cases hz : q.zone = z
    · obtain rfl := one q mem hz
      simp [Function.comp, hz, ZoneRecord.waits, reserved]
    · simp [Function.comp, hz]
  · rename_i free
    rw [takeReference_za]
    refine List.map_congr_left fun q mem => ?_
    by_cases hz : q.zone = z
    · obtain rfl := one q mem hz
      simp [hz, ZoneRecord.waits, free]
    · simp [hz]

/-! The laws outside and at one zone -/

/-- No two records stand for one zone. -/
def State.ZonesDistinct (s : State) : Prop := (s.za.map (·.zone)).Nodup

/-- Every record but the one of zone `z` is lawful. -/
def State.LawfulElse (z : Nat) (s : State) : Prop := ∀ r ∈ s.za, r.zone ≠ z → r.Lawful

/-- The record of zone `z`, where there is one, satisfies `Q`. -/
def State.AtZone (z : Nat) (Q : ZoneRecord → Prop) (s : State) : Prop := ∀ r, s.zone z = some r → Q r

theorem Quiet.distinct {b : Bool} {s s' : State} (h : Quiet b s s') (d : s.ZonesDistinct) : s'.ZonesDistinct := by
  have same : s'.za.map (·.zone) = s.za.map (·.zone) := by
    have firsts := congrArg (List.map Prod.fst) h.zones
    rwa [List.map_map, List.map_map] at firsts
  unfold State.ZonesDistinct
  rw [same]
  exact d

/-- With one record to a zone, a record stands for its zone. -/
theorem State.ZonesDistinct.zone {s : State} (d : s.ZonesDistinct) {r : ZoneRecord} (mem : r ∈ s.za) :
    s.zone r.zone = some r := by
  have all : ∀ l : List ZoneRecord, (l.map (·.zone)).Nodup → r ∈ l → l.find? (fun q => q.zone == r.zone) = some r := by
    intro l
    induction l with
    | nil => simp
    | cons q l ih =>
      intro nodup mem
      obtain ⟨new, rest⟩ := List.nodup_cons.mp nodup
      rcases List.mem_cons.mp mem with rfl | mem
      · simp
      · have other : q.zone ≠ r.zone := fun same => new (by
          simp only [same]
          exact List.mem_map.mpr ⟨r, mem, rfl⟩)
        rw [List.find?_cons_of_neg (by simpa using other)]
        exact ih rest mem
  exact all s.za d mem

theorem arbitrated_iff {s : State} (d : s.ZonesDistinct) (z : Nat) :
    s.Arbitrated ↔ s.LawfulElse z ∧ s.AtZone z ZoneRecord.Lawful := by
  constructor
  · exact fun h => ⟨fun r mem _ => h r mem, fun r at_z => h r (zone_zone at_z).2⟩
  · intro ⟨other, at_z⟩ r mem
    by_cases hz : r.zone = z
    · exact at_z r (hz ▸ d.zone mem)
    · exact other r mem hz

theorem State.LawfulElse.map {s s' : State} {z : Nat} {g : ZoneRecord → ZoneRecord} (h : s.LawfulElse z)
    (za : s'.za = mapZone z g s.za) (same : ∀ r, (g r).zone = r.zone) : s'.LawfulElse z := by
  intro r mem other
  rw [za] at mem
  obtain ⟨r', mem', rfl⟩ := List.mem_map.mp mem
  by_cases hz : r'.zone = z
  · simp [hz, same] at other
  · simpa [hz] using h r' mem' hz

/-! Settling -/

/-- What a pass leaves: the other records lawful, the record of its zone lawful. -/
structure Settled (z : Nat) (s' : State) : Prop where
  other : s'.LawfulElse z
  at_z : s'.AtZone z ZoneRecord.Lawful

theorem settled_of_map {s s' : State} {z : Nat} {g : ZoneRecord → ZoneRecord} {r : ZoneRecord} (h : s.LawfulElse z)
    (at_z : s.zone z = some r) (za : s'.za = mapZone z g s.za) (same : ∀ r, (g r).zone = r.zone) (law : (g r).Lawful) :
    Settled z s' := by
  refine ⟨h.map za same, fun r' h' => ?_⟩
  rw [zone_mapZone za same, at_z] at h'
  cases h'
  exact law

theorem ZoneRecord.Sound.lawful {r : ZoneRecord} (h : r.Sound) (full : r.active ≠ []) : r.Lawful :=
  { h with rest := fun e => absurd e full }

theorem ZoneRecord.resumed_active {r : ZoneRecord} (h : r.Sound) (full : r.stack ≠ []) : r.resumed.active ≠ [] := by
  unfold ZoneRecord.resumed
  split
  · simp_all
  · rename_i g rest stack
    exact (h.groups g (by simp [stack])).1

theorem emptyPass_settled {z : Nat} {own : Option Tag} {r : ZoneRecord} {s s' : State} (other : s.LawfulElse z)
    (at_z : s.zone z = some r) (sound : r.Sound) (empty : r.active = []) (h : emptyPass z own r s = some s') :
    Settled z s' := by
  have za := endRoles_za z .floor r.pruned s
  have keep : ∀ r' : ZoneRecord, (r'.withoutAll r.pruned).zone = r'.zone := fun r' => (r'.withoutAll_fixed _).1
  have at₁ : (forEach r.pruned (endRole z .floor) s).zone z = some (r.withoutAll r.pruned) := by
    rw [zone_mapZone za keep, at_z]; rfl
  have other₁ := other.map za keep
  have sound₁ := sound.withoutAll r.pruned
  have empty₁ := r.withoutAll_active_nil r.pruned empty
  have floor₁ := (r.withoutAll_fixed r.pruned).2.1
  have passing : ∀ w ∈ (r.withoutAll r.pruned).waiting, w.level < r.floor := by
    intro w mem
    obtain ⟨mem, kept⟩ := ZoneRecord.mem_withoutAll_waiting mem
    by_cases pass : w.level < r.floor
    · exact pass
    · refine absurd ?_ kept
      refine List.mem_append_right _ (List.mem_map.mpr ⟨w, List.mem_filter.mpr ⟨mem, ?_⟩, rfl⟩)
      simpa [ZoneRecord.passes] using pass
  generalize hr₁ : r.withoutAll r.pruned = r₁ at at₁ sound₁ empty₁ floor₁ passing
  generalize hs₁ : forEach r.pruned (endRole z .floor) s = s₁ at at₁ other₁
  unfold emptyPass at h
  simp only [hs₁, at₁, Option.map_some] at h
  unfold ZoneRecord.taken at h
  split at h
  · rename_i taken
    have full : r₁.stack ≠ [] := by
      intro e
      cases hw : r₁.waiting <;> simp [e, hw] at taken
    cases h
    exact settled_of_map other₁ at₁ (resumeGroup_za at₁ full) (fun r => congrArg Prod.fst r.resumed_fixed)
      ((sound₁.resumed empty₁).lawful (r₁.resumed_active sound₁ full))
  · rename_i taken
    cases h
    cases hw : r₁.waiting with
    | nil => cases hs : r₁.stack <;> simp [hs, hw] at taken
    | cons w rest =>
      have urgent : w.level ≤ 6 := by
        have := passing w (by simp [hw])
        have := sound.floor.2
        omega
      have above : ∀ g ∈ r₁.stack, w.level < g.level := by
        cases hs : r₁.stack with
        | nil => simp
        | cons g groups =>
          have top : w.level < g.level := by
            simp only [hs, hw] at taken
            split at taken
            · assumption
            · simp at taken
          have none : r₁.activeLevel = none := sound₁.level.mpr empty₁
          have order := sound₁.order
          simp only [ZoneRecord.levels, none, hs, Option.toList_none, List.nil_append, List.map_cons] at order
          intro g' mem
          rcases List.mem_cons.mp mem with rfl | mem
          · exact top
          · exact Nat.lt_trans top ((List.pairwise_cons.mp order).1 _ (List.mem_map.mpr ⟨g', mem, rfl⟩))
      exact settled_of_map other₁ at₁ (promote_za z own s₁ (by simp [at₁])) (fun _ => rfl)
        ((sound₁.promoted hw ⟨empty₁, urgent, above⟩ (fun _ => rfl)).lawful (ZoneRecord.promoted_active hw))
  · rename_i group waiter
    split at h
    · cases h
    · cases h
      refine ⟨other₁, fun r' h' => ?_⟩
      rw [at₁] at h'
      cases h'
      refine { sound₁ with rest := fun _ => ?_ }
      cases hs : r₁.stack <;> cases hw : r₁.waiting <;> simp only [hs, hw] at group waiter <;> simp_all

theorem emptyPass_none {z : Nat} {own : Option Tag} {r : ZoneRecord} {s : State} (at_z : s.zone z = some r)
    (sound : r.Sound) (h : emptyPass z own r s = none) : r.Lawful := by
  unfold emptyPass at h
  simp only at h
  split at h
  · cases h
  · cases h
  · rename_i group waiter
    split at h
    · rename_i none
      have nothing : r.pruned = [] := by simpa using none
      have at₁ : (forEach r.pruned (endRole z .floor) s).zone z = some r := by rw [nothing]; exact at_z
      rw [at₁] at group waiter
      refine { sound with rest := fun _ => ?_ }
      unfold ZoneRecord.taken at group waiter
      cases hs : r.stack <;> cases hw : r.waiting <;> simp [hs, hw] at group waiter <;> simp_all
      omega
    · cases h

/-- Without a waiter's tag the active set is as it was. -/
theorem ZoneRecord.without_waiter {r : ZoneRecord} {w : Waiter} {rest : List Waiter} (h : r.Sound)
    (list : r.waiting = w :: rest) : (r.without w.tag).active = r.active := by
  simp only [ZoneRecord.without]
  refine List.filter_eq_self.mpr fun m mem => ?_
  have single := h.single
  simp only [ZoneRecord.placedTags, list, List.map_cons] at single
  have apart := List.nodup_append.mp single
  simpa using apart.2.2 m.tag (List.mem_append_left _ (List.mem_map.mpr ⟨m, mem, rfl⟩)) w.tag (by simp)

theorem activePass_settled {z : Nat} {own : Option Tag} {r : ZoneRecord} {a : Nat} {s s' : State}
    (other : s.LawfulElse z) (at_z : s.zone z = some r) (sound : r.Sound) (active : r.activeLevel = some a)
    (h : activePass z own r a s = some s') : Settled z s' := by
  have full : r.active ≠ [] := fun e => by simp [sound.level.mpr e] at active
  have ended : ∀ w rest, r.waiting = w :: rest → Settled z (endRole z .floor w.tag s) := fun w rest list =>
    settled_of_map other at_z (endRole_za z .floor w.tag s) (fun _ => rfl)
      ((sound.without w.tag).lawful (by rw [ZoneRecord.without_waiter sound list]; exact full))
  unfold activePass at h
  split at h
  · cases h
  · rename_i w rest list
    split at h
    · rename_i less
      split at h
      · cases h
        have za := pushActive_za z s (by simp [at_z])
        have at₁ : (pushActive z s).zone z = some r.pushed := by
          rw [zone_mapZone za (fun r => congrArg Prod.fst r.pushed_fixed), at_z]; rfl
        have list₁ : r.pushed.waiting = w :: rest := by simp [ZoneRecord.pushed, active, list]
        exact settled_of_map (other.map za (fun r => congrArg Prod.fst r.pushed_fixed)) at₁
          (promote_za z own _ (by simp [at₁])) (fun _ => rfl)
          ((sound.pushed.promoted list₁ (sound.pushed_open active less) (fun _ => rfl)).lawful
            (ZoneRecord.promoted_active list₁))
      · cases h
        exact ended w rest list
    · split at h
      · rename_i join
        split at h
        · cases h
          exact settled_of_map other at_z (joinActive_za z own w s) (fun _ => rfl)
            ((sound.joined list rfl (by simp [active]) join.2.1 join.2.2).lawful (by simp [ZoneRecord.joined]))
        · cases h
          exact ended w rest list
      · cases h

theorem settlePass_settled {z : Nat} {own : Option Tag} {s s' : State} (other : s.LawfulElse z)
    (at_z : s.AtZone z ZoneRecord.Sound) (h : settlePass z own s = some s') : Settled z s' := by
  unfold settlePass at h
  split at h
  · cases h
  · rename_i r hr
    split at h
    · rename_i none
      exact emptyPass_settled other hr (at_z r hr) ((at_z r hr).level.mp none) h
    · rename_i a some
      exact activePass_settled other hr (at_z r hr) some h

theorem settlePass_none {z : Nat} {own : Option Tag} {s : State} (at_z : s.AtZone z ZoneRecord.Sound)
    (h : settlePass z own s = none) : s.AtZone z ZoneRecord.Lawful := by
  intro r hr
  unfold settlePass at h
  rw [hr] at h
  simp only at h
  split at h
  · exact emptyPass_none hr (at_z r hr) h
  · rename_i a some
    exact (at_z r hr).lawful fun e => by simp [(at_z r hr).level.mpr e] at some

theorem settleLoop_settled (z : Nat) (own : Option Tag) : ∀ (n : Nat) (s : State), s.LawfulElse z →
    s.AtZone z ZoneRecord.Sound → (n = 0 → s.AtZone z ZoneRecord.Lawful) → Settled z (settleLoop z own n s)
  | 0, _, other, _, law => ⟨other, law rfl⟩
  | n + 1, s, other, sound, _ => by
    unfold settleLoop
    split
    · rename_i none
      exact ⟨other, settlePass_none sound none⟩
    · rename_i s' some
      have next := settlePass_settled other sound some
      exact settleLoop_settled z own n s' next.other (fun r hr => (next.at_z r hr).toSound) fun _ => next.at_z

/-- Settling leaves a sound record lawful, and touches no other (R71). -/
theorem settle_settled (z : Nat) (own : Option Tag) (w : Bool) {s : State} (other : s.LawfulElse z)
    (sound : s.AtZone z ZoneRecord.Sound) : Settled z (settle z own w s) := by
  unfold settle
  split
  · rename_i none
    exact ⟨other, fun r hr => by simp [hr] at none⟩
  · rename_i r hr
    have loop := settleLoop_settled z own r.passBound s other sound (by simp [ZoneRecord.passBound])
    simp only
    split
    · exact ⟨fun r mem => loop.other r (by simpa using mem), fun r hr => loop.at_z r (by simpa [State.zone] using hr)⟩
    · exact loop

end Sys2Proof.Machine
end

