-- ==== Sys2Proof/Laws/Ledger.lean ====
section
/-! SUPPORT. The listen table's account of roles (R57, R120 to R122) through each operation of the Zone Arbiter. -/

namespace Sys2Proof.Machine

/-- The listen table in the midst of an event. `owed` lists the references taken for a role not made yet, or kept of a
role already removed; `stale` are the tags whose standing has changed and is not reported yet. -/
structure State.Ledger (owed : List Tag) (stale : Tag → Prop) (s : State) : Prop where
  single : (s.lu.map (·.tag)).Nodup
  refs : ∀ e ∈ s.lu, e.references = s.roleCount e.tag + owed.count e.tag ∧ 1 ≤ e.references
  held : ∀ t, 0 < s.roleCount t + owed.count t → (s.listenEntry t).isSome = true
  agree : ∀ e ∈ s.lu, ¬ stale e.tag →
    e.active = s.za.any (·.isActive e.tag) ∧ e.lapse.isSome = s.za.any (·.isPlaced e.tag)

/-- No tag's standing is stale. -/
def noTag : Tag → Prop := fun _ => False

theorem heard_iff (s : State) : s.Heard ↔ s.Ledger [] noTag := by
  constructor
  · exact fun h => ⟨h.single, fun e mem => ⟨by simpa using (h.agrees e mem).references, (h.agrees e mem).needed⟩,
      fun t => by simpa using h.held t, fun e mem _ => ⟨(h.agrees e mem).active, (h.agrees e mem).lapse⟩⟩
  · exact fun h => ⟨h.single, fun e mem => ⟨by simpa using (h.refs e mem).1, (h.refs e mem).2, (h.agree e mem id).1,
      (h.agree e mem id).2⟩, fun t => by simpa using h.held t⟩

variable {owed : List Tag} {stale : Tag → Prop} {s s' : State}

theorem State.Ledger.weaken {stale' : Tag → Prop} (h : s.Ledger owed stale) (more : ∀ t, stale t → stale' t) :
    s.Ledger owed stale' :=
  ⟨h.single, h.refs, h.held, fun e mem fresh => h.agree e mem fun old => fresh (more _ old)⟩

theorem State.Ledger.aside (h : s.Ledger owed stale) (a : Aside s s') : s'.Ledger owed stale := by
  have count : ∀ t, s'.roleCount t = s.roleCount t := fun t => by rw [State.roleCount, a.za]; rfl
  refine ⟨a.lu ▸ h.single, fun e mem => ?_, fun t => ?_, fun e mem fresh => ?_⟩
  · rw [count]; exact h.refs e (a.lu ▸ mem)
  · rw [count, State.listenEntry, a.lu]; exact h.held t
  · rw [a.za]; exact h.agree e (a.lu ▸ mem) fresh

/-- The zone records change, the listen table does not. -/
theorem State.Ledger.zones {owed' : List Tag} {stale' : Tag → Prop} (h : s.Ledger owed stale) (lu : s'.lu = s.lu)
    (count : ∀ t, s'.roleCount t + owed'.count t = s.roleCount t + owed.count t)
    (same : ∀ t, ¬ stale' t → ¬ stale t ∧ s'.za.any (·.isActive t) = s.za.any (·.isActive t) ∧
      s'.za.any (·.isPlaced t) = s.za.any (·.isPlaced t)) : s'.Ledger owed' stale' := by
  refine ⟨lu ▸ h.single, fun e mem => ?_, fun t => ?_, fun e mem fresh => ?_⟩
  · rw [count]; exact h.refs e (lu ▸ mem)
  · rw [count, State.listenEntry, lu]; exact h.held t
  · obtain ⟨old, active, placed⟩ := same e.tag fresh
    rw [active, placed]
    exact h.agree e (lu ▸ mem) old

/-! References and reports -/

/-- A change of entries under their own tags keeps the table's tags. -/
theorem map_tags {f : ListenEntry → ListenEntry} (h : ∀ e, (f e).tag = e.tag) (l : List ListenEntry) :
    (l.map f).map (·.tag) = l.map (·.tag) := by
  rw [List.map_map]
  exact List.map_congr_left fun e _ => h e

theorem find_map_tags {f : ListenEntry → ListenEntry} (h : ∀ e, (f e).tag = e.tag) (t : Tag) (l : List ListenEntry) :
    (l.map f).find? (fun e => e.tag == t) = (l.find? fun e => e.tag == t).map f := by
  rw [List.find?_map]
  congr 1
  exact congrArg (List.find? · l) (funext fun e => by simp [h])

theorem listenEntry_of_mem (single : (s.lu.map (·.tag)).Nodup) {e : ListenEntry} (mem : e ∈ s.lu) :
    s.listenEntry e.tag = some e := by
  have all : ∀ l : List ListenEntry, (l.map (·.tag)).Nodup → e ∈ l → l.find? (fun q => q.tag == e.tag) = some e := by
    intro l
    induction l with
    | nil => simp
    | cons q l ih =>
      intro nodup mem
      obtain ⟨new, rest⟩ := List.nodup_cons.mp nodup
      rcases List.mem_cons.mp mem with rfl | mem
      · simp
      · have other : q.tag ≠ e.tag := fun same => new (by
          simp only [same]
          exact List.mem_map.mpr ⟨e, mem, rfl⟩)
        rw [List.find?_cons_of_neg (by simpa using other)]
        exact ih rest mem
  exact all s.lu single mem

theorem listenEntry_tag {t : Tag} {e : ListenEntry} (h : s.listenEntry t = some e) : e.tag = t ∧ e ∈ s.lu :=
  ⟨by simpa using List.find?_some h, List.mem_of_find?_eq_some h⟩

theorem listenEntry_none {t : Tag} (h : s.listenEntry t = none) {e : ListenEntry} (mem : e ∈ s.lu) : e.tag ≠ t := by
  simpa using List.find?_eq_none.mp h e mem

/-- The standing of a tag is reported (R57). -/
theorem State.Ledger.report (h : s.Ledger owed stale) (t : Tag) :
    (reportStanding t s).Ledger owed fun u => stale u ∧ u ≠ t := by
  have tags : ∀ e : ListenEntry, (if e.tag = t then
      ListenEntry.report s.lapseTime (s.za.any (·.isActive t)) (s.za.any (·.isPlaced t)) e else e).tag = e.tag := by
    intro e; split <;> rfl
  refine ⟨?_, fun e mem => ?_, fun u needed => ?_, fun e mem fresh => ?_⟩
  · simp only [reportStanding, updateListen_lu, map_tags tags]
    exact h.single
  · obtain ⟨e', mem', rfl⟩ := List.mem_map.mp mem
    rw [tags]
    have refs : (if e'.tag = t then ListenEntry.report s.lapseTime (s.za.any (·.isActive t)) (s.za.any (·.isPlaced t)) e'
        else e').references = e'.references := by split <;> rfl
    rw [refs]
    exact h.refs e' mem'
  · have := h.held u needed
    simp only [State.listenEntry, reportStanding, updateListen_lu] at this ⊢
    rw [find_map_tags tags, Option.isSome_map]
    exact this
  · obtain ⟨e', mem', rfl⟩ := List.mem_map.mp mem
    rw [tags] at fresh ⊢
    by_cases ht : e'.tag = t
    · subst ht
      simp only [if_true, ListenEntry.report, reportStanding_za, true_and]
      split <;> simp_all
    · simp only [if_neg ht, reportStanding_za]
      exact h.agree e' mem' fun old => fresh ⟨old, ht⟩

/-- The standings of a list of tags are reported, with nothing else done to zones and listen table. -/
theorem State.Ledger.reports {α : Type} (tagOf : α → Tag) {act : α → State → State}
    (only : ∀ a s, Aside (reportStanding (tagOf a) s) (act a s)) : ∀ (items : List α) {stale : Tag → Prop} {s : State},
    s.Ledger owed stale → (forEach items act s).Ledger owed fun u => stale u ∧ u ∉ items.map tagOf
  | [], _, _, h => h.weaken fun _ st => ⟨st, by simp⟩
  | a :: rest, _, s, h =>
    (State.Ledger.reports tagOf only rest ((h.report (tagOf a)).aside (only a s))).weaken fun u st => by
      simpa [st.1.1, st.1.2] using st.2

/-- A reference is taken (R120). -/
theorem State.Ledger.take (h : s.Ledger owed stale) (t : Tag) (g d : Nat) :
    (takeReference t g d s).Ledger (t :: owed) stale := by
  unfold takeReference
  split
  · rename_i some
    have tags : ∀ e : ListenEntry, (if e.tag = t then { e with references := e.references + 1 } else e).tag = e.tag := by
      intro e; split <;> rfl
    refine ⟨?_, fun e mem => ?_, fun u needed => ?_, fun e mem fresh => ?_⟩
    · simp only [updateListen_lu, map_tags tags]; exact h.single
    · obtain ⟨e', mem', rfl⟩ := List.mem_map.mp mem
      rw [tags]
      show _ = s.roleCount _ + _ ∧ _
      have := h.refs e' mem'
      by_cases ht : e'.tag = t
      · subst ht
        simp only [if_true, List.count_cons_self]
        omega
      · simp only [if_neg ht, List.count_cons, beq_iff_eq, Ne.symm ht, if_false]
        exact this
    · change 0 < s.roleCount u + _ at needed
      simp only [State.listenEntry, updateListen_lu]
      rw [find_map_tags tags, Option.isSome_map]
      by_cases hu : u = t
      · subst hu; exact some
      · refine h.held u ?_
        simpa [List.count_cons, Ne.symm hu] using needed
    · obtain ⟨e', mem', rfl⟩ := List.mem_map.mp mem
      rw [tags] at fresh ⊢
      have := h.agree e' mem' fresh
      split <;> exact this
  · rename_i free
    have absentEntry : s.listenEntry t = none := by simpa using free
    have zero : s.roleCount t + owed.count t = 0 := by
      rcases Nat.eq_zero_or_pos (s.roleCount t + owed.count t) with z | p
      · exact z
      · exact absurd (h.held t p) free
    refine ⟨?_, fun e mem => ?_, fun u needed => ?_, fun e mem fresh => ?_⟩
    · simp only [List.map_append, List.map_cons, List.map_nil]
      refine List.nodup_append.mpr ⟨h.single, by simp, ?_⟩
      intro a mem b mem' same
      obtain ⟨e, mem_e, rfl⟩ := List.mem_map.mp mem
      rw [List.mem_singleton.mp mem'] at same
      exact listenEntry_none absentEntry mem_e same
    · show _ = s.roleCount _ + _ ∧ _
      rcases List.mem_append.mp mem with mem | mem
      · have other := listenEntry_none absentEntry mem
        simpa [List.count_cons, Ne.symm other] using h.refs e mem
      · rw [List.mem_singleton.mp mem]
        simp only [newListenEntry, List.count_cons_self]
        omega
    · change 0 < s.roleCount u + _ at needed
      simp only [State.listenEntry, List.find?_append]
      by_cases hu : u = t
      · subst hu
        simp [newListenEntry]
      · have := h.held u (by simpa [List.count_cons, Ne.symm hu] using needed)
        simp only [State.listenEntry] at this
        simp [this]
    · rcases List.mem_append.mp mem with mem | mem
      · exact h.agree e mem fresh
      · rw [List.mem_singleton.mp mem]
        have absent : ∀ r ∈ s.za, t ∉ r.tags := by
          intro r mem_r mem_t
          have : t ∈ s.za.flatMap ZoneRecord.tags := List.mem_flatMap.mpr ⟨r, mem_r, mem_t⟩
          have := List.count_pos_iff.mpr this
          unfold State.roleCount at zero
          omega
        have placed : s.za.any (·.isPlaced t) = false := by
          refine List.any_eq_false.mpr fun r mem_r => ?_
          rw [r.isPlaced_iff]
          exact fun mem_t => absent r mem_r (List.mem_append_left _ mem_t)
        have active : s.za.any (·.isActive t) = false := by
          refine List.any_eq_false.mpr fun r mem_r act => ?_
          exact List.any_eq_false.mp placed r mem_r (by simp [ZoneRecord.isPlaced, act])
        exact ⟨active.symm, placed.symm⟩

/-- A reference is released (R120). -/
theorem State.Ledger.release {t : Tag} (h : s.Ledger (t :: owed) stale) : (releaseReference t s).Ledger owed stale := by
  obtain ⟨e, he⟩ := Option.isSome_iff_exists.mp (h.held t (by simp only [List.count_cons_self]; omega))
  obtain ⟨tag, mem⟩ := listenEntry_tag he
  have refs := h.refs e mem
  simp only [tag, List.count_cons_self] at refs
  unfold releaseReference
  simp only [he]
  split
  · rename_i last
    refine ⟨h.single.sublist (List.filter_sublist.map _), fun e' mem' => ?_, fun u needed => ?_, fun e' mem' fresh => ?_⟩
    · obtain ⟨mem', other⟩ := List.mem_filter.mp mem'
      have other : t ≠ e'.tag := fun same => by simp [same] at other
      show _ = s.roleCount _ + _ ∧ _
      simpa [List.count_cons, other] using h.refs e' mem'
    · change 0 < s.roleCount u + _ at needed
      have other : t ≠ u := by rintro rfl; omega
      have := h.held u (by simpa [List.count_cons, other] using needed)
      simp only [State.listenEntry] at this ⊢
      obtain ⟨e', he'⟩ := Option.isSome_iff_exists.mp this
      have tag' : e'.tag = u := by simpa using List.find?_some he'
      exact List.find?_isSome.mpr ⟨e', List.mem_filter.mpr ⟨List.mem_of_find?_eq_some he', by simpa [tag'] using Ne.symm other⟩,
        by simpa using tag'⟩
    · exact h.agree e' (List.mem_filter.mp mem').1 fresh
  · rename_i more
    have tags : ∀ e : ListenEntry, (if e.tag = t then { e with references := e.references - 1 } else e).tag = e.tag := by
      intro e; split <;> rfl
    refine ⟨?_, fun e' mem' => ?_, fun u needed => ?_, fun e' mem' fresh => ?_⟩
    · simp only [updateListen_lu, map_tags tags]; exact h.single
    · obtain ⟨q, mem_q, rfl⟩ := List.mem_map.mp mem'
      rw [tags]
      show _ = s.roleCount _ + _ ∧ _
      have one := h.refs q mem_q
      by_cases ht : q.tag = t
      · have same : q = e := by
          have := listenEntry_of_mem h.single mem_q
          rw [ht, he] at this
          exact (Option.some.inj this).symm
        subst same
        simp only [ht, if_true]
        omega
      · simp only [if_neg ht]
        simpa [List.count_cons, Ne.symm ht] using one
    · change 0 < s.roleCount u + _ at needed
      simp only [State.listenEntry, updateListen_lu]
      rw [find_map_tags tags, Option.isSome_map]
      refine h.held u ?_
      simp only [List.count_cons]
      omega
    · obtain ⟨q, mem_q, rfl⟩ := List.mem_map.mp mem'
      rw [tags] at fresh ⊢
      have := h.agree q mem_q fresh
      split <;> exact this

/-- A role's reference released and its tag's standing reported (R57). -/
theorem State.Ledger.releaseRole {t : Tag} (h : s.Ledger (t :: owed) stale) :
    (releaseRole t s).Ledger owed fun u => stale u ∧ u ≠ t := h.release.report t

/-! Changes of one record -/

/-- The role count after one record has changed. -/
theorem roleCount_map (d : s.ZonesDistinct) {z : Nat} {r : ZoneRecord} (at_z : s.zone z = some r)
    {g : ZoneRecord → ZoneRecord} (za : s'.za = mapZone z g s.za) (t : Tag) :
    s'.roleCount t + r.tags.count t = s.roleCount t + (g r).tags.count t := by
  have all : ∀ l : List ZoneRecord, (l.map (·.zone)).Nodup → l.find? (fun q => q.zone == z) = some r →
      ((mapZone z g l).flatMap ZoneRecord.tags).count t + r.tags.count t =
        (l.flatMap ZoneRecord.tags).count t + (g r).tags.count t := by
    intro l
    induction l with
    | nil => simp
    | cons q l ih =>
      intro nodup find
      obtain ⟨new, rest⟩ := List.nodup_cons.mp nodup
      by_cases hz : q.zone = z
      · simp only [List.find?_cons, hz, beq_self_eq_true, Option.some.injEq] at find
        subst find
        have others : mapZone z g l = l := by
          refine (List.map_congr_left fun p mem => ?_).trans (List.map_id l)
          have : p.zone ≠ z := fun e => new (by
            simp only [hz, ← e]
            exact List.mem_map.mpr ⟨p, mem, rfl⟩)
          simp [this]
        have split : mapZone z g (q :: l) = g q :: mapZone z g l := by simp [mapZone, hz]
        rw [split, others]
        simp only [List.flatMap_cons, List.count_append]
        omega
      · rw [List.find?_cons_of_neg (by simpa using hz)] at find
        have := ih rest find
        have split : mapZone z g (q :: l) = q :: mapZone z g l := by simp [mapZone, hz]
        rw [split]
        simp only [List.flatMap_cons, List.count_append]
        omega
  rw [State.roleCount, State.roleCount, za]
  exact all s.za d at_z

/-- A question about the records that the changed record answers as before. -/
theorem any_map (d : s.ZonesDistinct) {z : Nat} {r : ZoneRecord} (at_z : s.zone z = some r)
    {g : ZoneRecord → ZoneRecord} (za : s'.za = mapZone z g s.za) {p : ZoneRecord → Bool} (same : p (g r) = p r) :
    s'.za.any p = s.za.any p := by
  rw [za, mapZone, List.any_map]
  refine Bool.eq_iff_iff.mpr ?_
  simp only [List.any_eq_true, Function.comp]
  have one : ∀ q ∈ s.za, p (if q.zone = z then g q else q) = p q := by
    intro q mem
    split
    · rename_i hz
      have := d.zone mem
      rw [hz, at_z] at this
      cases this
      exact same
    · rfl
  exact ⟨fun ⟨q, mem, h⟩ => ⟨q, mem, one q mem ▸ h⟩, fun ⟨q, mem, h⟩ => ⟨q, mem, (one q mem).symm ▸ h⟩⟩

/-- One record changes, the listen table does not: roles come and go as `owed` says, and only the tags of `stale'` change
their standing. -/
theorem State.Ledger.mapZone {owed' : List Tag} {stale' : Tag → Prop} (h : s.Ledger owed stale) (d : s.ZonesDistinct)
    {z : Nat} {r : ZoneRecord} (at_z : s.zone z = some r) {g : ZoneRecord → ZoneRecord}
    (za : s'.za = Machine.mapZone z g s.za) (lu : s'.lu = s.lu)
    (count : ∀ t, (g r).tags.count t + owed'.count t = r.tags.count t + owed.count t)
    (same : ∀ t, ¬ stale' t → ¬ stale t ∧ (g r).isActive t = r.isActive t ∧ (g r).isPlaced t = r.isPlaced t) :
    s'.Ledger owed' stale' := by
  refine h.zones lu (fun t => ?_) fun t fresh => ?_
  · have := roleCount_map d at_z za t
    have := count t
    omega
  · obtain ⟨old, active, placed⟩ := same t fresh
    exact ⟨old, any_map d at_z za active, any_map d at_z za placed⟩

end Sys2Proof.Machine
end

