-- ==== Sys2Proof/Laws/Narrow.lean ====
section
/-! SUPPORT. Endings and settling touch one zone's record, and give no tag a place it did not have (R71 to R83). -/

namespace Sys2Proof.Machine

/-- A change of a record that gives no tag a new place, and leaves the reservation and the superseded tag. -/
structure Shrinks (g : ZoneRecord → ZoneRecord) : Prop where
  fixed : ∀ r, (g r).fixed = r.fixed
  placed : ∀ r, (g r).placedTags ⊆ r.placedTags
  reservation : ∀ r, (g r).reservation = r.reservation
  superseded : ∀ r, (g r).superseded = r.superseded

theorem Shrinks.zone {g : ZoneRecord → ZoneRecord} (h : Shrinks g) (r : ZoneRecord) : (g r).zone = r.zone :=
  congrArg Prod.fst (h.fixed r)

theorem Shrinks.id : Shrinks fun r => r := ⟨fun _ => rfl, fun _ => List.Subset.refl _, fun _ => rfl, fun _ => rfl⟩

theorem Shrinks.comp {f g : ZoneRecord → ZoneRecord} (hf : Shrinks f) (hg : Shrinks g) : Shrinks (f ∘ g) :=
  ⟨fun r => (hf.fixed (g r)).trans (hg.fixed r), fun r => List.Subset.trans (hf.placed (g r)) (hg.placed r),
    fun r => (hf.reservation (g r)).trans (hg.reservation r), fun r => (hf.superseded (g r)).trans (hg.superseded r)⟩

/-- A state whose records differ in the one of zone `z` alone, shrunk. -/
def Narrows (z : Nat) (s s' : State) : Prop := ∃ g, Shrinks g ∧ s'.za = mapZone z g s.za

theorem Narrows.refl (z : Nat) (s : State) : Narrows z s s := ⟨_, Shrinks.id, (mapZone_id z (fun _ => rfl) s.za).symm⟩

theorem Narrows.trans {z : Nat} {s t u : State} (h : Narrows z s t) (k : Narrows z t u) : Narrows z s u := by
  obtain ⟨g, hg, za⟩ := h
  obtain ⟨f, hf, za'⟩ := k
  exact ⟨f ∘ g, hf.comp hg, by rw [za', za]; exact mapZone_comp z hg.zone f s.za⟩

theorem Narrows.of_za {z : Nat} {s s' : State} (h : s'.za = s.za) : Narrows z s s' :=
  ⟨_, Shrinks.id, by rw [h]; exact (mapZone_id z (fun _ => rfl) s.za).symm⟩

/-- The record of the zone itself after a narrowing. -/
theorem Narrows.at_zone {z : Nat} {s s' : State} (h : Narrows z s s') {r' : ZoneRecord} (at_z : s'.zone z = some r') :
    ∃ r, s.zone z = some r ∧ r'.fixed = r.fixed ∧ r'.placedTags ⊆ r.placedTags ∧ r'.reservation = r.reservation ∧
      r'.superseded = r.superseded := by
  obtain ⟨g, hg, za⟩ := h
  rw [zone_mapZone za hg.zone] at at_z
  obtain ⟨r, hr, rfl⟩ := Option.map_eq_some_iff.mp at_z
  exact ⟨r, hr, hg.fixed r, hg.placed r, hg.reservation r, hg.superseded r⟩

/-- Another zone's record is not touched by a change of one. -/
theorem zone_mapZone_other {s s' : State} {z z' : Nat} {g : ZoneRecord → ZoneRecord} (za : s'.za = mapZone z g s.za)
    (same : ∀ r, (g r).zone = r.zone) (other : z' ≠ z) : s'.zone z' = s.zone z' := by
  have all : ∀ l : List ZoneRecord, (mapZone z g l).find? (fun r => r.zone == z') = l.find? fun r => r.zone == z' := by
    intro l
    induction l with
    | nil => rfl
    | cons r l ih =>
      have one : (if r.zone = z then g r else r).zone = r.zone := by split <;> simp [same]
      simp only [mapZone, List.map_cons, List.find?_cons, one]
      by_cases hz : r.zone = z'
      · have : ¬ r.zone = z := fun e => other (hz.symm.trans e)
        simp [hz, other]
      · simp only [beq_eq_false_iff_ne.mpr hz]
        exact ih
  rw [State.zone, State.zone, za]
  exact all s.za

theorem Narrows.other {z z' : Nat} {s s' : State} (h : Narrows z s s') (other : z' ≠ z) : s'.zone z' = s.zone z' := by
  obtain ⟨g, hg, za⟩ := h
  exact zone_mapZone_other za hg.zone other

/-! The changes of settling -/

theorem shrinks_without (t : Tag) : Shrinks (·.without t) :=
  ⟨fun _ => rfl, fun r => r.without_placedTags_subset t, fun _ => rfl, fun _ => rfl⟩

theorem shrinks_withoutAll (ts : List Tag) : Shrinks (·.withoutAll ts) := by
  induction ts with
  | nil => exact Shrinks.id
  | cons t ts ih => exact ih.comp (shrinks_without t)

theorem shrinks_pushed : Shrinks ZoneRecord.pushed := by
  refine ⟨ZoneRecord.pushed_fixed, fun r => ?_, ZoneRecord.pushed_reservation, fun r => ?_⟩
  · exact fun t mem => r.pushed_placedTags ▸ mem
  · unfold ZoneRecord.pushed; split <;> rfl

theorem shrinks_resumed : Shrinks ZoneRecord.resumed := by
  refine ⟨ZoneRecord.resumed_fixed, ZoneRecord.resumed_placedTags_subset, ZoneRecord.resumed_reservation, fun r => ?_⟩
  unfold ZoneRecord.resumed; split <;> rfl

theorem shrinks_promoted {member : Waiter → Member} (tags : ∀ w, (member w).tag = w.tag) :
    Shrinks (ZoneRecord.promoted member) :=
  ⟨fun _ => rfl, fun r => r.promoted_placedTags_subset tags, fun _ => rfl, fun _ => rfl⟩

theorem endRole_narrows (z : Nat) (reason : Reason) (t : Tag) (s : State) : Narrows z s (endRole z reason t s) :=
  ⟨_, shrinks_without t, endRole_za z reason t s⟩

theorem endRoles_narrows (z : Nat) (reason : Reason) (tags : List Tag) (s : State) :
    Narrows z s (forEach tags (endRole z reason) s) := ⟨_, shrinks_withoutAll tags, endRoles_za z reason tags s⟩

theorem pushActive_narrows (z : Nat) (s : State) : Narrows z s (pushActive z s) := by
  cases h : s.zone z with
  | none => simp only [pushActive, h]; exact Narrows.refl z s
  | some r => exact ⟨_, shrinks_pushed, pushActive_za z s (by simp [h])⟩

theorem resumeGroup_narrows (z : Nat) (s : State) : Narrows z s (resumeGroup z s) := by
  cases h : s.zone z with
  | none => simp only [resumeGroup, h, Option.bind_none]; exact Narrows.refl z s
  | some r =>
    by_cases full : r.stack = []
    · simp only [resumeGroup, h, Option.bind_some, full, List.head?_nil]; exact Narrows.refl z s
    · exact ⟨_, shrinks_resumed, resumeGroup_za h full⟩

theorem promote_narrows (z : Nat) (own : Option Tag) (s : State) : Narrows z s (promote z own s) := by
  cases h : s.zone z with
  | none => simp only [promote, h]; exact Narrows.refl z s
  | some r => exact ⟨_, shrinks_promoted fun _ => rfl, promote_za z own s (by simp [h])⟩

/-- The head waiter's joining gives no new place; a record whose head is another is left. -/
theorem joinActive_narrows {z : Nat} {own : Option Tag} {w : Waiter} {s : State} {r : ZoneRecord}
    (d : s.ZonesDistinct) (at_z : s.zone z = some r) (head : r.waiting.head? = some w) :
    Narrows z s (joinActive z own w s) := by
  let g := fun q : ZoneRecord => if q.waiting.head? = some w then q.joined (s.promotedMember w) else q
  refine ⟨g, ⟨fun q => ?_, fun q => ?_, fun q => ?_, fun q => ?_⟩, ?_⟩
  · simp only [g]; split <;> rfl
  · simp only [g]
    split
    · rename_i hq
      obtain ⟨rest, list⟩ : ∃ rest, q.waiting = w :: rest := by
        cases hw : q.waiting with
        | nil => simp [hw] at hq
        | cons v rest => simp only [hw, List.head?_cons, Option.some.injEq] at hq; exact ⟨rest, by rw [hq]⟩
      exact ZoneRecord.joined_placedTags_subset list rfl
    · exact List.Subset.refl _
  · simp only [g]; split <;> rfl
  · simp only [g]; split <;> rfl
  · rw [joinActive_za]
    refine List.map_congr_left fun q mem => ?_
    by_cases hz : q.zone = z
    · have := d.zone mem
      rw [hz, at_z] at this
      cases this
      simp [g, hz, head]
    · simp [hz]

theorem settlePass_narrows {z : Nat} {own : Option Tag} {s s' : State} (d : s.ZonesDistinct)
    (h : settlePass z own s = some s') : Narrows z s s' := by
  unfold settlePass at h
  split at h
  · cases h
  · rename_i r at_z
    split at h
    · unfold emptyPass at h
      simp only at h
      split at h
      · cases h
        exact (endRoles_narrows z .floor _ s).trans (resumeGroup_narrows z _)
      · cases h
        exact (endRoles_narrows z .floor _ s).trans (promote_narrows z own _)
      · split at h
        · cases h
        · cases h
          exact endRoles_narrows z .floor _ s
    · unfold activePass at h
      split at h
      · cases h
      · rename_i w rest list
        split at h
        · split at h
          · cases h
            exact (pushActive_narrows z s).trans (promote_narrows z own _)
          · cases h
            exact endRole_narrows z .floor w.tag s
        · split at h
          · split at h
            · cases h
              exact joinActive_narrows d at_z (by simp [list])
            · cases h
              exact endRole_narrows z .floor w.tag s
          · cases h

theorem settleLoop_narrows (z : Nat) (own : Option Tag) : ∀ (n : Nat) (s : State), s.ZonesDistinct →
    Narrows z s (settleLoop z own n s)
  | 0, s, _ => Narrows.refl z s
  | n + 1, s, d => by
    unfold settleLoop
    split
    · exact Narrows.refl z s
    · rename_i s' some
      exact (settlePass_narrows d some).trans
        (settleLoop_narrows z own n s' ((settlePass_quiet (b := false) some).distinct d))

/-- Settling gives no tag a new place, and touches no other zone (R71). -/
theorem settle_narrows (z : Nat) (own : Option Tag) (w : Bool) {s : State} (d : s.ZonesDistinct) :
    Narrows z s (settle z own w s) := by
  unfold settle
  split
  · exact Narrows.refl z s
  · rename_i r _
    simp only
    split
    · exact (settleLoop_narrows z own r.passBound s d).trans (Narrows.of_za (by simp))
    · exact settleLoop_narrows z own r.passBound s d

end Sys2Proof.Machine
end

