-- ==== Sys2Proof/Laws/PerInstr.lean ====
section
/-! SUPPORT. The family `Transaction`: a Control Port command's bytes are read back as the command (R163, R164, R193). -/

namespace Sys2Proof.Laws

/-- A field is its high and low byte joined. -/
theorem joinBytes_split (w : Word16) : joinBytes (highByte w) (lowByte w) = w := by
  apply BitVec.eq_of_getLsbD_eq
  intro i hi
  simp only [joinBytes, highByte, lowByte, BitVec.getLsbD_append, BitVec.getLsbD_extractLsb']
  by_cases h : i < 8
  · simp [h]
  · have : i - 8 < 8 := by omega
    have : 8 + (i - 8) = i := by omega
    simp_all

/-- A list of eight written out. -/
theorem eight_places {l : List Byte} (h : l.length = 8) :
    ∃ p0 p1 p2 p3 p4 p5 p6 p7, l = [p0, p1, p2, p3, p4, p5, p6, p7] := by
  match l, h with
  | [p0, p1, p2, p3, p4, p5, p6, p7], _ => exact ⟨p0, p1, p2, p3, p4, p5, p6, p7, rfl⟩

/-- An incomplete transaction is read as one cut short (R164). -/
theorem commandOfTransaction_incomplete {clocked : List Byte} (h : incompleteTransaction clocked = true) :
    commandOfTransaction clocked = .transactionCutShort clocked := by
  cases clocked with
  | nil => rfl
  | cons command rest =>
    cases count : argumentCount command with
    | none =>
      have : incompleteTransaction (command :: rest) = false := by simp only [incompleteTransaction, count]
      rw [this] at h
      cases h
    | some n =>
      have short : incompleteTransaction (command :: rest) = decide (rest.length < n) := by
        simp only [incompleteTransaction, count]
      rw [short] at h
      simp only [commandOfTransaction, count]
      exact if_pos (of_decide_eq_true h)

end Sys2Proof.Laws

namespace Sys2Proof.Laws.Transaction

/-- The bytes of a well-formed command that is a transaction are read as that command. -/
def Statement (i : Instr) : Prop :=
  i.wellFormed = true → ∀ bytes, transactionBytes i = some bytes → commandOfTransaction bytes = i

theorem rstnReset : Statement .rstnReset := by
  intro _ bytes h
  cases h

theorem loadBegins : Statement .loadBegins := by
  intro _ bytes h
  cases h

theorem loadSucceeds (memory : List Byte) : Statement (.loadSucceeds memory) := by
  intro _ bytes h
  cases h

theorem loadFails (memory : List Byte) : Statement (.loadFails memory) := by
  intro _ bytes h
  cases h

theorem frameArrival (bytes : List Byte) (cutShort : Bool) : Statement (.frameArrival bytes cutShort) := by
  intro _ bytes h
  cases h

theorem transmissionCompletion : Statement .transmissionCompletion := by
  intro _ bytes h
  cases h

theorem sampleStrobeSend (s0 : Sample) (s1 : Sample) (s2 : Sample) (s3 : Sample) : Statement (.sampleStrobeSend s0 s1 s2 s3) := by
  intro _ bytes h
  cases h

theorem blockCompletion (s0 : Sample) (s1 : Sample) (s2 : Sample) (s3 : Sample) : Statement (.blockCompletion s0 s1 s2 s3) := by
  intro _ bytes h
  cases h

theorem sampleStrobeMix : Statement .sampleStrobeMix := by
  intro _ bytes h
  cases h

theorem meterWindowEnd : Statement .meterWindowEnd := by
  intro _ bytes h
  cases h

theorem periodTimerExpiry : Statement .periodTimerExpiry := by
  intro _ bytes h
  cases h

theorem presenceReturnTimerExpiry : Statement .presenceReturnTimerExpiry := by
  intro _ bytes h
  cases h

theorem ageTimerExpiry (peer : Nat) : Statement (.ageTimerExpiry peer) := by
  intro _ bytes h
  cases h

theorem cleanupRequestAtOwner (peer : Nat) (cause : CleanupCause) : Statement (.cleanupRequestAtOwner peer cause) := by
  intro _ bytes h
  cases h

theorem cleanupRequestAtOrigin (peer : Nat) (cause : CleanupCause) : Statement (.cleanupRequestAtOrigin peer cause) := by
  intro _ bytes h
  cases h

theorem holdTimerExpiry (zone : Nat) : Statement (.holdTimerExpiry zone) := by
  intro _ bytes h
  cases h

theorem autoEndTimerExpiry (zone : Nat) (tag : Tag) : Statement (.autoEndTimerExpiry zone tag) := by
  intro _ bytes h
  cases h

theorem lapseTimerExpiry (tag : Tag) : Statement (.lapseTimerExpiry tag) := by
  intro _ bytes h
  cases h

theorem claimReturnTimerExpiry (slot : Nat) : Statement (.claimReturnTimerExpiry slot) := by
  intro _ bytes h
  cases h

theorem durationTimerExpiry (slot : Nat) : Statement (.durationTimerExpiry slot) := by
  intro _ bytes h
  cases h

theorem keyInputChange (key : Nat) (closed : Bool) : Statement (.keyInputChange key closed) := by
  intro _ bytes h
  cases h

theorem debounceTimerExpiry (key : Nat) : Statement (.debounceTimerExpiry key) := by
  intro _ bytes h
  cases h

theorem status : Statement .status := by
  intro _ bytes h
  cases h
  rfl

theorem claim (zoneCount : Byte) (places : List Byte) (level mode wait : Byte) (gain duration : Word16) (port : Byte) :
    Statement (.claim zoneCount places level mode wait gain duration port) := by
  intro wf bytes h
  obtain ⟨p0, p1, p2, p3, p4, p5, p6, p7, rfl⟩ := eight_places (of_decide_eq_true wf)
  cases h
  have count : argumentCount 0x10 = some 17 := rfl
  show commandOfTransaction [0x10, zoneCount, p0, p1, p2, p3, p4, p5, p6, p7, level, mode, wait, highByte gain,
    lowByte gain, highByte duration, lowByte duration, port] = _
  simp only [commandOfTransaction, count, List.length_cons, List.length_nil]
  show commandWith 0x10 [zoneCount, p0, p1, p2, p3, p4, p5, p6, p7, level, mode, wait, highByte gain, lowByte gain,
    highByte duration, lowByte duration, port] = _
  show Instr.claim zoneCount [p0, p1, p2, p3, p4, p5, p6, p7] level mode wait (joinBytes (highByte gain) (lowByte gain))
    (joinBytes (highByte duration) (lowByte duration)) port = _
  rw [joinBytes_split, joinBytes_split]

theorem claimPreset (number : Byte) : Statement (.claimPreset number) := by
  intro _ bytes h
  cases h
  rfl

theorem endClaim (slot : Byte) (generation : Byte) : Statement (.endClaim slot generation) := by
  intro _ bytes h
  cases h
  rfl

theorem claimStatus (slot : Byte) : Statement (.claimStatus slot) := by
  intro _ bytes h
  cases h
  rfl

theorem zoneStatus (zone : Byte) : Statement (.zoneStatus zone) := by
  intro _ bytes h
  cases h
  rfl

theorem setFloor (zone : Byte) (floor : Byte) : Statement (.setFloor zone floor) := by
  intro _ bytes h
  cases h
  rfl

theorem setTrim (zone : Byte) (trim : Byte) : Statement (.setTrim zone trim) := by
  intro _ bytes h
  cases h
  rfl

theorem clearZone (zone : Byte) : Statement (.clearZone zone) := by
  intro _ bytes h
  cases h
  rfl

theorem meter (zone : Byte) : Statement (.meter zone) := by
  intro _ bytes h
  cases h
  rfl

theorem notice : Statement .notice := by
  intro _ bytes h
  cases h
  rfl

theorem setMask (m0 : Byte) (m1 : Byte) (m2 : Byte) (m3 : Byte) : Statement (.setMask m0 m1 m2 m3) := by
  intro _ bytes h
  cases h
  rfl

theorem peers : Statement .peers := by
  intro _ bytes h
  cases h
  rfl

theorem reset : Statement .reset := by
  intro _ bytes h
  cases h
  rfl

theorem badCommand (command : Byte) : Statement (.badCommand command) := by
  intro wf bytes h
  cases h
  have none : argumentCount command = none := by simpa [Instr.wellFormed] using wf
  simp [commandOfTransaction, none]

theorem transactionCutShort (clocked : List Byte) : Statement (.transactionCutShort clocked) := by
  intro wf bytes h
  cases h
  exact commandOfTransaction_incomplete wf

end Sys2Proof.Laws.Transaction
end

