-- ==== Sys2Proof/Laws/Tables.lean ====
section
/-! SUPPORT. The peer table's order, the recent-sequence list's places and the trims: one lemma for each operation that changes
them. -/

namespace Sys2Proof.Machine

/-! The peer table (R43) -/

theorem mem_insertPeer (p q : Peer) (l : List Peer) : q ∈ insertPeer p l ↔ q = p ∨ q ∈ l := by
  induction l with
  | nil => simp [insertPeer]
  | cons r rest ih =>
    unfold insertPeer
    split
    · simp
    · simp only [List.mem_cons, ih]
      constructor
      · rintro (h | h | h)
        · exact .inr (.inl h)
        · exact .inl h
        · exact .inr (.inr h)
      · rintro (h | h | h)
        · exact .inr (.inl h)
        · exact .inl h
        · exact .inr (.inr h)

/-- A peer that the table does not hold takes its place in address order. -/
theorem insertPeer_sorted {p : Peer} {l : List Peer} (sorted : l.Pairwise fun p q => p.address < q.address)
    (new : ∀ q ∈ l, q.address ≠ p.address) : (insertPeer p l).Pairwise fun p q => p.address < q.address := by
  induction l with
  | nil => simp [insertPeer]
  | cons r rest ih =>
    have tail := List.pairwise_cons.mp sorted
    unfold insertPeer
    split
    · rename_i first
      refine List.pairwise_cons.mpr ⟨fun q mem => ?_, sorted⟩
      rcases List.mem_cons.mp mem with rfl | mem
      · exact first
      · exact Nat.lt_trans first (tail.1 q mem)
    · rename_i later
      refine List.pairwise_cons.mpr ⟨fun q mem => ?_, ih tail.2 fun q mem => new q (List.mem_cons_of_mem _ mem)⟩
      rcases (mem_insertPeer p q rest).mp mem with rfl | mem
      · have := new r List.mem_cons_self
        omega
      · exact tail.1 q mem

/-- Numbers in strictly rising order between two bounds are no more than the bounds leave room for. -/
theorem length_of_rising (low high : Nat) : ∀ l : List Nat, l.Pairwise (· < ·) → (∀ a ∈ l, low ≤ a ∧ a ≤ high) →
    l.length ≤ high + 1 - low
  | [], _, _ => Nat.zero_le _
  | a :: rest, rising, bounds => by
    have tail := List.pairwise_cons.mp rising
    have here := bounds a List.mem_cons_self
    have more := length_of_rising (a + 1) high rest tail.2 fun b mem =>
      ⟨tail.1 b mem, (bounds b (List.mem_cons_of_mem _ mem)).2⟩
    simp only [List.length_cons]
    omega

/-- Entries changed in everything but their address keep the order. -/
theorem peers_map_sorted {f : Peer → Peer} (same : ∀ p, (f p).address = p.address) {l : List Peer}
    (sorted : l.Pairwise fun p q => p.address < q.address) : (l.map f).Pairwise fun p q => p.address < q.address :=
  List.pairwise_map.mpr (sorted.imp fun {p q} h => by rw [same p, same q]; exact h)

@[simp] theorem Peer.heard_address (age : Nat) (joining : Bool) (first last : Nat) (p : Peer) :
    (p.heard age joining first last).address = p.address := rfl

/-! The recent-sequence list (R38) -/

theorem recordRecent_length (recent : List Nat) (n : Nat) : (recordRecent recent n).length ≤ recentCapacity := by
  simp only [recordRecent, List.length_drop]
  omega

theorem nextSequence_le (n : Nat) : nextSequence n ≤ 255 := by
  unfold nextSequence
  omega

/-! Trims (R142, R150) -/

@[simp] theorem MixZone.counted_trim (value : Int) (m : MixZone) : (m.counted value).trim = m.trim := rfl

theorem MixZone.windowEnd_trim (w threshold : Nat) {m : MixZone} (h : m.trim ≤ 7) : (m.windowEnd w threshold).trim ≤ 7 := by
  by_cases raised : m.autoTrims threshold = true
  · have room := raised
    simp only [MixZone.autoTrims, Bool.and_eq_true, decide_eq_true_eq] at room
    simp only [MixZone.windowEnd, raised, if_true]
    omega
  · simp only [MixZone.windowEnd, raised]
    exact h

theorem MixZone.afterStrobe_trim (w threshold : Nat) (value : Int) {m : MixZone} (h : m.trim ≤ 7) :
    (m.afterStrobe w threshold value).trim ≤ 7 := by
  unfold MixZone.afterStrobe
  simp only
  split
  · exact MixZone.windowEnd_trim w threshold h
  · exact h

@[simp] theorem MixZone.fresh_trim (zone trim : Nat) : (MixZone.fresh zone trim).trim = trim := rfl

/-- The trims a configuration gives are those of its zone entries. -/
theorem mixZonesOf_trim {c : Configuration} (zones : ∀ z ∈ c.zones, zoneInRange z) : ∀ m ∈ mixZonesOf c, m.trim ≤ 7 := by
  intro m mem
  obtain ⟨i, h, rfl⟩ := List.mem_mapIdx.mp mem
  exact (zones _ (List.getElem_mem h)).2.2

end Sys2Proof.Machine
end

