-- ==== Sys2Proof/Laws/Transactions.lean ====
section
/-! SUPPORT. What SDO carries at each byte of a transaction, and which completion reports start a slot's return timer. -/

namespace Sys2Proof.Machine

@[simp] theorem State.sdo_between (s : State) (i : Nat) : s.sdo none i = none := rfl

@[simp] theorem State.sdo_reset (s : State) (clocked : List Byte) (i : Nat) (low : s.rstnLow = true) :
    s.sdo (some clocked) i = none := by
  simp [State.sdo, low]

theorem State.sdo_driven (s : State) (clocked : List Byte) (i : Nat) (high : s.rstnLow = false) :
    s.sdo (some clocked) i = some (drivenByte clocked s.cp.response i) := by
  simp [State.sdo, high]

theorem drivenByte_before {clocked response : List Byte} {i : Nat} (h : i < bytesBeforeResponse clocked) :
    drivenByte clocked response i = 0 := if_pos h

theorem drivenByte_response (clocked response : List Byte) (i : Nat) :
    drivenByte clocked response (bytesBeforeResponse clocked + i) = response.getD i 0 := by
  unfold drivenByte
  rw [if_neg (by omega), Nat.add_sub_cancel_left]

/-- After the response SDO reads 0. -/
theorem drivenByte_after {clocked response : List Byte} {i : Nat} (h : bytesBeforeResponse clocked + response.length ≤ i) :
    drivenByte clocked response i = 0 := by
  unfold drivenByte
  rw [if_neg (by omega), List.getD_eq_getElem?_getD, List.getElem?_eq_none (by omega)]
  rfl

theorem bytesBeforeResponse_known {command : Byte} {n : Nat} (rest : List Byte) (h : argumentCount command = some n) :
    bytesBeforeResponse (command :: rest) = n + 2 := by
  simp [bytesBeforeResponse, h]

theorem bytesBeforeResponse_unknown {command : Byte} (rest : List Byte) (h : argumentCount command = none) :
    bytesBeforeResponse (command :: rest) = 2 := by
  simp [bytesBeforeResponse, h]

theorem Slot.startsTimer_asking (k : Slot) (generation : Nat) :
    k.startsTimer .asking generation = true ↔ k.state = .asking ∧ k.generation = generation ∧ k.returnTimer = none := by
  simp [Slot.startsTimer, and_assoc]

theorem Slot.startsTimer_committing (k : Slot) (generation : Nat) :
    k.startsTimer .committing generation = true ↔ k.state = .committing ∧ k.generation = generation := by
  simp [Slot.startsTimer]

end Sys2Proof.Machine
end

