-- ==== Sys2Proof/Tests/Slice0.lean ====
section
/-! SUPPORT. Tests: ill-formed commands refused, worked figures of the spec, and for each statement with hypotheses a
concrete state and operands that meet them together. -/

namespace Sys2Proof.Machine.Tests

open Sys2Proof Sys2Proof.Machine

/-! Ill-formed commands -/

theorem test_ill_peer : Instr.wellFormed (.ageTimerExpiry 0) = false := by decide
theorem test_ill_peer_high : Instr.wellFormed (.ageTimerExpiry 33) = false := by decide
theorem test_ill_cleanup_owner : Instr.wellFormed (.cleanupRequestAtOwner 33 .lost) = false := by decide
theorem test_ill_cleanup_origin : Instr.wellFormed (.cleanupRequestAtOrigin 0 .restarted) = false := by decide
theorem test_ill_hold_zone : Instr.wellFormed (.holdTimerExpiry 241) = false := by decide
theorem test_ill_auto_end_zone :
    Instr.wellFormed (.autoEndTimerExpiry 0 { origin := 1, slot := 0, generation := 0 }) = false := by decide
theorem test_ill_auto_end_tag :
    Instr.wellFormed (.autoEndTimerExpiry 1 { origin := 1, slot := 256, generation := 0 }) = false := by decide
theorem test_ill_lapse_tag :
    Instr.wellFormed (.lapseTimerExpiry { origin := 1, slot := 0, generation := 256 }) = false := by decide
theorem test_ill_return_slot : Instr.wellFormed (.claimReturnTimerExpiry 8) = false := by decide
theorem test_ill_duration_slot : Instr.wellFormed (.durationTimerExpiry 8) = false := by decide
theorem test_ill_key : Instr.wellFormed (.keyInputChange 4 true) = false := by decide
theorem test_ill_debounce : Instr.wellFormed (.debounceTimerExpiry 4) = false := by decide
theorem test_ill_places : Instr.wellFormed (.claim 1 [17] 3 0 0 0x4000 0 0) = false := by decide
theorem test_ill_known_byte : Instr.wellFormed (.badCommand 0x5A) = false := by decide
theorem test_ill_whole_transaction : Instr.wellFormed (.transactionCutShort [0x20, 17]) = false := by decide
theorem test_ill_unknown_cut_short : Instr.wellFormed (.transactionCutShort [0xFF]) = false := by decide

/-! Figures of the spec -/

/-- The check of the nine characters 1 to 9 (R191). -/
theorem test_check :
    checkOf [0x31, 0x32, 0x33, 0x34, 0x35, 0x36, 0x37, 0x38, 0x39] = 0x29B1 := by decide +kernel

/-- A sum of -24,576 at trims 0 and 1 (R145). -/
theorem test_shift : shifted 0 (-24576) = -2 ∧ shifted 1 (-24576) = -1 := by decide

/-- The values at and beyond the range of a zone port (R146). -/
theorem test_clip :
    isClip 32767 = false ∧ isClip 32768 = true ∧ isClip (-32768) = false ∧ isClip (-32769) = true := by decide

/-- A claim at level 7 passes no floor, and floor 1 passes level 0 alone (R7). -/
theorem test_floor (r : ZoneRecord) (h : r.floor = 1) : r.passes 0 = true ∧ r.passes 1 = false := by
  simp [ZoneRecord.passes, h]

/-! The image of section 11.6 -/

/-- The STATION body of station 3. -/
def stationBody : List Byte := [3, 0, 0, 0, 0, 0, 0, 0, 0, 0, 0, 8, 2, 16]

/-- The blocks of the image from offset 8, with the KEYS block's next offset. -/
def imageBlocks (keysNext : Byte) : List Byte :=
  [1, 0, 14, 0, 60] ++ stationBody ++ [2, 0, 14, 0, 46] ++ [1, 4, 0, 0, 0, 0, 0, 0, 1, 5, 0, 0, 6, 0] ++
    [4, 0, 8, 0, keysNext] ++ [1, 0, 2, 2, 0, 0, 0, 0] ++ [0xAA] ++ [9, 0, 12, 0, 27] ++ List.replicate 12 0x55

/-- The image with a header that agrees with its blocks, its length field as given. -/
def image (length keysNext : Byte) : List Byte :=
  let head : List Byte := [0xD7, 0x4C, 0, length, 0, 8]
  let sum := ((head ++ imageBlocks keysNext).take (length.toNat - 2)).foldl (fun n b => n + b.toNat) 0
  head ++ splitBytes (BitVec.ofNat 16 sum) ++ imageBlocks keysNext

/-- The configuration the image gives. -/
def imageConfiguration : Configuration :=
  { station := { address := 3, presencePeriod := 500, returnTimeout := 50, holdTime := 20, lapseTime := 250,
                 startFill := 16, blockLength := 8, meterWindow := 4800, clipThreshold := 8, lineCount := 2,
                 vectorBase := 16 },
    first := 1, last := 4,
    zones := [{ policy := .stack, floor := 7, trim := 0 }, { policy := .stack, floor := 7, trim := 0 },
              { policy := .mix, floor := 5, trim := 0 }, { policy := .stack, floor := 6, trim := 0 }],
    presets := [],
    keys := [some { action := .momentary, preset := 0 }, some { action := .latch, preset := 2 }, none, none] }

/-- The fault code of a load that fails. -/
def faultOf : Except FaultCode Configuration → Option FaultCode
  | .error code => some code
  | .ok _ => none

theorem error_of_faultOf {x : Except FaultCode Configuration} {code : FaultCode} (h : faultOf x = some code) :
    x = .error code := by
  cases x with
  | error c => cases h; rfl
  | ok c => cases h

theorem ok_of_toOption {x : Except FaultCode Configuration} {c : Configuration} (h : x.toOption = some c) : x = .ok c := by
  cases x with
  | error c => cases h
  | ok c => cases h; rfl

theorem test_image : (loadImage (image 77 0)).toOption = some imageConfiguration := by decide +kernel
theorem test_image_loops : faultOf (loadImage (image 77 27)) = some .badChain := by decide +kernel
theorem test_image_short : faultOf (loadImage (image 70 0)) = some .badChain := by decide +kernel

/-! A station for the witnesses -/

/-- A tag of a peer. -/
def tagOfPeer (slot generation : Nat) : Tag := { origin := 2, slot := slot, generation := generation }

/-- Two own zones, 17 under STACK and 18 under MIX, one preset, two bound keys. -/
def configuration : Configuration :=
  { station := { address := 1, presencePeriod := 500, returnTimeout := 50, holdTime := 20, lapseTime := 250,
                 startFill := 16, blockLength := 2, meterWindow := 256, clipThreshold := 1, lineCount := 4,
                 vectorBase := 16 },
    first := 17, last := 18,
    zones := [{ policy := .stack, floor := 7, trim := 0 }, { policy := .mix, floor := 6, trim := 1 }],
    presets := [{ number := 0, desc := { zones := [17], level := 3, mode := .any, wait := true, gain := 16384,
                                         duration := 0, port := 0 } }],
    keys := [some { action := .momentary, preset := 0 }, some { action := .latch, preset := 0 }, none, none] }

/-- A station in UP with every zone idle and every slot FREE. -/
def quiet : State :=
  { pending := [], rstnLow := false, keyInputs := [false, true, false, false], config := some configuration,
    cleanups := [], rp := RingPort.reset,
    pu := { ringState := .up, sequence := 5, recent := [4, 5], outstanding := none,
            peers := [{ address := 2, first := 33, last := 34, joining := false, age := 900 }], clashReported := false,
            period := some 300 },
    za := zoneRecordsOf configuration, cu := List.replicate 8 Slot.reset, lu := [], ss := [[1], [2], [3], [4]],
    me := { zones := mixZonesOf configuration, ports := List.replicate 8 0 },
    ku := [{ debounced := some .pressed, timer := some 7, remembered := some (0, 1) },
           { debounced := some .released, timer := some 7, remembered := none },
           { debounced := some .released, timer := some 7, remembered := none }, Key.reset],
    cp := ControlPort.reset, cl := { loadState := .done, faultCode := none } }

/-- The claim description of a claim of this station on zone 17. -/
def claimInfo (cls : ClaimClass) (mode : Mode) (state : EntryState) (owner : Option Nat) : ClaimInfo :=
  { issuer := .key 0, cls := cls, port := 0, level := 5, mode := mode, wait := true, gain := 16384, duration := 100,
    entries := [{ zone := 17, owner := owner, state := state, lastCode := none }] }

/-- Zone 17 with a place of each kind. -/
def busyZone : ZoneRecord :=
  { zone := 17, port := 0, policy := .stack, floor := 7, active := [{ tag := tagOfPeer 0 1, left := some 40 }],
    activeLevel := some 3, reservation := some { tag := tagOfPeer 2 1, level := 2, hold := 9 },
    superseded := some (tagOfPeer 3 1), stack := [{ level := 4, members := [{ tag := tagOfPeer 1 1, left := none }] }],
    waiting := [{ tag := { origin := 1, slot := 0, generation := 1 }, level := 5 }] }

/-- A listen entry with one reference. -/
def listenEntryOf (tag : Tag) (active : Bool) (buffer : List Sample) (lapse : Option Nat) : ListenEntry :=
  { tag := tag, gain := 16384, duration := 0, references := 1, active := active, buffer := buffer, primed := active,
    lapse := lapse }

/-- A station in UP with zone 17 busy, a LIVE claim in slot 0, and claims in ASKING and COMMITTING. -/
def busy : State :=
  { quiet with
    za := [busyZone, ZoneRecord.empty 18 1 { policy := .mix, floor := 6, trim := 1 }]
    cu := [{ generation := 1, state := .live, outcome := none, info := some (claimInfo .ofWindow .any .waiting (some 1)),
             durationLeft := some 50, returnTimer := none },
           { generation := 2, state := .asking, outcome := none, info := some (claimInfo .ofRing .any .pending none),
             durationLeft := none, returnTimer := some 3 },
           { generation := 3, state := .committing, outcome := none,
             info := some (claimInfo .ofRing .all .pending (some 2)), durationLeft := none, returnTimer := none }] ++
          List.replicate 5 Slot.reset
    lu := [listenEntryOf (tagOfPeer 0 1) true [5] (some 200), listenEntryOf (tagOfPeer 1 1) false [] (some 100),
           listenEntryOf (tagOfPeer 2 1) false [] none,
           listenEntryOf { origin := 1, slot := 0, generation := 1 } false [] (some 10)] }

/-- A station whose load is in progress while a frame waits on a busy line. -/
def loading : State :=
  { State.reset with
    rp := { RingPort.reset with
      forward := [frameOf 2 0 (.withdraw 0 0)]
      out := some { frame := frameOf 2 0 (.withdraw 0 0), source := .forward, reported := false } } }

theorem configuration_valid : ConfigValid configuration where
  station := by constructor <;> decide
  window := .inr (by decide)
  width := by decide
  zones := by unfold zoneInRange; decide
  presets := by decide
  distinct := by decide
  keys := by decide
  bindings := by
    intro b mem
    have : ∀ k ∈ configuration.keys, ∀ b ∈ k, b.preset ≤ 7 := by decide
    exact this _ mem b rfl

theorem quiet_bounded : quiet.Bounded where
  port := ⟨by decide, by decide, by decide, by decide⟩
  forward := by decide
  checkErrors := by decide
  overruns := by decide
  notices := by decide
  listen := ⟨by decide, by decide, by decide⟩
  tables := ⟨by decide, by decide, by decide, by decide, by decide, by decide⟩

theorem busy_bounded : busy.Bounded where
  port := ⟨by decide, by decide, by decide, by decide⟩
  forward := by decide
  checkErrors := by decide
  overruns := by decide
  notices := by decide
  listen := ⟨by decide, by decide, by decide⟩
  tables := ⟨by decide, by decide, by decide, by decide, by decide, by decide⟩

theorem busy_coherent : busy.Coherent where
  rstn := by decide
  reading := by decide
  failed := by decide
  unit := by decide
  stays := by decide
  fault := by decide
  configured := by decide
  valid := fun c h => by cases h; exact configuration_valid
  repeating := fun h => absurd h (by decide)
  period := by decide

theorem busy_shaped : busy.Shaped := by constructor <;> decide

theorem busy_matched : busy.ZonesMatch := ⟨by decide, fun c h => by cases h; decide⟩

theorem empty_lawful {zone port : Nat} {z : ZoneConfig} (h : zoneInRange z) :
    (ZoneRecord.empty zone port z).Lawful where
  floor := ⟨h.1, h.2.1⟩
  level := by simp [ZoneRecord.empty]
  members := by simp [ZoneRecord.empty]
  order := by simp [ZoneRecord.empty, ZoneRecord.levels]
  urgent := by simp [ZoneRecord.empty, ZoneRecord.levels]
  groups := by simp [ZoneRecord.empty]
  waiters := by simp [ZoneRecord.empty]
  sorted := by simp [ZoneRecord.empty]
  single := by simp [ZoneRecord.empty, ZoneRecord.placedTags]
  reserved := by simp [ZoneRecord.empty, Reservation.tags]
  rest := by simp [ZoneRecord.empty]

theorem busyZone_lawful : busyZone.Lawful where
  floor := by decide
  level := by decide
  members := by decide
  order := by decide
  urgent := by decide
  groups := by decide
  waiters := by decide
  sorted := by decide
  single := by decide
  reserved := by decide
  rest := by decide

theorem busy_arbitrated : busy.Arbitrated := by
  intro r mem
  rcases List.mem_cons.mp mem with rfl | mem
  · exact busyZone_lawful
  · rw [List.mem_singleton.mp mem]
    exact empty_lawful ⟨by decide, by decide, by decide⟩

theorem busy_heard : busy.Heard where
  single := by decide
  agrees := by
    intro e mem
    have all : ∀ e ∈ busy.lu, e.references = busy.roleCount e.tag ∧ 1 ≤ e.references ∧
        e.active = busy.za.any (·.isActive e.tag) ∧ e.lapse.isSome = busy.za.any (·.isPlaced e.tag) := by decide
    obtain ⟨a, b, c, d⟩ := all e mem
    exact ⟨a, b, c, d⟩
  held := by
    intro t count
    have mem : t ∈ busy.za.flatMap ZoneRecord.tags := List.count_pos_iff.mp count
    have all : ∀ u ∈ busy.za.flatMap ZoneRecord.tags, (busy.listenEntry u).isSome = true := by decide
    exact all t mem

/-- A state that satisfies every law, with a place of each kind in it. -/
theorem witness_safe : busy.Safe :=
  ⟨busy_bounded, busy_coherent, busy_shaped, busy_matched, busy_arbitrated, busy_heard⟩

/-! Witnesses: the queue, resets and loads -/

theorem witness_step : (busy.withPending [.notice]).pending = .notice :: [] := rfl

theorem witness_pins : ∃ t, exec .status busy = .next t := ⟨_, rfl⟩

theorem witness_idle : busy.pending = [] ∧ dueEvent busy = none := by decide

theorem witness_load_begins : (hardReset busy).rstnLow = true ∧ busy.rstnLow = false := by decide

theorem witness_reset_reached :
    loading.pending = [] ∧ loading.keyInputs = [false, false, false, false] := by decide

theorem loading_coherent : loading.Coherent where
  rstn := by decide
  reading := by decide
  failed := by decide
  unit := by decide
  stays := by decide
  fault := by decide
  configured := by decide
  valid := fun c h => by cases h
  repeating := fun _ => by constructor <;> decide
  period := by decide

theorem loading_bounded : loading.Bounded where
  port := ⟨by decide, by decide, by decide, by decide⟩
  forward := by decide
  checkErrors := by decide
  overruns := by decide
  notices := by decide
  listen := ⟨by decide, by decide, by decide⟩
  tables := ⟨by decide, by decide, by decide, by decide, by decide, by decide⟩

theorem witness_load_success : loading.Bounded ∧ loading.Coherent ∧ loading.Shaped ∧
    loading.cl.loadState = .reading ∧ loading.rstnLow = false ∧
    loadImage (image 77 0) = .ok imageConfiguration :=
  ⟨loading_bounded, loading_coherent, by constructor <;> decide, rfl, rfl, ok_of_toOption (by decide +kernel)⟩

theorem witness_load_failure : loading.Coherent ∧ loading.cp.notices.length < 32 ∧
    loading.cl.loadState = .reading ∧ loading.rstnLow = false ∧ loadImage [] = .error .noMemory :=
  ⟨loading_coherent, by decide, rfl, rfl, error_of_faultOf (by decide)⟩

theorem witness_image_length : (image 77 0).length = wordAt (image 77 0) 2 ∧ 8 ≤ (image 77 0).length := by
  decide +kernel

theorem witness_image_magic : 8 ≤ (image 77 0).length ∧ (image 77 0)[0]? = some 0xD7 ∧
    (image 77 0)[1]? = some 0x4C ∧ wordAt (image 77 0) 2 ≤ (image 77 0).length ∧
    imageSum ((image 77 0).take 77) = wordAt ((image 77 0).take 77) 6 := by decide +kernel

/-- The chain of the image of 11.6, in the order visited. -/
theorem witness_chain : Clause.Chain (image 77 0) [8, 60, 27, 46] where
  starts := by decide +kernel
  linked := by
    intro i o h
    have all : ∀ i < 4, ∀ o, [8, 60, 27, 46][i]? = some o → [8, 60, 27, 46][i + 1]? =
        if wordAt (image 77 0) (o + 3) = 0 then none else some (wordAt (image 77 0) (o + 3)) := by
      intro i small o h
      match i with
      | 0 => cases h; decide +kernel
      | 1 => cases h; decide +kernel
      | 2 => cases h; decide +kernel
      | 3 => cases h; decide +kernel
    exact all i ((List.getElem?_eq_some_iff.mp h).1) o h
  behind := by decide
  within := by decide +kernel
  apart := by decide +kernel
  sixteen := by decide
  once := by decide +kernel

/-- The image of 11.6 whose KEYS block leads back to the ZONES block has no whole chain. -/
theorem witness_no_chain : ¬∃ offsets, Clause.Chain (image 77 27) offsets := by
  rintro ⟨offsets, chain⟩
  have head : offsets[0]? = some 8 := by rw [← List.head?_eq_getElem?, chain.starts]; decide +kernel
  have one : offsets[1]? = some 60 := by rw [chain.linked 0 8 head]; decide +kernel
  have two : offsets[2]? = some 27 := by rw [chain.linked 1 60 one]; decide +kernel
  have three : offsets[3]? = some 46 := by rw [chain.linked 2 27 two]; decide +kernel
  have four : offsets[4]? = some 27 := by rw [chain.linked 3 46 three]; decide +kernel
  obtain ⟨h2, e2⟩ := List.getElem?_eq_some_iff.mp two
  obtain ⟨h4, e4⟩ := List.getElem?_eq_some_iff.mp four
  have apart := List.pairwise_iff_getElem.mp chain.apart 2 4 h2 h4 (by decide)
  rw [e2, e4] at apart
  omega

theorem witness_contents : (loadImage (image 77 0)).toOption.isSome = true := by decide +kernel

/-- The station in PASSIVE after a load that found no memory. -/
def passive : State := loadFailed .noMemory loading

theorem witness_soft_reset : busy.rstnLow = false ∧ busy.isMember = true ∧ busy.config = some configuration ∧
    loading.rstnLow = false ∧ loading.isMember = false ∧ passive.rstnLow = false ∧ passive.isMember = false := by decide

/-- A soft reset in PASSIVE: the Presence Unit's ring state stays as it is, and the other blocks see LOADING. -/
theorem test_reset_in_passive : (softReset passive).pu.ringState = .passive ∧ passive.ringState = .passive ∧
    (softReset passive).ringState = .loading := by decide

/-! Witnesses: the ring -/

/-- A frame of station 2 with a message. -/
def fromPeer (m : Message) : Frame := frameOf 2 0 m

/-- A frame of the station itself with a message. -/
def fromSelf (m : Message) : Frame := frameOf 1 0 m

theorem witness_bad_frame : busy.rstnLow = false ∧ goodFrame [1, 2, 3] false = none := by decide

theorem witness_frame_round_trip :
    (1 ≤ [(7 : Sample)].length ∧ [(7 : Sample)].length ≤ 16) ∧ (1 : Nat) ≤ 2 ∧ (2 : Nat) ≤ 32 := by decide

theorem witness_own_frame : goodFrame (fromSelf (.withdraw 0 1)).bytes false = some (fromSelf (.withdraw 0 1)) ∧
    (fromSelf (.withdraw 0 1)).origin.toNat = busy.address ∧ (fromSelf (.withdraw 0 1)).kind = 4 := by decide +kernel

/-- A frame of no known kind, with a hop count. -/
def unknownFrame (hop : Byte) : Frame :=
  ({ kind := 9, origin := 2, hop := hop, destination := 0, bodyLength := 1, body := [7], check := 0 } : Frame).sealed

theorem witness_peer_frame : goodFrame (unknownFrame 30).bytes false = some (unknownFrame 30) ∧
    (unknownFrame 30).origin.toNat ≠ busy.address ∧ (unknownFrame 30).hop.toNat < 31 ∧
    busy.rp.forward.length < 4 ∧ (unknownFrame 30).message = none := by decide +kernel

theorem witness_hop_limit : goodFrame (unknownFrame 31).bytes false = some (unknownFrame 31) ∧
    31 ≤ (unknownFrame 31).hop.toNat := by decide +kernel

/-- The station with a full forward queue behind a busy line. -/
def crowded : State :=
  { busy with rp := { busy.rp with
      forward := List.replicate 4 (unknownFrame 0)
      out := some { frame := unknownFrame 0, source := .forward, reported := false } } }

theorem witness_overrun : crowded.rstnLow = false ∧ crowded.isMember = true ∧ 4 ≤ crowded.rp.forward.length := by
  decide +kernel

theorem witness_repeater : loading.rstnLow = false ∧ loading.isMember = false ∧ loading.rp.forward.length < 4 ∧
    4 ≤ ({ loading with rp := crowded.rp } : State).rp.forward.length := by decide +kernel

theorem witness_ring_out : loading.rp.out.isSome = true ∧ busy.rp.out = none ∧ busy.rp.forward = [] ∧
    ∃ o, loading.rp.out = some o ∧ o.reported = false := ⟨by decide +kernel, rfl, rfl, _, rfl, rfl⟩

theorem witness_ring_out_waiting :
    ({ busy.rp with forward := [unknownFrame 0] } : RingPort).out = none ∧
    ({ busy.rp with forward := [unknownFrame 0] } : RingPort).forward = unknownFrame 0 :: [] := ⟨rfl, rfl⟩

/-- A frame of a unit on Ring Out. -/
def sending (m : Message) : OutFrame := { frame := fromSelf m, source := .control, reported := true }

/-- The content of slot 1's CLAIM, answered or not. -/
def contentOf (verdict owner : Byte) : Content :=
  { slot := 1, generation := 2, level := 5, mode := 0, wait := 1, gain := 16384, duration := 100,
    entries := [{ zone := 17, verdict := verdict, ack := 0, owner := owner }] }

theorem witness_completion_presence :
    (sending (.presence 5 0 17 18)).reported = true ∧
    (sending (.presence 5 0 17 18)).frame.message = some (.presence 5 0 17 18) := by decide +kernel

theorem witness_completion_claim :
    (sending (.claim (contentOf 0 0))).frame.message = some (.claim (contentOf 0 0)) ∧
    (sending (.commit (contentOf 1 1))).frame.message = some (.commit (contentOf 1 1)) := by decide +kernel

/-! Witnesses: presence -/

/-- The station with a PRESENCE outstanding. -/
def awaiting (phase : PresencePhase) : State :=
  { busy with pu := { busy.pu with outstanding := some { sequence := 5, phase := phase } } }

theorem witness_missed : (awaiting (.timing 3)).pu.outstanding = some { sequence := 5, phase := .timing 3 } ∧
    (awaiting .queued).pu.period = some 300 := by decide

theorem witness_period : busy.pu.period = some 300 ∧ busy.pu.outstanding = none ∧ busy.rp.placeSetAside = false ∧
    busy.rp.control.length < 16 ∧
    16 ≤ ({ busy with rp := { busy.rp with control := List.replicate 16 (unknownFrame 0) } } : State).rp.control.length :=
  by decide +kernel

theorem witness_proof : goodFrame (fromSelf (.presence 5 0 17 18)).bytes false = some (fromSelf (.presence 5 0 17 18)) ∧
    (fromSelf (.presence 5 0 17 18)).origin.toNat = (awaiting (.timing 3)).address ∧
    (fromSelf (.presence 5 0 17 18)).message = some (.presence 5 0 17 18) ∧
    (17 : Byte).toNat = (awaiting (.timing 3)).windowFirst ∧ (18 : Byte).toNat = (awaiting (.timing 3)).windowLast := by
  decide +kernel

theorem witness_late_return : (busy.pu.outstanding = none) ∧ (5 : Byte).toNat ∈ busy.pu.recent ∧
    (6 : Byte).toNat ∉ busy.pu.recent := by decide

theorem witness_presence_frame (a : Nat) (h : a = 2 ∨ a = 3) :
    goodFrame (frameOf a 0 (.presence 1 1 18 40)).bytes false = some (frameOf a 0 (.presence 1 1 18 40)) ∧
    (frameOf a 0 (.presence 1 1 18 40)).message = some (.presence 1 1 18 40) ∧
    (frameOf a 0 (.presence 1 1 18 40)).hop.toNat < 31 ∧ (frameOf a 0 (.presence 1 1 18 40)).origin.toNat = a := by
  rcases h with rfl | rfl <;> decide +kernel

theorem witness_peers : (busy.peer 2).isSome = true ∧ busy.peer 3 = none ∧ (∀ p ∈ busy.pu.peers, p.address ≠ 3) ∧
    busy.pu.peers.Pairwise (fun p q => p.address < q.address) ∧ busy.rp.forward.length < 4 ∧
    (busy.owns 18 && inBounds 18 40 18) = true ∧ (∀ z' < 18, ¬(busy.owns z' ∧ inBounds 18 40 z')) := by decide

theorem witness_changed_window : ∃ p, busy.peer 2 = some p ∧ (p.first ≠ (18 : Byte).toNat ∨ p.last ≠ (40 : Byte).toNat) ∧
    p.joining = false ∧ (1 : Byte).getLsbD 0 = true ∧ (2 : Byte).getLsbD 0 = false := ⟨_, rfl, by decide, rfl, by decide, by decide⟩

theorem witness_unchanged_window : ∃ p, busy.peer 2 = some p ∧ p.first = (33 : Byte).toNat ∧ p.last = (34 : Byte).toNat :=
  ⟨_, rfl, rfl, rfl⟩

/-! Witnesses: zones -/

/-- A peer's terms at a level. -/
def termsOf (slot level : Nat) (mode : Mode) (wait : Bool) : Terms :=
  { tag := tagOfPeer slot 1, level := level, mode := mode, wait := wait, gain := 16384, duration := 0 }

/-- The idle zone 18. -/
def idleZone : ZoneRecord := ZoneRecord.empty 18 1 { policy := .mix, floor := 6, trim := 1 }

/-- Zone 18 with one active member at level 4. -/
def mixing : ZoneRecord := { idleZone with active := [{ tag := tagOfPeer 5 1, left := none }], activeLevel := some 4 }

theorem witness_tag_present : (termsOf 0 2 .any false).tag ∈ busyZone.tags ∧
    (termsOf 7 7 .any false).tag ∉ busyZone.tags ∧ busyZone.floor ≤ (termsOf 7 7 .any false).level := by decide

theorem witness_verdict_reserved : (termsOf 7 1 .any true).tag ∉ busyZone.tags ∧
    (termsOf 7 1 .any true).level < busyZone.floor ∧ busyZone.reservation.isSome = true ∧
    busyZone.verdict (termsOf 7 1 .any true) = .held ∧ busyZone.verdict (termsOf 7 2 .any true) = .waiting ∧
    busyZone.verdict (termsOf 7 2 .all true) = .busy := by decide

theorem witness_verdict_open : mixing.reservation = none ∧ mixing.verdict (termsOf 7 3 .any false) = .held ∧
    mixing.verdict (termsOf 7 4 .any false) = .held ∧ mixing.verdict (termsOf 7 5 .any false) = .lower ∧
    idleZone.verdict (termsOf 7 5 .any false) = .held ∧
    ({ mixing with policy := .stack } : ZoneRecord).verdict (termsOf 7 4 .any false) = .busy := by decide

theorem witness_waiting_written : busyZone.bid 2 = .busy ∧ (termsOf 7 2 .any true).tag ∉ busyZone.tags ∧
    (answer 17 (termsOf 7 2 .any true) busyZone busy).1 = .waiting := by decide

theorem witness_held : busy.zone 18 = some idleZone ∧ idleZone.verdict (termsOf 7 5 .any true) = .held ∧
    busy.canListen (termsOf 7 5 .any true).tag = true ∧
    ({ busy with lu := List.replicate 16 (listenEntryOf (tagOfPeer 0 1) true [] none) } : State).canListen
      (termsOf 7 5 .any true).tag = false := by decide

theorem witness_own_entries : busy.ZonesMatch ∧ busy.Coherent ∧ busy.owns 17 = true := ⟨busy_matched, busy_coherent, by decide⟩

/-- A content of a peer's slot with one entry for a zone. -/
def contentAt (slot : Byte) (zone verdict owner : Byte) : Content :=
  { slot := slot, generation := 1, level := 2, mode := 0, wait := 1, gain := 16384, duration := 100,
    entries := [{ zone := zone, verdict := verdict, ack := 0, owner := owner }] }

theorem witness_peer_claim : Clause.peerArrival (fromPeer (.claim (contentAt 7 17 0 0))).bytes
      (fromPeer (.claim (contentAt 7 17 0 0))) busy ∧
    (fromPeer (.claim (contentAt 7 17 0 0))).message = some (.claim (contentAt 7 17 0 0)) := by
  unfold Clause.peerArrival
  decide +kernel

theorem witness_peer_commit : Clause.peerArrival (fromPeer (.commit (contentAt 2 17 1 1))).bytes
      (fromPeer (.commit (contentAt 2 17 1 1))) busy ∧
    (fromPeer (.commit (contentAt 2 17 1 1))).message = some (.commit (contentAt 2 17 1 1)) := by
  unfold Clause.peerArrival
  decide +kernel

theorem witness_claim_entry : busy.zone (33 : Byte).toNat = none ∧
    busy.zone (17 : Byte).toNat = some busyZone ∧ ¬((3 : Byte) = 0 ∧ (2 : Byte) = 0) ∧ ¬((0 : Byte) = 0 ∧ (2 : Byte) = 0) := by
  decide

/-- A tag with a place, a tag with the reservation alone, and a tag with neither. -/
theorem witness_commit_entry : (1 : Byte).toNat = busy.address ∧
    (Clause.termsIn 2 (contentAt 0 17 1 1)).tag ∈ busyZone.placedTags ∧
    (Clause.termsIn 2 (contentAt 2 17 1 1)).tag ∉ busyZone.placedTags ∧
    (Clause.termsIn 2 (contentAt 2 17 1 1)).tag ∈ busyZone.tags ∧
    (Clause.termsIn 2 (contentAt 7 17 2 1)).tag ∉ busyZone.tags := by decide

theorem witness_commit_reserved : busy.zone 17 = some busyZone ∧
    busyZone.reservation = some { tag := (termsOf 2 2 .any false).tag, level := 2, hold := 9 } ∧
    busyZone.activeLevel = some 3 ∧ busyZone.active ≠ [] := by decide

theorem witness_commit_reserved_open :
    ({ idleZone with reservation := some { tag := tagOfPeer 2 1, level := 4, hold := 9 } } : ZoneRecord).activeLevel = none ∧
    ({ mixing with reservation := some { tag := tagOfPeer 2 1, level := 4, hold := 9 } } : ZoneRecord).active.length < 4 := by
  decide

theorem witness_commit_lost : (∀ v, busyZone.reservation = some v → v.tag ≠ tagOfPeer 3 1) ∧
    busyZone.superseded = some (tagOfPeer 3 1) := by
  refine ⟨fun v h => ?_, rfl⟩
  cases h
  decide

theorem witness_commit_waiting : (termsOf 7 5 .any true).level < busyZone.floor ∧ busyZone.waiting.length < 4 ∧
    busy.canListen (termsOf 7 5 .any true).tag = true ∧ (busyZone.waiting.map (·.level)).Pairwise (· ≤ ·) ∧
    busyZone.isReserved (termsOf 7 5 .any true).tag = false ∧ busyZone.isReserved (termsOf 2 5 .any true).tag = true ∧
    busy.canListen (termsOf 2 5 .any true).tag = true := by decide

/-- A tag that holds the reservation commits WAITING: it waits, once, with one reference. -/
theorem test_reserved_tag_waits :
    ((commitWaiting 17 (termsOf 2 5 .any true) busyZone busy).2.zone 17).map (fun r =>
        (r.isReserved (tagOfPeer 2 1), r.tags.count (tagOfPeer 2 1), r.isWaiting (tagOfPeer 2 1))) = some (false, 1, true) ∧
      ((commitWaiting 17 (termsOf 2 5 .any true) busyZone busy).2.listenEntry (tagOfPeer 2 1)).map (·.references) =
        some 1 := by decide +kernel

theorem witness_settling : busy.ZonesMatch ∧ busy.Coherent ∧ ∀ r ∈ busy.za, r.Sound :=
  ⟨busy_matched, busy_coherent, fun r mem => (busy_arbitrated r mem).toSound⟩

/-- The station with another record for zone 17. -/
def withZone (r : ZoneRecord) : State :=
  { busy with za := [r, ZoneRecord.empty 18 1 { policy := .mix, floor := 6, trim := 1 }] }

theorem withZone_matched (r : ZoneRecord) (h : r.zone = 17) : (withZone r).ZonesMatch := by
  refine ⟨?_, fun c config => ?_⟩
  · simp only [withZone, List.map_cons, h]
    decide
  · simp only [withZone, List.map_cons, h]
    cases config
    decide

theorem withZone_coherent (r : ZoneRecord) : (withZone r).Coherent where
  rstn := busy_coherent.rstn
  reading := busy_coherent.reading
  failed := busy_coherent.failed
  unit := busy_coherent.unit
  stays := busy_coherent.stays
  fault := busy_coherent.fault
  configured := busy_coherent.configured
  valid := busy_coherent.valid
  repeating := fun h => absurd (show busy.isMember = false from h) (by decide)
  period := busy_coherent.period

/-- Zone 17 with an empty active set, one suspended group and one waiter. -/
def vacant (floor group waiter : Nat) : ZoneRecord :=
  { busyZone with
    floor := floor
    active := []
    activeLevel := none
    stack := [{ level := group, members := [{ tag := tagOfPeer 1 1, left := none }] }]
    waiting := [{ tag := { origin := 1, slot := 0, generation := 1 }, level := waiter }] }

theorem vacant_sound {floor group waiter : Nat} (bounds : 1 ≤ floor ∧ floor ≤ 7) (level : group ≤ 6) :
    (vacant floor group waiter).Sound where
  floor := bounds
  level := by simp [vacant]
  members := by simp [vacant]
  order := by simp [vacant, ZoneRecord.levels]
  urgent := by simpa [vacant, ZoneRecord.levels] using level
  groups := by simp [vacant, busyZone, memberLimit]
  waiters := by simp [vacant, waitCapacity]
  sorted := by simp [vacant]
  single := by simp [vacant, ZoneRecord.placedTags, tagOfPeer]
  reserved := by simp [vacant, busyZone, Reservation.tags, ZoneRecord.placedTags, tagOfPeer]

/-- Group and waiter pruned at the floor's own level; a tie that the group wins; a waiter that is more urgent. -/
theorem witness_empty_pass : (∀ f g w, f ≤ 7 → 1 ≤ f → g ≤ 6 → (vacant f g w).Sound ∧ (vacant f g w).active = [] ∧
      (withZone (vacant f g w)).ZonesMatch ∧ (withZone (vacant f g w)).Coherent) ∧
    (withZone (vacant 4 4 4)).zone 17 = some (vacant 4 4 4) ∧
    ((vacant 4 4 4).stack.dropWhile fun g => decide (4 ≤ g.level)) = [] ∧
    ((vacant 4 4 4).waiting.filter fun w => decide (w.level < 4)) = [] ∧
    ((vacant 5 4 4).stack.dropWhile fun g => decide (5 ≤ g.level)).head?.map (·.level) = some 4 ∧
    ((vacant 5 4 4).waiting.filter fun w => decide (w.level < 5)).head?.map (·.level) = some 4 ∧
    ((vacant 5 4 3).waiting.filter fun w => decide (w.level < 5)).head?.map (·.level) = some 3 ∧
    (idleZone.stack = [] ∧ idleZone.waiting = []) :=
  ⟨fun f g w high low level => ⟨vacant_sound ⟨low, high⟩ level, rfl, withZone_matched _ rfl, withZone_coherent _⟩,
    by decide, by decide, by decide, by decide, by decide, by decide, rfl, rfl⟩

/-- Zone 17 under MIX with a member at level 4 and a waiter. -/
def due (floor waiter : Nat) : ZoneRecord :=
  { busyZone with
    policy := .mix
    floor := floor
    activeLevel := some 4
    stack := []
    waiting := [{ tag := { origin := 1, slot := 0, generation := 1 }, level := waiter }] }

theorem due_sound {floor waiter : Nat} (bounds : 1 ≤ floor ∧ floor ≤ 7) : (due floor waiter).Sound where
  floor := bounds
  level := by simp [due, busyZone]
  members := by simp [due, busyZone, memberLimit, mixCapacity]
  order := by simp [due, ZoneRecord.levels]
  urgent := by simp [due, ZoneRecord.levels]
  groups := by simp [due]
  waiters := by simp [due, waitCapacity]
  sorted := by simp [due]
  single := by simp [due, busyZone, ZoneRecord.placedTags, tagOfPeer]
  reserved := by simp [due, busyZone, Reservation.tags, ZoneRecord.placedTags, tagOfPeer]

/-- A waiter above, at and below the active level, which passes the floor or has the floor's own level. -/
theorem witness_active_pass : (∀ f w, 1 ≤ f → f ≤ 7 → (due f w).Sound ∧ (due f w).activeLevel = some 4 ∧
      (withZone (due f w)).ZonesMatch ∧ (withZone (due f w)).Coherent ∧
      (due f w).waiting = { tag := { origin := 1, slot := 0, generation := 1 }, level := w } :: []) ∧
    (withZone (due 5 4)).zone 17 = some (due 5 4) ∧ (due 5 4).policy = .mix ∧ (due 5 4).active.length < 4 ∧
    mixing.waiting = [] :=
  ⟨fun f w low high => ⟨due_sound ⟨low, high⟩, rfl, withZone_matched _ rfl, withZone_coherent _, rfl⟩,
    by decide, rfl, by decide, rfl⟩

theorem witness_zone_at_rest : (settlePass (17 : Byte).toNat none busy).isNone = true := by decide +kernel

theorem witness_hold : busyZone.reservation = some { tag := tagOfPeer 2 1, level := 2, hold := 9 } ∧
    busy.zone 17 = some busyZone ∧ ∀ r, busy.zone 18 = some r → r.reservation = none := by
  refine ⟨rfl, by decide, fun r h => ?_⟩
  have : busy.zone 18 = some idleZone := by decide
  rw [this] at h
  cases h
  rfl

theorem witness_auto_end : busy.Safe ∧ busy.zone 17 = some busyZone ∧
    ({ tag := tagOfPeer 0 1, left := some 40 } : Member) ∈ busyZone.active := ⟨witness_safe, by decide, by decide⟩

theorem witness_set_floor : busy.rstnLow = false ∧ busy.zone (17 : Byte).toNat = some busyZone ∧ 1 ≤ (4 : Byte).toNat ∧
    (4 : Byte).toNat ≤ 7 ∧ ¬(1 ≤ (8 : Byte).toNat ∧ (8 : Byte).toNat ≤ 7) := by decide

theorem witness_withdraw_frame :
    goodFrame (fromPeer (.withdraw 0 1)).bytes false = some (fromPeer (.withdraw 0 1)) ∧
    (fromPeer (.withdraw 0 1)).origin.toNat ≠ busy.address ∧ (fromPeer (.withdraw 0 1)).hop.toNat < 31 ∧
    (fromPeer (.withdraw 0 1)).message = some (.withdraw 0 1) ∧ tagOfPeer 0 1 ∈ busyZone.tags := by decide +kernel

theorem witness_lapse : ∃ e, busy.listenEntry (tagOfPeer 0 1) = some e ∧ e.lapse.isSome = true := ⟨_, rfl, rfl⟩

theorem witness_lapse_stopped : ∃ e, busy.listenEntry (tagOfPeer 2 1) = some e ∧ e.lapse = none := ⟨_, rfl, rfl⟩

/-! Witnesses: claims -/

/-- The operands of a CLAIM on zone 33, which is no own zone. -/
def descOnPeer : ClaimDesc :=
  { zones := [33], level := 3, mode := .any, wait := false, gain := 16384, duration := 0, port := 1 }

theorem witness_issue_checks : descValid descOnPeer = true ∧ (∃ z ∈ descOnPeer.zones, busy.owns z = false) ∧
    (∃ k ∈ busy.cu, k.state = .free) ∧ busy.rp.control.length < 16 ∧
    ¬(∃ k ∈ List.replicate 8 ({ Slot.reset with state := .live } : Slot), k.state = .free) := by decide

theorem witness_claim : claimDescOf 1 [33, 0, 0, 0, 0, 0, 0, 0] 3 0 0 16384 0 1 = some descOnPeer ∧
    quiet.classOf descOnPeer = .ofRing ∧ quiet.ringState = .up ∧ quiet.slot 0 = some Slot.reset ∧
    quiet.rp.control.length < 16 ∧ quiet.isMember = true ∧ ∀ z ∈ descOnPeer.zones, quiet.owns z = false := by decide

/-- A station in UP without a ZONES block, every slot FREE. -/
def windowless : State :=
  { quiet with
    config := some { configuration with first := 1, last := 0, zones := [] }
    za := []
    me := { zones := [], ports := List.replicate 8 0 } }

theorem witness_ring_claim : windowless.rstnLow = false ∧ windowless.ringState = .up ∧ windowless.za = [] ∧
    (∀ z ∈ descOnPeer.zones, windowless.owns z = false) ∧ windowless.rp.placeSetAside = false ∧
    windowless.slot 0 = some Slot.reset := by decide

/-- A claim on one own zone. -/
def descOnOwn (zone level : Nat) : ClaimDesc :=
  { zones := [zone], level := level, mode := .any, wait := false, gain := 16384, duration := 0, port := 1 }

theorem witness_local_claim : claimDescOf 1 [18, 0, 0, 0, 0, 0, 0, 0] 5 0 0 16384 0 1 = some (descOnOwn 18 5) ∧
    descValid (descOnOwn 18 5) = true ∧ busy.classOf (descOnOwn 18 5) = .ofWindow ∧ busy.isMember = true ∧
    busy.slot 3 = some Slot.reset ∧ (List.range 3).all (fun m => (busy.slot m).any fun q => q.state != .free) = true := by decide

theorem witness_local_live : busy.Safe ∧ busy.zone 18 = some idleZone ∧ idleZone.active = [] ∧ idleZone.reservation = none ∧
    (descOnOwn 18 5).level < idleZone.floor ∧ busy.canListen { origin := busy.address, slot := 3, generation := 1 } = true :=
  ⟨witness_safe, by decide, rfl, rfl, by decide, by decide⟩

theorem witness_local_refused : descValid (descOnOwn 17 2) = true ∧ (descOnOwn 17 2).mode = .any ∧
    busyZone.verdict { tag := { origin := 1, slot := 3, generation := 1 }, level := 2, mode := .any, wait := false,
                       gain := 16384, duration := 0 } = .busy := by decide

theorem witness_refused_claim : (0 : Byte).toNat = 0 ∧ 1 < (2 : Byte).toNat ∧
    (issue .host descOnPeer loading).1 = .refused .starting := by decide

theorem witness_preset : (quiet.preset (0 : Byte).toNat).isSome = true ∧ quiet.preset (1 : Byte).toNat = none ∧
    loading.ringState = .loading := by decide

theorem witness_endings : busy.Safe ∧ (∃ k, busy.slot 0 = some k ∧ k.state = .live ∧ k.durationLeft.isSome = true) ∧
    ∃ k, busy.slot 1 = some k ∧ k.state = .asking ∧ k.returnTimer.isSome = true :=
  ⟨witness_safe, ⟨_, rfl, rfl, rfl⟩, ⟨_, rfl, rfl, rfl⟩⟩

theorem witness_no_ending : (∀ k, busy.slot 7 = some k → k.state ≠ .live ∨ k.durationLeft = none) ∧
    ∀ k, busy.slot (7 : Byte).toNat = some k → k.state = .free ∨ k.generation ≠ (0 : Byte).toNat :=
  ⟨fun k h => by cases h; decide, fun k h => by cases h; decide⟩

theorem witness_claim_return :
    goodFrame (fromSelf (.claim (contentOf 3 1))).bytes false = some (fromSelf (.claim (contentOf 3 1))) ∧
    (fromSelf (.claim (contentOf 3 1))).message = some (.claim (contentOf 3 1)) ∧
    (contentOf 3 1).entries.map (·.zone.toNat) = [17] ∧
    (∀ w ∈ (contentOf 3 1).entries, w.verdict ≠ 1 ∧ w.verdict ≠ 2) ∧
    ∃ k, busy.slot (contentOf 3 1).slot.toNat = some k ∧ k.state = .asking ∧
      k.generation = (contentOf 3 1).generation.toNat ∧ k.info = some (claimInfo .ofRing .any .pending none) :=
  ⟨by decide +kernel, by decide +kernel, rfl, by decide, _, rfl, rfl, rfl, rfl⟩

/-- A slot whose ring claim travels. -/
def travellingSlot (mode : Mode) (state : SlotState) : Slot :=
  { generation := 2, state := state, outcome := none, info := some (claimInfo .ofRing mode .pending (some 2)),
    durationLeft := none, returnTimer := some 3 }

/-- The station with that slot as its slot 1. -/
def travelling (mode : Mode) (state : SlotState) : State :=
  { busy with cu := busy.cu.set 1 (travellingSlot mode state) }

/-- A content with an acknowledgement. -/
def acknowledged (ack : Byte) : Content :=
  { contentOf 1 2 with entries := [{ zone := 17, verdict := 1, ack := ack, owner := 2 }] }

theorem witness_own_return :
    Clause.ownReturn (fromSelf (.claim (contentOf 1 2))).bytes (fromSelf (.claim (contentOf 1 2))) (travelling .all .asking) ∧
    (fromSelf (.claim (contentOf 1 2))).message = some (.claim (contentOf 1 2)) ∧
    Clause.ownReturn (fromSelf (.commit (acknowledged 1))).bytes (fromSelf (.commit (acknowledged 1)))
      (travelling .all .committing) ∧
    (fromSelf (.commit (acknowledged 1))).message = some (.commit (acknowledged 1)) := by
  unfold Clause.ownReturn
  decide +kernel

theorem witness_return_of (mode : Mode) (state : SlotState) (c : Content) (h : c = contentOf 1 2 ∨ c = contentOf 3 2 ∨
      c = acknowledged 1 ∨ c = acknowledged 3) :
    Clause.returnOf state c (travellingSlot mode state) (claimInfo .ofRing mode .pending (some 2)) (travelling mode state) := by
  refine ⟨?_, rfl, ?_, rfl, ?_⟩ <;> rcases h with rfl | rfl | rfl | rfl <;> rfl

/-- A CLAIM return that commits, with room and without, and one that does not. -/
theorem witness_commits : (∀ w ∈ (contentOf 1 2).entries, w.verdict = 1) ∧ (∃ w ∈ (contentOf 1 2).entries, w.verdict = 1) ∧
    (∃ w ∈ (contentOf 3 2).entries, w.verdict ≠ 1) ∧ (travelling .all .asking).rp.control.length < 16 ∧
    16 ≤ ({ travelling .all .asking with rp := { busy.rp with control := List.replicate 16 (unknownFrame 0) } } :
      State).rp.control.length := by decide +kernel

/-- A COMMIT return that goes LIVE, and one that does not. -/
theorem witness_commit_return : (∀ w ∈ (acknowledged 1).entries, w.ack = 1) ∧
    (List.zipWith Clause.acknowledgedEntry (acknowledged 1).entries (claimInfo .ofRing .all .pending (some 2)).entries).all
      (fun e => e.state == .active) = true ∧
    (List.zipWith Clause.acknowledgedEntry (acknowledged 3).entries (claimInfo .ofRing .any .pending (some 2)).entries).all
      (fun e => e.state == .refused) = true := by decide

theorem witness_late_claim : ∀ k, quiet.slot (contentOf 3 1).slot.toNat = some k → k.state ≠ .asking := by
  intro k h
  cases h
  decide

/-- A NOTICE of station 2 about slot 2, zone 17. -/
def noticeFromPeer : Frame := frameOf 2 1 (.notice 2 3 17 2 0)

theorem witness_notice : goodFrame noticeFromPeer.bytes false = some noticeFromPeer ∧
    noticeFromPeer.destination.toNat = busy.address ∧ noticeFromPeer.message = some (.notice 2 3 17 2 0) ∧
    ∃ k, busy.slot (2 : Byte).toNat = some k ∧ k.state = .committing ∧ k.generation = (3 : Byte).toNat ∧
      ∃ e ∈ k.entries, e.zone = (17 : Byte).toNat ∧ e.owner = some noticeFromPeer.origin.toNat ∧
        e.state.isTerminal = false :=
  ⟨by decide +kernel, by decide +kernel, by decide +kernel, _, rfl, rfl, rfl, by decide +kernel⟩

/-- A NOTICE of station 2 that ends the LIVE claim's only entry, and one with a reason outside the codes. -/
theorem witness_ended_notice (reason : Byte) (h : reason = 1 ∨ reason = 4 ∨ reason = 5) :
    Clause.peerArrival (frameOf 2 1 (.notice 0 1 17 4 reason)).bytes (frameOf 2 1 (.notice 0 1 17 4 reason))
      { windowless with cu := { generation := 1, state := .live, outcome := none, durationLeft := none, returnTimer := none,
                                info := some (claimInfo .ofRing .any .active (some 2)) } :: List.replicate 7 Slot.reset } ∧
    (frameOf 2 1 (.notice 0 1 17 4 reason)).message = some (.notice 0 1 17 4 reason) ∧
    (claimInfo .ofRing .any .active (some 2)).entries.all (Clause.concerns 2 17) = true := by
  unfold Clause.peerArrival
  rcases h with rfl | rfl | rfl <;> decide +kernel

theorem witness_cleanup_origin : busy.Shaped ∧ ∃ k, busy.slot 2 = some k ∧ k.state = .committing :=
  ⟨busy_shaped, _, rfl, rfl⟩

theorem witness_generations : (Instr.notice ≠ .rstnReset) ∧ ∃ t, exec .notice busy = .next t :=
  ⟨by decide, _, rfl⟩

/-! Witnesses: audio, the mix, keys -/

theorem witness_audio_frame :
    goodFrame (fromPeer (.audio 0 1 [7, 8])).bytes false = some (fromPeer (.audio 0 1 [7, 8])) ∧
    (fromPeer (.audio 0 1 [7, 8])).message = some (.audio 0 1 [7, 8]) ∧
    (fromPeer (.audio 0 1 [7, 8])).hop.toNat < 31 := by decide +kernel

theorem witness_strobe : quiet.isMember = true ∧ quiet.ss = [[1], [2], [3], [4]] ∧ quiet.Bounded ∧
    [(1 : Sample)].length + 1 = quiet.blockLength :=
  ⟨by decide, by decide, quiet_bounded, by decide⟩

theorem witness_strobe_fills : ({ quiet with ss := [[], [], [], []] } : State).isMember = true ∧
    ([] : List Sample).length + 1 < quiet.blockLength := by decide

theorem witness_strobe_live : ∃ k i, busy.slot 0 = some k ∧ k.state = .live ∧ k.info = some i ∧ i.port = 0 :=
  ⟨_, _, rfl, rfl, rfl, rfl⟩

/-- A LIVE ring claim. -/
def liveSlot : Slot :=
  { generation := 1, state := .live, outcome := none, info := some (claimInfo .ofRing .any .active (some 2)),
    durationLeft := none, returnTimer := none }

/-- A station in UP whose one claim is LIVE on the ring. -/
def streaming : State := { windowless with cu := liveSlot :: List.replicate 7 Slot.reset }

/-- Claims on two ports, one of them with a waiting entry in an own zone. -/
theorem witness_blocks_in_order :
    (Clause.claimsInOrder { busy with cu := busy.cu.set 3 { liveSlot with info := liveSlot.info.map fun i => { i with port := 3 } } }).map
      (fun x => (x.1, x.2.1)) = [(0, 0), (3, 3)] ∧
    busy.ss = [[1], [2], [3], [4]] ∧ [(1 : Sample)].length + 1 = busy.blockLength ∧
    ∃ e ∈ (claimInfo .ofWindow .any .waiting (some 1)).entries, busy.owns e.zone = true ∧ e.state = .waiting := by decide

theorem witness_strobe_ring : streaming.isMember = true ∧ streaming.ss = [[1], [2], [3], [4]] ∧
    (streaming.slot 0 = some liveSlot ∧ liveSlot.state = .live ∧
      liveSlot.info = some (claimInfo .ofRing .any .active (some 2)) ∧
      ∀ e ∈ (claimInfo .ofRing .any .active (some 2)).entries, streaming.owns e.zone = false) ∧
    ∀ m q, m ≠ 0 → streaming.slot m = some q → q.state ≠ .live := by
  refine ⟨by decide, by decide, ⟨by decide, rfl, rfl, by decide⟩, fun m q other h => ?_⟩
  cases m with
  | zero => exact absurd rfl other
  | succ m =>
    have mem : q ∈ List.replicate 7 Slot.reset := List.mem_of_getElem? h
    rw [(List.mem_replicate.mp mem).2]
    decide

theorem witness_mix : busy.isMember = true ∧ busy.me.zones.length ≤ 8 ∧
    busy.me.zones[0]? = some (MixZone.fresh 17 0) ∧ busy.zone 17 = some busyZone ∧
    busy.lu[0]? = some (listenEntryOf (tagOfPeer 0 1) true [5] (some 200)) := by decide

/-- A zone at the end of its window with a clip, below the highest trim. -/
theorem witness_trimmed : busy.meterWindow ≤ ({ MixZone.fresh 17 6 with count := 255, clips := 1 } : MixZone).count + 1 ∧
    busy.clipThreshold ≠ 0 ∧ busy.clipThreshold ≤ 1 := by decide

theorem witness_contact : (∃ k, busy.ku[0]? = some k ∧ k.timer.isSome = true) ∧ busy.keyClosed 0 ≠ true ∧
    busy.keyClosed 0 = false := ⟨⟨_, rfl, rfl⟩, by decide, by decide⟩

theorem witness_unbound : busy.bound 2 = none ∧ (∃ k, busy.ku[2]? = some k ∧ k.timer.isSome = true) ∧
    ∃ k, busy.ku[3]? = some k ∧ k.timer = none := ⟨by decide, ⟨_, rfl, rfl⟩, ⟨_, rfl, rfl⟩⟩

theorem witness_press : (busy.bound 1).isSome = true ∧ busy.keyClosed 1 = true ∧
    ∃ k, busy.ku[1]? = some k ∧ k.timer.isSome = true ∧ k.debounced ≠ some .pressed ∧ k.remembered = none :=
  ⟨by decide, by decide, _, rfl, rfl, by decide, rfl⟩

theorem witness_key_end : busy.Safe ∧ (busy.bound 0).isSome = true ∧ busy.keyClosed 0 = false ∧
    (∃ k, busy.ku[0]? = some k ∧ k.timer.isSome = true ∧ k.debounced = some .pressed ∧ k.remembered = some (0, 1)) ∧
    ∃ q, busy.slot 0 = some q ∧ q.generation = 1 ∧ q.state ≠ .free :=
  ⟨witness_safe, by decide, by decide, ⟨_, rfl, rfl, rfl, rfl⟩, ⟨_, rfl, rfl, by decide⟩⟩

/-! Witnesses: the Control Port -/

theorem witness_rstn_low : (hardReset busy).rstnLow = true ∧ (transactionBytes .status).isSome = true := by decide

theorem witness_passive : loading.rstnLow = false ∧ loading.isMember = false := by decide

theorem witness_not_owned : busy.isMember = true ∧ busy.owns (19 : Byte).toNat = false := by decide

theorem witness_notice_queue :
    (post (.zoneIdle 17) busy).cp.notices = { vector := 17, notice := .zoneIdle 17 } :: [] ∧ busy.cp.notices = [] := by
  decide

theorem witness_full_queue : 32 ≤ (List.replicate 32 ({ vector := 17, notice := .zoneIdle 17 } : QueuedNotice)).length ∧
    busy.cp.notices.length < 32 := by decide

theorem witness_masks : (1 : Byte).toNat ≤ 1 ∧ 1 < (2 : Byte).toNat := by decide

theorem witness_lines : (post (.zoneIdle 17) busy).lineAsserted 1 = true ∧ loading.config = none ∧
    configuration.station.lineCount ≤ 4 := by decide

theorem witness_reads : busy.Shaped ∧ busy.rstnLow = false ∧ busy.isMember = true ∧ (busy.slot (0 : Byte).toNat).isSome = true ∧
    busy.owns (17 : Byte).toNat = true ∧ busy.mixZone (17 : Byte).toNat = some (MixZone.fresh 17 0) ∧ 8 ≤ (8 : Byte).toNat :=
  ⟨busy_shaped, by decide, by decide, by decide, by decide, by decide, by decide⟩

theorem witness_trim : (7 : Byte).toNat ≤ 7 ∧ 7 < (8 : Byte).toNat := by decide

theorem witness_transaction : Instr.wellFormed (.claim 1 [17, 0, 0, 0, 0, 0, 0, 0] 3 0 1 16384 0 0) = true ∧
    (transactionBytes (.claim 1 [17, 0, 0, 0, 0, 0, 0, 0] 3 0 1 16384 0 0)).isSome = true ∧
    Instr.wellFormed (.transactionCutShort [0x21, 17]) = true := by decide

/-- NOTICE as the host clocks it in 12.4: the command byte, the turnaround byte, nine response bytes, and one more. -/
theorem test_sdo :
    let waiting := post .ringUp busy
    ∃ t, exec .notice waiting = .next t ∧
      (List.range 12).map (t.sdo (some (List.replicate 12 0x30))) =
        [0, 0, 0, 13, 18, 0, 0, 0, 0, 0, 0, 0].map some ∧ t.sdo none 0 = none := ⟨_, rfl, by decide, rfl⟩

theorem witness_sdo_low : (hardReset busy).rstnLow = true ∧ Instr.wellFormed .status = true := by decide

/-! Witnesses: the laws -/

theorem witness_laws : busy.Safe ∧ ∃ t, step busy = .next t := ⟨witness_safe, _, rfl⟩

end Sys2Proof.Machine.Tests
end

section
/-! SUPPORT. Received bytes and the frame they hold (R15, R190), a field and its two bytes (R189), and what becomes of a frame
that is not good. -/

namespace Sys2Proof.Machine

/-- The high byte of a field joined from two bytes. -/
@[simp] theorem highByte_joinBytes (high low : Byte) : highByte (joinBytes high low) = high := by
  refine BitVec.eq_of_getLsbD_eq fun i inByte => ?_
  simp only [highByte, joinBytes, BitVec.getLsbD_extractLsb', BitVec.getLsbD_append]
  simp [inByte]

/-- The low byte of a field joined from two bytes. -/
@[simp] theorem lowByte_joinBytes (high low : Byte) : lowByte (joinBytes high low) = low := by
  refine BitVec.eq_of_getLsbD_eq fun i inByte => ?_
  simp only [lowByte, joinBytes, BitVec.getLsbD_extractLsb', BitVec.getLsbD_append]
  simp [inByte]

/-- Two bytes joined into a field are carried as they were received. -/
@[simp] theorem splitBytes_joinBytes (high low : Byte) : splitBytes (joinBytes high low) = [high, low] := by
  simp [splitBytes]

/-- What follows the header is the body and then the two bytes at its end. -/
theorem body_append_check {rest : List Byte} (long : 2 ≤ rest.length) :
    rest.take (rest.length - 2) ++ [rest.getD (rest.length - 2) 0, rest.getD (rest.length - 1) 0] = rest := by
  have twoLeft : (rest.drop (rest.length - 2)).length = 2 := by
    rw [List.length_drop]
    omega
  match lastTwo : rest.drop (rest.length - 2), twoLeft with
  | [high, low], _ =>
    obtain ⟨body, rfl⟩ : ∃ body, rest = body ++ [high, low] :=
      ⟨rest.take (rest.length - 2), by rw [← lastTwo, List.take_append_drop]⟩
    simp

/-- A frame's own bytes hold that frame. -/
theorem frameOfBytes_bytes (f : Frame) : frameOfBytes f.bytes = some f := by
  simp [Frame.bytes, Frame.covered, frameOfBytes, splitBytes, Laws.joinBytes_split]

/-- Bytes that hold a frame are that frame's bytes. -/
theorem bytes_of_frameOfBytes {bytes : List Byte} {f : Frame} (h : frameOfBytes bytes = some f) : f.bytes = bytes := by
  unfold frameOfBytes at h
  split at h
  case h_1 kind origin hop destination bodyLength rest =>
    obtain ⟨long, same⟩ := Option.ite_none_right_eq_some.mp h
    obtain rfl := Option.some.inj same
    simp only [Frame.bytes, Frame.covered, splitBytes_joinBytes, List.cons_append, body_append_check long]
  case h_2 => cases h

/-- Bytes hold exactly the frame whose bytes they are (R190). -/
theorem frameOfBytes_eq_some_iff {bytes : List Byte} {f : Frame} : frameOfBytes bytes = some f ↔ f.bytes = bytes :=
  ⟨bytes_of_frameOfBytes, fun h => h ▸ frameOfBytes_bytes f⟩

/-- The tests of R15 on a frame's fields. -/
theorem Frame.isGood_iff {f : Frame} :
    f.isGood = true ↔ f.bodyLength.toNat = f.body.length ∧ f.body.length ≤ 42 ∧ f.check = checkOf f.covered := by
  simp only [Frame.isGood, Bool.and_eq_true, decide_eq_true_eq]
  constructor
  · rintro ⟨⟨short, whole⟩, sealed⟩
    exact ⟨whole, whole ▸ short, sealed⟩
  · rintro ⟨whole, short, sealed⟩
    exact ⟨⟨whole ▸ short, whole⟩, sealed⟩

/-- A reception gives a frame when it was not cut short and its bytes hold one that passes the tests of R15. -/
theorem goodFrame_eq_some_iff {bytes : List Byte} {cutShort : Bool} {f : Frame} :
    goodFrame bytes cutShort = some f ↔ cutShort = false ∧ frameOfBytes bytes = some f ∧ f.isGood = true := by
  cases cutShort <;> simp [goodFrame, Option.filter_eq_some_iff]

/-- With RSTN high, a reception that gives no good frame is counted, whatever the mode (R15, R29). -/
theorem arriveFrame_of_not_good {bytes : List Byte} {cutShort : Bool} {s : State} (high : s.rstnLow = false)
    (bad : goodFrame bytes cutShort = none) : arriveFrame bytes cutShort s = countCheckError s := by
  simp [arriveFrame, high, bad]

/-- Arrivals that give no good frame, told apart from good ones by the arrival's first branch, reach the counter alone. -/
theorem badFrameIsCounted : Clause.BadFrameIsCounted := by
  intro bytes cutShort s high bad
  exact congrArg Host.Outcome.next (arriveFrame_of_not_good high bad)

/-- The test of R15 in terms of the received bytes, since they hold the one frame whose bytes they are. -/
theorem goodFrameTest : Clause.GoodFrameTest := by
  intro bytes cutShort f
  rw [goodFrame_eq_some_iff, frameOfBytes_eq_some_iff, Frame.isGood_iff]

/-- Settles O10: the good-frame test from the round trip between frames and bytes, the discard from what an arrival does with
bytes that give no good frame. -/
theorem frameIsGoodOrCounted : Obligations.FrameIsGoodOrCounted := ⟨badFrameIsCounted, goodFrameTest⟩

end Sys2Proof.Machine
end

section
/-! SUPPORT. A missed PRESENCE return (R41): what it makes of the station, and the two timers whose expiries come to one. -/

namespace Sys2Proof.Machine

/-- UP is the one ring state that a miss changes. -/
theorem RingState.afterMiss_of_ne_up {r : RingState} (notUp : r ≠ .up) : r.afterMiss = r := by
  cases r with
  | up => exact absurd rfl notUp
  | loading | passive | joining | broken => rfl

/-- The miss by R41's table, row by row, is the miss by its one row that changes the ring state. -/
theorem missReturn_eq_missed (s : State) : missReturn s = Clause.missed s := by
  unfold missReturn Clause.missed
  by_cases up : s.pu.ringState = .up
  · simp [up, RingState.afterMiss]
  · simp [up, RingState.afterMiss_of_ne_up up]

@[simp] theorem missReturn_outstanding (s : State) : (missReturn s).pu.outstanding = none := by
  unfold missReturn
  split <;> simp

@[simp] theorem missReturn_period (s : State) : (missReturn s).pu.period = s.pu.period := by
  unfold missReturn
  split <;> simp

theorem giveUpPresence_of_outstanding {s : State} {o : Outstanding} (waits : s.pu.outstanding = some o) :
    giveUpPresence s = missReturn s := by
  simp [giveUpPresence, waits]

theorem giveUpPresence_of_none {s : State} (empty : s.pu.outstanding = none) : giveUpPresence s = s := by
  simp [giveUpPresence, empty]

/-- A sending that finds a PRESENCE outstanding is the sending from the state after its miss: R38 asks for no phase, and the
miss leaves nothing to give up. -/
theorem sendPresence_of_outstanding {s : State} {o : Outstanding} (waits : s.pu.outstanding = some o) :
    sendPresence s = sendPresence (missReturn s) := by
  unfold sendPresence
  rw [giveUpPresence_of_outstanding waits, giveUpPresence_of_none (missReturn_outstanding s)]

theorem periodExpiry_of_running {s : State} {left : Nat} (running : s.pu.period = some left) :
    periodExpiry s = startPeriod (sendPresence s) := by
  simp [periodExpiry, running]

theorem presenceReturnExpiry_of_timing {s : State} {o : Outstanding} {left : Nat} (waits : s.pu.outstanding = some o)
    (timing : o.phase = .timing left) : presenceReturnExpiry s = missReturn s := by
  simp [presenceReturnExpiry, waits, timing, PresencePhase.isTiming]

/-- The period timer's expiry that finds a PRESENCE outstanding: the miss leaves the period timer running, so the expiry acts
from the state after it too. -/
theorem periodExpiry_of_outstanding {s : State} {o : Outstanding} {left : Nat} (waits : s.pu.outstanding = some o)
    (running : s.pu.period = some left) : periodExpiry s = periodExpiry (missReturn s) :=
  calc periodExpiry s
    _ = startPeriod (sendPresence s) := periodExpiry_of_running running
    _ = startPeriod (sendPresence (missReturn s)) := by rw [sendPresence_of_outstanding waits]
    _ = periodExpiry (missReturn s) := (periodExpiry_of_running ((missReturn_period s).trans running)).symm

/-- Settles O15: both expiries come to the one miss of R41, at the return timer directly and at the period timer through the
sending that gives the PRESENCE up. -/
theorem missedReturn : Obligations.MissedReturn := by
  intro s o waits
  rw [← missReturn_eq_missed]
  constructor
  · intro left timing
    exact congrArg Host.Outcome.next (presenceReturnExpiry_of_timing waits timing)
  · intro left running
    exact congrArg Host.Outcome.next (periodExpiry_of_outstanding waits running)

end Sys2Proof.Machine
end

section
/-! SUPPORT. The answer to an own entry of a CLAIM (R59 to R62) and the tests of a WAITING entry of a COMMIT (R70): what each
test gives, with the state unchanged. -/

namespace Sys2Proof.Machine

/-- The floor test (R7). -/
theorem ZoneRecord.passes_of_lt {r : ZoneRecord} {level : Nat} (below : level < r.floor) : r.passes level = true :=
  decide_eq_true below

/-- The reservation and the active set never answer WAITING of themselves (R60, R61). -/
theorem ZoneRecord.bid_cases (r : ZoneRecord) (level : Nat) :
    r.bid level = .held ∨ (r.bid level = .busy ∨ r.bid level = .full ∨ r.bid level = .lower) := by
  unfold ZoneRecord.bid
  cases r.reservation with
  | some v =>
    by_cases breaks : level < v.level ∧ r.outranked level = true
    · exact .inl (if_pos breaks)
    · exact .inr (.inl (if_neg breaks))
  | none =>
    cases r.activeLevel with
    | none => exact .inl rfl
    | some a =>
      dsimp only
      by_cases above : level < a
      · exact .inl (if_pos above)
      · rw [if_neg above]
        by_cases same : level = a
        · rw [if_pos same]
          cases r.policy with
          | mix =>
            by_cases room : r.active.length < mixCapacity
            · exact .inl (if_pos room)
            · exact .inr (.inr (.inl (if_neg room)))
          | stack => exact .inr (.inl rfl)
        · exact .inr (.inr (.inr (if_neg same)))

theorem ne_held_of_refusal {v : Verdict} (refusal : v = .busy ∨ v = .full ∨ v = .lower) : v ≠ .held := by
  obtain rfl | rfl | rfl := refusal <;> decide

theorem ne_waiting_of_refusal {v : Verdict} (refusal : v = .busy ∨ v = .full ∨ v = .lower) : v ≠ .waiting := by
  obtain rfl | rfl | rfl := refusal <;> decide

/-- The three refusals are written by one rule (R62). -/
theorem ZoneRecord.converted_of_refusal (r : ZoneRecord) (mode : Mode) (wait : Bool) {v : Verdict}
    (refusal : v = .busy ∨ v = .full ∨ v = .lower) :
    r.converted mode wait v = if wait = true ∧ mode = .any ∧ r.waiting.length < 4 then .waiting else v := by
  obtain rfl | rfl | rfl := refusal <;> rfl

/-- A claim whose tag has no role and whose level passes the floor is answered by the reservation and the active set. -/
theorem ZoneRecord.verdict_of_passes {r : ZoneRecord} {t : Terms} (new : t.tag ∉ r.tags) (passes : t.level < r.floor) :
    r.verdict t = r.converted t.mode t.wait (r.bid t.level) := by
  have noRole : ¬ r.hasRole t.tag = true := fun role => new ((r.hasRole_iff t.tag).mp role)
  rw [ZoneRecord.verdict, if_neg noRole, ZoneRecord.passes_of_lt passes]
  rfl

/-- Only a refusal written under the rule of R62 is WAITING, so its claim is an ANY claim with the wait flag. -/
theorem ZoneRecord.converted_eq_waiting {r : ZoneRecord} {mode : Mode} {wait : Bool} {level : Nat}
    (waits : r.converted mode wait (r.bid level) = .waiting) : mode = .any ∧ wait = true := by
  obtain held | refusal := r.bid_cases level
  · rw [held] at waits
    cases waits
  · rw [r.converted_of_refusal mode wait refusal] at waits
    split at waits
    next may =>
      obtain ⟨flag, any, -⟩ := may
      exact ⟨any, flag⟩
    next => exact absurd waits (ne_waiting_of_refusal refusal)

/-- The tests of R59 give BUSY and FLOOR as they stand, so WAITING comes from R62 alone. -/
theorem ZoneRecord.verdict_eq_waiting {r : ZoneRecord} {t : Terms} (waits : r.verdict t = .waiting) :
    t.mode = .any ∧ t.wait = true := by
  unfold ZoneRecord.verdict at waits
  split at waits
  · cases waits
  · split at waits
    · cases waits
    · exact ZoneRecord.converted_eq_waiting waits

/-- Every verdict but HELD is the answer as it stands, with the state unchanged. -/
theorem answer_of_ne_held (z : Nat) {t : Terms} {r : ZoneRecord} (s : State) (notHeld : r.verdict t ≠ .held) :
    answer z t r s = (r.verdict t, s) := by
  unfold answer
  split
  next held => exact absurd held notHeld
  next => rfl

/-- HELD is answered HELD or NOROOM (R63), as the listen table has room or not. -/
theorem answer_of_held (z : Nat) {t : Terms} {r : ZoneRecord} (s : State) (held : r.verdict t = .held) :
    answer z t r s = if s.canListen t.tag then (.held, reserve z t s) else (.noroom, s) := by
  simp only [answer, held]

/-- A refusal by the reservation or the active set is answered by the rule of R62, with the state unchanged. -/
theorem answer_of_refusal (z : Nat) {t : Terms} {r : ZoneRecord} (s : State)
    (refusal : r.bid t.level = .busy ∨ r.bid t.level = .full ∨ r.bid t.level = .lower)
    (new : t.tag ∉ r.tags) (passes : t.level < r.floor) :
    answer z t r s =
      (if t.wait = true ∧ t.mode = .any ∧ r.waiting.length < 4 then .waiting else r.bid t.level, s) := by
  have written := (ZoneRecord.verdict_of_passes new passes).trans (r.converted_of_refusal t.mode t.wait refusal)
  have notHeld : r.verdict t ≠ .held := by
    rw [written]
    split
    · decide
    · exact ne_held_of_refusal refusal
  rw [answer_of_ne_held z s notHeld, written]

/-- A claim answered WAITING has WAITING as its verdict, since HELD is answered HELD or NOROOM. -/
theorem verdict_of_answer_waiting {z : Nat} {t : Terms} {r : ZoneRecord} {s : State}
    (waits : (answer z t r s).1 = .waiting) : r.verdict t = .waiting := by
  by_cases held : r.verdict t = .held
  · rw [answer_of_held z s held] at waits
    split at waits <;> cases waits
  · rwa [answer_of_ne_held z s held] at waits

/-- An answer of WAITING records nothing, and is given to an ANY claim with the wait flag alone (R62). -/
theorem answer_eq_waiting {z : Nat} {t : Terms} {r : ZoneRecord} {s : State} (waits : (answer z t r s).1 = .waiting) :
    (answer z t r s).2 = s ∧ t.mode = .any ∧ t.wait = true := by
  have verdict := verdict_of_answer_waiting waits
  have notHeld : r.verdict t ≠ .held := by
    rw [verdict]
    decide
  exact ⟨congrArg Prod.snd (answer_of_ne_held z s notHeld), ZoneRecord.verdict_eq_waiting verdict⟩

/-- A WAITING entry whose level passes the floor meets the tests for room and for a listen place (R70). -/
theorem commitWaiting_of_passes (z : Nat) {t : Terms} {r : ZoneRecord} (s : State) (passes : t.level < r.floor) :
    commitWaiting z t r s =
      if waitCapacity ≤ r.waiting.length then (.full, s)
      else if !s.canListen t.tag then (.noroom, s)
      else
        let s := settle z (some t.tag) (!r.active.isEmpty) (joinWaiting z t s)
        (if (s.zone z).any (·.isActive t.tag) then .taken else .queued, s) := by
  rw [commitWaiting, ZoneRecord.passes_of_lt passes]
  rfl

/-- The second test of a WAITING entry: four waiters (R70). -/
theorem commitWaiting_of_full (z : Nat) {t : Terms} {r : ZoneRecord} (s : State) (passes : t.level < r.floor)
    (full : 4 ≤ r.waiting.length) : commitWaiting z t r s = (.full, s) := by
  exact (commitWaiting_of_passes z s passes).trans (if_pos full)

/-- The third test of a WAITING entry: no listen entry of its tag and none free (R70). -/
theorem commitWaiting_of_noroom (z : Nat) {t : Terms} {r : ZoneRecord} {s : State} (passes : t.level < r.floor)
    (room : r.waiting.length < 4) (noPlace : s.canListen t.tag = false) : commitWaiting z t r s = (.noroom, s) := by
  have notFull : ¬ waitCapacity ≤ r.waiting.length := Nat.not_le.mpr room
  rw [commitWaiting_of_passes z s passes, if_neg notFull, noPlace]
  rfl

/-- Settles O22: the answer to a refusal, what an answer of WAITING says of its claim, and the two tests made again at the
COMMIT. -/
theorem waitingIsWrittenForRefusals : Obligations.WaitingIsWrittenForRefusals := fun z _ _ s =>
  ⟨answer_of_refusal z s, answer_eq_waiting, commitWaiting_of_full z s, commitWaiting_of_noroom z⟩

end Sys2Proof.Machine
end

section
/-! SUPPORT. The Control Port's guards (R163, R165), the form of an answer with data (R163, R193), and the two commands that
read the station's state and its peer table (R166, R170). -/

namespace Sys2Proof.Machine

/-! The guards -/

/-- With RSTN high a command acts, whatever the mode. -/
theorem whenListening_of_high {act : State → State} {s : State} (high : s.rstnLow = false) :
    whenListening act s = act s := by
  simp [whenListening, high]

/-- With RSTN high a command that asks for a ring state acts in one. -/
theorem whenMember_of_isMember {act : State → State} {s : State} (high : s.rstnLow = false) (member : s.isMember = true) :
    whenMember act s = act s := by
  rw [whenMember, whenListening_of_high high, if_pos member]

/-- An answer with data is the OK byte and the data, and changes the response alone. -/
theorem answerData_eq (data : List Byte) (s : State) :
    answerData data s = { s with cp := { s.cp with response := 0 :: data } } := rfl

/-! STATUS -/

theorem exec_status (s : State) : exec .status s = .next (statusCommand s) := rfl

/-- The data of STATUS, byte by byte, about the bytes that give the ring state and the fault code. -/
theorem State.statusBytes_eq {s : State} {ring fault : Byte} (ringByte : s.ringState.code = ring)
    (loadByte : faultByte s.cl.faultCode = fault) :
    s.statusBytes =
      [ring, BitVec.ofNat 8 s.address, BitVec.ofNat 8 s.windowFirst, BitVec.ofNat 8 s.windowLast, fault,
        (BitVec.ofNat 16 s.rp.checkErrors).extractLsb' 8 8, (BitVec.ofNat 16 s.rp.checkErrors).extractLsb' 0 8,
        (BitVec.ofNat 16 s.rp.overruns).extractLsb' 8 8, (BitVec.ofNat 16 s.rp.overruns).extractLsb' 0 8,
        if s.cp.overflow then 1 else 0, BitVec.ofNat 8 s.cp.notices.length] := by
  rw [State.statusBytes, ringByte, loadByte]
  rfl

/-- STATUS takes its data from the state before it clears the counters and the overflow flag. -/
theorem statusCommand_of_high {s : State} (high : s.rstnLow = false) :
    statusCommand s =
      { s with
        rp := { s.rp with checkErrors := 0, overruns := 0 }
        cp := { s.cp with overflow := false, response := 0 :: s.statusBytes } } := by
  rw [statusCommand, whenListening_of_high high, answerData_eq]

/-- Settles O49: the guard asks for no ring state, and of the bytes only the ring state's and the fault code's need a case
each. -/
theorem statusReadsAndClears : Obligations.StatusReadsAndClears := by
  intro s high
  rw [exec_status, statusCommand_of_high high, State.statusBytes_eq ?ringByte ?loadByte]
  case ringByte =>
    cases s.ringState with
    | loading | passive | joining | up | broken => rfl
  case loadByte =>
    cases s.cl.faultCode with
    | none => rfl
    | some f =>
      cases f with
      | noMemory | badImage | badSum | badChain | noStation | badField => rfl

/-! PEERS -/

theorem exec_peers (s : State) : exec .peers s = .next (peersCommand s) := rfl

/-- The data of PEERS: the number of entries and each entry's four bytes, in the table's order. -/
theorem countedBytes_peers (peers : List Peer) :
    countedBytes Peer.bytes peers = BitVec.ofNat 8 peers.length :: peers.flatMap fun p =>
      [BitVec.ofNat 8 p.address, BitVec.ofNat 8 p.first, BitVec.ofNat 8 p.last, if p.joining then 1 else 0] := rfl

theorem peersCommand_of_isMember {s : State} (high : s.rstnLow = false) (member : s.isMember = true) :
    peersCommand s = { s with cp := { s.cp with response := 0 :: countedBytes Peer.bytes s.pu.peers } } := by
  rw [peersCommand, whenMember_of_isMember high member, answerData_eq]

/-- Settles O52: in the ring states the command acts, and its answer is the counted table and no other change. -/
theorem peersReadsTheTable : Obligations.PeersReadsTheTable := by
  intro s high member
  rw [exec_peers, peersCommand_of_isMember high member, countedBytes_peers]
  rfl

end Sys2Proof.Machine
end


section
/-! SUPPORT. Every command answers a next state; what the guards of the Control Port, an issue and an arrival can come to; and
the operations that only speak: to the ring, to the host, and about the ring's peers. -/

namespace Sys2Proof.Machine

/-! Commands -/

/-- The state a command leaves. -/
def after (c : Instr) (s : State) : State :=
  match exec c s with
  | .next t => t
  | .fault _ => s
  | .refused _ => s

/-- No command faults or is refused. -/
theorem exec_eq_after (c : Instr) (s : State) : exec c s = .next (after c s) := by cases c <;> rfl

theorem eq_after {c : Instr} {s t : State} (h : exec c s = .next t) : t = after c s :=
  Host.Outcome.next.inj (h.symm.trans (exec_eq_after c s))

/-! Guards, as what holds of a guarded act when it holds of each thing the guard can come to -/

section Guards
variable {R : State → Prop} {s : State}

theorem whenListening_of {act : State → State} (low : R s) (acts : s.rstnLow = false → R (act s)) :
    R (whenListening act s) := by
  unfold whenListening
  cases high : s.rstnLow with
  | true => exact low
  | false => exact acts high

theorem whenMember_of {act : State → State} (low : R s) (passive : R (answerCode .passive s))
    (acts : s.rstnLow = false → s.isMember = true → R (act s)) : R (whenMember act s) := by
  refine whenListening_of low fun high => ?_
  split
  · exact acts high ‹_›
  · exact passive

theorem onOwnZone_of {zone : Byte} {act : Nat → State → State} (low : R s) (refused : ∀ code, R (answerCode code s))
    (acts : s.rstnLow = false → s.isMember = true → s.owns zone.toNat = true → R (act zone.toNat s)) :
    R (onOwnZone zone act s) := by
  refine whenMember_of low (refused _) fun high member => ?_
  split
  · exact acts high member ‹_›
  · exact refused _

end Guards

/-! Issues (R89, R90) -/

theorem findIdx_free {l : List Slot} {n : Nat} (h : (l.findIdx? fun k => k.state == .free) = some n) :
    ∃ k, l[n]? = some k ∧ k.state = .free ∧ ∀ m < n, ∀ q, l[m]? = some q → q.state ≠ .free := by
  obtain ⟨inside, free, before⟩ := List.findIdx?_eq_some_iff_getElem.mp h
  refine ⟨l[n], List.getElem?_eq_getElem inside, by simpa using free, fun m less q at_m => ?_⟩
  obtain ⟨inside', rfl⟩ := List.getElem?_eq_some_iff.mp at_m
  simpa using before m less

/-- An issue is refused with the state unchanged, or accepted in a FREE slot at a full member. -/
theorem issue_cases (issuer : Issuer) (d : ClaimDesc) (s : State) :
    (∃ code, issue issuer d s = (.refused code, s)) ∨
    ∃ n k, s.slot n = some k ∧ k.state = .free ∧ s.isMember = true ∧ descValid d = true ∧
      (s.classOf d = .ofRing → s.rp.control.length < controlCapacity) ∧
      issue issuer d s = (.accepted n ((k.generation + 1) % 16), runIssue n k (issueInfo issuer (s.classOf d) d) s) := by
  by_cases valid : descValid d = true
  case neg => exact .inl ⟨.badArgs, by simp [issue, valid]⟩
  cases refusal : stateRefusal s.ringState (s.classOf d) with
  | some code => exact .inl ⟨code, by simp [issue, valid, refusal]⟩
  | none =>
    have member : s.isMember = true := by
      unfold State.isMember
      cases ring : s.ringState with
      | loading | passive => simp [ring, stateRefusal] at refusal
      | joining | up | broken => rfl
    cases free : s.freeSlotNumber with
    | none => exact .inl ⟨.noSlot, by simp [issue, valid, refusal, free]⟩
    | some n =>
      obtain ⟨k, at_n, isFree, -⟩ := findIdx_free free
      by_cases full : s.classOf d = .ofRing ∧ controlCapacity ≤ s.rp.control.length
      · exact .inl ⟨.queueFull, by simp only [issue, valid, refusal, free, State.slot, at_n, if_pos full]; rfl⟩
      · refine .inr ⟨n, k, at_n, isFree, member, valid, fun ring => by simp only [ring, true_and] at full; omega, ?_⟩
        simp only [issue, valid, refusal, free, State.slot, at_n, if_neg full]
        rfl

/-! Arrivals (R15 to R21) -/

/-- What holds of an arrival when it holds of each thing it can come to. -/
theorem arriveFrame_of {R : State → Prop} {bytes : List Byte} {cutShort : Bool} {s : State} (same : R s)
    (bad : R (countCheckError s)) (overrun : R (countOverrun s))
    (own : ∀ f : Frame, s.isMember = true → R (returnOwn f s))
    (carried : ∀ f : Frame, s.rp.forward.length < forwardCapacity → R (passOn f s))
    (peer : ∀ (f : Frame) (m : Message), s.isMember = true → s.rp.forward.length < forwardCapacity →
      f.origin.toNat ≠ s.address → f.dispatched = some m → R (passOn (dispatch f m s).1 (dispatch f m s).2)) :
    R (arriveFrame bytes cutShort s) := by
  have carries : ∀ (f : Frame) (take : Frame → State → State),
      (s.rp.forward.length < forwardCapacity → R (take f s)) → R (carry take f s) := by
    intro f take room
    unfold carry
    split
    · exact same
    · split
      · exact overrun
      · exact room (by omega)
  unfold arriveFrame
  split
  · exact same
  · split
    · exact bad
    · rename_i f _
      unfold takeGoodFrame
      split
      · rename_i member
        split
        · exact own f member
        · rename_i other
          refine carries f _ fun room => ?_
          unfold takePeerFrame
          split
          · exact carried f room
          · rename_i m taken
            exact peer f m member room other taken
      · exact carries f _ (carried f)

/-- A peer frame is dispatched for the message it carries, with its origin in range (R16). -/
theorem Frame.dispatched_eq_some {f : Frame} {m : Message} (h : f.dispatched = some m) :
    1 ≤ f.origin.toNat ∧ f.origin.toNat ≤ 32 ∧ f.message = some m := by
  unfold Frame.dispatched at h
  split at h
  · rename_i range
    exact ⟨range.1, range.2, h⟩
  · cases h

/-! Operations that only speak -/

/-- An operation on the Ring Port, the Presence Unit, the Control Port and the cleanup requests alone. -/
structure Talks (s t : State) : Prop where
  pending : t.pending = s.pending
  rstnLow : t.rstnLow = s.rstnLow
  keyInputs : t.keyInputs = s.keyInputs
  config : t.config = s.config
  za : t.za = s.za
  cu : t.cu = s.cu
  lu : t.lu = s.lu
  ss : t.ss = s.ss
  me : t.me = s.me
  ku : t.ku = s.ku
  cl : t.cl = s.cl

namespace Talks

theorem refl (s : State) : Talks s s := ⟨rfl, rfl, rfl, rfl, rfl, rfl, rfl, rfl, rfl, rfl, rfl⟩

theorem trans {s t u : State} (h : Talks s t) (k : Talks t u) : Talks s u :=
  ⟨k.pending.trans h.pending, k.rstnLow.trans h.rstnLow, k.keyInputs.trans h.keyInputs, k.config.trans h.config,
    k.za.trans h.za, k.cu.trans h.cu, k.lu.trans h.lu, k.ss.trans h.ss, k.me.trans h.me, k.ku.trans h.ku,
    k.cl.trans h.cl⟩

end Talks

theorem talks_ring (s : State) (rp : RingPort) (pu : PresenceUnit) (cp : ControlPort) (cleanups : List CleanupRequest) :
    Talks s { s with rp := rp, pu := pu, cp := cp, cleanups := cleanups } :=
  ⟨rfl, rfl, rfl, rfl, rfl, rfl, rfl, rfl, rfl, rfl, rfl⟩

theorem post_talks (n : HostNotice) (s : State) : Talks s (post n s) := by constructor <;> simp

theorem respond_talks (b : List Byte) (s : State) : Talks s (respond b s) := talks_ring s _ _ _ _

theorem answerCode_talks (code : ResultCode) (s : State) : Talks s (answerCode code s) := respond_talks _ s

theorem answerData_talks (data : List Byte) (s : State) : Talks s (answerData data s) := respond_talks _ s

theorem passOn_talks (f : Frame) (s : State) : Talks s (passOn f s) := talks_ring s _ _ _ _

theorem countCheckError_talks (s : State) : Talks s (countCheckError s) := talks_ring s _ _ _ _

theorem countOverrun_talks (s : State) : Talks s (countOverrun s) := talks_ring s _ _ _ _

theorem freeLine_talks (s : State) : Talks s (freeLine s) := talks_ring s _ _ _ _

theorem takeRequest_talks (side : CleanupSide) (peer : Nat) (cause : CleanupCause) (s : State) :
    Talks s (takeRequest side peer cause s) := talks_ring s _ _ _ _

theorem startCleanup_talks (peer : Nat) (cause : CleanupCause) (s : State) : Talks s (startCleanup peer cause s) :=
  talks_ring s _ _ _ _

theorem missReturn_talks (s : State) : Talks s (missReturn s) := by
  unfold missReturn
  split
  · exact (talks_ring s _ _ _ _).trans (post_talks _ _)
  · exact talks_ring s _ _ _ _

theorem sendPresence_talks (s : State) : Talks s (sendPresence s) := by
  have given : Talks s (giveUpPresence s) := by
    unfold giveUpPresence
    split
    · exact missReturn_talks s
    · exact Talks.refl s
  refine given.trans ?_
  rw [sendPresence, storePresence]
  split
  · exact talks_ring _ _ _ _ _
  · exact Talks.refl _

theorem startPeriod_talks (s : State) : Talks s (startPeriod s) := talks_ring s _ _ _ _

theorem enterJoining_talks (s : State) : Talks s (enterJoining s) :=
  (talks_ring s _ _ _ _).trans ((sendPresence_talks _).trans (startPeriod_talks _))

theorem periodExpiry_talks (s : State) : Talks s (periodExpiry s) := by
  unfold periodExpiry
  split
  · exact (sendPresence_talks s).trans (startPeriod_talks _)
  · exact Talks.refl s

theorem presenceSent_talks (sequence : Nat) (s : State) : Talks s (presenceSent sequence s) := by
  unfold presenceSent
  split
  · exact talks_ring s _ _ _ _
  · exact Talks.refl s

theorem presenceReturnExpiry_talks (s : State) : Talks s (presenceReturnExpiry s) := by
  unfold presenceReturnExpiry
  split
  · exact missReturn_talks s
  · exact Talks.refl s

theorem presenceReturned_talks (sequence first last : Nat) (s : State) : Talks s (presenceReturned sequence first last s) := by
  unfold presenceReturned
  split
  · unfold proveRing
    simp only
    split
    · exact talks_ring s _ _ _ _
    · exact (talks_ring s _ _ _ _).trans (post_talks _ _)
  · split
    · unfold reportClash
      split
      · exact Talks.refl s
      · exact (talks_ring s _ _ _ _).trans (post_talks _ _)
    · exact Talks.refl s

theorem testOverlap_talks (peer first last : Nat) (s : State) : Talks s (testOverlap peer first last s) := by
  unfold testOverlap
  split
  · exact post_talks _ s
  · exact Talks.refl s

/-- The peer table with one peer's entry renewed (R45). -/
def renewPeer (a : Nat) (joining : Bool) (first last : Nat) (s : State) : State :=
  { s with pu := { s.pu with
    peers := s.pu.peers.map fun q => if q.address = a then q.heard s.peerAge joining first last else q } }

/-- The overlap test of a peer's window, made where the window has changed (R45). -/
def testChange (p : Peer) (first last : Nat) (s : State) : State :=
  if p.first = first ∧ p.last = last then s else testOverlap p.address first last s

/-- A known peer's PRESENCE (R45): its entry renewed, a changed window tested, a restart posted and cleaned up. -/
theorem hearPeer_eq (p : Peer) (joining : Bool) (first last : Nat) (s : State) :
    hearPeer p joining first last s =
      if joining && !p.joining then
        startCleanup p.address .restarted
          (post (.peerRestarted p.address) (testChange p first last (renewPeer p.address joining first last s)))
      else testChange p first last (renewPeer p.address joining first last s) := rfl

theorem testChange_talks (p : Peer) (first last : Nat) (s : State) : Talks s (testChange p first last s) := by
  unfold testChange
  split
  · exact Talks.refl s
  · exact testOverlap_talks _ _ _ s

theorem presenceFromPeer_talks (a : Nat) (joining : Bool) (first last : Nat) (s : State) :
    Talks s (presenceFromPeer a joining first last s) := by
  unfold presenceFromPeer
  split
  · exact (talks_ring s _ _ _ _).trans ((post_talks _ _).trans (testOverlap_talks a first last _))
  · rename_i p _
    have heard : Talks s (testChange p first last (renewPeer p.address joining first last s)) :=
      (talks_ring s _ _ _ _).trans (testChange_talks p first last _)
    rw [hearPeer_eq]
    split
    · exact heard.trans ((post_talks _ _).trans (startCleanup_talks _ _ _))
    · exact heard

theorem ageExpiry_talks (a : Nat) (s : State) : Talks s (ageExpiry a s) := by
  unfold ageExpiry
  split
  · exact (talks_ring s _ _ _ _).trans ((post_talks _ _).trans (startCleanup_talks _ _ _))
  · exact Talks.refl s

theorem statusCommand_talks (s : State) : Talks s (statusCommand s) :=
  whenListening_of (Talks.refl s) fun _ => talks_ring s _ _ _ _

theorem claimStatusCommand_talks (slot : Nat) (s : State) : Talks s (claimStatusCommand slot s) := by
  refine whenMember_of (Talks.refl s) (answerCode_talks _ s) fun _ _ => ?_
  split
  · exact answerCode_talks _ s
  · exact answerData_talks _ s

theorem zoneStatusCommand_talks (zone : Byte) (s : State) : Talks s (zoneStatusCommand zone s) := by
  refine onOwnZone_of (Talks.refl s) (fun _ => answerCode_talks _ s) fun _ _ _ => ?_
  split
  · exact answerCode_talks _ s
  · exact answerData_talks _ s

theorem noticeCommand_talks (s : State) : Talks s (noticeCommand s) := by
  refine whenListening_of (Talks.refl s) fun _ => ?_
  split
  · exact answerCode_talks _ s
  · exact talks_ring s _ _ _ _

theorem setMaskCommand_talks (masks : Option (List Bool)) (s : State) : Talks s (setMaskCommand masks s) := by
  refine whenListening_of (Talks.refl s) fun _ => ?_
  split
  · exact answerCode_talks _ s
  · exact talks_ring s _ _ _ _

theorem peersCommand_talks (s : State) : Talks s (peersCommand s) :=
  whenMember_of (Talks.refl s) (answerCode_talks _ s) fun _ _ => answerData_talks _ s

theorem unknownCommand_talks (s : State) : Talks s (unknownCommand s) :=
  whenListening_of (Talks.refl s) fun _ => answerCode_talks _ s

end Sys2Proof.Machine
end


section
/-! SUPPORT. The generations of the slots (R90): an issue advances that of the FREE slot it takes, and nothing else in a command
changes one. -/

namespace Sys2Proof.Machine

/-! Audio and strobes are quiet -/

variable {b : Bool}

/-- Samples join the buffer of an active entry alone, up to its capacity (R123, R124). -/
theorem arriveSamples_quiet (t : Tag) (samples : List Sample) (s : State) : Quiet b s (arriveSamples t samples s) := by
  refine listen_quiet rfl fun w => w.map (fun e _ within => ?_) fun e _ silent => ?_
  · split
    · unfold ListenEntry.arrive
      split
      · exact within
      · dsimp only
        split
        · exact List.length_take_le _ _
        · exact within
    · exact within
  · split
    · unfold ListenEntry.arrive
      split
      · exact silent
      · dsimp only
        split
        · rename_i active
          exact fun inactive => absurd (active.symm.trans inactive) (by decide)
        · exact silent
    · exact silent

theorem sendBlockToSlot_quiet (p : Nat) (block : List Sample) (n : Nat) (s : State) :
    Quiet b s (sendBlockToSlot p block n s) := by
  unfold sendBlockToSlot
  split
  · exact Quiet.refl b s
  · rename_i k _
    split
    · have sent : Quiet b s
          (if k.info.any fun i => i.cls == .ofRing then storeAudio (.audio (byteOf n) (byteOf k.generation) block) s else s) := by
        split
        · exact storeAudio_quiet _ s
        · exact Quiet.refl b s
      unfold sendBlockFor
      simp only
      split
      · exact sent.trans (arriveSamples_quiet _ _ _)
      · exact sent
    · exact Quiet.refl b s

theorem sendPort_quiet (p : Nat) (s : State) : Quiet b s (sendPort p s) := forEach_quiet (sendBlockToSlot_quiet p _) _ s

theorem setFloor_settle_quiet (z : Nat) (floor : Nat) (w : Bool) (s : State) :
    Quiet b (updateZone z (fun r => { r with floor := floor }) s)
      (settle z none w (post (.zoneFloor z floor) (updateZone z (fun r => { r with floor := floor }) s))) :=
  (post_quiet _ _).trans (settle_quiet z none _ _)

/-- An own frame that has come back only speaks, or is quiet (R17). -/
theorem returnOwn_cases (f : Frame) (s : State) : Talks s (returnOwn f s) ∨ Quiet false s (returnOwn f s) := by
  unfold returnOwn
  split
  · exact .inl (presenceReturned_talks _ _ _ s)
  · exact .inr (claimReturned_quiet _ s)
  · exact .inr (commitReturned_quiet _ s)
  all_goals exact .inl (Talks.refl s)

theorem noticeArrived_quiet (sender : Nat) (slot generation zone event reason : Byte) (s : State) :
    Quiet b s (noticeArrived sender slot generation zone event reason s) := by
  unfold noticeArrived
  split
  · exact applyNotice_quiet _ _ _ _ _ s
  · exact Quiet.refl b s

/-- A frame dispatched to its unit only speaks, as a PRESENCE, or is quiet (R19). -/
theorem dispatch_cases (f : Frame) (m : Message) (s : State) :
    (∃ sequence flags first last, m = .presence sequence flags first last ∧ (dispatch f m s).2 =
      presenceFromPeer f.origin.toNat (flags.getLsbD 0) first.toNat last.toNat s) ∨ Quiet b s (dispatch f m s).2 := by
  cases m with
  | presence sequence flags first last => exact .inl ⟨_, _, _, _, rfl, rfl⟩
  | claim c => exact .inr (claimAtOwner_quiet _ c s)
  | commit c => exact .inr (commitAtOwner_quiet _ c s)
  | withdraw slot generation => exact .inr (endEverywhere_quiet _ _ s)
  | notice slot generation zone event reason =>
    simp only [dispatch]
    split
    · exact .inr (noticeArrived_quiet _ _ _ _ _ _ s)
    · exact .inr (Quiet.refl b s)
  | audio slot generation samples => exact .inr (arriveSamples_quiet _ _ s)

theorem reportSent_cases (f : Frame) (s : State) : Talks s (reportSent f s) ∨ Quiet b s (reportSent f s) := by
  unfold reportSent
  split
  · exact .inl (presenceSent_talks _ s)
  · exact .inr (claimSent_quiet _ _ _ s)
  · exact .inr (claimSent_quiet _ _ _ s)
  all_goals exact .inl (Talks.refl s)

/-! Generations -/

/-- The generations stand as they were. -/
def SameGenerations (s t : State) : Prop := t.cu.map (·.generation) = s.cu.map (·.generation)

theorem Talks.generations {s t : State} (h : Talks s t) : SameGenerations s t :=
  congrArg (List.map Slot.generation) h.cu

theorem SameGenerations.trans {s t u : State} (h : SameGenerations s t) (k : SameGenerations t u) : SameGenerations s u :=
  Eq.trans k h

/-- A slot's generation changes only as the slot is taken from FREE, and then by one modulo 16. -/
def Advances (s t : State) : Prop :=
  t.cu.length = s.cu.length ∧ ∀ n k q, s.slot n = some k → t.slot n = some q →
    q.generation = k.generation ∨ (k.state = .free ∧ q.generation = (k.generation + 1) % 16)

theorem SameGenerations.slot {s t : State} (h : SameGenerations s t) (n : Nat) :
    (t.slot n).map (·.generation) = (s.slot n).map (·.generation) := by
  simpa only [State.slot, List.getElem?_map] using congrArg (·[n]?) h

theorem SameGenerations.advances {s t : State} (h : SameGenerations s t) : Advances s t := by
  refine ⟨by simpa using congrArg List.length h, fun n k q at_s at_t => .inl ?_⟩
  simpa [at_s, at_t] using h.slot n

/-- What follows an advance and keeps the generations is part of it. -/
theorem Advances.then {s t u : State} (h : Advances s t) (k : SameGenerations t u) : Advances s u := by
  refine ⟨(by simpa using congrArg List.length k : u.cu.length = t.cu.length).trans h.1, fun n k' q at_s at_u => ?_⟩
  have same := k.slot n
  rw [at_u, Option.map_some, eq_comm, Option.map_eq_some_iff] at same
  obtain ⟨p, at_t, same⟩ := same
  rw [← same]
  exact h.2 n k' p at_s at_t

/-- A FREE slot taken by an issue. -/
theorem updateSlot_taken_advances {n : Nat} {k : Slot} (i : ClaimInfo) {s : State} (at_n : s.slot n = some k)
    (free : k.state = .free) : Advances s (updateSlot n (Slot.taken i) s) := by
  refine ⟨by simp, fun m k' q at_s at_t => ?_⟩
  simp only [State.slot, updateSlot_cu, List.getElem?_modify] at at_s at_t at_n
  by_cases here : n = m
  · subst here
    rw [at_n] at at_s at_t
    cases at_s
    simp only [if_true, Option.map_eq_map, Option.map_some, Option.some.injEq] at at_t
    exact .inr ⟨free, at_t ▸ rfl⟩
  · rw [at_s] at at_t
    simp only [here, if_false, Option.map_eq_map, Option.map_some, Option.some.injEq] at at_t
    exact .inl (at_t ▸ rfl)

theorem issue_advances (issuer : Issuer) (d : ClaimDesc) (s : State) : Advances s (issue issuer d s).2 := by
  rcases issue_cases issuer d s with ⟨code, refused⟩ | ⟨n, k, at_n, free, -, -, -, accepted⟩
  · rw [refused]
    exact SameGenerations.advances rfl
  · rw [accepted]
    exact (updateSlot_taken_advances _ at_n free).then (runIssue_quiet n k _ s).slots

theorem answerIssue_advances {issued : IssueResult × State} {s : State} (h : Advances s issued.2) :
    Advances s (answerIssue issued) := by
  unfold answerIssue
  split
  · exact h.then (answerData_talks _ _).generations
  · exact h.then (answerCode_talks _ _).generations

theorem endLoad_generations (memory : List Byte) (s : State) : SameGenerations s (endLoad memory s) := by
  unfold endLoad
  split
  · split
    · exact SameGenerations.trans (t := sampleKeys _) rfl (enterJoining_talks _).generations
    · exact SameGenerations.trans (t := { s with cl := _, pu := _ }) rfl (post_talks _ _).generations
  · rfl

theorem softReset_generations (s : State) : SameGenerations s (softReset s) := by
  unfold softReset
  split
  · split
    · refine SameGenerations.trans (t := clearedState _ s) ?_ (enterJoining_talks _).generations
      simp only [SameGenerations, clearedState, sampleKeys, takeZones, List.map_map]
      rfl
    · rfl
  · rfl

theorem forEach_post_talks : ∀ (notices : List HostNotice) (s : State), Talks s (forEach notices post s)
  | [], s => Talks.refl s
  | n :: rest, s => (post_talks n s).trans (forEach_post_talks rest (post n s))

theorem mixStrobe_generations (s : State) : SameGenerations s (mixStrobe s) := by
  unfold mixStrobe
  split
  · exact SameGenerations.trans (t := { s with lu := _, me := _ }) rfl (forEach_post_talks _ _).generations
  · rfl

theorem sendPorts_quiet (s : State) : Quiet b s (forEach [0, 1, 2, 3] sendPort s) := forEach_quiet sendPort_quiet _ s

/-- The blocks complete: every port's block sent, and the buffers emptied (R139). -/
theorem completeBlocks_quiet (s : State) : Quiet b { s with ss := [[], [], [], []] } (completeBlocks s) := by
  have sent := sendPorts_quiet (b := b) s
  unfold completeBlocks
  generalize forEach [0, 1, 2, 3] sendPort s = t at sent
  exact { sent with ss := rfl }

theorem sendStrobe_generations (samples : List Sample) (s : State) : SameGenerations s (sendStrobe samples s) := by
  unfold sendStrobe
  simp only
  split
  · split
    · exact (completeBlocks_quiet (b := false) (readPorts samples s)).slots
    · rfl
  · rfl

theorem completeTransmission_generations (s : State) : SameGenerations s (completeTransmission s) := by
  unfold completeTransmission
  split
  · rfl
  · refine SameGenerations.trans ?_ (freeLine_talks _).generations
    split
    · rcases reportSent_cases (b := false) _ s with h | h
      · exact h.generations
      · exact h.slots
    · rfl

theorem arriveFrame_generations (bytes : List Byte) (cutShort : Bool) (s : State) :
    SameGenerations s (arriveFrame bytes cutShort s) := by
  refine arriveFrame_of rfl rfl rfl (fun f _ => ?_) (fun _ _ => rfl) fun f m _ _ _ _ => ?_
  · rcases returnOwn_cases f s with h | h
    · exact h.generations
    · exact h.slots
  · refine SameGenerations.trans ?_ (passOn_talks _ _).generations
    rcases dispatch_cases (b := false) f m s with ⟨_, _, _, _, -, h⟩ | h
    · rw [h]
      exact (presenceFromPeer_talks _ _ _ _ s).generations
    · exact h.slots

/-- A debounce expiry issues or ends at most one claim (R157 to R159). -/
theorem debounceExpiry_advances (n : Nat) (s : State) : Advances s (debounceExpiry n s) := by
  have keep : ∀ f : Key → Key, Advances s (updateKey n f s) := fun f => SameGenerations.advances rfl
  have issues : ∀ (f : Key → Key) (b : KeyBinding) (d : ClaimDesc), Advances s (keyIssue n b d (updateKey n f s)) := by
    intro f b d
    have issued : Advances s (issue (.key n) d (updateKey n f s)).2 := issue_advances (.key n) d (updateKey n f s)
    unfold keyIssue
    simp only
    split
    · split
      · exact issued.then rfl
      · exact issued
    · exact issued.then (post_talks _ _).generations
  have ends : ∀ (f : Key → Key) (m : Nat × Nat), Advances s (keyEnd n m (updateKey n f s)) := fun f m =>
    (keep f).then (SameGenerations.trans (endRequest_quiet (b := false) m.1 m.2 _).slots rfl)
  unfold debounceExpiry
  split
  · exact SameGenerations.advances rfl
  · split
    · simp only
      split
      · exact keep _
      · unfold keyChanged
        split
        · unfold keyPress
          split
          · exact keep _
          · split
            · exact issues _ _ _
            · split
              · exact ends _ _
              · exact issues _ _ _
        · unfold keyRelease
          split
          · exact keep _
          · split
            · split
              · exact ends _ _
              · exact keep _
            · exact keep _
    · exact SameGenerations.advances rfl

/-- Every command but a power-on or RSTN reset advances generations as an issue does, or keeps them. -/
theorem after_advances {c : Instr} (notReset : c ≠ .rstnReset) (s : State) : Advances s (after c s) := by
  have same : ∀ {t : State}, SameGenerations s t → Advances s t := SameGenerations.advances
  cases c with
  | rstnReset => exact absurd rfl notReset
  | loadBegins =>
    refine same (?_ : SameGenerations s (beginLoad s))
    unfold beginLoad
    split <;> rfl
  | loadSucceeds memory => exact same (endLoad_generations memory s)
  | loadFails memory => exact same (endLoad_generations memory s)
  | frameArrival bytes cutShort => exact same (arriveFrame_generations bytes cutShort s)
  | transmissionCompletion => exact same (completeTransmission_generations s)
  | sampleStrobeSend s0 s1 s2 s3 => exact same (sendStrobe_generations _ s)
  | blockCompletion s0 s1 s2 s3 => exact same (sendStrobe_generations _ s)
  | sampleStrobeMix => exact same (mixStrobe_generations s)
  | meterWindowEnd => exact same (mixStrobe_generations s)
  | periodTimerExpiry => exact same (periodExpiry_talks s).generations
  | presenceReturnTimerExpiry => exact same (presenceReturnExpiry_talks s).generations
  | ageTimerExpiry peer => exact same (ageExpiry_talks peer s).generations
  | cleanupRequestAtOwner peer cause =>
    exact same (endEverywhere_quiet (b := false) _ _ (takeRequest .owner peer cause s)).slots
  | cleanupRequestAtOrigin peer cause =>
    exact same (cleanupAtOrigin_quiet (b := false) peer (takeRequest .origin peer cause s)).slots
  | holdTimerExpiry zone => exact same (dropReservation_quiet (b := false) zone _ s).slots
  | autoEndTimerExpiry zone tag => exact same (autoEndExpiryAt_quiet (b := false) zone tag s).slots
  | lapseTimerExpiry tag => exact same (lapseExpiry_quiet (b := false) tag s).slots
  | claimReturnTimerExpiry slot => exact same (returnExpiry_quiet (b := false) slot s).slots
  | durationTimerExpiry slot => exact same (durationExpiry_quiet (b := false) slot s).slots
  | keyInputChange key closed =>
    refine same (?_ : SameGenerations s (keyInput key closed s))
    unfold keyInput
    split <;> rfl
  | debounceTimerExpiry key => exact debounceExpiry_advances key s
  | status => exact same (statusCommand_talks s).generations
  | claim count places level mode wait gain duration port =>
    refine whenListening_of (same rfl) fun _ => ?_
    split
    · exact same (answerCode_talks _ s).generations
    · exact answerIssue_advances (issue_advances _ _ s)
  | claimPreset number =>
    refine whenListening_of (same rfl) fun _ => ?_
    split
    · exact same (answerCode_talks _ s).generations
    · split
      · exact same (answerCode_talks _ s).generations
      · exact answerIssue_advances (issue_advances _ _ s)
  | endClaim slot generation =>
    refine whenMember_of (same rfl) (same (answerCode_talks _ s).generations) fun _ _ => ?_
    split
    · exact (same (endRequest_quiet (b := false) _ _ s).slots).then (answerCode_talks _ _).generations
    · exact same (answerCode_talks _ s).generations
  | claimStatus slot => exact same (claimStatusCommand_talks _ s).generations
  | zoneStatus zone => exact same (zoneStatusCommand_talks zone s).generations
  | setFloor zone floor =>
    refine onOwnZone_of (same rfl) (fun _ => same (answerCode_talks _ s).generations) fun _ _ _ => ?_
    split
    · exact (same (setFloor_settle_quiet (b := false) _ _ _ s).slots).then (answerCode_talks _ _).generations
    · exact same (answerCode_talks _ s).generations
  | setTrim zone trim =>
    refine onOwnZone_of (same rfl) (fun _ => same (answerCode_talks _ s).generations) fun _ _ _ => ?_
    split <;> exact same rfl
  | clearZone zone =>
    refine onOwnZone_of (same rfl) (fun _ => same (answerCode_talks _ s).generations) fun _ _ _ => ?_
    exact (same (endWhere_quiet (b := false) _ _ _ s).slots).then (answerCode_talks _ _).generations
  | meter zone =>
    refine onOwnZone_of (same rfl) (fun _ => same (answerCode_talks _ s).generations) fun _ _ _ => ?_
    split <;> exact same rfl
  | notice => exact same (noticeCommand_talks s).generations
  | setMask m0 m1 m2 m3 => exact same (setMaskCommand_talks _ s).generations
  | peers => exact same (peersCommand_talks s).generations
  | reset =>
    exact whenListening_of (same rfl) fun _ => (same (softReset_generations s)).then (answerCode_talks _ _).generations
  | badCommand command => exact same (unknownCommand_talks s).generations
  | transactionCutShort clocked => exact same rfl

/-- Settles O40: a command takes at most one slot, from FREE, in its issue, and nothing before or after it in the command changes
a generation. -/
theorem generationsAdvanceOnlyFromFree : Obligations.GenerationsAdvanceOnlyFromFree := by
  intro c s t notReset next
  rw [eq_after next]
  exact after_advances notReset s

end Sys2Proof.Machine
end


section
/-! SUPPORT. The configuration image: the ranges of the fields a load takes (R182 to R185). -/

namespace Sys2Proof.Machine

/-! Fields -/

theorem plainField_eq_some {low high value x : Nat} (h : plainField low high value = some x) : low ≤ x ∧ x ≤ high := by
  obtain ⟨range, same⟩ := Option.ite_none_right_eq_some.mp h
  exact Option.some.inj same ▸ range

/-- A field with a default lies in its range when the default does. -/
theorem rangedField_eq_some {low high default value x : Nat} (inRange : low ≤ default ∧ default ≤ high)
    (h : rangedField low high default value = some x) : low ≤ x ∧ x ≤ high := by
  unfold rangedField at h
  split at h
  case isTrue range => exact Option.some.inj h ▸ range
  case isFalse =>
    obtain ⟨-, same⟩ := Option.ite_none_right_eq_some.mp h
    exact Option.some.inj same ▸ inRange

theorem tensField_eq_some {low high default value x : Nat} (inRange : low ≤ default ∧ default ≤ high)
    (tens : default % 10 = 0) (h : tensField low high default value = some x) : low ≤ x ∧ x ≤ high ∧ x % 10 = 0 := by
  obtain ⟨tensValue, ranged⟩ := Option.ite_none_right_eq_some.mp h
  have range := rangedField_eq_some inRange ranged
  refine ⟨range.1, range.2, ?_⟩
  unfold rangedField at ranged
  split at ranged
  case isTrue => exact Option.some.inj ranged ▸ tensValue
  case isFalse =>
    obtain ⟨-, same⟩ := Option.ite_none_right_eq_some.mp ranged
    exact Option.some.inj same ▸ tens

theorem byteAt_le (bytes : List Byte) (i : Nat) : byteAt bytes i ≤ 255 := by
  have := (bytes.getD i 0).isLt
  unfold byteAt
  omega

/-! Blocks -/

theorem stationOf_inRange {body : List Byte} {c : StationConfig} (h : stationOf body = some c) : StationInRange c := by
  unfold stationOf at h
  split at h
  · cases h
  · simp only [Option.bind_eq_bind, Option.bind_eq_some_iff] at h
    obtain ⟨address, h1, period, h2, timeout, h3, hold, h4, lapse, h5, fill, h6, block, h7, window, h8, lines, h9,
      vector, h10, h⟩ := h
    cases h
    exact ⟨plainField_eq_some h1, tensField_eq_some (by decide) (by decide) h2, rangedField_eq_some (by decide) h3,
      rangedField_eq_some (by decide) h4, tensField_eq_some (by decide) (by decide) h5,
      rangedField_eq_some (by decide) h6, rangedField_eq_some (by decide) h7, rangedField_eq_some (by decide) h8,
      byteAt_le _ _, (plainField_eq_some h9).2, (plainField_eq_some h10).2⟩

theorem zoneEntriesOf_inRange : ∀ {bytes : List Byte} {zones : List ZoneConfig}, zoneEntriesOf bytes = some zones →
    bytes.length = 3 * zones.length ∧ ∀ z ∈ zones, zoneInRange z
  | [], zones, h => by
    cases h
    exact ⟨rfl, by simp⟩
  | [_], _, h | [_, _], _, h => by cases h
  | policy :: floor :: trim :: rest, zones, h => by
    simp only [zoneEntriesOf, Option.bind_eq_bind, Option.bind_eq_some_iff] at h
    obtain ⟨p, -, f, hf, t, ht, more, hmore, h⟩ := h
    cases h
    obtain ⟨length, inRange⟩ := zoneEntriesOf_inRange hmore
    refine ⟨by simp only [List.length_cons]; omega, fun z mem => ?_⟩
    rcases List.mem_cons.mp mem with rfl | mem
    · exact ⟨(rangedField_eq_some (by decide) hf).1, (rangedField_eq_some (by decide) hf).2, (plainField_eq_some ht).2⟩
    · exact inRange z mem

/-- A ZONES block gives one entry in its ranges for each of at most eight zones of its window (R183). -/
theorem zonesOf_inRange {body : List Byte} {first last : Nat} {zones : List ZoneConfig}
    (h : zonesOf body = some (first, last, zones)) :
    (1 ≤ first ∧ first ≤ 240 ∧ 1 ≤ last ∧ last ≤ 240) ∧ zones.length = windowWidth first last ∧ zones.length ≤ 8 ∧
      ∀ z ∈ zones, zoneInRange z := by
  unfold zonesOf at h
  split at h
  · cases h
  · simp only [Option.bind_eq_bind, Option.bind_eq_some_iff] at h
    obtain ⟨f, hf, l, hl, h⟩ := h
    split at h
    · cases h
    · rename_i whole
      obtain ⟨entries, hentries, h⟩ := Option.bind_eq_some_iff.mp h
      cases h
      obtain ⟨length, inRange⟩ := zoneEntriesOf_inRange hentries
      have inFirst := plainField_eq_some hf
      have inLast := plainField_eq_some hl
      rw [List.length_drop] at length
      have same : zones.length = windowWidth first last := by omega
      exact ⟨⟨inFirst.1, inFirst.2, inLast.1, inLast.2⟩, same, by omega, inRange⟩

/-- The presets of a list of preset entries are valid and have different numbers (R184). -/
structure PresetsValid (presets : List Preset) : Prop where
  each : ∀ p ∈ presets, p.number ≤ 7 ∧ descValid p.desc = true
  distinct : (presets.map (·.number)).Nodup

theorem presetsValid_nil : PresetsValid [] := ⟨by simp, by simp⟩

theorem presetEntriesOf_valid {bytes : List Byte} : ∀ {presets : List Preset}, presetEntriesOf bytes = some presets →
    PresetsValid presets := by
  induction bytes using presetEntriesOf.induct with
  | case1 =>
    intro presets h
    cases h
    exact presetsValid_nil
  | case2 number n p0 p1 p2 p3 p4 p5 p6 p7 level mode wait g1 g0 d1 d0 port rest ih =>
    intro presets h
    simp only [presetEntriesOf, Option.bind_eq_bind, Option.bind_eq_some_iff] at h
    obtain ⟨x, hx, desc, -, more, hmore, h⟩ := h
    split at h
    · cases h
    · rename_i new
      cases h
      obtain ⟨valid, new⟩ := not_or.mp new
      have rest := ih hmore
      refine ⟨fun p mem => ?_, List.nodup_cons.mpr ⟨fun mem => new ?_, rest.distinct⟩⟩
      · rcases List.mem_cons.mp mem with rfl | mem
        · exact ⟨(plainField_eq_some hx).2, by simpa using valid⟩
        · exact rest.each p mem
      · obtain ⟨q, mem, same⟩ := List.mem_map.mp mem
        exact List.any_eq_true.mpr ⟨q, mem, beq_iff_eq.mpr same⟩
  | case3 bytes notNil notEntry =>
    intro presets h
    unfold presetEntriesOf at h
    split at h
    · exact absurd rfl notNil
    · exact absurd rfl (notEntry _ _ _ _ _ _ _ _ _ _ _ _ _ _ _ _ _ _ _)
    · cases h

theorem presetsOf_valid {body : List Byte} {presets : List Preset} (h : presetsOf body = some presets) :
    PresetsValid presets := by
  unfold presetsOf at h
  split at h
  · cases h
  · split at h
    · cases h
    · exact presetEntriesOf_valid h

theorem bindingOf_inRange {action number : Nat} {b : KeyBinding} (h : bindingOf action number = some (some b)) :
    b.preset ≤ 7 := by
  unfold bindingOf at h
  split at h
  · cases h
  · obtain ⟨range, same⟩ := Option.ite_none_right_eq_some.mp h
    cases same
    exact range
  · obtain ⟨range, same⟩ := Option.ite_none_right_eq_some.mp h
    cases same
    exact range
  · cases h

theorem keysOf_inRange {body : List Byte} {keys : List (Option KeyBinding)} (h : keysOf body = some keys) :
    keys.length = 4 ∧ ∀ b, some b ∈ keys → b.preset ≤ 7 := by
  unfold keysOf at h
  split at h
  · simp only [Option.bind_eq_bind, Option.bind_eq_some_iff] at h
    obtain ⟨k0, h0, k1, h1, k2, h2, k3, h3, h⟩ := h
    cases h
    refine ⟨rfl, fun b mem => ?_⟩
    simp only [List.mem_cons, List.not_mem_nil, or_false] at mem
    obtain rfl | rfl | rfl | rfl := mem
    · exact bindingOf_inRange h0
    · exact bindingOf_inRange h1
    · exact bindingOf_inRange h2
    · exact bindingOf_inRange h3
  · cases h

/-- The contents block by block, a missing block at the value the rules give it. -/
theorem contentsOf_eq (body : List Byte) (b : Blocks) :
    contentsOf body b =
      (stationOf body).bind fun station => (b.zones.elim (some (1, 0, [])) zonesOf).bind fun window =>
        (b.presets.elim (some []) presetsOf).bind fun presets =>
          (b.keys.elim (some [none, none, none, none]) keysOf).bind fun keys =>
            some { station, first := window.1, last := window.2.1, zones := window.2.2, presets, keys } := by
  unfold contentsOf
  cases b.zones <;> cases b.presets <;> cases b.keys <;> rfl

/-- The blocks' contents are in their ranges (R182 to R185). -/
theorem contentsOf_valid {body : List Byte} {blocks : Blocks} {c : Configuration} (h : contentsOf body blocks = some c) :
    ConfigValid c := by
  simp only [contentsOf_eq, Option.bind_eq_some_iff] at h
  obtain ⟨station, hstation, ⟨first, last, zones⟩, hzones, presets, hpresets, keys, hkeys, h⟩ := h
  cases h
  have window : ((first = 1 ∧ last = 0) ∨ (1 ≤ first ∧ first ≤ 240 ∧ 1 ≤ last ∧ last ≤ 240)) ∧
      zones.length = windowWidth first last ∧ zones.length ≤ 8 ∧ ∀ z ∈ zones, zoneInRange z := by
    cases present : blocks.zones <;> rw [present] at hzones
    · cases hzones
      exact ⟨.inl ⟨rfl, rfl⟩, rfl, by simp, by simp⟩
    · obtain ⟨bounds, rest⟩ := zonesOf_inRange hzones
      exact ⟨.inr bounds, rest⟩
  have valid : PresetsValid presets := by
    cases present : blocks.presets <;> rw [present] at hpresets
    · cases hpresets
      exact presetsValid_nil
    · exact presetsOf_valid hpresets
  have bound : keys.length = 4 ∧ ∀ b, some b ∈ keys → b.preset ≤ 7 := by
    cases present : blocks.keys <;> rw [present] at hkeys
    · cases hkeys
      exact ⟨rfl, by simp⟩
    · exact keysOf_inRange hkeys
  obtain ⟨bounds, width, eight, inRange⟩ := window
  exact ⟨stationOf_inRange hstation, bounds, ⟨width, eight⟩, inRange, valid.each, valid.distinct, bound.1, bound.2⟩

/-! Whole loads -/

/-- A load in the order of its checks: image, chain, STATION block, fields (R179 to R185). -/
theorem loadImage_eq_ok {memory : List Byte} {c : Configuration} (h : loadImage memory = .ok c) :
    ∃ image blocks body, readImage memory = .ok image ∧ walkChain image = .ok blocks ∧ blocks.station = some body ∧
      contentsOf body blocks = some c := by
  unfold loadImage at h
  split at h
  · cases h
  · rename_i image hread
    split at h
    · cases h
    · rename_i blocks hwalk
      split at h
      · cases h
      · rename_i body hstation
        split at h
        · cases h
        · rename_i c' hcontents
          cases h
          exact ⟨image, blocks, body, hread, hwalk, hstation, hcontents⟩

/-- Settles O8: a load that succeeds takes the contents of its blocks, and those are in range block by block. -/
theorem loadedConfigurationInRange : Obligations.LoadedConfigurationInRange := by
  intro memory c loaded
  obtain ⟨_, _, _, -, -, -, contents⟩ := loadImage_eq_ok loaded
  exact contentsOf_valid contents

end Sys2Proof.Machine
end


section
/-! SUPPORT. What every command but a reset, the ends of a load and a contact's change leaves alone, and the capacities it keeps:
one lemma per operation. -/

namespace Sys2Proof.Machine

/-- What a command that is no reset, no end of a load and no contact's change leaves alone, and the capacities it keeps. -/
structure Tame (s t : State) : Prop where
  pending : t.pending = s.pending
  rstnLow : t.rstnLow = s.rstnLow
  keyInputs : t.keyInputs = s.keyInputs
  config : t.config = s.config
  cl : t.cl = s.cl
  ring : s.pu.ringState.isMember = true → t.pu.ringState.isMember = true
  period : s.pu.period.isSome = true → t.pu.period.isSome = true
  zones : t.za.map (·.zone) = s.za.map (·.zone)
  mix : t.me.zones.map (·.zone) = s.me.zones.map (·.zone)
  ports : s.me.ports.length = 8 → t.me.ports.length = 8
  keys : t.ku.length = s.ku.length
  buffers : s.ss.length = 4 → t.ss.length = 4
  masks : s.cp.masks.length = 4 → t.cp.masks.length = 4
  bounded : s.Bounded → t.Bounded

theorem Tame.refl (s : State) : Tame s s := ⟨rfl, rfl, rfl, rfl, rfl, id, id, rfl, rfl, id, rfl, id, id, id⟩

theorem Tame.trans {s t u : State} (h : Tame s t) (k : Tame t u) : Tame s u :=
  ⟨k.pending.trans h.pending, k.rstnLow.trans h.rstnLow, k.keyInputs.trans h.keyInputs, k.config.trans h.config,
    k.cl.trans h.cl, k.ring ∘ h.ring, k.period ∘ h.period, k.zones.trans h.zones, k.mix.trans h.mix, k.ports ∘ h.ports,
    k.keys.trans h.keys, k.buffers ∘ h.buffers, k.masks ∘ h.masks, k.bounded ∘ h.bounded⟩

/-! Which state the capacities are about -/

theorem State.address_congr {s t : State} (config : t.config = s.config) : t.address = s.address := by
  unfold State.address
  rw [config]

/-- The tables' capacities are about the configuration, the Presence Unit and the trims. -/
theorem State.TablesWithin.congr {s t : State} (h : s.TablesWithin) (config : t.config = s.config) (pu : t.pu = s.pu)
    (me : t.me = s.me) : t.TablesWithin := by
  refine ⟨pu ▸ h.peers, pu ▸ h.order, fun p mem => ?_, pu ▸ h.sequence, pu ▸ h.recent, me ▸ h.trims⟩
  rw [State.address_congr config]
  exact h.addresses p (pu ▸ mem)

theorem Quiet.bounded {s t : State} (h : Quiet false s t) (within : s.Bounded) : t.Bounded :=
  ⟨h.port.within within.port, Nat.le_trans h.port.forward within.forward, h.port.checkErrors ▸ within.checkErrors,
    h.port.overruns ▸ within.overruns, h.notices within.notices, h.listen within.listen,
    within.tables.congr h.config h.pu h.me⟩

theorem Quiet.tame {s t : State} (h : Quiet false s t) : Tame s t := by
  have zones := congrArg (List.map Prod.fst) h.zones
  rw [List.map_map, List.map_map] at zones
  exact ⟨h.pending, h.rstnLow, h.keyInputs, h.config, h.cl, h.pu ▸ id, h.pu ▸ id, zones, by rw [h.me], h.me ▸ id,
    by simpa using congrArg List.length h.keys, h.ss ▸ id, h.masks ▸ id, h.bounded⟩

/-! Changes of one block -/

theorem tame_pu (s : State) (p : PresenceUnit) (ring : s.pu.ringState.isMember = true → p.ringState.isMember = true)
    (period : s.pu.period.isSome = true → p.period.isSome = true)
    (tables : s.TablesWithin → ({ s with pu := p } : State).TablesWithin) : Tame s { s with pu := p } :=
  ⟨rfl, rfl, rfl, rfl, rfl, ring, period, rfl, rfl, id, rfl, id, id,
    fun h => ⟨h.port, h.forward, h.checkErrors, h.overruns, h.notices, h.listen, tables h.tables⟩⟩

theorem tame_rp (s : State) (p : RingPort) (port : s.rp.Within false → p.Within false)
    (forward : s.rp.forward.length ≤ forwardCapacity → p.forward.length ≤ forwardCapacity)
    (checkErrors : s.rp.checkErrors ≤ counterMaximum → p.checkErrors ≤ counterMaximum)
    (overruns : s.rp.overruns ≤ counterMaximum → p.overruns ≤ counterMaximum) : Tame s { s with rp := p } :=
  ⟨rfl, rfl, rfl, rfl, rfl, id, id, rfl, rfl, id, rfl, id, id,
    fun h => ⟨port h.port, forward h.forward, checkErrors h.checkErrors, overruns h.overruns, h.notices, h.listen,
      h.tables.congr rfl rfl rfl⟩⟩

theorem tame_cp (s : State) (p : ControlPort) (masks : s.cp.masks.length = 4 → p.masks.length = 4)
    (notices : p.notices.length ≤ s.cp.notices.length) : Tame s { s with cp := p } :=
  ⟨rfl, rfl, rfl, rfl, rfl, id, id, rfl, rfl, id, rfl, id, masks,
    fun h => ⟨h.port, h.forward, h.checkErrors, h.overruns, Nat.le_trans notices h.notices, h.listen,
      h.tables.congr rfl rfl rfl⟩⟩

theorem tame_cleanups (s : State) (cleanups : List CleanupRequest) : Tame s { s with cleanups := cleanups } :=
  ⟨rfl, rfl, rfl, rfl, rfl, id, id, rfl, rfl, id, rfl, id, id,
    fun h => ⟨h.port, h.forward, h.checkErrors, h.overruns, h.notices, h.listen, h.tables.congr rfl rfl rfl⟩⟩

theorem tame_me (s : State) (m : MixEngine) (mix : m.zones.map (·.zone) = s.me.zones.map (·.zone))
    (ports : s.me.ports.length = 8 → m.ports.length = 8)
    (trims : (∀ m ∈ s.me.zones, m.trim ≤ 7) → ∀ m' ∈ m.zones, m'.trim ≤ 7) : Tame s { s with me := m } :=
  ⟨rfl, rfl, rfl, rfl, rfl, id, id, rfl, mix, ports, rfl, id, id,
    fun h => ⟨h.port, h.forward, h.checkErrors, h.overruns, h.notices, h.listen,
      { h.tables with trims := trims h.tables.trims }⟩⟩

theorem tame_ss (s : State) (ss : List (List Sample)) (buffers : s.ss.length = 4 → ss.length = 4) :
    Tame s { s with ss := ss } :=
  ⟨rfl, rfl, rfl, rfl, rfl, id, id, rfl, rfl, id, rfl, buffers, id,
    fun h => ⟨h.port, h.forward, h.checkErrors, h.overruns, h.notices, h.listen, h.tables.congr rfl rfl rfl⟩⟩

theorem tame_lu (s : State) (lu : List ListenEntry) (listen : ListenWithin s.lu → ListenWithin lu) :
    Tame s { s with lu := lu } := (listen_quiet (s' := { s with lu := lu }) rfl listen).tame

theorem updateKey_tame (n : Nat) (f : Key → Key) (s : State) : Tame s (updateKey n f s) :=
  ⟨rfl, rfl, rfl, rfl, rfl, id, id, rfl, rfl, id, by simp, id, id,
    fun h => ⟨h.port, h.forward, h.checkErrors, h.overruns, h.notices, h.listen, h.tables.congr rfl rfl rfl⟩⟩

theorem updateSlot_tame (n : Nat) (f : Slot → Slot) (s : State) : Tame s (updateSlot n f s) :=
  ⟨rfl, rfl, rfl, rfl, rfl, id, id, rfl, rfl, id, rfl, id, id,
    fun h => ⟨h.port, h.forward, h.checkErrors, h.overruns, h.notices, h.listen, h.tables.congr rfl rfl rfl⟩⟩

theorem updateZone_tame (z : Nat) {f : ZoneRecord → ZoneRecord} (same : ∀ r, (f r).zone = r.zone) (s : State) :
    Tame s (updateZone z f s) := by
  refine ⟨rfl, rfl, rfl, rfl, rfl, id, id, ?_, rfl, id, rfl, id, id,
    fun h => ⟨h.port, h.forward, h.checkErrors, h.overruns, h.notices, h.listen, h.tables.congr rfl rfl rfl⟩⟩
  rw [updateZone_za, List.map_map]
  refine List.map_congr_left fun r _ => ?_
  simp only [Function.comp]
  split
  · exact same r
  · rfl

/-! The Ring Port -/

theorem countUp_le {n : Nat} (h : n ≤ counterMaximum) : countUp n ≤ counterMaximum := by
  unfold countUp
  split
  · omega
  · exact h

theorem countCheckError_tame (s : State) : Tame s (countCheckError s) :=
  tame_rp s _ (fun w => ⟨w.mark, w.control, w.audio, w.line⟩) id countUp_le id

theorem countOverrun_tame (s : State) : Tame s (countOverrun s) :=
  tame_rp s _ (fun w => ⟨w.mark, w.control, w.audio, w.line⟩) id id countUp_le

theorem passOn_tame (f : Frame) {s : State} (room : s.rp.forward.length < forwardCapacity) : Tame s (passOn f s) :=
  tame_rp s _ (RingPort.placeForward_within _)
    (fun _ => Nat.le_trans (RingPort.placeForward_forward _ _) room)
    (fun h => Nat.le_trans (Nat.le_of_eq (RingPort.arbitrate_counters _).1) h)
    (fun h => Nat.le_trans (Nat.le_of_eq (RingPort.arbitrate_counters _).2) h)

theorem freeLine_tame (s : State) : Tame s (freeLine s) :=
  tame_rp s _ (fun w => RingPort.arbitrate_within w.mark w.control w.audio)
    (fun h => Nat.le_trans (RingPort.arbitrate_forward _) h)
    (fun h => Nat.le_trans (Nat.le_of_eq (RingPort.arbitrate_counters _).1) h)
    (fun h => Nat.le_trans (Nat.le_of_eq (RingPort.arbitrate_counters _).2) h)

/-! The Presence Unit -/

/-- A change of the Presence Unit that touches no table. -/
theorem tame_pu_same (s : State) (p : PresenceUnit)
    (ring : s.pu.ringState.isMember = true → p.ringState.isMember = true)
    (period : s.pu.period.isSome = true → p.period.isSome = true) (peers : p.peers = s.pu.peers)
    (sequence : p.sequence = s.pu.sequence) (recent : p.recent = s.pu.recent) : Tame s { s with pu := p } :=
  tame_pu s p ring period fun h =>
    ⟨peers ▸ h.peers, peers ▸ h.order, fun q mem => h.addresses q (peers ▸ mem), sequence ▸ h.sequence,
      recent ▸ h.recent, h.trims⟩

theorem RingState.afterMiss_isMember (r : RingState) : r.afterMiss.isMember = r.isMember := by cases r <;> rfl

theorem post_tame (n : HostNotice) (s : State) : Tame s (post n s) := (post_quiet n s).tame

theorem missReturn_tame (s : State) : Tame s (missReturn s) := by
  have missed : Tame s { s with pu := { s.pu with outstanding := none, ringState := s.pu.ringState.afterMiss } } :=
    tame_pu_same s _ (fun h => (RingState.afterMiss_isMember _).trans h) id rfl rfl rfl
  unfold missReturn
  simp only
  split
  · exact missed.trans (post_tame _ _)
  · exact missed

theorem sendPresence_tame (s : State) : Tame s (sendPresence s) := by
  have given : Tame s (giveUpPresence s) := by
    unfold giveUpPresence
    split
    · exact missReturn_tame s
    · exact Tame.refl s
  refine given.trans ?_
  rw [sendPresence]
  generalize giveUpPresence s = u
  unfold storePresence
  split
  · refine (storeControl_quiet (b := false) 0 u.presenceMessage u).tame.trans (tame_pu _ _ id id fun h => ?_)
    exact ⟨h.peers, h.order, h.addresses, nextSequence_le _, recordRecent_length _ _, h.trims⟩
  · exact Tame.refl u

theorem startPeriod_tame (s : State) : Tame s (startPeriod s) := tame_pu_same s _ id (fun _ => rfl) rfl rfl rfl

theorem periodExpiry_tame (s : State) : Tame s (periodExpiry s) := by
  unfold periodExpiry
  split
  · exact (sendPresence_tame s).trans (startPeriod_tame _)
  · exact Tame.refl s

theorem presenceReturnExpiry_tame (s : State) : Tame s (presenceReturnExpiry s) := by
  unfold presenceReturnExpiry
  split
  · exact missReturn_tame s
  · exact Tame.refl s

theorem presenceReturned_tame (sequence first last : Nat) (s : State) : Tame s (presenceReturned sequence first last s) := by
  have proved : Tame s { s with pu := { s.pu with outstanding := none, ringState := .up } } :=
    tame_pu_same s _ (fun _ => rfl) id rfl rfl rfl
  unfold presenceReturned
  split
  · unfold proveRing
    simp only
    split
    · exact proved
    · exact proved.trans (post_tame _ _)
  · split
    · unfold reportClash
      split
      · exact Tame.refl s
      · exact (tame_pu_same s { s.pu with clashReported := true } id id rfl rfl rfl).trans (post_tame _ _)
    · exact Tame.refl s

theorem testOverlap_tame (peer first last : Nat) (s : State) : Tame s (testOverlap peer first last s) := by
  unfold testOverlap
  split
  · exact post_tame _ s
  · exact Tame.refl s

theorem startCleanup_tame (peer : Nat) (cause : CleanupCause) (s : State) : Tame s (startCleanup peer cause s) :=
  tame_cleanups s _

/-- A table of peers in strict order of address, every address in range and none the station's own, holds at most 31. -/
theorem peers_length {own : Nat} {peers : List Peer} (inRange : 1 ≤ own ∧ own ≤ 32)
    (order : peers.Pairwise fun p q => p.address < q.address)
    (addresses : ∀ p ∈ peers, 1 ≤ p.address ∧ p.address ≤ 32 ∧ p.address ≠ own) : peers.length ≤ 31 := by
  have distinct : (own :: peers.map (·.address)).Nodup := by
    refine List.nodup_cons.mpr ⟨fun mem => ?_, List.pairwise_map.mpr (order.imp Nat.ne_of_lt)⟩
    obtain ⟨p, mem, same⟩ := List.mem_map.mp mem
    exact (addresses p ‹_›).2.2 same
  have inside : own :: peers.map (·.address) ⊆ List.range' 1 32 := by
    intro a mem
    rw [List.mem_range'_1]
    rcases List.mem_cons.mp mem with rfl | mem
    · omega
    · obtain ⟨p, mem, rfl⟩ := List.mem_map.mp mem
      have := addresses p ‹_›
      omega
  have := List.Nodup.length_le_of_subset distinct inside
  simp only [List.length_cons, List.length_map, List.length_range'] at this
  omega

theorem peer_none {s : State} {a : Nat} (h : s.peer a = none) : ∀ q ∈ s.pu.peers, q.address ≠ a := fun q mem => by
  simpa using List.find?_eq_none.mp h q mem

/-- A peer's entry added in its place (R43, R44). -/
theorem insertPeer_tables {s : State} (h : s.TablesWithin) (own : 1 ≤ s.address ∧ s.address ≤ 32) (p : Peer)
    (range : 1 ≤ p.address ∧ p.address ≤ 32 ∧ p.address ≠ s.address) (new : s.peer p.address = none) :
    ({ s with pu := { s.pu with peers := insertPeer p s.pu.peers } } : State).TablesWithin := by
  have order := insertPeer_sorted h.order (peer_none new)
  have addresses : ∀ q ∈ insertPeer p s.pu.peers, 1 ≤ q.address ∧ q.address ≤ 32 ∧ q.address ≠ s.address := by
    intro q mem
    rcases (mem_insertPeer p q s.pu.peers).mp mem with rfl | mem
    · exact range
    · exact h.addresses q mem
  exact ⟨peers_length own order addresses, order, addresses, h.sequence, h.recent, h.trims⟩

theorem renewPeer_tame (a : Nat) (joining : Bool) (first last : Nat) (s : State) :
    Tame s (renewPeer a joining first last s) := by
  have same : ∀ q : Peer, (if q.address = a then q.heard s.peerAge joining first last else q).address = q.address := by
    intro q
    split <;> rfl
  refine tame_pu s _ id id fun h => ⟨by simpa using h.peers, peers_map_sorted same h.order, fun q mem => ?_,
    h.sequence, h.recent, h.trims⟩
  obtain ⟨r, known, rfl⟩ := List.mem_map.mp mem
  rw [same]
  exact h.addresses r known

theorem testChange_tame (p : Peer) (first last : Nat) (s : State) : Tame s (testChange p first last s) := by
  unfold testChange
  split
  · exact Tame.refl s
  · exact testOverlap_tame _ _ _ s

theorem presenceFromPeer_tame {a : Nat} (joining : Bool) (first last : Nat) {s : State}
    (own : 1 ≤ s.address ∧ s.address ≤ 32) (range : 1 ≤ a ∧ a ≤ 32 ∧ a ≠ s.address) :
    Tame s (presenceFromPeer a joining first last s) := by
  unfold presenceFromPeer
  split
  · rename_i new
    refine Tame.trans (tame_pu s { s.pu with peers := insertPeer _ s.pu.peers } id id fun h => ?_)
      ((post_tame _ _).trans (testOverlap_tame a first last _))
    exact insertPeer_tables h own { address := a, first := _, last := _, joining := _, age := _ } range new
  · rename_i p _
    have heard := (renewPeer_tame p.address joining first last s).trans (testChange_tame p first last _)
    rw [hearPeer_eq]
    split
    · exact heard.trans ((post_tame _ _).trans (startCleanup_tame _ _ _))
    · exact heard

/-- A peer's PRESENCE leaves the Ring Port as it is. -/
theorem presenceFromPeer_rp (a : Nat) (joining : Bool) (first last : Nat) (s : State) :
    (presenceFromPeer a joining first last s).rp = s.rp := by
  have overlap : ∀ (peer : Nat) (u : State), (testOverlap peer first last u).rp = u.rp := by
    intro peer u
    unfold testOverlap
    split <;> simp
  have change : ∀ (p : Peer) (u : State), (testChange p first last u).rp = u.rp := by
    intro p u
    unfold testChange
    split
    · rfl
    · exact overlap _ u
  unfold presenceFromPeer
  split
  · rw [addPeer, overlap, post_rp]
  · rw [hearPeer_eq]
    split
    · simp only [startCleanup, post_rp, change]
      rfl
    · rw [change]
      rfl

theorem ageExpiry_tame (a : Nat) (s : State) : Tame s (ageExpiry a s) := by
  unfold ageExpiry
  split
  · refine Tame.trans (tame_pu s { s.pu with peers := s.pu.peers.filter fun p => p.address != a } id id fun h => ?_)
      ((post_tame _ _).trans (startCleanup_tame _ _ _))
    exact ⟨Nat.le_trans (List.length_filter_le _ _) h.peers, h.order.filter _,
      fun p mem => h.addresses p (List.mem_filter.mp mem).1, h.sequence, h.recent, h.trims⟩
  · exact Tame.refl s

theorem presenceSent_tame (sequence : Nat) (s : State) : Tame s (presenceSent sequence s) := by
  unfold presenceSent
  split
  · exact tame_pu_same s _ id id rfl rfl rfl
  · exact Tame.refl s

theorem completeTransmission_tame (s : State) : Tame s (completeTransmission s) := by
  unfold completeTransmission
  split
  · exact Tame.refl s
  · refine Tame.trans ?_ (freeLine_tame _)
    split
    · unfold reportSent
      split
      · exact presenceSent_tame _ s
      · exact (claimSent_quiet _ _ _ s).tame
      · exact (claimSent_quiet _ _ _ s).tame
      all_goals exact Tame.refl s
    · exact Tame.refl s

/-! Arrivals -/

theorem returnOwn_tame (f : Frame) (s : State) : Tame s (returnOwn f s) := by
  unfold returnOwn
  split
  · exact presenceReturned_tame _ _ _ s
  · exact (claimReturned_quiet _ s).tame
  · exact (commitReturned_quiet _ s).tame
  all_goals exact Tame.refl s

theorem arriveFrame_tame (bytes : List Byte) (cutShort : Bool) {s : State}
    (own : s.isMember = true → 1 ≤ s.address ∧ s.address ≤ 32) : Tame s (arriveFrame bytes cutShort s) := by
  refine arriveFrame_of (Tame.refl s) (countCheckError_tame s) (countOverrun_tame s) (fun f _ => returnOwn_tame f s)
    (fun f room => passOn_tame f room) fun f m member room other taken => ?_
  obtain ⟨low, high, -⟩ := Frame.dispatched_eq_some taken
  have dispatched : Tame s (dispatch f m s).2 ∧ (dispatch f m s).2.rp.forward.length < forwardCapacity := by
    rcases dispatch_cases (b := false) f m s with ⟨_, flags, first, last, -, h⟩ | h
    · rw [h]
      exact ⟨presenceFromPeer_tame _ _ _ (own member) ⟨low, high, other⟩, by rw [presenceFromPeer_rp]; exact room⟩
    · exact ⟨h.tame, Nat.lt_of_le_of_lt h.port.forward room⟩
  exact dispatched.1.trans (passOn_tame _ dispatched.2)

end Sys2Proof.Machine
end


section
/-! SUPPORT. The strobes, the keys and the Control Port's commands are tame; so is every command but the resets, the ends of a load,
a contact's change and an arrival. -/

namespace Sys2Proof.Machine

/-! The strobes -/

theorem completeBlocks_tame (s : State) : Tame s (completeBlocks s) :=
  (tame_ss s [[], [], [], []] fun _ => rfl).trans (completeBlocks_quiet s).tame

theorem readPorts_tame (s0 s1 s2 s3 : Sample) (s : State) : Tame s (readPorts [s0, s1, s2, s3] s) :=
  tame_ss s _ fun four => by simp [four]

theorem sendStrobe_tame (s0 s1 s2 s3 : Sample) (s : State) : Tame s (sendStrobe [s0, s1, s2, s3] s) := by
  have read := readPorts_tame s0 s1 s2 s3 s
  unfold sendStrobe
  simp only
  split
  · split
    · exact read.trans (completeBlocks_tame _)
    · exact read
  · exact Tame.refl s

theorem ListenEntry.afterYield_of_inactive {e : ListenEntry} (h : e.active = false) : e.afterYield = e := by
  simp [ListenEntry.afterYield, h]

theorem ListenEntry.afterYield_buffer (e : ListenEntry) : e.afterYield.buffer.length ≤ e.buffer.length := by
  unfold ListenEntry.afterYield
  split
  · split
    · rename_i empty
      simp [empty]
    · rename_i more
      simp [more]
  · exact Nat.le_refl _

theorem ListenEntry.afterYield_active (e : ListenEntry) : e.afterYield.active = e.active := by
  unfold ListenEntry.afterYield
  split
  · split <;> rfl
  · rfl

/-- A strobe at the Mix Engine takes a sample from each buffer at most. -/
theorem afterYield_within {lu : List ListenEntry} (h : ListenWithin lu) : ListenWithin (lu.map ListenEntry.afterYield) := by
  refine h.map (fun e _ within => Nat.le_trans e.afterYield_buffer within) fun e _ silent inactive => ?_
  rw [ListenEntry.afterYield_active] at inactive
  rw [ListenEntry.afterYield_of_inactive inactive]
  exact silent inactive

theorem MixZone.afterStrobe_zone (w threshold : Nat) (value : Int) (m : MixZone) :
    (m.afterStrobe w threshold value).zone = m.zone := by
  unfold MixZone.afterStrobe
  simp only
  split <;> rfl

theorem State.zoneOutputs_length (s : State) : s.zoneOutputs.length = 8 := by
  simp [State.zoneOutputs]

theorem mixStrobe_tame (s : State) : Tame s (mixStrobe s) := by
  unfold mixStrobe
  split
  · have yields : Tame s { s with lu := s.lu.map ListenEntry.afterYield } := tame_lu s _ afterYield_within
    refine (yields.trans (tame_me _ { zones := s.meteredZones, ports := s.zoneOutputs } ?_
      (fun _ => s.zoneOutputs_length) fun trims m' mem => ?_)).trans (forEach_quiet post_quiet _ _).tame
    · rw [State.meteredZones, List.map_map]
      exact List.map_congr_left fun m _ => MixZone.afterStrobe_zone _ _ _ m
    · obtain ⟨m, known, rfl⟩ := List.mem_map.mp mem
      exact MixZone.afterStrobe_trim _ _ _ (trims m known)
  · exact tame_me s _ rfl (fun _ => List.length_replicate ..) id

/-! The keys -/

theorem issue_tame (issuer : Issuer) (d : ClaimDesc) (s : State) : Tame s (issue issuer d s).2 := by
  rcases issue_cases issuer d s with ⟨code, refused⟩ | ⟨n, k, -, -, -, -, -, accepted⟩
  · rw [refused]
    exact Tame.refl s
  · rw [accepted]
    exact (updateSlot_tame n _ s).trans (runIssue_quiet n k _ s).tame

theorem keyIssue_tame (n : Nat) (b : KeyBinding) (d : ClaimDesc) (s : State) : Tame s (keyIssue n b d s) := by
  have issued := issue_tame (.key n) d s
  unfold keyIssue
  simp only
  split
  · split
    · exact issued.trans (updateKey_tame _ _ _)
    · exact issued
  · exact issued.trans (post_tame _ _)

theorem keyEnd_tame (n : Nat) (m : Nat × Nat) (s : State) : Tame s (keyEnd n m s) :=
  (endRequest_quiet m.1 m.2 s).tame.trans (updateKey_tame _ _ _)

theorem keyPress_tame (n : Nat) (s : State) : Tame s (keyPress n s) := by
  unfold keyPress
  split
  · exact Tame.refl s
  · split
    · exact keyIssue_tame _ _ _ s
    · split
      · exact keyEnd_tame _ _ s
      · exact keyIssue_tame _ _ _ s

theorem keyRelease_tame (n : Nat) (s : State) : Tame s (keyRelease n s) := by
  unfold keyRelease
  split
  · exact Tame.refl s
  · split
    · split
      · exact keyEnd_tame _ _ s
      · exact Tame.refl s
    · exact Tame.refl s

theorem keyChanged_tame (n : Nat) (closed : Bool) (s : State) : Tame s (keyChanged n closed s) := by
  unfold keyChanged
  split
  · exact keyPress_tame n s
  · exact keyRelease_tame n s

theorem debounceExpiry_tame (n : Nat) (s : State) : Tame s (debounceExpiry n s) := by
  unfold debounceExpiry
  split
  · exact Tame.refl s
  · split
    · simp only
      split
      · exact updateKey_tame _ _ s
      · exact (updateKey_tame _ _ s).trans (keyChanged_tame _ _ _)
    · exact Tame.refl s

/-! The Control Port -/

theorem respond_tame (bytes : List Byte) (s : State) : Tame s (respond bytes s) :=
  tame_cp s _ id (Nat.le_refl _)

theorem answerCode_tame (code : ResultCode) (s : State) : Tame s (answerCode code s) := respond_tame _ s

theorem answerData_tame (data : List Byte) (s : State) : Tame s (answerData data s) := respond_tame _ s

theorem answerIssue_tame {issued : IssueResult × State} {s : State} (h : Tame s issued.2) : Tame s (answerIssue issued) := by
  unfold answerIssue
  split
  · exact h.trans (answerData_tame _ _)
  · exact h.trans (answerCode_tame _ _)

theorem statusCommand_tame (s : State) : Tame s (statusCommand s) := by
  refine whenListening_of (Tame.refl s) fun _ => Tame.trans ?_ (answerData_tame _ _)
  exact (tame_rp s { s.rp with checkErrors := 0, overruns := 0 } (fun w => ⟨w.mark, w.control, w.audio, w.line⟩) id
    (fun _ => Nat.zero_le _) fun _ => Nat.zero_le _).trans (tame_cp _ { s.cp with overflow := false } id (Nat.le_refl _))

theorem claimCommand_tame (d : Option ClaimDesc) (s : State) : Tame s (claimCommand d s) := by
  refine whenListening_of (Tame.refl s) fun _ => ?_
  split
  · exact answerCode_tame _ s
  · exact answerIssue_tame (issue_tame _ _ s)

theorem presetCommand_tame (number : Nat) (s : State) : Tame s (presetCommand number s) := by
  refine whenListening_of (Tame.refl s) fun _ => ?_
  split
  · exact answerCode_tame _ s
  · split
    · exact answerCode_tame _ s
    · exact answerIssue_tame (issue_tame _ _ s)

theorem endCommand_tame (slot generation : Nat) (s : State) : Tame s (endCommand slot generation s) := by
  refine whenMember_of (Tame.refl s) (answerCode_tame _ s) fun _ _ => ?_
  split
  · exact (endRequest_quiet _ _ s).tame.trans (answerCode_tame _ _)
  · exact answerCode_tame _ s

theorem claimStatusCommand_tame (slot : Nat) (s : State) : Tame s (claimStatusCommand slot s) := by
  refine whenMember_of (Tame.refl s) (answerCode_tame _ s) fun _ _ => ?_
  split
  · exact answerCode_tame _ s
  · exact answerData_tame _ s

theorem zoneStatusCommand_tame (zone : Byte) (s : State) : Tame s (zoneStatusCommand zone s) := by
  refine onOwnZone_of (Tame.refl s) (fun _ => answerCode_tame _ s) fun _ _ _ => ?_
  split
  · exact answerCode_tame _ s
  · exact answerData_tame _ s

theorem setFloorAt_tame (z floor : Nat) (s : State) : Tame s (setFloorAt z floor s) :=
  (updateZone_tame z (f := fun r => { r with floor := floor }) (fun _ => rfl) s).trans
    (setFloor_settle_quiet z floor _ s).tame

theorem setFloorCommand_tame (zone floor : Byte) (s : State) : Tame s (setFloorCommand zone floor s) := by
  refine onOwnZone_of (Tame.refl s) (fun _ => answerCode_tame _ s) fun _ _ _ => ?_
  split
  · exact (setFloorAt_tame _ _ s).trans (answerCode_tame _ _)
  · exact answerCode_tame _ s

theorem updateMixZone_tame (z : Nat) {f : MixZone → MixZone} (same : ∀ m, (f m).zone = m.zone)
    (trims : ∀ m, m.trim ≤ 7 → (f m).trim ≤ 7) (s : State) : Tame s (updateMixZone z f s) := by
  refine tame_me s _ ?_ id fun within m' mem => ?_
  · rw [List.map_map]
    refine List.map_congr_left fun m _ => ?_
    simp only [Function.comp]
    split
    · exact same m
    · rfl
  · obtain ⟨m, known, rfl⟩ := List.mem_map.mp mem
    split
    · exact trims m (within m known)
    · exact within m known

theorem setTrimCommand_tame (zone trim : Byte) (s : State) : Tame s (setTrimCommand zone trim s) := by
  refine onOwnZone_of (Tame.refl s) (fun _ => answerCode_tame _ s) fun _ _ _ => ?_
  split
  · rename_i valid
    exact (updateMixZone_tame _ (f := fun m => { m with trim := trim.toNat }) (fun _ => rfl)
      (fun _ _ => of_decide_eq_true valid) s).trans (answerCode_tame _ _)
  · exact answerCode_tame _ s

theorem clearZoneCommand_tame (zone : Byte) (s : State) : Tame s (clearZoneCommand zone s) :=
  onOwnZone_of (Tame.refl s) (fun _ => answerCode_tame _ s) fun _ _ _ =>
    (endWhere_quiet _ _ _ s).tame.trans (answerCode_tame _ _)

theorem meterCommand_tame (zone : Byte) (s : State) : Tame s (meterCommand zone s) := by
  refine onOwnZone_of (Tame.refl s) (fun _ => answerCode_tame _ s) fun _ _ _ => ?_
  split
  · exact answerCode_tame _ s
  · exact (updateMixZone_tame _ (f := fun m => { m with totalClips := 0 }) (fun _ => rfl) (fun _ => id) s).trans
      (answerData_tame _ _)

theorem noticeCommand_tame (s : State) : Tame s (noticeCommand s) := by
  refine whenListening_of (Tame.refl s) fun _ => ?_
  split
  · exact answerCode_tame _ s
  · rename_i q rest waiting
    exact (tame_cp s { s.cp with notices := rest } id (by simp [waiting])).trans (answerData_tame _ _)

theorem masksOf_length {m0 m1 m2 m3 : Byte} {masks : List Bool} (h : masksOf m0 m1 m2 m3 = some masks) :
    masks.length = 4 := by
  unfold masksOf at h
  split at h
  · cases h
    rfl
  · cases h

theorem setMaskCommand_tame (m0 m1 m2 m3 : Byte) (s : State) : Tame s (setMaskCommand (masksOf m0 m1 m2 m3) s) := by
  refine whenListening_of (Tame.refl s) fun _ => ?_
  split
  · exact answerCode_tame _ s
  · rename_i masks given
    exact (tame_cp s { s.cp with masks := masks } (fun _ => masksOf_length given) (Nat.le_refl _)).trans (answerCode_tame _ _)

theorem peersCommand_tame (s : State) : Tame s (peersCommand s) :=
  whenMember_of (Tame.refl s) (answerCode_tame _ s) fun _ _ => answerData_tame _ s

theorem unknownCommand_tame (s : State) : Tame s (unknownCommand s) :=
  whenListening_of (Tame.refl s) fun _ => answerCode_tame _ s

/-! Every command -/

/-- The commands that are no reset, no end of a load, no contact's change and no arrival. -/
def isPlain : Instr → Bool
  | .rstnReset | .loadBegins | .loadSucceeds _ | .loadFails _ | .reset | .keyInputChange _ _ | .frameArrival _ _ => false
  | _ => true

theorem after_tame {c : Instr} (plain : isPlain c = true) (s : State) : Tame s (after c s) := by
  cases c with
  | rstnReset => cases plain
  | loadBegins => cases plain
  | loadSucceeds memory => cases plain
  | loadFails memory => cases plain
  | keyInputChange key closed => cases plain
  | reset => cases plain
  | frameArrival bytes cutShort => cases plain
  | transmissionCompletion => exact completeTransmission_tame s
  | sampleStrobeSend s0 s1 s2 s3 => exact sendStrobe_tame s0 s1 s2 s3 s
  | blockCompletion s0 s1 s2 s3 => exact sendStrobe_tame s0 s1 s2 s3 s
  | sampleStrobeMix => exact mixStrobe_tame s
  | meterWindowEnd => exact mixStrobe_tame s
  | periodTimerExpiry => exact periodExpiry_tame s
  | presenceReturnTimerExpiry => exact presenceReturnExpiry_tame s
  | ageTimerExpiry peer => exact ageExpiry_tame peer s
  | cleanupRequestAtOwner peer cause => exact (tame_cleanups s _).trans (endEverywhere_quiet _ _ _).tame
  | cleanupRequestAtOrigin peer cause => exact (tame_cleanups s _).trans (cleanupAtOrigin_quiet peer _).tame
  | holdTimerExpiry zone => exact (dropReservation_quiet zone (fun _ => true) s).tame
  | autoEndTimerExpiry zone tag => exact (autoEndExpiryAt_quiet zone tag s).tame
  | lapseTimerExpiry tag => exact (lapseExpiry_quiet tag s).tame
  | claimReturnTimerExpiry slot => exact (returnExpiry_quiet slot s).tame
  | durationTimerExpiry slot => exact (durationExpiry_quiet slot s).tame
  | debounceTimerExpiry key => exact debounceExpiry_tame key s
  | status => exact statusCommand_tame s
  | claim count places level mode wait gain duration port => exact claimCommand_tame _ s
  | claimPreset number => exact presetCommand_tame _ s
  | endClaim slot generation => exact endCommand_tame _ _ s
  | claimStatus slot => exact claimStatusCommand_tame _ s
  | zoneStatus zone => exact zoneStatusCommand_tame zone s
  | setFloor zone floor => exact setFloorCommand_tame zone floor s
  | setTrim zone trim => exact setTrimCommand_tame zone trim s
  | clearZone zone => exact clearZoneCommand_tame zone s
  | meter zone => exact meterCommand_tame zone s
  | notice => exact noticeCommand_tame s
  | setMask m0 m1 m2 m3 => exact setMaskCommand_tame m0 m1 m2 m3 s
  | peers => exact peersCommand_tame s
  | badCommand command => exact unknownCommand_tame s
  | transactionCutShort clocked => exact Tame.refl s

end Sys2Proof.Machine
end


section
/-! SUPPORT. Every command keeps the queue of commands, and every step the capacities: the plain commands are tame, and the resets,
the ends of a load, a contact's change, an arrival and the passage of a millisecond are taken one by one. -/

namespace Sys2Proof.Machine

/-! A step -/

/-- A step is a command, taken from the queue or due of itself, or the passage of a millisecond. -/
theorem step_cases {s t : State} (h : step s = .next t) :
    (∃ c rest, s.pending = c :: rest ∧ t = after c (s.withPending rest)) ∨ (∃ c, t = after c s) ∨ t = tick s := by
  unfold step at h
  split at h
  · rename_i c rest waiting
    exact .inl ⟨c, rest, waiting, eq_after h⟩
  · unfold idle at h
    split at h
    · rename_i c _
      exact .inr (.inl ⟨c, eq_after h⟩)
    · exact .inr (.inr (Host.Outcome.next.inj h).symm)

/-! The queue of commands and the pins -/

/-- The waiting commands and the pins' levels stand as they were. -/
structure SamePins (s t : State) : Prop where
  pending : t.pending = s.pending
  rstnLow : t.rstnLow = s.rstnLow
  keyInputs : t.keyInputs = s.keyInputs

theorem Tame.pins {s t : State} (h : Tame s t) : SamePins s t := ⟨h.pending, h.rstnLow, h.keyInputs⟩

theorem Talks.pins {s t : State} (h : Talks s t) : SamePins s t := ⟨h.pending, h.rstnLow, h.keyInputs⟩

theorem Quiet.pins {b : Bool} {s t : State} (h : Quiet b s t) : SamePins s t := ⟨h.pending, h.rstnLow, h.keyInputs⟩

theorem SamePins.refl (s : State) : SamePins s s := ⟨rfl, rfl, rfl⟩

theorem SamePins.trans {s t u : State} (h : SamePins s t) (k : SamePins t u) : SamePins s u :=
  ⟨k.pending.trans h.pending, k.rstnLow.trans h.rstnLow, k.keyInputs.trans h.keyInputs⟩

theorem arriveFrame_pins (bytes : List Byte) (cutShort : Bool) (s : State) : SamePins s (arriveFrame bytes cutShort s) := by
  refine arriveFrame_of (SamePins.refl s) (countCheckError_talks s).pins (countOverrun_talks s).pins (fun f _ => ?_)
    (fun f _ => (passOn_talks f s).pins) fun f m _ _ _ _ => ?_
  · rcases returnOwn_cases f s with h | h
    · exact h.pins
    · exact h.pins
  · refine SamePins.trans ?_ (passOn_talks _ _).pins
    rcases dispatch_cases (b := false) f m s with ⟨_, _, _, _, -, h⟩ | h
    · rw [h]
      exact (presenceFromPeer_talks _ _ _ _ s).pins
    · exact h.pins

theorem endLoad_pins (memory : List Byte) (s : State) : SamePins s (endLoad memory s) := by
  unfold endLoad
  split
  · split
    · rename_i c _
      exact SamePins.trans (t := sampleKeys (takeZones c { s with config := some c, cl := ⟨.done, none⟩ }))
        ⟨rfl, rfl, rfl⟩ (enterJoining_talks _).pins
    · rename_i code _
      exact SamePins.trans
        (t := { s with cl := ⟨.failed, some code⟩, pu := { s.pu with ringState := .passive } }) ⟨rfl, rfl, rfl⟩
        (post_talks _ _).pins
  · exact SamePins.refl s

theorem softReset_pins (s : State) : SamePins s (softReset s) := by
  unfold softReset
  split
  · split
    · rename_i c _
      exact SamePins.trans (t := clearedState c s) ⟨rfl, rfl, rfl⟩ (enterJoining_talks _).pins
    · exact SamePins.refl s
  · exact ⟨rfl, rfl, rfl⟩

theorem resetCommand_pins (s : State) : SamePins s (resetCommand s) :=
  whenListening_of (SamePins.refl s) fun _ => (softReset_pins s).trans (answerCode_talks _ _).pins

theorem after_pending (c : Instr) (s : State) : (after c s).pending = s.pending := by
  by_cases plain : isPlain c = true
  · exact (after_tame plain s).pending
  · cases c with
    | rstnReset => rfl
    | loadBegins =>
      change (beginLoad s).pending = s.pending
      unfold beginLoad
      split <;> rfl
    | loadSucceeds memory => exact (endLoad_pins memory s).pending
    | loadFails memory => exact (endLoad_pins memory s).pending
    | frameArrival bytes cutShort => exact (arriveFrame_pins bytes cutShort s).pending
    | keyInputChange key closed =>
      change (keyInput key closed s).pending = s.pending
      unfold keyInput
      split <;> rfl
    | reset => exact (resetCommand_pins s).pending
    | _ => exact absurd rfl plain

theorem after_rstnLow {c : Instr} (notReset : c ≠ .rstnReset) (notBegin : c ≠ .loadBegins) (s : State) :
    (after c s).rstnLow = s.rstnLow := by
  by_cases plain : isPlain c = true
  · exact (after_tame plain s).rstnLow
  · cases c with
    | rstnReset => exact absurd rfl notReset
    | loadBegins => exact absurd rfl notBegin
    | loadSucceeds memory => exact (endLoad_pins memory s).rstnLow
    | loadFails memory => exact (endLoad_pins memory s).rstnLow
    | frameArrival bytes cutShort => exact (arriveFrame_pins bytes cutShort s).rstnLow
    | keyInputChange key closed =>
      change (keyInput key closed s).rstnLow = s.rstnLow
      unfold keyInput
      split <;> rfl
    | reset => exact (resetCommand_pins s).rstnLow
    | _ => exact absurd rfl plain

theorem after_keyInputs {c : Instr} (notKey : ∀ key closed, c ≠ .keyInputChange key closed) (s : State) :
    (after c s).keyInputs = s.keyInputs := by
  by_cases plain : isPlain c = true
  · exact (after_tame plain s).keyInputs
  · cases c with
    | rstnReset => rfl
    | loadBegins =>
      change (beginLoad s).keyInputs = s.keyInputs
      unfold beginLoad
      split <;> rfl
    | loadSucceeds memory => exact (endLoad_pins memory s).keyInputs
    | loadFails memory => exact (endLoad_pins memory s).keyInputs
    | frameArrival bytes cutShort => exact (arriveFrame_pins bytes cutShort s).keyInputs
    | keyInputChange key closed => exact absurd rfl (notKey key closed)
    | reset => exact (resetCommand_pins s).keyInputs
    | _ => exact absurd rfl plain

/-- Settles O3: the plain commands are tame, and the others move no pin but their own. -/
theorem everyCommandCompletes : Obligations.EveryCommandCompletes := by
  refine ⟨fun c s => ⟨after c s, exec_eq_after c s, after_pending c s⟩, fun c s t next => ?_⟩
  rw [eq_after next]
  exact ⟨fun notReset notBegin => after_rstnLow notReset notBegin s, fun notKey => after_keyInputs notKey s⟩

/-! The capacities -/

/-- A member's configuration stands and is valid. -/
theorem State.Coherent.member_config {s : State} (h : s.Coherent) (member : s.isMember = true) :
    ∃ c, s.config = some c ∧ ConfigValid c := by
  obtain ⟨c, config⟩ := Option.isSome_iff_exists.mp (h.configured.trans member)
  exact ⟨c, config, h.valid c config⟩

theorem State.Coherent.member_address {s : State} (h : s.Coherent) (member : s.isMember = true) :
    1 ≤ s.address ∧ s.address ≤ 32 := by
  obtain ⟨c, config, valid⟩ := h.member_config member
  simp only [State.address, config]
  exact valid.station.address

theorem State.Coherent.not_member_of_reading {s : State} (h : s.Coherent) (reading : s.cl.loadState = .reading) :
    s.isMember = false := by
  rw [State.isMember, h.reading.mp reading]
  rfl

theorem enterJoining_tame_set (s : State) :
    Tame { s with pu := { s.pu with ringState := .joining } } (enterJoining s) :=
  (sendPresence_tame _).trans (startPeriod_tame _)

/-- Entry to JOINING keeps every capacity. -/
theorem enterJoining_bounded {s : State} (h : s.Bounded) : (enterJoining s).Bounded :=
  (enterJoining_tame_set s).bounded
    ⟨h.port, h.forward, h.checkErrors, h.overruns, h.notices, h.listen,
      ⟨h.tables.peers, h.tables.order, h.tables.addresses, h.tables.sequence, h.tables.recent, h.tables.trims⟩⟩

theorem listenWithin_nil : ListenWithin [] :=
  ⟨Nat.zero_le _, fun _ mem => absurd mem List.not_mem_nil, fun _ mem => absurd mem List.not_mem_nil⟩

theorem hardReset_bounded (s : State) : (hardReset s).Bounded :=
  ⟨⟨rfl, Nat.zero_le _, Nat.zero_le _, fun _ => ⟨rfl, rfl, rfl⟩⟩, Nat.zero_le _, Nat.zero_le _, Nat.zero_le _,
    Nat.zero_le _, listenWithin_nil,
    ⟨Nat.zero_le _, List.Pairwise.nil, fun _ mem => absurd mem List.not_mem_nil, Nat.zero_le _, Nat.zero_le _,
      fun _ mem => absurd mem List.not_mem_nil⟩⟩

/-- What changes neither the tables nor a queue keeps the capacities. -/
theorem State.Bounded.congr {s t : State} (h : s.Bounded) (rp : t.rp = s.rp) (notices : t.cp.notices = s.cp.notices)
    (lu : t.lu = s.lu) (tables : t.TablesWithin) : t.Bounded :=
  ⟨rp ▸ h.port, rp ▸ h.forward, rp ▸ h.checkErrors, rp ▸ h.overruns, notices ▸ h.notices, lu ▸ h.listen, tables⟩

theorem beginLoad_bounded {s : State} (h : s.Bounded) : (beginLoad s).Bounded := by
  unfold beginLoad
  split
  · exact h.congr rfl rfl rfl (h.tables.congr rfl rfl rfl)
  · exact h

/-- The tables at a loaded configuration, with no peer known. -/
theorem takeZones_tables {s : State} (h : s.TablesWithin) {c : Configuration} (valid : ConfigValid c)
    (alone : s.pu.peers = []) (l : Loader) :
    (sampleKeys (takeZones c { s with config := some c, cl := l })).TablesWithin := by
  refine ⟨h.peers, h.order, fun p (mem : p ∈ s.pu.peers) => ?_, h.sequence, h.recent, mixZonesOf_trim valid.zones⟩
  exact absurd (alone ▸ mem) List.not_mem_nil

theorem endLoad_bounded (memory : List Byte) {s : State} (coherent : s.Coherent) (h : s.Bounded) :
    (endLoad memory s).Bounded := by
  unfold endLoad
  split
  · rename_i loading
    split
    · rename_i c taken
      have valid := loadedConfigurationInRange memory c taken
      have alone := (coherent.repeating (coherent.not_member_of_reading loading.1)).presence.2.1
      exact enterJoining_bounded (h.congr rfl rfl rfl (takeZones_tables h.tables valid alone _))
    · refine (post_tame _ _).bounded (h.congr rfl rfl rfl ?_)
      exact ⟨h.tables.peers, h.tables.order, h.tables.addresses, h.tables.sequence, h.tables.recent, h.tables.trims⟩
  · exact h

theorem RingPort.softReset_within {p : RingPort} (h : p.Within false) : p.softReset.Within false :=
  ⟨rfl, Nat.zero_le _, Nat.zero_le _, fun free => ⟨(h.line (Option.map_eq_none_iff.mp free)).1, rfl, rfl⟩⟩

theorem clearedState_bounded {c : Configuration} (valid : ConfigValid c) {s : State} (h : s.Bounded) :
    (clearedState c s).Bounded :=
  ⟨RingPort.softReset_within h.port, h.forward, h.checkErrors, h.overruns, Nat.zero_le _, listenWithin_nil,
    ⟨Nat.zero_le _, List.Pairwise.nil, fun _ mem => absurd mem List.not_mem_nil, h.tables.sequence, h.tables.recent,
      mixZonesOf_trim valid.zones⟩⟩

theorem softReset_bounded {s : State} (coherent : s.Coherent) (h : s.Bounded) : (softReset s).Bounded := by
  unfold softReset
  split
  · split
    · rename_i c config
      exact enterJoining_bounded (clearedState_bounded (coherent.valid c config) h)
    · exact h
  · exact ⟨h.port, h.forward, h.checkErrors, h.overruns, Nat.zero_le _, h.listen,
      ⟨h.tables.peers, h.tables.order, h.tables.addresses, h.tables.sequence, h.tables.recent, h.tables.trims⟩⟩

theorem resetCommand_bounded {s : State} (coherent : s.Coherent) (h : s.Bounded) : (resetCommand s).Bounded :=
  whenListening_of h fun _ => (answerCode_tame .ok (softReset s)).bounded (softReset_bounded coherent h)

theorem keyInput_bounded (key : Nat) (closed : Bool) {s : State} (h : s.Bounded) : (keyInput key closed s).Bounded := by
  unfold keyInput
  split
  · exact h
  · exact h.congr rfl rfl rfl (h.tables.congr rfl rfl rfl)

theorem tick_bounded {s : State} (h : s.Bounded) : (tick s).Bounded := by
  refine ⟨h.port, h.forward, h.checkErrors, h.overruns, h.notices,
    h.listen.map (fun _ _ => id) (fun _ _ => id), ⟨?_, ?_, ?_, h.tables.sequence, h.tables.recent, h.tables.trims⟩⟩
  · exact Nat.le_trans (Nat.le_of_eq (List.length_map _)) h.tables.peers
  · exact peers_map_sorted (f := fun q => { q with age := q.age - 1 }) (fun _ => rfl) h.tables.order
  · intro p mem
    obtain ⟨q, known, rfl⟩ := List.mem_map.mp mem
    exact h.tables.addresses q known

theorem after_bounded (c : Instr) {s : State} (coherent : s.Coherent) (h : s.Bounded) : (after c s).Bounded := by
  by_cases plain : isPlain c = true
  · exact (after_tame plain s).bounded h
  · cases c with
    | rstnReset => exact hardReset_bounded s
    | loadBegins => exact beginLoad_bounded h
    | loadSucceeds memory => exact endLoad_bounded memory coherent h
    | loadFails memory => exact endLoad_bounded memory coherent h
    | frameArrival bytes cutShort => exact (arriveFrame_tame bytes cutShort coherent.member_address).bounded h
    | keyInputChange key closed => exact keyInput_bounded key closed h
    | reset => exact resetCommand_bounded coherent h
    | _ => exact absurd rfl plain

/-! A step with a command taken off the queue is the command's -/

theorem State.Bounded.withPending {s : State} (h : s.Bounded) (rest : List Instr) : (s.withPending rest).Bounded :=
  h.congr rfl rfl rfl (h.tables.congr rfl rfl rfl)

theorem State.Repeating.withPending {s : State} (h : s.Repeating) (rest : List Instr) : (s.withPending rest).Repeating :=
  ⟨h.queues, h.presence, h.cleanups, h.zones, h.listen, h.claims, h.buffers, h.mix, h.keys⟩

theorem State.Coherent.withPending {s : State} (h : s.Coherent) (rest : List Instr) : (s.withPending rest).Coherent :=
  ⟨h.rstn, h.reading, h.failed, h.unit, h.stays, h.fault, h.configured, h.valid,
    fun low => (h.repeating low).withPending rest, h.period⟩

/-- Settles O57. -/
theorem stepKeepsCapacities : Obligations.StepKeepsCapacities := by
  intro s t coherent h next
  rcases step_cases next with ⟨c, rest, -, rfl⟩ | ⟨c, rfl⟩ | rfl
  · exact after_bounded c (coherent.withPending rest) (h.withPending rest)
  · exact after_bounded c coherent h
  · exact tick_bounded h

end Sys2Proof.Machine
end


section
/-! SUPPORT. Every step keeps the fixed shape of the blocks and their agreement about the mode: a member stays a member under a tame
command; at a repeater a plain command changes no block but the Ring Port and the Control Port. -/

namespace Sys2Proof.Machine

/-! Agreement from its parts -/

/-- The blocks agree about a running full member. -/
theorem coherent_of_running {t : State} {c : Configuration} (running : t.cl = ⟨.done, none⟩) (high : t.rstnLow = false)
    (member : t.pu.ringState.isMember = true) (period : t.pu.period.isSome = true) (config : t.config = some c)
    (valid : ConfigValid c) : t.Coherent := by
  have seen : t.ringState = t.pu.ringState := by simp [State.ringState, running]
  have isMember : t.isMember = true := by rw [State.isMember, seen, member]
  refine ⟨by simp [high], ?_, ?_, member.trans isMember.symm, by simp [running], by simp [running], ?_, ?_, ?_, fun _ => period⟩
  · rw [running, seen]
    exact ⟨fun h => by simp at h, fun h => by simp [h, RingState.isMember] at member⟩
  · rw [running, seen]
    exact ⟨fun h => by simp at h, fun h => by simp [h, RingState.isMember] at member⟩
  · rw [config, isMember]
    rfl
  · intro d same
    cases config.symm.trans same
    exact valid
  · intro no
    rw [isMember] at no
    cases no

/-- The blocks agree about a repeater that reads its image. -/
theorem coherent_of_reading {t : State} (reading : t.cl = ⟨.reading, none⟩)
    (rstn : t.rstnLow = true → t.pu.ringState = .loading) (outside : t.pu.ringState.isMember = false)
    (config : t.config = none) (repeating : t.Repeating) : t.Coherent := by
  have seen : t.ringState = .loading := by simp [State.ringState, reading]
  have isMember : t.isMember = false := by rw [State.isMember, seen]; rfl
  refine ⟨fun low => ⟨by rw [reading], rstn low⟩, by simp [reading, seen], by simp [reading, seen],
    outside.trans isMember.symm, by simp [reading], by simp [reading], by simp [config, isMember], by simp [config],
    fun _ => repeating, by simp [isMember]⟩

/-- The blocks agree about a station whose load has failed. -/
theorem coherent_of_failed {t : State} {code : FaultCode} (failed : t.cl = ⟨.failed, some code⟩) (high : t.rstnLow = false)
    (passive : t.pu.ringState = .passive) (config : t.config = none) (repeating : t.Repeating) : t.Coherent := by
  have seen : t.ringState = .passive := by simp [State.ringState, failed]
  have isMember : t.isMember = false := by rw [State.isMember, seen]; rfl
  refine ⟨by simp [high], by simp [failed, seen], by simp [failed, seen], by rw [passive, isMember]; rfl,
    fun _ => passive, by simp [failed], by simp [config, isMember], by simp [config], fun _ => repeating, by simp [isMember]⟩

/-! What the agreement says -/

namespace State.Coherent
variable {s : State}

theorem loadState_of_member (h : s.Coherent) (member : s.isMember = true) : s.cl.loadState = .done := by
  cases load : s.cl.loadState with
  | reading => rw [State.isMember, h.reading.mp load] at member; cases member
  | failed => rw [State.isMember, h.failed.mp load] at member; cases member
  | done => rfl

theorem cl_of_member (h : s.Coherent) (member : s.isMember = true) : s.cl = ⟨.done, none⟩ := by
  have running := h.loadState_of_member member
  have noFault : s.cl.faultCode = none := by
    have := h.fault
    rw [running] at this
    simpa using this
  rw [← running, ← noFault]

theorem cl_of_reading (h : s.Coherent) (reading : s.cl.loadState = .reading) : s.cl = ⟨.reading, none⟩ := by
  have noFault : s.cl.faultCode = none := by
    have := h.fault
    rw [reading] at this
    simpa using this
  rw [← reading, ← noFault]

theorem high_of_member (h : s.Coherent) (member : s.isMember = true) : s.rstnLow = false := by
  cases low : s.rstnLow with
  | false => rfl
  | true => rw [h.not_member_of_reading (h.rstn low).1] at member; cases member

theorem config_none (h : s.Coherent) (outside : s.isMember = false) : s.config = none := by
  simpa [outside] using h.configured

theorem unit_outside (h : s.Coherent) (outside : s.isMember = false) : s.pu.ringState.isMember = false :=
  h.unit.trans outside

end State.Coherent

/-- A full member stays one under a tame command. -/
theorem Tame.coherent {s t : State} (h : Tame s t) (coherent : s.Coherent) (member : s.isMember = true) : t.Coherent := by
  obtain ⟨c, config, valid⟩ := coherent.member_config member
  exact coherent_of_running (h.cl.trans (coherent.cl_of_member member))
    (h.rstnLow.trans (coherent.high_of_member member)) (h.ring (coherent.unit.trans member))
    (h.period (coherent.period member)) (h.config.trans config) valid

/-! At a repeater -/

/-- What a plain command can change at a repeater: the Ring Port but for the frames of its own, the Control Port, and nothing
else but the contacts' levels. -/
structure Dormant (s t : State) : Prop where
  blocks : t = { s with rp := t.rp, cp := t.cp, keyInputs := t.keyInputs }
  control : t.rp.control = s.rp.control
  audio : t.rp.audio = s.rp.audio

theorem Dormant.refl (s : State) : Dormant s s := ⟨rfl, rfl, rfl⟩

theorem Dormant.of_eq {s t : State} (h : t = s) : Dormant s t := h ▸ Dormant.refl s

theorem Dormant.repeating {s t : State} (h : Dormant s t) (repeating : s.Repeating) : t.Repeating := by
  have queues := repeating.queues
  rw [← h.control, ← h.audio] at queues
  rw [h.blocks] at queues ⊢
  exact ⟨queues, repeating.presence, repeating.cleanups, repeating.zones, repeating.listen, repeating.claims,
    repeating.buffers, repeating.mix, repeating.keys⟩

/-- A repeater stays as it is about the mode. -/
theorem Dormant.coherent {s t : State} (h : Dormant s t) (coherent : s.Coherent) (outside : s.isMember = false) :
    t.Coherent := by
  have repeating := h.repeating (coherent.repeating outside)
  rw [h.blocks] at repeating ⊢
  exact ⟨coherent.rstn, coherent.reading, coherent.failed, coherent.unit, coherent.stays, coherent.fault,
    coherent.configured, coherent.valid, fun _ => repeating, coherent.period⟩

theorem dormant_answer (bytes : List Byte) (s : State) : Dormant s (respond bytes s) := ⟨rfl, rfl, rfl⟩

theorem dormant_cp (s : State) (cp : ControlPort) : Dormant s { s with cp := cp } := ⟨rfl, rfl, rfl⟩

/-! The slots are all FREE, and nothing else has a record -/

theorem claimSent_of_free {s : State} (free : ∀ k ∈ s.cu, k.state = .free) (state : SlotState) (busy : state ≠ .free)
    (slot generation : Byte) : claimSent state slot generation s = s := by
  have same : s.cu.modify slot.toNat (fun k =>
      if k.startsTimer state generation.toNat then { k with returnTimer := some s.returnTimeout } else k) = s.cu := by
    refine List.ext_getElem? fun n => ?_
    rw [List.getElem?_modify]
    cases at_n : s.cu[n]? with
    | none => rfl
    | some k =>
      have idle : k.startsTimer state generation.toNat = false := by
        simp [Slot.startsTimer, free k (List.mem_of_getElem? at_n), Ne.symm busy]
      simp [idle]
  unfold claimSent updateSlot
  rw [same]

theorem forEach_eq_self {α : Type} {act : α → State → State} {s : State} (same : ∀ a, act a s = s) :
    ∀ items : List α, forEach items act s = s
  | [] => rfl
  | a :: rest => by
    change forEach rest act (act a s) = s
    rw [same a, forEach_eq_self same rest]

section Repeating
variable {s : State}

theorem slot_free (repeating : s.Repeating) {n : Nat} {k : Slot} (at_n : s.slot n = some k) :
    k.state = .free ∧ k.durationLeft = none ∧ k.returnTimer = none := repeating.claims k (List.mem_of_getElem? at_n)

theorem zone_none (repeating : s.Repeating) (z : Nat) : s.zone z = none := by
  rw [State.zone, repeating.zones]
  rfl

theorem endEverywhere_none (zones : s.za = []) (reason : Reason) (p : Tag → Bool) : endEverywhere reason p s = s := by
  rw [endEverywhere, State.ownZones, zones]
  rfl

theorem cleanupAtOrigin_free (free : ∀ k ∈ s.cu, k.state = .free) (peer : Nat) : cleanupAtOrigin peer s = s := by
  refine forEach_eq_self (fun n => ?_) _
  unfold cleanupSlot
  split
  · rfl
  · rename_i k at_n
    rw [if_neg]
    simp [free k (List.mem_of_getElem? at_n)]

theorem takeRequest_none (none_waits : s.cleanups = []) (side : CleanupSide) (peer : Nat) (cause : CleanupCause) :
    takeRequest side peer cause s = s := by
  obtain ⟨⟩ := s
  cases none_waits
  rfl

theorem mixStrobe_dormant (repeating : s.Repeating) (outside : s.isMember = false) : mixStrobe s = s := by
  unfold mixStrobe
  rw [if_neg (by simp [outside]), ← repeating.mix.2]

theorem issue_outside (outside : s.isMember = false) (issuer : Issuer) (d : ClaimDesc) :
    ∃ code, issue issuer d s = (.refused code, s) := by
  rcases issue_cases issuer d s with refused | ⟨_, _, -, -, member, -⟩
  · exact refused
  · rw [outside] at member
    cases member

theorem debounceExpiry_dormant (repeating : s.Repeating) (n : Nat) : debounceExpiry n s = s := by
  unfold debounceExpiry
  split
  · rfl
  · rename_i k at_n
    rw [if_neg]
    rw [repeating.keys k (List.mem_of_getElem? at_n)]
    simp [Key.reset]

/-- At a repeater a completed frame is reported to no unit that waits for it. -/
theorem reportSent_dormant (repeating : s.Repeating) (f : Frame) : reportSent f s = s := by
  have free : ∀ k ∈ s.cu, k.state = .free := fun k mem => (repeating.claims k mem).1
  unfold reportSent
  split
  · unfold presenceSent
    rw [if_neg]
    rw [repeating.presence.1]
    simp
  · exact claimSent_of_free free .asking (by decide) _ _
  · exact claimSent_of_free free .committing (by decide) _ _
  all_goals rfl

/-- Arbitration with nothing of the station's own to send. -/
theorem RingPort.arbitrate_of_empty {p : RingPort} (control : p.control = []) (audio : p.audio = []) :
    p.arbitrate.control = [] ∧ p.arbitrate.audio = [] := by
  unfold RingPort.arbitrate
  split
  · exact ⟨control, audio⟩
  · split
    · exact ⟨control, audio⟩
    · split
      · rename_i waiting
        rw [control] at waiting
        cases waiting
      · split
        · rename_i waiting
          rw [audio] at waiting
          cases waiting
        · exact ⟨control, audio⟩

theorem dormant_arbitrate {p : RingPort} (repeating : s.Repeating) (control : p.control = s.rp.control)
    (audio : p.audio = s.rp.audio) : Dormant s { s with rp := p.arbitrate } := by
  obtain ⟨noControl, noAudio⟩ := repeating.queues
  obtain ⟨c, a⟩ := RingPort.arbitrate_of_empty (control.trans noControl) (audio.trans noAudio)
  exact ⟨rfl, c.trans noControl.symm, a.trans noAudio.symm⟩

theorem completeTransmission_dormant (repeating : s.Repeating) : Dormant s (completeTransmission s) := by
  unfold completeTransmission
  split
  · exact Dormant.refl s
  · rw [reportSent_dormant repeating, ite_self]
    exact dormant_arbitrate repeating rfl rfl

theorem arriveFrame_dormant (repeating : s.Repeating) (outside : s.isMember = false) (bytes : List Byte) (cutShort : Bool) :
    Dormant s (arriveFrame bytes cutShort s) := by
  refine arriveFrame_of (Dormant.refl s) ⟨rfl, rfl, rfl⟩ ⟨rfl, rfl, rfl⟩ (fun _ member => ?_)
    (fun _ _ => dormant_arbitrate repeating rfl rfl) fun _ _ member => ?_
  · rw [outside] at member
    cases member
  · rw [outside] at member
    cases member

theorem keyInput_dormant (repeating : s.Repeating) (n : Nat) (closed : Bool) : Dormant s (keyInput n closed s) := by
  unfold keyInput
  split
  · exact Dormant.refl s
  · have same : s.ku.modify n (Key.levelChanged closed) = s.ku := by
      refine List.ext_getElem? fun m => ?_
      rw [List.getElem?_modify]
      cases at_m : s.ku[m]? with
      | none => rfl
      | some k => simp [repeating.keys k (List.mem_of_getElem? at_m), Key.levelChanged, Key.reset]
    exact ⟨by rw [updateKey, same], rfl, rfl⟩

end Repeating

theorem whenMember_dormant {act : State → State} {s : State} (outside : s.isMember = false) : Dormant s (whenMember act s) := by
  refine whenMember_of (Dormant.refl s) (dormant_answer _ s) fun _ member => ?_
  rw [outside] at member
  cases member

theorem onOwnZone_dormant {zone : Byte} {act : Nat → State → State} {s : State} (outside : s.isMember = false) :
    Dormant s (onOwnZone zone act s) := whenMember_dormant outside

theorem answerIssue_dormant {s : State} (outside : s.isMember = false) (issuer : Issuer) (d : ClaimDesc) :
    Dormant s (answerIssue (issue issuer d s)) := by
  obtain ⟨code, refused⟩ := issue_outside outside issuer d
  rw [refused]
  exact dormant_answer _ s

theorem statusCommand_dormant (s : State) : Dormant s (statusCommand s) :=
  whenListening_of (Dormant.refl s) fun _ => ⟨rfl, rfl, rfl⟩

theorem claimCommand_dormant {s : State} (outside : s.isMember = false) (d : Option ClaimDesc) :
    Dormant s (claimCommand d s) := by
  refine whenListening_of (Dormant.refl s) fun _ => ?_
  split
  · exact dormant_answer _ s
  · exact answerIssue_dormant outside _ _

theorem presetCommand_dormant {s : State} (outside : s.isMember = false) (number : Nat) :
    Dormant s (presetCommand number s) := by
  refine whenListening_of (Dormant.refl s) fun _ => ?_
  split
  · exact dormant_answer _ s
  · split
    · exact dormant_answer _ s
    · exact answerIssue_dormant outside _ _

theorem noticeCommand_dormant (s : State) : Dormant s (noticeCommand s) := by
  refine whenListening_of (Dormant.refl s) fun _ => ?_
  split
  · exact dormant_answer _ s
  · exact ⟨rfl, rfl, rfl⟩

theorem setMaskCommand_dormant (masks : Option (List Bool)) (s : State) : Dormant s (setMaskCommand masks s) := by
  refine whenListening_of (Dormant.refl s) fun _ => ?_
  split
  · exact dormant_answer _ s
  · exact ⟨rfl, rfl, rfl⟩

theorem unknownCommand_dormant (s : State) : Dormant s (unknownCommand s) :=
  whenListening_of (Dormant.refl s) fun _ => dormant_answer _ s

theorem after_dormant {c : Instr} (plain : isPlain c = true) {s : State} (repeating : s.Repeating)
    (outside : s.isMember = false) : Dormant s (after c s) := by
  cases c with
  | rstnReset => cases plain
  | loadBegins => cases plain
  | loadSucceeds memory => cases plain
  | loadFails memory => cases plain
  | keyInputChange key closed => cases plain
  | reset => cases plain
  | frameArrival bytes cutShort => cases plain
  | transmissionCompletion => exact completeTransmission_dormant repeating
  | sampleStrobeSend s0 s1 s2 s3 => exact Dormant.of_eq (if_neg (by simp [outside]))
  | blockCompletion s0 s1 s2 s3 => exact Dormant.of_eq (if_neg (by simp [outside]))
  | sampleStrobeMix => exact Dormant.of_eq (mixStrobe_dormant repeating outside)
  | meterWindowEnd => exact Dormant.of_eq (mixStrobe_dormant repeating outside)
  | periodTimerExpiry => exact Dormant.of_eq (if_neg (by simp [repeating.presence]))
  | presenceReturnTimerExpiry => exact Dormant.of_eq (if_neg (by simp [repeating.presence]))
  | ageTimerExpiry peer => exact Dormant.of_eq (if_neg (by simp [State.peer, repeating.presence]))
  | cleanupRequestAtOwner peer cause =>
    refine Dormant.of_eq (?_ : endEverywhere _ _ (takeRequest .owner peer cause s) = s)
    rw [takeRequest_none repeating.cleanups, endEverywhere_none repeating.zones]
  | cleanupRequestAtOrigin peer cause =>
    refine Dormant.of_eq (?_ : cleanupAtOrigin peer (takeRequest .origin peer cause s) = s)
    rw [takeRequest_none repeating.cleanups, cleanupAtOrigin_free fun k mem => (repeating.claims k mem).1]
  | holdTimerExpiry zone =>
    refine Dormant.of_eq (?_ : holdExpiryAt zone s = s)
    rw [holdExpiryAt, dropReservation, zone_none repeating]
    rfl
  | autoEndTimerExpiry zone tag =>
    refine Dormant.of_eq (?_ : autoEndExpiryAt zone tag s = s)
    rw [autoEndExpiryAt, zone_none repeating]
  | lapseTimerExpiry tag =>
    exact Dormant.of_eq (if_neg (by simp [State.listenEntry, repeating.listen]))
  | claimReturnTimerExpiry slot =>
    refine Dormant.of_eq (?_ : returnExpiry slot s = s)
    unfold returnExpiry
    split
    · rfl
    · rename_i k at_n
      exact if_neg (by simp [slot_free repeating at_n])
  | durationTimerExpiry slot =>
    refine Dormant.of_eq (?_ : durationExpiry slot s = s)
    unfold durationExpiry
    split
    · rfl
    · rename_i k at_n
      exact if_neg (by simp [slot_free repeating at_n])
  | debounceTimerExpiry key => exact Dormant.of_eq (debounceExpiry_dormant repeating key)
  | status => exact statusCommand_dormant s
  | claim count places level mode wait gain duration port => exact claimCommand_dormant outside _
  | claimPreset number => exact presetCommand_dormant outside _
  | endClaim slot generation => exact (whenMember_dormant outside : Dormant s (endCommand _ _ s))
  | claimStatus slot => exact (whenMember_dormant outside : Dormant s (claimStatusCommand _ s))
  | zoneStatus zone => exact (onOwnZone_dormant outside : Dormant s (zoneStatusCommand _ s))
  | setFloor zone floor => exact (onOwnZone_dormant outside : Dormant s (setFloorCommand _ _ s))
  | setTrim zone trim => exact (onOwnZone_dormant outside : Dormant s (setTrimCommand _ _ s))
  | clearZone zone => exact (onOwnZone_dormant outside : Dormant s (clearZoneCommand _ s))
  | meter zone => exact (onOwnZone_dormant outside : Dormant s (meterCommand _ s))
  | notice => exact noticeCommand_dormant s
  | setMask m0 m1 m2 m3 => exact setMaskCommand_dormant _ s
  | peers => exact (whenMember_dormant outside : Dormant s (peersCommand s))
  | badCommand command => exact unknownCommand_dormant s
  | transactionCutShort clocked => exact Dormant.refl s

/-! Resets and loads -/

theorem hardReset_coherent (s : State) : (hardReset s).Coherent :=
  coherent_of_reading rfl (fun _ => rfl) rfl rfl
    ⟨⟨rfl, rfl⟩, ⟨rfl, rfl, rfl⟩, rfl, rfl, rfl,
      fun k mem => by rw [List.eq_of_mem_replicate mem]; exact ⟨rfl, rfl, rfl⟩, by simp [hardReset, State.reset],
      ⟨rfl, rfl⟩, fun k mem => List.eq_of_mem_replicate mem⟩

theorem beginLoad_coherent {s : State} (h : s.Coherent) : (beginLoad s).Coherent := by
  unfold beginLoad
  split
  · rename_i low
    obtain ⟨reading, loading⟩ := h.rstn low
    have outside := h.not_member_of_reading reading
    have repeating := h.repeating outside
    exact coherent_of_reading rfl (fun low => nomatch low) (h.unit_outside outside) (h.config_none outside)
      ⟨repeating.queues, repeating.presence, repeating.cleanups, repeating.zones, repeating.listen, repeating.claims,
        repeating.buffers, repeating.mix, repeating.keys⟩
  · exact h

/-- JOINING entered at a configured station. -/
theorem enterJoining_coherent {s : State} {c : Configuration} (running : s.cl = ⟨.done, none⟩) (high : s.rstnLow = false)
    (config : s.config = some c) (valid : ConfigValid c) : (enterJoining s).Coherent := by
  have entered := enterJoining_tame_set s
  exact coherent_of_running (entered.cl.trans running) (entered.rstnLow.trans high) (entered.ring rfl) rfl
    (entered.config.trans config) valid

theorem endLoad_coherent (memory : List Byte) {s : State} (h : s.Coherent) : (endLoad memory s).Coherent := by
  unfold endLoad
  split
  · rename_i loading
    obtain ⟨reading, high⟩ := loading
    split
    · rename_i c taken
      exact enterJoining_coherent rfl high rfl (loadedConfigurationInRange memory c taken)
    · rename_i code _
      have outside := h.not_member_of_reading reading
      have repeating := h.repeating outside
      have failed : ({ s with
          cl := { loadState := .failed, faultCode := some code }
          pu := { s.pu with ringState := .passive } } : State).Coherent :=
        coherent_of_failed rfl high rfl (h.config_none outside)
          ⟨repeating.queues, repeating.presence, repeating.cleanups, repeating.zones, repeating.listen, repeating.claims,
            repeating.buffers, repeating.mix, repeating.keys⟩
      refine Dormant.coherent (s := _) ?_ failed rfl
      unfold loadFailed post
      split <;> exact dormant_cp _ _
  · exact h

theorem softReset_coherent {s : State} (h : s.Coherent) (high : s.rstnLow = false) : (softReset s).Coherent := by
  unfold softReset
  split
  · rename_i member
    split
    · rename_i c config
      exact enterJoining_coherent (h.cl_of_member member) high config (h.valid c config)
    · exact h
  · rename_i outside
    have outside : s.isMember = false := by simpa using outside
    have repeating := h.repeating outside
    exact coherent_of_reading rfl (fun low => absurd (high.symm.trans low) (by decide)) (h.unit_outside outside)
      (h.config_none outside)
      ⟨repeating.queues, repeating.presence, repeating.cleanups, repeating.zones, repeating.listen, repeating.claims,
        repeating.buffers, repeating.mix, repeating.keys⟩

theorem respond_coherent {s : State} (h : s.Coherent) (bytes : List Byte) : (respond bytes s).Coherent :=
  ⟨h.rstn, h.reading, h.failed, h.unit, h.stays, h.fault, h.configured, h.valid,
    fun outside => (dormant_answer bytes s).repeating (h.repeating outside), h.period⟩

theorem resetCommand_coherent {s : State} (h : s.Coherent) : (resetCommand s).Coherent :=
  whenListening_of h fun high => respond_coherent (softReset_coherent h high) _

theorem keyInput_coherent (n : Nat) (closed : Bool) {s : State} (h : s.Coherent) : (keyInput n closed s).Coherent := by
  cases member : s.isMember with
  | false => exact (keyInput_dormant (h.repeating member) n closed).coherent h member
  | true =>
    obtain ⟨c, config, valid⟩ := h.member_config member
    unfold keyInput
    split
    · exact h
    · exact coherent_of_running (h.cl_of_member member) (h.high_of_member member) (h.unit.trans member) (h.period member)
        config valid

theorem arriveFrame_coherent (bytes : List Byte) (cutShort : Bool) {s : State} (h : s.Coherent) :
    (arriveFrame bytes cutShort s).Coherent := by
  cases member : s.isMember with
  | false => exact (arriveFrame_dormant (h.repeating member) member bytes cutShort).coherent h member
  | true => exact (arriveFrame_tame bytes cutShort h.member_address).coherent h member

theorem after_coherent (c : Instr) {s : State} (h : s.Coherent) : (after c s).Coherent := by
  by_cases plain : isPlain c = true
  · cases member : s.isMember with
    | false => exact (after_dormant plain (h.repeating member) member).coherent h member
    | true => exact (after_tame plain s).coherent h member
  · cases c with
    | rstnReset => exact hardReset_coherent s
    | loadBegins => exact beginLoad_coherent h
    | loadSucceeds memory => exact endLoad_coherent memory h
    | loadFails memory => exact endLoad_coherent memory h
    | frameArrival bytes cutShort => exact arriveFrame_coherent bytes cutShort h
    | keyInputChange key closed => exact keyInput_coherent key closed h
    | reset => exact resetCommand_coherent h
    | _ => exact absurd rfl plain

/-- A millisecond at a repeater, where no timer runs. -/
theorem State.Repeating.tick {s : State} (h : s.Repeating) : (tick s).Repeating := by
  refine ⟨h.queues, ?_, h.cleanups, ?_, ?_, ?_, h.buffers, h.mix, ?_⟩
  · simp [Machine.tick, PresenceUnit.oneLess, Machine.oneLess, h.presence]
  · simp [Machine.tick, h.zones]
  · simp [Machine.tick, h.listen]
  · intro k mem
    obtain ⟨q, known, rfl⟩ := List.mem_map.mp mem
    simp [Slot.oneLess, Machine.oneLess, h.claims q known]
  · intro k mem
    obtain ⟨q, known, rfl⟩ := List.mem_map.mp mem
    rw [h.keys q known]
    rfl

theorem tick_coherent {s : State} (h : s.Coherent) : (tick s).Coherent :=
  ⟨h.rstn, h.reading, h.failed, h.unit, h.stays, h.fault, h.configured, h.valid, fun outside => (h.repeating outside).tick,
    fun member => by simpa [tick, PresenceUnit.oneLess, oneLess] using h.period member⟩

/-! The shape -/

/-- The generations stay below 16, and the slots eight. -/
theorem Advances.slots {s t : State} (h : Advances s t) (slots : s.cu.length = 8)
    (generations : ∀ k ∈ s.cu, k.generation < 16) : t.cu.length = 8 ∧ ∀ k ∈ t.cu, k.generation < 16 := by
  obtain ⟨length, moved⟩ := h
  refine ⟨length.trans slots, fun q mem => ?_⟩
  obtain ⟨n, inside, rfl⟩ := List.getElem_of_mem mem
  have was : s.slot n = some (s.cu[n]'(length ▸ inside)) := List.getElem?_eq_getElem _
  rcases moved n _ _ was (List.getElem?_eq_getElem inside) with same | ⟨-, next⟩
  · exact same ▸ generations _ (List.getElem_mem _)
  · rw [next]
    exact Nat.mod_lt _ (by decide)

theorem Tame.shaped {s t : State} (h : Tame s t) (advances : Advances s t) (shaped : s.Shaped) : t.Shaped := by
  obtain ⟨slots, generations⟩ := advances.slots shaped.slots shaped.generations
  exact ⟨slots, generations, h.keys.trans shaped.keys, (congrArg List.length h.keyInputs).trans shaped.inputs,
    h.buffers shaped.buffers, h.ports shaped.ports, h.masks shaped.masks⟩

theorem hardReset_shaped {s : State} (h : s.Shaped) : (hardReset s).Shaped :=
  ⟨rfl, fun k mem => by rw [List.eq_of_mem_replicate mem]; decide, rfl, h.inputs, rfl, rfl, rfl⟩

theorem sampledKeys_length (s : State) : s.sampledKeys.length = 4 := by simp [State.sampledKeys]

theorem enterJoining_shaped {s : State} (h : s.Shaped) : (enterJoining s).Shaped :=
  (enterJoining_tame_set s).shaped (enterJoining_talks s).generations.advances
    ⟨h.slots, h.generations, h.keys, h.inputs, h.buffers, h.ports, h.masks⟩

theorem endLoad_shaped (memory : List Byte) {s : State} (h : s.Shaped) : (endLoad memory s).Shaped := by
  unfold endLoad
  split
  · split
    · exact enterJoining_shaped ⟨h.slots, h.generations, sampledKeys_length _, h.inputs, h.buffers, h.ports, h.masks⟩
    · unfold loadFailed post
      split <;> exact ⟨h.slots, h.generations, h.keys, h.inputs, h.buffers, h.ports, h.masks⟩
  · exact h

theorem softReset_shaped {s : State} (h : s.Shaped) : (softReset s).Shaped := by
  unfold softReset
  split
  · split
    · refine enterJoining_shaped ⟨(List.length_map _).trans h.slots, fun k mem => ?_, sampledKeys_length _, h.inputs, rfl,
        h.ports, rfl⟩
      obtain ⟨q, known, rfl⟩ := List.mem_map.mp mem
      exact h.generations q known
    · exact h
  · exact ⟨h.slots, h.generations, h.keys, h.inputs, h.buffers, h.ports, rfl⟩

theorem resetCommand_shaped {s : State} (h : s.Shaped) : (resetCommand s).Shaped :=
  whenListening_of h fun _ =>
    have reset := softReset_shaped h
    ⟨reset.slots, reset.generations, reset.keys, reset.inputs, reset.buffers, reset.ports, reset.masks⟩

theorem beginLoad_shaped {s : State} (h : s.Shaped) : (beginLoad s).Shaped := by
  unfold beginLoad
  split
  · exact ⟨h.slots, h.generations, h.keys, h.inputs, h.buffers, h.ports, h.masks⟩
  · exact h

theorem keyInput_shaped (n : Nat) (closed : Bool) {s : State} (h : s.Shaped) : (keyInput n closed s).Shaped := by
  unfold keyInput
  split
  · exact h
  · exact ⟨h.slots, h.generations, (List.length_modify ..).trans h.keys, (List.length_set ..).trans h.inputs, h.buffers,
      h.ports, h.masks⟩

theorem tick_shaped {s : State} (h : s.Shaped) : (tick s).Shaped := by
  refine ⟨(List.length_map _).trans h.slots, fun k mem => ?_, (List.length_map _).trans h.keys, h.inputs, h.buffers, h.ports,
    h.masks⟩
  obtain ⟨q, known, rfl⟩ := List.mem_map.mp mem
  exact h.generations q known

theorem after_shaped (c : Instr) {s : State} (coherent : s.Coherent) (h : s.Shaped) : (after c s).Shaped := by
  by_cases plain : isPlain c = true
  · exact (after_tame plain s).shaped (after_advances (by rintro rfl; cases plain) s) h
  · cases c with
    | rstnReset => exact hardReset_shaped h
    | loadBegins => exact beginLoad_shaped h
    | loadSucceeds memory => exact endLoad_shaped memory h
    | loadFails memory => exact endLoad_shaped memory h
    | frameArrival bytes cutShort =>
      exact (arriveFrame_tame bytes cutShort coherent.member_address).shaped
        (arriveFrame_generations bytes cutShort s).advances h
    | keyInputChange key closed => exact keyInput_shaped key closed h
    | reset => exact resetCommand_shaped h
    | _ => exact absurd rfl plain

theorem State.Shaped.withPending {s : State} (h : s.Shaped) (rest : List Instr) : (s.withPending rest).Shaped :=
  ⟨h.slots, h.generations, h.keys, h.inputs, h.buffers, h.ports, h.masks⟩

/-- Settles O58. -/
theorem stepKeepsTheModeCoherent : Obligations.StepKeepsTheModeCoherent := by
  intro s t shaped coherent next
  rcases step_cases next with ⟨c, rest, -, rfl⟩ | ⟨c, rfl⟩ | rfl
  · exact ⟨after_shaped c (coherent.withPending rest) (shaped.withPending rest), after_coherent c (coherent.withPending rest)⟩
  · exact ⟨after_shaped c coherent shaped, after_coherent c coherent⟩
  · exact ⟨tick_shaped shaped, tick_coherent coherent⟩

end Sys2Proof.Machine
end


section
/-! SUPPORT. What the commands do to the zone records and the listen table, taken apart: every plain command is a run of acts of the
Zone Arbiter and the Listen Unit, so a law of the two is kept by every command when each of those acts keeps it. -/

namespace Sys2Proof.Machine

/-- The runs of acts on the zone records and the listen table, everything else aside. -/
inductive Acts : State → State → Prop
  | aside {s t : State} : Aside s t → Acts s t
  | trans {s t u : State} : Acts s t → Acts t u → Acts s u
  | answer {z : Nat} {r : ZoneRecord} {s : State} (t : Terms) : s.zone z = some r → Acts s (answer z t r s).2
  | held {z : Nat} {r : ZoneRecord} {s : State} (t : Terms) : s.zone z = some r → r.isPlaced t.tag = false →
      Acts s (commitHeld z t r s).2
  | waiting {z : Nat} {r : ZoneRecord} {s : State} (t : Terms) : s.zone z = some r → r.isPlaced t.tag = false →
      Acts s (commitWaiting z t r s).2
  | ends (reason : Reason) (p : Tag → Bool) (z : Nat) (s : State) : Acts s (endWhere reason p z s)
  | drop (z : Nat) (p : Tag → Bool) (s : State) : Acts s (dropReservation z p s)
  | floor {f : Nat} (z : Nat) (s : State) : 1 ≤ f ∧ f ≤ 7 → Acts s (setFloorAt z f s)
  | autoEnd (z : Nat) (t : Tag) (s : State) : Acts s (autoEndExpiryAt z t s)
  | lapse (t : Tag) (s : State) : Acts s (lapseExpiry t s)
  | samples (t : Tag) (block : List Sample) (s : State) : Acts s (arriveSamples t block s)
  | yields (s : State) : Acts s { s with lu := s.lu.map ListenEntry.afterYield }

namespace Acts

theorem refl (s : State) : Acts s s := .aside (Aside.refl s)

theorem of_same {s t : State} (za : t.za = s.za) (lu : t.lu = s.lu) (config : t.config = s.config) : Acts s t :=
  .aside ⟨za, lu, config⟩

theorem of_talks {s t : State} (h : Talks s t) : Acts s t := of_same h.za h.lu h.config

end Acts

theorem forEach_acts {α : Type} {act : α → State → State} (one : ∀ a s, Acts s (act a s)) :
    ∀ (items : List α) (s : State), Acts s (forEach items act s)
  | [], s => .refl s
  | a :: rest, s => (one a s).trans (forEach_acts one rest (act a s))

theorem eachEntry_acts {take : WireEntry → State → WireEntry × State} (one : ∀ e s, Acts s (take e s).2) :
    ∀ (entries : List WireEntry) (s : State), Acts s (eachEntry take entries s).2
  | [], s => .refl s
  | e :: rest, s => (one e s).trans (eachEntry_acts one rest (take e s).2)

/-! The Zone Arbiter's events -/

theorem answerEntry_acts (t : Terms) (e : WireEntry) (s : State) : Acts s (answerEntry t e s).2 := by
  unfold answerEntry
  split
  · exact .refl s
  · rename_i r at_z
    split
    · exact .answer t at_z
    · exact .aside (post_aside _ s)

theorem claimAtOwner_acts (origin : Nat) (c : Content) (s : State) : Acts s (claimAtOwner origin c s).2 :=
  eachEntry_acts (answerEntry_acts _) _ s

theorem acknowledgeEntry_acts (t : Terms) (e : WireEntry) (s : State) : Acts s (acknowledgeEntry t e s).2 := by
  unfold acknowledgeEntry
  split
  · exact .refl s
  · rename_i r at_z
    split
    · split
      · split
        · exact .refl s
        · exact .held t at_z (Bool.not_eq_true _ ▸ ‹_›)
      · split
        · exact .refl s
        · exact .waiting t at_z (Bool.not_eq_true _ ▸ ‹_›)
      · exact .refl s
    · exact .refl s

theorem commitAtOwner_acts (origin : Nat) (c : Content) (s : State) : Acts s (commitAtOwner origin c s).2 :=
  eachEntry_acts (acknowledgeEntry_acts _) _ s

theorem endEverywhere_acts (reason : Reason) (p : Tag → Bool) (s : State) : Acts s (endEverywhere reason p s) :=
  forEach_acts (fun z s => .ends reason p z s) _ s

/-! Claims at the origin -/

theorem updateSlot_acts (n : Nat) (f : Slot → Slot) (s : State) : Acts s (updateSlot n f s) := .of_same rfl rfl rfl

theorem storeControl_acts (destination : Nat) (m : Message) (s : State) : Acts s (storeControl destination m s) :=
  .of_same rfl rfl rfl

theorem finishClaim_acts (n : Nat) (o : ClaimOutcome) (s : State) : Acts s (finishClaim n o s) :=
  .aside (finishClaim_aside n o s)

theorem withdrawClaim_acts (n : Nat) (s : State) : Acts s (withdrawClaim n s) := by
  unfold withdrawClaim
  split
  · exact .refl s
  · simp only
    split
    · exact (endEverywhere_acts _ _ s).trans (storeControl_acts _ _ _)
    · exact endEverywhere_acts _ _ s

theorem withdrawAndFinish_acts (n : Nat) (o : ClaimOutcome) (s : State) : Acts s (withdrawAndFinish n o s) :=
  (withdrawClaim_acts n s).trans (finishClaim_acts n o _)

theorem enterLive_acts (n : Nat) (s : State) : Acts s (enterLive n s) := by
  unfold enterLive
  split
  · exact .refl s
  · exact (updateSlot_acts n _ s).trans (.trans (.aside (post_aside _ _)) (.aside (allTerminalTest_aside n _)))

theorem commitDecision_acts (n : Nat) (wire : List WireEntry) (s : State) : Acts s (commitDecision n wire s) := by
  unfold commitDecision
  split
  · exact .refl s
  · split
    · exact enterLive_acts n s
    · split
      · exact withdrawAndFinish_acts n _ s
      · exact finishClaim_acts n _ s

theorem takeCommitReturn_acts (n : Nat) (wire : List WireEntry) (s : State) : Acts s (takeCommitReturn n wire s) :=
  (updateSlot_acts n _ s).trans (commitDecision_acts n wire _)

theorem runCommit_acts (n : Nat) (k : Slot) (i : ClaimInfo) (s : State) : Acts s (runCommit n k i s) := by
  have committing := updateSlot_acts n
    (fun k => { k.withEntries (k.entries.map ZoneEntry.toCommit) with state := .committing }) s
  unfold runCommit
  simp only
  split
  · have aside : ∀ u : State, Acts u (setPlaceAside u) := fun u => .of_same rfl rfl rfl
    exact ((committing.trans (aside _)).trans (commitAtOwner_acts _ _ _)).trans (.of_same rfl rfl rfl)
  · exact (committing.trans (commitAtOwner_acts _ _ _)).trans (takeCommitReturn_acts n _ _)

theorem commitClaim_acts (n : Nat) (s : State) : Acts s (commitClaim n s) := by
  unfold commitClaim
  split
  · exact .refl s
  · split
    · exact .refl s
    · split
      · exact finishClaim_acts n _ s
      · exact runCommit_acts n _ _ s

theorem claimDecision_acts (n : Nat) (s : State) : Acts s (claimDecision n s) := by
  unfold claimDecision
  split
  · exact .refl s
  · split
    · exact commitClaim_acts n s
    · split
      · exact withdrawAndFinish_acts n _ s
      · exact finishClaim_acts n _ s

theorem takeClaimReturn_acts (n : Nat) (wire : List WireEntry) (s : State) : Acts s (takeClaimReturn n wire s) :=
  (updateSlot_acts n _ s).trans (claimDecision_acts n _)

theorem claimReturned_acts (c : Content) (s : State) : Acts s (claimReturned c s) := by
  unfold claimReturned
  split
  · exact .refl s
  · split
    · exact takeClaimReturn_acts _ _ s
    · exact .refl s

theorem commitReturned_acts (c : Content) (s : State) : Acts s (commitReturned c s) := by
  unfold commitReturned
  split
  · exact .refl s
  · split
    · exact takeCommitReturn_acts _ _ s
    · exact .refl s

theorem runIssue_acts (n : Nat) (k : Slot) (i : ClaimInfo) (s : State) : Acts s (runIssue n k i s) := by
  have answered := (updateSlot_acts n (Slot.taken i) s).trans
    (claimAtOwner_acts s.address (claimContentOf n ((k.generation + 1) % 16) i) _)
  unfold runIssue
  simp only
  split
  · exact answered.trans (storeControl_acts _ _ _)
  · exact answered.trans (takeClaimReturn_acts n _ _)

theorem issue_acts (issuer : Issuer) (d : ClaimDesc) (s : State) : Acts s (issue issuer d s).2 := by
  rcases issue_cases issuer d s with ⟨code, refused⟩ | ⟨n, k, -, -, -, -, -, accepted⟩
  · rw [refused]
    exact .refl s
  · rw [accepted]
    exact runIssue_acts n k _ s

theorem endRequest_acts (n generation : Nat) (s : State) : Acts s (endRequest n generation s).2 := by
  unfold endRequest
  split
  · exact withdrawAndFinish_acts n _ s
  · exact .refl s

theorem durationExpiry_acts (n : Nat) (s : State) : Acts s (durationExpiry n s) := by
  unfold durationExpiry
  split
  · exact .refl s
  · split
    · exact withdrawAndFinish_acts n _ s
    · exact .refl s

theorem returnExpiry_acts (n : Nat) (s : State) : Acts s (returnExpiry n s) := by
  unfold returnExpiry
  split
  · exact .refl s
  · split
    · exact withdrawAndFinish_acts n _ s
    · exact .refl s

theorem claimSent_acts (state : SlotState) (slot generation : Byte) (s : State) :
    Acts s (claimSent state slot generation s) := .of_same rfl rfl rfl

theorem cleanupAtOrigin_acts (peer : Nat) (s : State) : Acts s (cleanupAtOrigin peer s) := by
  refine forEach_acts (fun n s => ?_) _ s
  unfold cleanupSlot
  split
  · exact .refl s
  · split
    · refine ((updateSlot_acts n _ s).trans (forEach_acts (fun _ _ => ?_) _ _)).trans (.aside (allTerminalTest_aside n _))
      exact .aside (post_aside _ _)
    · exact .refl s

/-! Arrivals and completions -/

theorem returnOwn_acts (f : Frame) (s : State) : Acts s (returnOwn f s) := by
  unfold returnOwn
  split
  · exact .of_talks (presenceReturned_talks _ _ _ s)
  · exact claimReturned_acts _ s
  · exact commitReturned_acts _ s
  all_goals exact .refl s

theorem dispatch_acts (f : Frame) (m : Message) (s : State) : Acts s (dispatch f m s).2 := by
  cases m with
  | presence sequence flags first last => exact .of_talks (presenceFromPeer_talks _ _ _ _ s)
  | claim c => exact claimAtOwner_acts _ c s
  | commit c => exact commitAtOwner_acts _ c s
  | withdraw slot generation => exact endEverywhere_acts _ _ s
  | notice slot generation zone event reason =>
    simp only [dispatch]
    split
    · unfold noticeArrived
      split
      · exact .aside (applyNotice_aside _ _ _ _ _ s)
      · exact .refl s
    · exact .refl s
  | audio slot generation samples => exact .samples _ _ s

theorem arriveFrame_acts (bytes : List Byte) (cutShort : Bool) (s : State) : Acts s (arriveFrame bytes cutShort s) :=
  arriveFrame_of (.refl s) (.of_talks (countCheckError_talks s)) (.of_talks (countOverrun_talks s))
    (fun f _ => returnOwn_acts f s) (fun f _ => .of_talks (passOn_talks f s))
    fun f m _ _ _ _ => (dispatch_acts f m s).trans (.of_talks (passOn_talks _ _))

theorem completeTransmission_acts (s : State) : Acts s (completeTransmission s) := by
  unfold completeTransmission
  split
  · exact .refl s
  · refine .trans ?_ (.of_talks (freeLine_talks _))
    split
    · unfold reportSent
      split
      · exact .of_talks (presenceSent_talks _ s)
      · exact claimSent_acts _ _ _ s
      · exact claimSent_acts _ _ _ s
      all_goals exact .refl s
    · exact .refl s

/-! Strobes -/

theorem sendBlockToSlot_acts (p : Nat) (block : List Sample) (n : Nat) (s : State) :
    Acts s (sendBlockToSlot p block n s) := by
  unfold sendBlockToSlot
  split
  · exact .refl s
  · rename_i k _
    split
    · have sent : Acts s (if k.info.any fun i => i.cls == .ofRing then
          storeAudio (.audio (byteOf n) (byteOf k.generation) block) s else s) := by
        split
        · exact .of_same rfl rfl rfl
        · exact .refl s
      unfold sendBlockFor
      simp only
      split
      · exact sent.trans (.samples _ _ _)
      · exact sent
    · exact .refl s

theorem sendPort_acts (p : Nat) (s : State) : Acts s (sendPort p s) := forEach_acts (sendBlockToSlot_acts p _) _ s

theorem completeBlocks_acts (s : State) : Acts s (completeBlocks s) := by
  have sent := forEach_acts sendPort_acts [0, 1, 2, 3] s
  unfold completeBlocks
  generalize forEach [0, 1, 2, 3] sendPort s = t at sent
  exact sent.trans (.of_same rfl rfl rfl)

theorem sendStrobe_acts (samples : List Sample) (s : State) : Acts s (sendStrobe samples s) := by
  have read : Acts s (readPorts samples s) := .of_same rfl rfl rfl
  unfold sendStrobe
  simp only
  split
  · split
    · exact read.trans (completeBlocks_acts _)
    · exact read
  · exact .refl s

theorem mixStrobe_acts (s : State) : Acts s (mixStrobe s) := by
  unfold mixStrobe
  split
  · exact (Acts.yields s).trans
      (.trans (t := { s with lu := s.lu.map ListenEntry.afterYield, me := ⟨s.meteredZones, s.zoneOutputs⟩ })
        (.of_same rfl rfl rfl) (.of_talks (forEach_post_talks _ _)))
  · exact .of_same rfl rfl rfl

/-! Keys -/

theorem keyIssue_acts (n : Nat) (b : KeyBinding) (d : ClaimDesc) (s : State) : Acts s (keyIssue n b d s) := by
  have issued := issue_acts (.key n) d s
  unfold keyIssue
  simp only
  split
  · split
    · exact issued.trans (.of_same rfl rfl rfl)
    · exact issued
  · exact issued.trans (.aside (post_aside _ _))

theorem keyEnd_acts (n : Nat) (m : Nat × Nat) (s : State) : Acts s (keyEnd n m s) :=
  (endRequest_acts m.1 m.2 s).trans (.of_same rfl rfl rfl)

theorem keyChanged_acts (n : Nat) (closed : Bool) (s : State) : Acts s (keyChanged n closed s) := by
  unfold keyChanged
  split
  · unfold keyPress
    split
    · exact .refl s
    · split
      · exact keyIssue_acts _ _ _ s
      · split
        · exact keyEnd_acts _ _ s
        · exact keyIssue_acts _ _ _ s
  · unfold keyRelease
    split
    · exact .refl s
    · split
      · split
        · exact keyEnd_acts _ _ s
        · exact .refl s
      · exact .refl s

theorem debounceExpiry_acts (n : Nat) (s : State) : Acts s (debounceExpiry n s) := by
  unfold debounceExpiry
  split
  · exact .refl s
  · split
    · have settled : Acts s (updateKey n (fun k => { k with debounced := some (keyStateOf (s.keyClosed n)), timer := none }) s) :=
        .of_same rfl rfl rfl
      simp only
      split
      · exact settled
      · exact settled.trans (keyChanged_acts _ _ _)
    · exact .refl s

theorem keyInput_acts (n : Nat) (closed : Bool) (s : State) : Acts s (keyInput n closed s) := by
  unfold keyInput
  split
  · exact .refl s
  · exact .of_same rfl rfl rfl

/-! The Control Port -/

theorem answerCode_acts (code : ResultCode) (s : State) : Acts s (answerCode code s) := .of_same rfl rfl rfl

theorem answerIssue_acts {issued : IssueResult × State} {s : State} (h : Acts s issued.2) : Acts s (answerIssue issued) := by
  unfold answerIssue
  split
  · exact h.trans (.of_same rfl rfl rfl)
  · exact h.trans (.of_same rfl rfl rfl)

theorem claimCommand_acts (d : Option ClaimDesc) (s : State) : Acts s (claimCommand d s) := by
  refine whenListening_of (.refl s) fun _ => ?_
  split
  · exact answerCode_acts _ s
  · exact answerIssue_acts (issue_acts _ _ s)

theorem presetCommand_acts (number : Nat) (s : State) : Acts s (presetCommand number s) := by
  refine whenListening_of (.refl s) fun _ => ?_
  split
  · exact answerCode_acts _ s
  · split
    · exact answerCode_acts _ s
    · exact answerIssue_acts (issue_acts _ _ s)

theorem endCommand_acts (slot generation : Nat) (s : State) : Acts s (endCommand slot generation s) := by
  refine whenMember_of (.refl s) (answerCode_acts _ s) fun _ _ => ?_
  split
  · exact (endRequest_acts _ _ s).trans (answerCode_acts _ _)
  · exact answerCode_acts _ s

theorem setFloorCommand_acts (zone floor : Byte) (s : State) : Acts s (setFloorCommand zone floor s) := by
  refine onOwnZone_of (.refl s) (fun _ => answerCode_acts _ s) fun _ _ _ => ?_
  split
  · rename_i valid
    simp only [isFloor, Bool.and_eq_true, decide_eq_true_eq] at valid
    exact (Acts.floor _ s valid).trans (answerCode_acts _ _)
  · exact answerCode_acts _ s

theorem setTrimCommand_acts (zone trim : Byte) (s : State) : Acts s (setTrimCommand zone trim s) := by
  refine onOwnZone_of (.refl s) (fun _ => answerCode_acts _ s) fun _ _ _ => ?_
  split
  · exact .of_same rfl rfl rfl
  · exact answerCode_acts _ s

theorem clearZoneCommand_acts (zone : Byte) (s : State) : Acts s (clearZoneCommand zone s) :=
  onOwnZone_of (.refl s) (fun _ => answerCode_acts _ s) fun _ _ _ => (Acts.ends _ _ _ s).trans (answerCode_acts _ _)

theorem meterCommand_acts (zone : Byte) (s : State) : Acts s (meterCommand zone s) := by
  refine onOwnZone_of (.refl s) (fun _ => answerCode_acts _ s) fun _ _ _ => ?_
  split
  · exact answerCode_acts _ s
  · exact .of_same rfl rfl rfl

/-! Every command -/

/-- The commands that neither reset the station nor end a load. -/
def keepsZones : Instr → Bool
  | .rstnReset | .loadBegins | .loadSucceeds _ | .loadFails _ | .reset => false
  | _ => true

theorem after_acts {c : Instr} (kept : keepsZones c = true) (s : State) : Acts s (after c s) := by
  cases c with
  | rstnReset => cases kept
  | loadBegins => cases kept
  | loadSucceeds memory => cases kept
  | loadFails memory => cases kept
  | reset => cases kept
  | frameArrival bytes cutShort => exact arriveFrame_acts bytes cutShort s
  | transmissionCompletion => exact completeTransmission_acts s
  | sampleStrobeSend s0 s1 s2 s3 => exact sendStrobe_acts _ s
  | blockCompletion s0 s1 s2 s3 => exact sendStrobe_acts _ s
  | sampleStrobeMix => exact mixStrobe_acts s
  | meterWindowEnd => exact mixStrobe_acts s
  | periodTimerExpiry => exact .of_talks (periodExpiry_talks s)
  | presenceReturnTimerExpiry => exact .of_talks (presenceReturnExpiry_talks s)
  | ageTimerExpiry peer => exact .of_talks (ageExpiry_talks peer s)
  | cleanupRequestAtOwner peer cause =>
    exact (Acts.of_talks (takeRequest_talks .owner peer cause s)).trans (endEverywhere_acts _ _ _)
  | cleanupRequestAtOrigin peer cause =>
    exact (Acts.of_talks (takeRequest_talks .origin peer cause s)).trans (cleanupAtOrigin_acts peer _)
  | holdTimerExpiry zone => exact .drop zone (fun _ => true) s
  | autoEndTimerExpiry zone tag => exact .autoEnd zone tag s
  | lapseTimerExpiry tag => exact .lapse tag s
  | claimReturnTimerExpiry slot => exact returnExpiry_acts slot s
  | durationTimerExpiry slot => exact durationExpiry_acts slot s
  | keyInputChange key closed => exact keyInput_acts key closed s
  | debounceTimerExpiry key => exact debounceExpiry_acts key s
  | status => exact .of_talks (statusCommand_talks s)
  | claim count places level mode wait gain duration port => exact claimCommand_acts _ s
  | claimPreset number => exact presetCommand_acts _ s
  | endClaim slot generation => exact endCommand_acts _ _ s
  | claimStatus slot => exact .of_talks (claimStatusCommand_talks _ s)
  | zoneStatus zone => exact .of_talks (zoneStatusCommand_talks zone s)
  | setFloor zone floor => exact setFloorCommand_acts zone floor s
  | setTrim zone trim => exact setTrimCommand_acts zone trim s
  | clearZone zone => exact clearZoneCommand_acts zone s
  | meter zone => exact meterCommand_acts zone s
  | notice => exact .of_talks (noticeCommand_talks s)
  | setMask m0 m1 m2 m3 => exact .of_talks (setMaskCommand_talks _ s)
  | peers => exact .of_talks (peersCommand_talks s)
  | badCommand command => exact .of_talks (unknownCommand_talks s)
  | transactionCutShort clocked => exact .refl s

end Sys2Proof.Machine
end


section
/-! SUPPORT. What each act of the Zone Arbiter makes of its zone's record, and that each leaves every record lawful (R53 to R57,
R71). -/

namespace Sys2Proof.Machine

/-! Changes of one record -/

/-- With one record to a zone, changes that agree on it agree. -/
theorem mapZone_congr {s : State} (d : s.ZonesDistinct) {z : Nat} {r : ZoneRecord} (at_z : s.zone z = some r)
    {f g : ZoneRecord → ZoneRecord} (same : f r = g r) : mapZone z f s.za = mapZone z g s.za := by
  refine List.map_congr_left fun q mem => ?_
  by_cases hz : q.zone = z
  · have := d.zone mem
    rw [hz, at_z] at this
    cases this
    simp [hz, same]
  · simp [hz]

theorem mapZone_none {s : State} {z : Nat} (none_at : s.zone z = none) (g : ZoneRecord → ZoneRecord) :
    mapZone z g s.za = s.za := by
  refine (List.map_congr_left fun q mem => ?_).trans (List.map_id _)
  have other : q.zone ≠ z := by simpa using List.find?_eq_none.mp none_at q mem
  simp [other]

/-- A change of one record that leaves it as it is. -/
theorem mapZone_self {s : State} (d : s.ZonesDistinct) {z : Nat} {r : ZoneRecord} (at_z : s.zone z = some r)
    {g : ZoneRecord → ZoneRecord} (same : g r = r) : mapZone z g s.za = s.za :=
  (mapZone_congr d at_z (g := fun r => r) same).trans (mapZone_id z (fun _ => rfl) _)

/-- A record without its reservation, where that is of a tag that satisfies `p` (R79 to R82). -/
def ZoneRecord.dropped (p : Tag → Bool) (r : ZoneRecord) : ZoneRecord :=
  if r.reservation.any (fun v => p v.tag) then r.unreserved else r

theorem ZoneRecord.dropped_zone (p : Tag → Bool) (r : ZoneRecord) : (r.dropped p).zone = r.zone := by
  unfold ZoneRecord.dropped
  split <;> rfl

theorem dropReservation_za {s : State} (d : s.ZonesDistinct) (z : Nat) (p : Tag → Bool) :
    (dropReservation z p s).za = mapZone z (·.dropped p) s.za := by
  unfold dropReservation
  cases at_z : s.zone z with
  | none => exact (mapZone_none at_z _).symm
  | some r =>
    cases held : r.reservation with
    | none =>
      simp only [Option.bind_some, held]
      exact (mapZone_self d at_z (by simp [ZoneRecord.dropped, held])).symm
    | some v =>
      simp only [Option.bind_some, held]
      split
      · rename_i meant
        rw [releaseRole_za]
        exact mapZone_congr d at_z (by simp [ZoneRecord.dropped, held, meant, ZoneRecord.unreserved])
      · rename_i other
        exact (mapZone_self d at_z (by simp [ZoneRecord.dropped, held, other])).symm

/-- A record whose superseded tag is cleared, where it satisfies `p`. -/
def ZoneRecord.unsuperseded (p : Tag → Bool) (r : ZoneRecord) : ZoneRecord :=
  { r with superseded := r.superseded.filter fun t => !p t }

theorem dropSuperseded_za (z : Nat) (p : Tag → Bool) (s : State) :
    (dropSuperseded z p s).za = mapZone z (·.unsuperseded p) s.za := rfl

/-- A record whose reservation is broken (R64). -/
def ZoneRecord.broken (r : ZoneRecord) : ZoneRecord :=
  match r.reservation with
  | none => r
  | some v => { r with reservation := none, superseded := some v.tag }

theorem breakReservation_za {s : State} (d : s.ZonesDistinct) (z : Nat) :
    (breakReservation z s).za = mapZone z ZoneRecord.broken s.za := by
  unfold breakReservation
  cases at_z : s.zone z with
  | none => exact (mapZone_none at_z _).symm
  | some r =>
    cases held : r.reservation with
    | none =>
      simp only [Option.bind_some, held]
      exact (mapZone_self d at_z (by simp [ZoneRecord.broken, held])).symm
    | some v =>
      simp only [Option.bind_some, held]
      rw [releaseRole_za]
      exact mapZone_congr d at_z (by simp [ZoneRecord.broken, held])

/-- A record with a new reservation, an old one broken (R63, R64). -/
def ZoneRecord.reserves (v : Reservation) (r : ZoneRecord) : ZoneRecord :=
  { r with
    reservation := some v
    superseded := match r.reservation with
      | some old => some old.tag
      | none => r.superseded }

theorem ZoneRecord.broken_zone (r : ZoneRecord) : r.broken.zone = r.zone := by
  unfold ZoneRecord.broken
  split <;> rfl

theorem breakReservation_config (z : Nat) (s : State) : (breakReservation z s).config = s.config := by
  unfold breakReservation
  split
  · rfl
  · rw [releaseRole_config]
    rfl

theorem State.ZonesDistinct.of_za {s t : State} (d : s.ZonesDistinct) (za : t.za = s.za) : t.ZonesDistinct := by
  unfold State.ZonesDistinct
  rw [za]
  exact d

/-- The reservation's terms at its start: the hold timer full (R63). -/
def State.reservationFor (s : State) (t : Terms) : Reservation := { tag := t.tag, level := t.level, hold := s.holdTime }

theorem takeReference_config' (t : Tag) (gain duration : Nat) (s : State) :
    (takeReference t gain duration s).config = s.config := by
  unfold takeReference
  split <;> rfl

theorem reserve_za {s : State} (d : s.ZonesDistinct) (z : Nat) (t : Terms) :
    (reserve z t s).za = mapZone z (·.reserves (s.reservationFor t)) s.za := by
  have taken : (takeReference t.tag t.gain t.duration s).za = s.za := takeReference_za ..
  have holds : (breakReservation z (takeReference t.tag t.gain t.duration s)).holdTime = s.holdTime := by
    unfold State.holdTime
    rw [breakReservation_config, takeReference_config']
  change (updateZone z (fun r => { r with reservation := some _ }) _).za = _
  rw [updateZone_za, breakReservation_za (d.of_za taken), taken, holds]
  refine (mapZone_comp z ZoneRecord.broken_zone _ s.za).trans (List.map_congr_left fun q _ => ?_)
  simp only [Function.comp, ZoneRecord.broken, ZoneRecord.reserves, State.reservationFor]
  cases q.reservation <;> rfl

/-! The laws of a record after a change -/

theorem ZoneRecord.Lawful.unreserved {r : ZoneRecord} (h : r.Lawful) : r.unreserved.Lawful :=
  { h.toSound.unreserved with rest := h.rest }

theorem ZoneRecord.Sound.dropped {r : ZoneRecord} (h : r.Sound) (p : Tag → Bool) : (r.dropped p).Sound := by
  unfold ZoneRecord.dropped
  split
  · exact h.unreserved
  · exact h

theorem ZoneRecord.Lawful.dropped {r : ZoneRecord} (h : r.Lawful) (p : Tag → Bool) : (r.dropped p).Lawful := by
  unfold ZoneRecord.dropped
  split
  · exact h.unreserved
  · exact h

/-- The laws do not ask for the superseded tag. -/
theorem ZoneRecord.Sound.superseded {r : ZoneRecord} (h : r.Sound) (t : Option Tag) :
    ({ r with superseded := t } : ZoneRecord).Sound :=
  ⟨h.floor, h.level, h.members, h.order, h.urgent, h.groups, h.waiters, h.sorted, h.single, h.reserved⟩

theorem ZoneRecord.Lawful.superseded {r : ZoneRecord} (h : r.Lawful) (t : Option Tag) :
    ({ r with superseded := t } : ZoneRecord).Lawful := { h.toSound.superseded t with rest := h.rest }

/-- A tag with no place becomes the reservation. -/
theorem ZoneRecord.Lawful.reserves {r : ZoneRecord} (h : r.Lawful) {v : Reservation} (new : v.tag ∉ r.placedTags) :
    (r.reserves v).Lawful :=
  { h with reserved := fun _ mem => List.mem_singleton.mp mem ▸ new }

theorem ZoneRecord.Sound.floored {r : ZoneRecord} (h : r.Sound) {f : Nat} (range : 1 ≤ f ∧ f ≤ 7) :
    ({ r with floor := f } : ZoneRecord).Sound := { h with floor := range }

/-! The records of the station after a change of one -/

/-- Every record lawful, one to a zone. -/
structure State.Orderly (s : State) : Prop where
  distinct : s.ZonesDistinct
  lawful : s.Arbitrated

theorem State.Orderly.at_zone {s : State} (h : s.Orderly) {z : Nat} {r : ZoneRecord} (at_z : s.zone z = some r) :
    r.Lawful := h.lawful r (zone_zone at_z).2

theorem State.Orderly.else {s : State} (h : s.Orderly) (z : Nat) : s.LawfulElse z := fun r mem _ => h.lawful r mem

theorem Arbitrated.of_za {s t : State} (h : s.Arbitrated) (za : t.za = s.za) : t.Arbitrated := fun r mem =>
  h r (za ▸ mem)

/-- One record is changed, and lawful after. -/
theorem State.Orderly.map {s t : State} (h : s.Orderly) {z : Nat} {g : ZoneRecord → ZoneRecord} {r : ZoneRecord}
    (at_z : s.zone z = some r) (za : t.za = mapZone z g s.za) (law : (g r).Lawful) : t.Arbitrated := by
  intro q mem
  rw [za] at mem
  obtain ⟨q, known, rfl⟩ := List.mem_map.mp mem
  split
  · rename_i hz
    have one := h.distinct.zone known
    rw [hz, at_z] at one
    cases one
    exact law
  · exact h.lawful q known

/-- Every record of the zone is changed, and lawful after. -/
theorem State.Orderly.map_all {s t : State} (h : s.Orderly) {z : Nat} {g : ZoneRecord → ZoneRecord}
    (za : t.za = mapZone z g s.za) (law : ∀ r : ZoneRecord, r.Lawful → (g r).Lawful) : t.Arbitrated := by
  intro q mem
  rw [za] at mem
  obtain ⟨q, known, rfl⟩ := List.mem_map.mp mem
  split
  · exact law q (h.lawful q known)
  · exact h.lawful q known

/-- One record is changed, sound after, and its zone settled. -/
theorem settle_arbitrated {s u : State} (h : s.Orderly) {z : Nat} {g : ZoneRecord → ZoneRecord} {r : ZoneRecord}
    (at_z : s.zone z = some r) (za : u.za = mapZone z g s.za) (same : ∀ r, (g r).zone = r.zone) (sound : (g r).Sound)
    (own : Option Tag) (wasActive : Bool) : (settle z own wasActive u).Arbitrated := by
  have distinct : u.ZonesDistinct := by
    have zones : u.za.map (·.zone) = s.za.map (·.zone) := by
      rw [za, mapZone, List.map_map]
      refine List.map_congr_left fun q _ => ?_
      simp only [Function.comp]
      split
      · exact same q
      · rfl
    unfold State.ZonesDistinct
    rw [zones]
    exact h.distinct
  have settled := settle_settled z own wasActive (s := u) ((h.else z).map za same) fun q at_u => by
    rw [zone_mapZone za same, at_z] at at_u
    cases at_u
    exact sound
  exact (arbitrated_iff ((settle_quiet (b := false) z own wasActive u).distinct distinct) z).mpr ⟨settled.other, settled.at_z⟩

/-! A CLAIM's answer -/

theorem answer_arbitrated {s : State} (h : s.Orderly) {z : Nat} {r : ZoneRecord} (t : Terms) (at_z : s.zone z = some r) :
    (answer z t r s).2.Arbitrated := by
  by_cases held : r.verdict t = .held
  · rw [answer_of_held z s held]
    split
    · have new : t.tag ∉ r.tags := fun role => by
        rw [ZoneRecord.verdict, if_pos ((r.hasRole_iff t.tag).mpr role)] at held
        cases held
      exact h.map at_z (reserve_za h.distinct z t)
        ((h.at_zone at_z).reserves fun mem => new (List.mem_append_left _ mem))
    · exact h.lawful
  · rw [answer_of_ne_held z s held]
    exact h.lawful

/-! A COMMIT's acknowledgement -/

theorem not_placed {r : ZoneRecord} {t : Tag} (h : r.isPlaced t = false) : t ∉ r.placedTags := fun mem => by
  rw [(r.isPlaced_iff t).mpr mem] at h
  cases h

theorem ZoneRecord.lt_of_passes {r : ZoneRecord} {level : Nat} (h : r.passes level = true) : level < r.floor :=
  of_decide_eq_true h

/-- The record of a zone whose reservation has been taken off. -/
theorem unreserve_za (z : Nat) (s : State) :
    (updateZone z (fun r => { r with reservation := none }) s).za = mapZone z ZoneRecord.unreserved s.za := rfl

/-- A committed tag's member record (R68). -/
def Terms.member (t : Terms) : Member := { tag := t.tag, left := timerOf t.duration }

/-- A record with a committed tag at the tail of its active set (R67, R68). -/
def ZoneRecord.entered (t : Terms) (r : ZoneRecord) : ZoneRecord :=
  { r with active := r.active ++ [t.member], activeLevel := some t.level }

/-- A record whose reservation has become a member of the empty active set. -/
theorem ZoneRecord.Lawful.taken_sole {r : ZoneRecord} (h : r.Lawful) {t : Terms} (empty : r.activeLevel = none)
    (passes : r.passes t.level = true) (new : t.tag ∉ r.placedTags) : (r.unreserved.entered t).Sound := by
  have active : r.active = [] := h.level.mp empty
  have urgent : t.level ≤ 6 := by
    have := ZoneRecord.lt_of_passes passes
    have := h.floor.2
    omega
  refine h.toSound.unreserved.enterSole ⟨active, urgent, ?_⟩ fun role => ?_
  · change ∀ g ∈ r.stack, t.level < g.level
    rw [(h.rest active).1]
    exact fun _ mem => absurd mem List.not_mem_nil
  · exact new ((List.mem_append.mp role).resolve_right List.not_mem_nil)

theorem ZoneRecord.Lawful.taken_join {r : ZoneRecord} (h : r.Lawful) {t : Terms} (level : r.activeLevel = some t.level)
    (mix : r.policy = .mix) (room : r.active.length < mixCapacity) (new : t.tag ∉ r.placedTags) :
    (r.unreserved.entered t).Sound :=
  h.toSound.unreserved.enterJoin level mix room fun role =>
    new ((List.mem_append.mp role).resolve_right List.not_mem_nil)

theorem ZoneRecord.Lawful.taken_push {r : ZoneRecord} (h : r.Lawful) {t : Terms} {a : Nat} (level : r.activeLevel = some a)
    (above : t.level < a) (new : t.tag ∉ r.placedTags) : (r.unreserved.pushed.entered t).Sound := by
  have sound := h.toSound.unreserved
  refine sound.pushed.enterSole (sound.pushed_open level above) fun role => ?_
  rcases List.mem_append.mp role with placed | reserved
  · rw [ZoneRecord.pushed_placedTags] at placed
    exact new placed
  · rw [ZoneRecord.pushed_reservation] at reserved
    exact List.not_mem_nil reserved

theorem ZoneRecord.pushed_zone (r : ZoneRecord) : r.pushed.zone = r.zone := congrArg Prod.fst r.pushed_fixed

/-- The steps after the choice of R67, with what they make of the record before they settle it. -/
theorem takeIn_arbitrated {s u : State} (h : s.Orderly) {z : Nat} {g : ZoneRecord → ZoneRecord} {r : ZoneRecord} {t : Terms}
    (at_z : s.zone z = some r) (za : u.za = mapZone z g s.za) (same : ∀ r, (g r).zone = r.zone)
    (sound : ((g r).entered t).Sound) (wasActive : Bool) : (takeIn z t wasActive u).Arbitrated := by
  refine settle_arbitrated h (g := fun r => (g r).entered t) at_z ?_ same sound none wasActive
  rw [post_za, enterActive_za, za]
  exact mapZone_comp z same _ s.za

/-- The active set's choice of R67, as what follows from each. -/
theorem ZoneRecord.admission_cases (r : ZoneRecord) (level : Nat) :
    (r.admission level = .sole ∧ r.activeLevel = none) ∨
    (∃ a, r.admission level = .push ∧ r.activeLevel = some a ∧ level < a) ∨
    (r.admission level = .join ∧ r.activeLevel = some level ∧ r.policy = .mix ∧ r.active.length < mixCapacity) ∨
    r.admission level = .outranked := by
  unfold ZoneRecord.admission
  cases r.activeLevel with
  | none => exact .inl ⟨rfl, rfl⟩
  | some a =>
    by_cases above : level < a
    · exact .inr (.inl ⟨a, if_pos above, rfl, above⟩)
    · by_cases joins : level = a ∧ r.policy = .mix ∧ r.active.length < mixCapacity
      · exact .inr (.inr (.inl ⟨by simp [joins], by rw [joins.1], joins.2.1, joins.2.2⟩))
      · exact .inr (.inr (.inr (by simp [above, joins])))

theorem pushActive_unreserved_za {s : State} {z : Nat} {r : ZoneRecord} (at_z : s.zone z = some r) :
    (pushActive z (updateZone z (fun r => { r with reservation := none }) s)).za =
      mapZone z (fun r => r.unreserved.pushed) s.za := by
  have at_u := zone_mapZone (unreserve_za z s) (fun _ => rfl)
  rw [pushActive_za z _ (by rw [at_u, at_z]; rfl), unreserve_za]
  exact mapZone_comp z (g := ZoneRecord.unreserved) (fun _ => rfl) _ s.za

theorem commitHeld_arbitrated {s : State} (h : s.Orderly) {z : Nat} {r : ZoneRecord} (t : Terms) (at_z : s.zone z = some r)
    (new : t.tag ∉ r.placedTags) : (commitHeld z t r s).2.Arbitrated := by
  have law := h.at_zone at_z
  have off := unreserve_za z s
  unfold commitHeld
  split
  · simp only
    have released : (releaseRole t.tag (updateZone z (fun r => { r with reservation := none }) s)).Arbitrated :=
      h.map at_z ((releaseRole_za _ _).trans off) law.unreserved
    split
    · exact released
    · rename_i passes
      have passes : r.passes t.level = true := by simpa using passes
      rcases r.admission_cases t.level with ⟨sole, empty⟩ | ⟨a, push, level, above⟩ | ⟨join, level, mix, room⟩ | outranked
      · rw [sole]
        exact takeIn_arbitrated h at_z off (fun _ => rfl) (law.taken_sole empty passes new) _
      · rw [push]
        exact takeIn_arbitrated h at_z (pushActive_unreserved_za at_z) (fun r => r.unreserved.pushed_zone)
          (law.taken_push level above new) _
      · rw [join]
        exact takeIn_arbitrated h at_z off (fun _ => rfl) (law.taken_join level mix room new) _
      · rw [outranked]
        exact released
  · split
    · exact h.map at_z (g := fun r => { r with superseded := none }) rfl (law.superseded none)
    · exact h.lawful

theorem commitWaiting_arbitrated {s : State} (h : s.Orderly) {z : Nat} {r : ZoneRecord} (t : Terms)
    (at_z : s.zone z = some r) (new : t.tag ∉ r.placedTags) : (commitWaiting z t r s).2.Arbitrated := by
  unfold commitWaiting
  split
  · exact h.lawful
  · split
    · exact h.lawful
    · rename_i room
      split
      · exact h.lawful
      · have one : ∀ q ∈ s.za, q.zone = z → q = r := fun q mem hz => by
          have := h.distinct.zone mem
          rw [hz, at_z] at this
          exact (Option.some.inj this).symm
        exact settle_arbitrated h at_z (joinWaiting_za t at_z one) (fun _ => rfl)
          ((h.at_zone at_z).toSound.waits (by omega) new) _ _

/-! Endings -/

/-- What an ending makes of a record before it settles it (R79 to R82). -/
def ZoneRecord.ended (p : Tag → Bool) (tags : List Tag) (r : ZoneRecord) : ZoneRecord :=
  ((r.withoutAll tags).dropped p).unsuperseded p

theorem ZoneRecord.ended_zone (p : Tag → Bool) (tags : List Tag) (r : ZoneRecord) : (r.ended p tags).zone = r.zone :=
  (ZoneRecord.dropped_zone p _).trans (r.withoutAll_fixed tags).1

theorem endTags_za {s : State} (d : s.ZonesDistinct) (z : Nat) (reason : Reason) (p : Tag → Bool) (tags : List Tag) :
    (dropSuperseded z p (dropReservation z p (forEach tags (endRole z reason) s))).za =
      mapZone z (·.ended p tags) s.za := by
  have quiet : Quiet false s (forEach tags (endRole z reason) s) := forEach_quiet (fun t s => endRole_quiet z reason t s) tags s
  rw [dropSuperseded_za, dropReservation_za (quiet.distinct d), endRoles_za,
    mapZone_comp z (g := (·.withoutAll tags)) (fun r => (r.withoutAll_fixed tags).1)]
  exact mapZone_comp z (g := fun r => (r.withoutAll tags).dropped p)
    (fun r => (ZoneRecord.dropped_zone p _).trans (r.withoutAll_fixed tags).1) _ s.za

theorem endWhere_arbitrated {s : State} (h : s.Orderly) (reason : Reason) (p : Tag → Bool) (z : Nat) :
    (endWhere reason p z s).Arbitrated := by
  unfold endWhere
  split
  · exact h.lawful
  · rename_i r at_z
    have law := h.at_zone at_z
    simp only
    generalize r.placedTags.filter p = tags
    have za := endTags_za h.distinct z reason p tags
    split
    · rename_i nothing
      rw [List.isEmpty_iff.mp nothing] at za ⊢
      exact h.map at_z za ((law.dropped p).superseded _)
    · exact settle_arbitrated h at_z za (ZoneRecord.ended_zone p tags) (((law.toSound.withoutAll tags).dropped p).superseded _)
        _ _

theorem dropReservation_arbitrated {s : State} (h : s.Orderly) (z : Nat) (p : Tag → Bool) :
    (dropReservation z p s).Arbitrated :=
  h.map_all (dropReservation_za h.distinct z p) fun _ law => law.dropped p

theorem setFloorAt_arbitrated {s : State} (h : s.Orderly) (z : Nat) {floor : Nat} (range : 1 ≤ floor ∧ floor ≤ 7) :
    (setFloorAt z floor s).Arbitrated := by
  have za : (post (.zoneFloor z floor) (updateZone z (fun r => { r with floor := floor }) s)).za =
      mapZone z (fun r => { r with floor := floor }) s.za := by rw [post_za]; rfl
  cases at_z : s.zone z with
  | none =>
    have none_at := zone_mapZone za fun _ => rfl
    rw [at_z, Option.map_none] at none_at
    unfold setFloorAt settle
    rw [none_at]
    exact Arbitrated.of_za h.lawful (za.trans (mapZone_none at_z _))
  | some r => exact settle_arbitrated h at_z za (fun _ => rfl) ((h.at_zone at_z).toSound.floored range) _ _

theorem autoEndExpiryAt_arbitrated {s : State} (h : s.Orderly) (z : Nat) (t : Tag) :
    (autoEndExpiryAt z t s).Arbitrated := by
  unfold autoEndExpiryAt
  split
  · exact h.lawful
  · rename_i r at_z
    split
    · exact settle_arbitrated h at_z (endRole_za z .autoEnd t s) (fun _ => rfl) ((h.at_zone at_z).toSound.without t) _ _
    · exact h.lawful

/-! Every act -/

/-- An act leaves the zones of the records. -/
theorem Acts.zones {s t : State} (h : Acts s t) : t.za.map (·.zone) = s.za.map (·.zone) := by
  have quiet : ∀ {s t : State}, Quiet false s t → t.za.map (·.zone) = s.za.map (·.zone) := fun q => q.tame.zones
  induction h with
  | aside h => rw [h.za]
  | trans _ _ h k => exact k.trans h
  | answer t at_z => exact quiet (answer_quiet _ t _ _)
  | held t at_z new => exact quiet (commitHeld_quiet _ t _ _)
  | waiting t at_z new => exact quiet (commitWaiting_quiet _ t _ _)
  | ends reason p z s => exact quiet (endWhere_quiet reason p z s)
  | drop z p s => exact quiet (dropReservation_quiet z p s)
  | floor z s range => exact (setFloorAt_tame z _ s).zones
  | autoEnd z t s => exact quiet (autoEndExpiryAt_quiet z t s)
  | lapse t s => exact quiet (lapseExpiry_quiet t s)
  | samples t block s => rfl
  | yields s => rfl

theorem Acts.distinct {s t : State} (h : Acts s t) (d : s.ZonesDistinct) : t.ZonesDistinct := by
  unfold State.ZonesDistinct
  rw [h.zones]
  exact d

/-- The ends of a tag's roles, zone by zone. -/
theorem endEach_orderly (reason : Reason) (p : Tag → Bool) : ∀ (zones : List Nat) {s : State}, s.Orderly →
    (forEach zones (endWhere reason p) s).Orderly
  | [], _, h => h
  | z :: rest, s, h => endEach_orderly reason p rest
      ⟨(Acts.ends reason p z s).distinct h.distinct, endWhere_arbitrated h reason p z⟩

theorem Acts.orderly {s t : State} (h : Acts s t) (orderly : s.Orderly) : t.Orderly := by
  refine ⟨h.distinct orderly.distinct, ?_⟩
  induction h with
  | aside h => exact Arbitrated.of_za orderly.lawful h.za
  | trans h k ih ih' => exact ih' ⟨h.distinct orderly.distinct, ih orderly⟩
  | answer t at_z => exact answer_arbitrated orderly t at_z
  | held t at_z new => exact commitHeld_arbitrated orderly t at_z (not_placed new)
  | waiting t at_z new => exact commitWaiting_arbitrated orderly t at_z (not_placed new)
  | ends reason p z s => exact endWhere_arbitrated orderly reason p z
  | drop z p s => exact dropReservation_arbitrated orderly z p
  | floor z s range => exact setFloorAt_arbitrated orderly z range
  | autoEnd z t s => exact autoEndExpiryAt_arbitrated orderly z t
  | lapse t s =>
    unfold lapseExpiry
    split
    · have unreported : State.Orderly (updateListen t (fun e => { e with lapse := none }) s) :=
        ⟨orderly.distinct, orderly.lawful⟩
      exact (endEach_orderly _ _ _ unreported).lawful
    · exact orderly.lawful
  | samples t block s => exact orderly.lawful
  | yields s => exact orderly.lawful

/-! Resets, loads and the passage of time -/

/-- An empty record at a configured zone is lawful. -/
theorem ZoneRecord.empty_isLawful (zone port : Nat) {z : ZoneConfig} (range : zoneInRange z) :
    (ZoneRecord.empty zone port z).Lawful where
  floor := ⟨range.1, range.2.1⟩
  level := ⟨fun _ => rfl, fun _ => rfl⟩
  members := Nat.zero_le _
  order := List.Pairwise.nil
  urgent _ mem := absurd mem List.not_mem_nil
  groups _ mem := absurd mem List.not_mem_nil
  waiters := Nat.zero_le _
  sorted := List.Pairwise.nil
  single := List.Pairwise.nil
  reserved _ mem := absurd mem List.not_mem_nil
  rest _ := ⟨rfl, rfl⟩

theorem zoneRecordsOf_lawful {c : Configuration} (valid : ConfigValid c) : ∀ r ∈ zoneRecordsOf c, r.Lawful := by
  intro r mem
  obtain ⟨i, inside, rfl⟩ := List.mem_mapIdx.mp mem
  exact ZoneRecord.empty_isLawful _ _ (valid.zones _ (List.getElem_mem inside))

theorem zoneRecordsOf_zones (c : Configuration) : (zoneRecordsOf c).map (·.zone) = List.range' c.first c.zones.length := by
  refine List.ext_getElem (by simp [zoneRecordsOf]) fun i _ _ => ?_
  simp [zoneRecordsOf, ZoneRecord.empty]

theorem mixZonesOf_zones (c : Configuration) : (mixZonesOf c).map (·.zone) = List.range' c.first c.zones.length := by
  refine List.ext_getElem (by simp [mixZonesOf]) fun i _ _ => ?_
  simp [mixZonesOf, MixZone.fresh]

/-- One record to a zone, as the window's zones are. -/
theorem State.ZonesMatch.distinct {s : State} (h : s.ZonesMatch) (coherent : s.Coherent) : s.ZonesDistinct := by
  unfold State.ZonesDistinct
  cases member : s.isMember with
  | false =>
    rw [(coherent.repeating member).zones]
    exact List.Pairwise.nil
  | true =>
    obtain ⟨c, config, -⟩ := coherent.member_config member
    rw [h.2 c config]
    exact List.nodup_range'

/-- The records and the Mix Engine's fields stand for the window's zones, and every record is lawful. -/
structure State.WellZoned (s : State) : Prop where
  matched : s.ZonesMatch
  lawful : s.Arbitrated

theorem State.WellZoned.congr {s t : State} (h : s.WellZoned) (za : t.za = s.za) (me : t.me.zones = s.me.zones)
    (config : t.config = s.config) : t.WellZoned := by
  refine ⟨?_, Arbitrated.of_za h.lawful za⟩
  unfold State.ZonesMatch
  rw [za, me, config]
  exact h.matched

/-- The records and fields at a configuration's values. -/
theorem wellZoned_of_configured {t : State} {c : Configuration} (valid : ConfigValid c) (za : t.za = zoneRecordsOf c)
    (me : t.me.zones = mixZonesOf c) (config : t.config = some c) : t.WellZoned := by
  refine ⟨⟨?_, fun d same => ?_⟩, fun r mem => zoneRecordsOf_lawful valid r (za ▸ mem)⟩
  · rw [za, me, zoneRecordsOf_zones, mixZonesOf_zones]
  · cases config.symm.trans same
    rw [za, zoneRecordsOf_zones]

theorem enterJoining_me (s : State) : (enterJoining s).me = s.me := (enterJoining_talks s).me

theorem enterJoining_wellZoned {s : State} (h : s.WellZoned) : (enterJoining s).WellZoned :=
  have talks := enterJoining_talks s
  h.congr talks.za (congrArg MixEngine.zones talks.me) talks.config

theorem endLoad_wellZoned (memory : List Byte) {s : State} (h : s.WellZoned) : (endLoad memory s).WellZoned := by
  unfold endLoad
  split
  · split
    · rename_i c taken
      exact enterJoining_wellZoned
        (wellZoned_of_configured (loadedConfigurationInRange memory c taken) rfl rfl rfl)
    · unfold loadFailed
      exact h.congr (post_za _ _) (by rw [post_me]) (by rw [post_config])
  · exact h

theorem softReset_wellZoned {s : State} (coherent : s.Coherent) (h : s.WellZoned) : (softReset s).WellZoned := by
  unfold softReset
  split
  · split
    · rename_i c config
      exact enterJoining_wellZoned (wellZoned_of_configured (coherent.valid c config) rfl rfl config)
    · exact h
  · exact h.congr rfl rfl rfl

theorem resetCommand_wellZoned {s : State} (coherent : s.Coherent) (h : s.WellZoned) : (resetCommand s).WellZoned :=
  whenListening_of h fun _ => (softReset_wellZoned coherent h).congr rfl rfl rfl

theorem hardReset_wellZoned (s : State) : (hardReset s).WellZoned :=
  ⟨⟨rfl, fun _ same => by cases same⟩, fun _ mem => absurd mem List.not_mem_nil⟩

theorem beginLoad_wellZoned {s : State} (h : s.WellZoned) : (beginLoad s).WellZoned := by
  unfold beginLoad
  split
  · exact h.congr rfl rfl rfl
  · exact h

theorem keyInput_wellZoned (n : Nat) (closed : Bool) {s : State} (h : s.WellZoned) : (keyInput n closed s).WellZoned := by
  unfold keyInput
  split
  · exact h
  · exact h.congr rfl rfl rfl

/-- A run of acts of a tame command keeps the zones well. -/
theorem State.WellZoned.run {s t : State} (h : s.WellZoned) (coherent : s.Coherent) (acts : Acts s t) (tame : Tame s t) :
    t.WellZoned := by
  refine ⟨⟨?_, fun c same => ?_⟩, (acts.orderly ⟨h.matched.distinct coherent, h.lawful⟩).lawful⟩
  · rw [tame.zones, tame.mix]
    exact h.matched.1
  · rw [tame.zones]
    exact h.matched.2 c (tame.config ▸ same)

theorem after_wellZoned (c : Instr) {s : State} (coherent : s.Coherent) (h : s.WellZoned) : (after c s).WellZoned := by
  by_cases plain : isPlain c = true
  · exact h.run coherent (after_acts (by cases c <;> trivial) s) (after_tame plain s)
  · cases c with
    | rstnReset => exact hardReset_wellZoned s
    | loadBegins => exact beginLoad_wellZoned h
    | loadSucceeds memory => exact endLoad_wellZoned memory h
    | loadFails memory => exact endLoad_wellZoned memory h
    | frameArrival bytes cutShort =>
      exact h.run coherent (arriveFrame_acts bytes cutShort s) (arriveFrame_tame bytes cutShort coherent.member_address)
    | keyInputChange key closed => exact keyInput_wellZoned key closed h
    | reset => exact resetCommand_wellZoned coherent h
    | _ => exact absurd rfl plain

/-! One millisecond -/

theorem ZoneRecord.oneLess_tags (r : ZoneRecord) :
    r.oneLess.placedTags = r.placedTags ∧ Reservation.tags r.oneLess.reservation = Reservation.tags r.reservation := by
  constructor
  · simp [ZoneRecord.placedTags, ZoneRecord.oneLess, Function.comp_def]
  · cases held : r.reservation with
    | none => simp [ZoneRecord.oneLess, held, Reservation.tags]
    | some v => simp [ZoneRecord.oneLess, held, Reservation.tags]

theorem ZoneRecord.Lawful.oneLess {r : ZoneRecord} (h : r.Lawful) : r.oneLess.Lawful where
  floor := h.floor
  level := h.level.trans ⟨fun e => by simp [ZoneRecord.oneLess, e], fun e => List.map_eq_nil_iff.mp e⟩
  members := Nat.le_trans (Nat.le_of_eq (List.length_map _)) h.members
  order := h.order
  urgent := h.urgent
  groups := h.groups
  waiters := h.waiters
  sorted := h.sorted
  single := r.oneLess_tags.1 ▸ h.single
  reserved t mem place := h.reserved t (r.oneLess_tags.2 ▸ mem) (r.oneLess_tags.1 ▸ place)
  rest e := h.rest (List.map_eq_nil_iff.mp e)

theorem tick_wellZoned {s : State} (h : s.WellZoned) : (tick s).WellZoned := by
  have zones : (tick s).za.map (·.zone) = s.za.map (·.zone) := by
    simp [tick, ZoneRecord.oneLess, Function.comp_def]
  refine ⟨⟨zones.trans h.matched.1, fun c same => zones.trans (h.matched.2 c same)⟩, fun r mem => ?_⟩
  obtain ⟨q, known, rfl⟩ := List.mem_map.mp mem
  exact (h.lawful q known).oneLess

/-- Settles O59. -/
theorem stepKeepsZonesLawful : Obligations.StepKeepsZonesLawful := by
  intro s t coherent matched lawful next
  have h : s.WellZoned := ⟨matched, lawful⟩
  have kept : t.WellZoned := by
    rcases step_cases next with ⟨c, rest, -, rfl⟩ | ⟨c, rfl⟩ | rfl
    · exact after_wellZoned c (coherent.withPending rest) (h.congr rfl rfl rfl)
    · exact after_wellZoned c coherent h
    · exact tick_wellZoned h
  exact ⟨kept.matched, kept.lawful⟩

end Sys2Proof.Machine
end


section
/-! SUPPORT. Every act of the Zone Arbiter and the Listen Unit keeps the listen table the exact account of the roles (R57, R120 to
R122), and so does every step. -/

namespace Sys2Proof.Machine

/-! What a change of a record does to its tags -/

theorem ZoneRecord.isActive_congr {r r' : ZoneRecord} {u : Tag} (h : u ∈ r'.activeTags ↔ u ∈ r.activeTags) :
    r'.isActive u = r.isActive u :=
  Bool.eq_iff_iff.mpr ((r'.isActive_iff u).trans (h.trans (r.isActive_iff u).symm))

theorem ZoneRecord.isPlaced_congr {r r' : ZoneRecord} {u : Tag} (h : u ∈ r'.placedTags ↔ u ∈ r.placedTags) :
    r'.isPlaced u = r.isPlaced u :=
  Bool.eq_iff_iff.mpr ((r'.isPlaced_iff u).trans (h.trans (r.isPlaced_iff u).symm))

theorem ZoneRecord.count_tags (r : ZoneRecord) (u : Tag) :
    r.tags.count u = r.placedTags.count u + (Reservation.tags r.reservation).count u := List.count_append ..

theorem ZoneRecord.without_activeTags (r : ZoneRecord) (t : Tag) :
    (r.without t).activeTags = r.activeTags.filter (· != t) := by
  simp only [ZoneRecord.activeTags, ZoneRecord.without, List.filter_map]
  rfl

/-- The count of a tag among those that are not another. -/
theorem count_filter_ne {l : List Tag} {t u : Tag} (other : u ≠ t) : (l.filter (· != t)).count u = l.count u :=
  List.count_filter (by simpa using other)

theorem count_filter_self (l : List Tag) (t : Tag) : (l.filter (· != t)).count t = 0 :=
  List.count_eq_zero.mpr fun mem => by simpa using (List.mem_filter.mp mem).2

/-- The active set pushed keeps its members' places. -/
theorem ZoneRecord.pushed_inactive {r : ZoneRecord} {u : Tag} (inactive : u ∉ r.activeTags) : u ∉ r.pushed.activeTags := by
  unfold ZoneRecord.pushed
  split
  · exact inactive
  · exact List.not_mem_nil

theorem ZoneRecord.promotable_split (r : ZoneRecord) :
    r.waiting = r.promotable ++ r.waiting.drop r.promotable.length :=
  (List.take_append_drop r.promotable.length r.waiting).symm.trans
    (congrArg (· ++ r.waiting.drop r.promotable.length) r.promotable_eq.symm)

/-- The waiters promoted into an empty active set keep the record's tags. -/
theorem ZoneRecord.promoted_perm {r : ZoneRecord} (empty : r.active = []) {member : Waiter → Member}
    (tags : ∀ w, (member w).tag = w.tag) : (r.promoted member).placedTags.Perm r.placedTags := by
  have waiting := congrArg (List.map Waiter.tag) r.promotable_split
  have entered : (r.promotable.map member).map (·.tag) = r.promotable.map (·.tag) := by
    simp [Function.comp_def, tags]
  simp only [ZoneRecord.placedTags, ZoneRecord.promoted, empty, entered, waiting, List.map_nil, List.nil_append,
    List.map_append]
  exact (List.perm_append_comm.append_right _).trans (List.Perm.of_eq (List.append_assoc ..))

/-- The head waiter's joining keeps the record's tags. -/
theorem ZoneRecord.joined_perm {r : ZoneRecord} {w : Waiter} {rest : List Waiter} {m : Member}
    (list : r.waiting = w :: rest) (tag : m.tag = w.tag) : (r.joined m).placedTags.Perm r.placedTags := by
  simp only [ZoneRecord.placedTags, ZoneRecord.joined, list, List.tail_cons, List.map_append, List.map_cons, List.map_nil, tag,
    List.append_assoc, List.singleton_append]
  exact List.perm_middle.symm.append_left _

/-! The ledger through changes that move no role -/

section Ledger
variable {owed : List Tag} {stale : Tag → Prop} {s t : State}

/-- Every record and every entry is changed, but for tags, references and standing. -/
theorem State.Ledger.alike (h : s.Ledger owed stale) {g : ZoneRecord → ZoneRecord} {f : ListenEntry → ListenEntry}
    (za : t.za = s.za.map g) (lu : t.lu = s.lu.map f)
    (records : ∀ r, (g r).activeTags = r.activeTags ∧ (g r).placedTags = r.placedTags ∧
      Reservation.tags (g r).reservation = Reservation.tags r.reservation)
    (entries : ∀ e, (f e).tag = e.tag ∧ (f e).references = e.references ∧ (f e).active = e.active ∧
      (f e).lapse.isSome = e.lapse.isSome) : t.Ledger owed stale := by
  have count : ∀ u, t.roleCount u = s.roleCount u := fun u => by
    have tags : (fun r => (g r).tags) = ZoneRecord.tags := funext fun r => by
      rw [ZoneRecord.tags, (records r).2.1, (records r).2.2, ZoneRecord.tags]
    rw [State.roleCount, za, List.flatMap_map, tags]
    rfl
  have active : ∀ u, t.za.any (·.isActive u) = s.za.any (·.isActive u) := fun u => by
    rw [za, List.any_map]
    exact congrArg (List.any s.za) (funext fun r => ZoneRecord.isActive_congr (by rw [(records r).1]))
  have placed : ∀ u, t.za.any (·.isPlaced u) = s.za.any (·.isPlaced u) := fun u => by
    rw [za, List.any_map]
    exact congrArg (List.any s.za) (funext fun r => ZoneRecord.isPlaced_congr (by rw [(records r).2.1]))
  have tags : ∀ e, (f e).tag = e.tag := fun e => (entries e).1
  refine ⟨by rw [lu, map_tags tags]; exact h.single, fun e mem => ?_, fun u needed => ?_, fun e mem fresh => ?_⟩
  · rw [lu] at mem
    obtain ⟨q, known, rfl⟩ := List.mem_map.mp mem
    rw [count, tags, (entries q).2.1]
    exact h.refs q known
  · rw [count] at needed
    have := h.held u needed
    simp only [State.listenEntry] at this ⊢
    rw [lu, find_map_tags tags, Option.isSome_map]
    exact this
  · rw [lu] at mem
    obtain ⟨q, known, rfl⟩ := List.mem_map.mp mem
    rw [tags] at fresh
    rw [active, placed, tags, (entries q).2.2.1, (entries q).2.2.2]
    exact h.agree q known fresh

/-- Entries changed but for tag, references and standing. -/
theorem State.Ledger.entries (h : s.Ledger owed stale) {f : ListenEntry → ListenEntry} (za : t.za = s.za)
    (lu : t.lu = s.lu.map f) (same : ∀ e, (f e).tag = e.tag ∧ (f e).references = e.references ∧ (f e).active = e.active ∧
      (f e).lapse.isSome = e.lapse.isSome) : t.Ledger owed stale :=
  h.alike (g := id) (za.trans (List.map_id _).symm) lu (fun _ => ⟨rfl, rfl, rfl⟩) same

/-- Records of a zone changed but for tags. -/
theorem State.Ledger.records (h : s.Ledger owed stale) {z : Nat} {g : ZoneRecord → ZoneRecord}
    (za : t.za = Machine.mapZone z g s.za) (lu : t.lu = s.lu)
    (same : ∀ r, (g r).activeTags = r.activeTags ∧ (g r).placedTags = r.placedTags ∧
      Reservation.tags (g r).reservation = Reservation.tags r.reservation) : t.Ledger owed stale := by
  refine h.alike (f := id) za (lu.trans (List.map_id _).symm) (fun r => ?_) fun _ => ⟨rfl, rfl, rfl, rfl⟩
  split
  · exact same r
  · exact ⟨rfl, rfl, rfl⟩

/-! A role ended -/

/-- A role removed: its reference is owed back and its tag's standing unreported. -/
theorem State.Ledger.without (h : s.Ledger owed stale) (d : s.ZonesDistinct) {z : Nat} {r : ZoneRecord}
    (at_z : s.zone z = some r) (single : r.placedTags.Nodup) {u : Tag} (placed : u ∈ r.placedTags)
    (za : t.za = Machine.mapZone z (·.without u) s.za) (lu : t.lu = s.lu) :
    t.Ledger (u :: owed) fun v => stale v ∨ v = u := by
  refine h.mapZone d at_z za lu (fun v => ?_) fun v fresh => ?_
  · rw [ZoneRecord.count_tags, ZoneRecord.count_tags, r.without_placedTags]
    by_cases same : v = u
    · rw [same, count_filter_self, List.count_cons_self, List.Nodup.count single, if_pos placed]
      simp only [ZoneRecord.without]
      omega
    · rw [count_filter_ne same, List.count_cons_of_ne (Ne.symm same)]
      rfl
  · obtain ⟨old, other⟩ := not_or.mp fresh
    refine ⟨old, ZoneRecord.isActive_congr ?_, ZoneRecord.isPlaced_congr ?_⟩
    · simp [ZoneRecord.without_activeTags, other]
    · simp [ZoneRecord.without_placedTags, other]

/-- A role ends (R57). -/
theorem endRole_ledger (h : s.Ledger owed stale) (d : s.ZonesDistinct) {z : Nat} {r : ZoneRecord} (at_z : s.zone z = some r)
    (single : r.placedTags.Nodup) {u : Tag} (placed : u ∈ r.placedTags) (reason : Reason) :
    (endRole z reason u s).Ledger owed stale := by
  have removed : (updateZone z (·.without u) s).Ledger (u :: owed) fun v => stale v ∨ v = u :=
    h.without d at_z single placed rfl rfl
  have released := removed.releaseRole.weaken fun v (st : (stale v ∨ v = u) ∧ v ≠ u) => st.1.resolve_right st.2
  unfold endRole
  simp only
  split
  · exact released.aside (notify_aside _ _ _ _)
  · exact released.aside (post_aside _ _)

theorem endRoles_ledger {z : Nat} (reason : Reason) : ∀ (tags : List Tag) {s : State} {r : ZoneRecord},
    s.Ledger owed stale → s.ZonesDistinct → s.zone z = some r → r.placedTags.Nodup → tags.Nodup → tags ⊆ r.placedTags →
    (forEach tags (endRole z reason) s).Ledger owed stale
  | [], _, _, h, _, _, _, _, _ => h
  | u :: rest, s, r, h, d, at_z, single, nodup, inside => by
    obtain ⟨new, nodup⟩ := List.nodup_cons.mp nodup
    obtain ⟨placed, inside⟩ := List.cons_subset.mp inside
    have at_next : (endRole z reason u s).zone z = some (r.without u) := by
      rw [zone_mapZone (endRole_za z reason u s) fun _ => rfl, at_z]
      rfl
    refine endRoles_ledger reason rest (endRole_ledger h d at_z single placed reason)
      ((endRole_quiet (b := false) z reason u s).distinct d) at_next ?_ nodup fun v mem => ?_
    · rw [r.without_placedTags]
      exact single.filter _
    · rw [r.without_placedTags]
      exact List.mem_filter.mpr ⟨inside mem, by simpa using fun same : v = u => new (same ▸ mem)⟩

/-- A reservation removed, its reference owed back. -/
theorem State.Ledger.unreserve (h : s.Ledger owed stale) (d : s.ZonesDistinct) {z : Nat} {r : ZoneRecord} {v : Reservation}
    (at_z : s.zone z = some r) (held : r.reservation = some v) {g : ZoneRecord → ZoneRecord}
    (za : t.za = Machine.mapZone z g s.za) (lu : t.lu = s.lu) (active : (g r).activeTags = r.activeTags)
    (placed : (g r).placedTags = r.placedTags) (gone : (g r).reservation = none) : t.Ledger (v.tag :: owed) stale := by
  refine h.mapZone d at_z za lu (fun u => ?_) fun u fresh => ?_
  · rw [ZoneRecord.count_tags, ZoneRecord.count_tags, placed, gone, held]
    simp only [Reservation.tags, List.count_cons, List.count_nil]
    omega
  · exact ⟨fresh, ZoneRecord.isActive_congr (by rw [active]), ZoneRecord.isPlaced_congr (by rw [placed])⟩

/-- A reference released and its tag's standing reported leaves nothing more stale. -/
theorem State.Ledger.released {u : Tag} (h : s.Ledger (u :: owed) stale) : (Machine.releaseRole u s).Ledger owed stale :=
  h.releaseRole.weaken fun _ st => st.1

theorem dropReservation_ledger (h : s.Ledger owed stale) (d : s.ZonesDistinct) (z : Nat) (p : Tag → Bool) :
    (dropReservation z p s).Ledger owed stale := by
  unfold dropReservation
  split
  · exact h
  · rename_i v bound
    obtain ⟨r, at_z, held⟩ := Option.bind_eq_some_iff.mp bound
    split
    · exact (h.unreserve (t := updateZone z (fun r => { r with reservation := none }) s) d at_z held
        (g := ZoneRecord.unreserved) rfl rfl rfl rfl rfl).released
    · exact h

theorem breakReservation_ledger (h : s.Ledger owed stale) (d : s.ZonesDistinct) (z : Nat) :
    (breakReservation z s).Ledger owed stale := by
  unfold breakReservation
  split
  · exact h
  · rename_i v bound
    obtain ⟨r, at_z, held⟩ := Option.bind_eq_some_iff.mp bound
    exact (h.unreserve
      (t := updateZone z (fun r => { r with reservation := none, superseded := some v.tag }) s) d at_z held
      (g := fun r => { r with reservation := none, superseded := some v.tag }) rfl rfl rfl rfl rfl).released

/-! Push, resume, promote, join -/

theorem pushActive_ledger (h : s.Ledger owed stale) (d : s.ZonesDistinct) (z : Nat) : (pushActive z s).Ledger owed stale := by
  unfold pushActive
  split
  · exact h
  · rename_i r at_z
    have pushed : (updateZone z (·.pushed) s).Ledger owed fun u => stale u ∨ u ∈ r.activeTags := by
      refine h.mapZone d at_z rfl rfl (fun u => ?_) fun u fresh => ?_
      · rw [ZoneRecord.count_tags, ZoneRecord.count_tags, r.pushed_placedTags, r.pushed_reservation]
      · obtain ⟨old, inactive⟩ := not_or.mp fresh
        refine ⟨old, ZoneRecord.isActive_congr ?_, ZoneRecord.isPlaced_congr (by rw [r.pushed_placedTags])⟩
        exact ⟨fun mem => absurd mem (ZoneRecord.pushed_inactive inactive), fun mem => absurd mem inactive⟩
    exact (State.Ledger.reports Member.tag (fun m u => notify_aside _ _ _ _) r.active pushed).weaken
      fun u st => st.1.resolve_right st.2

theorem resumeGroup_ledger (h : s.Ledger owed stale) (d : s.ZonesDistinct) {z : Nat} {r : ZoneRecord}
    (at_z : s.zone z = some r) (empty : r.active = []) : (resumeGroup z s).Ledger owed stale := by
  unfold resumeGroup
  split
  · exact h
  · rename_i g top
    obtain ⟨q, at_q, top⟩ := Option.bind_eq_some_iff.mp top
    cases at_z.symm.trans at_q
    obtain ⟨rest, stack⟩ := List.head?_eq_some_iff.mp top
    have placed : r.resumed.placedTags = r.placedTags := by
      simp [ZoneRecord.placedTags, ZoneRecord.resumed, stack, empty]
    have active : r.resumed.activeTags = g.members.map (·.tag) := by simp [ZoneRecord.activeTags, ZoneRecord.resumed, stack]
    have resumed : (updateZone z (·.resumed) s).Ledger owed fun u => stale u ∨ u ∈ g.members.map (·.tag) := by
      refine h.mapZone d at_z rfl rfl (fun u => ?_) fun u fresh => ?_
      · rw [ZoneRecord.count_tags, ZoneRecord.count_tags, placed, r.resumed_reservation]
      · obtain ⟨old, outside⟩ := not_or.mp fresh
        refine ⟨old, ZoneRecord.isActive_congr ?_, ZoneRecord.isPlaced_congr (by rw [placed])⟩
        rw [active]
        simp [outside, ZoneRecord.activeTags, empty]
    exact (State.Ledger.reports Member.tag (fun m u => notify_aside _ _ _ _) g.members resumed).weaken
      fun u st => st.1.resolve_right st.2

/-- A grant reports its tag's standing, and does nothing more to zones and listen table. -/
theorem grant_aside (z : Nat) (own : Option Tag) (w : Waiter) (s : State) :
    Aside (reportStanding w.tag s) (grant z own w s) := by
  unfold grant
  simp only
  split
  · exact post_aside _ _
  · exact notify_aside _ _ _ _

theorem promote_ledger (h : s.Ledger owed stale) (d : s.ZonesDistinct) {z : Nat} {r : ZoneRecord}
    (at_z : s.zone z = some r) (empty : r.active = []) (own : Option Tag) : (promote z own s).Ledger owed stale := by
  unfold promote
  rw [at_z]
  simp only
  have perm := ZoneRecord.promoted_perm empty (member := s.promotedMember) fun _ => rfl
  have active : (r.promoted s.promotedMember).activeTags = r.promotable.map (·.tag) := by
    simp [ZoneRecord.activeTags, ZoneRecord.promoted, State.promotedMember, Function.comp_def]
  have promoted : (updateZone z (ZoneRecord.promoted s.promotedMember) s).Ledger owed fun u =>
      stale u ∨ u ∈ r.promotable.map (·.tag) := by
    refine h.mapZone d at_z rfl rfl (fun u => ?_) fun u fresh => ?_
    · rw [ZoneRecord.count_tags, ZoneRecord.count_tags, perm.count_eq]
      rfl
    · obtain ⟨old, outside⟩ := not_or.mp fresh
      refine ⟨old, ZoneRecord.isActive_congr ?_, ZoneRecord.isPlaced_congr perm.mem_iff⟩
      rw [active]
      simp [outside, ZoneRecord.activeTags, empty]
  exact (State.Ledger.reports Waiter.tag (fun w u => grant_aside z own w u) r.promotable promoted).weaken
    fun u st => st.1.resolve_right st.2

theorem joinActive_ledger (h : s.Ledger owed stale) (d : s.ZonesDistinct) {z : Nat} {r : ZoneRecord} {w : Waiter}
    {rest : List Waiter} (at_z : s.zone z = some r) (list : r.waiting = w :: rest) (own : Option Tag) :
    (joinActive z own w s).Ledger owed stale := by
  have perm := ZoneRecord.joined_perm (m := s.promotedMember w) list rfl
  have joined : (updateZone z (ZoneRecord.joined (s.promotedMember w)) s).Ledger owed fun u => stale u ∨ u = w.tag := by
    refine h.mapZone d at_z rfl rfl (fun u => ?_) fun u fresh => ?_
    · rw [ZoneRecord.count_tags, ZoneRecord.count_tags, perm.count_eq]
      rfl
    · obtain ⟨old, other⟩ := not_or.mp fresh
      refine ⟨old, ZoneRecord.isActive_congr ?_, ZoneRecord.isPlaced_congr perm.mem_iff⟩
      simp [ZoneRecord.activeTags, ZoneRecord.joined, State.promotedMember, other]
  exact ((joined.report w.tag).aside (grant_aside z own w _)).weaken fun u st => st.1.resolve_right st.2

/-! Settling -/

theorem takeWhile_flatMap_sublist {α β : Type} (p : α → Bool) (f : α → List β) (l : List α) :
    ((l.takeWhile p).flatMap f).Sublist (l.flatMap f) := by
  have split : l.flatMap f = (l.takeWhile p).flatMap f ++ (l.dropWhile p).flatMap f :=
    (congrArg (List.flatMap f) List.takeWhile_append_dropWhile.symm).trans List.flatMap_append
  rw [split]
  exact List.sublist_append_left _ _

/-- What a pass over an empty active set prunes has a place, and one each. -/
theorem ZoneRecord.pruned_sublist (r : ZoneRecord) : r.pruned.Sublist r.placedTags :=
  ((takeWhile_flatMap_sublist _ _ r.stack).append (List.filter_sublist.map _)).trans
    (by rw [r.placedTags_eq, List.append_assoc]; exact List.sublist_append_right _ _)

theorem emptyPass_ledger (h : s.Ledger owed stale) (d : s.ZonesDistinct) {z : Nat} {own : Option Tag} {r : ZoneRecord}
    (at_z : s.zone z = some r) (sound : r.Sound) (empty : r.active = []) (some' : emptyPass z own r s = some t) :
    t.Ledger owed stale := by
  have pruned := endRoles_ledger .floor r.pruned h d at_z sound.single (sound.single.sublist r.pruned_sublist)
    r.pruned_sublist.subset
  have za := endRoles_za z .floor r.pruned s
  have at_p : (forEach r.pruned (endRole z .floor) s).zone z = some (r.withoutAll r.pruned) := by
    rw [zone_mapZone za fun r => (r.withoutAll_fixed _).1, at_z]
    rfl
  have d' : (forEach r.pruned (endRole z .floor) s).ZonesDistinct :=
    (forEach_quiet (b := false) (fun t s => endRole_quiet z .floor t s) r.pruned s).distinct d
  have empty' := r.withoutAll_active_nil r.pruned empty
  unfold emptyPass at some'
  simp only at some'
  split at some'
  · cases some'
    exact resumeGroup_ledger pruned d' at_p empty'
  · cases some'
    exact promote_ledger pruned d' at_p empty' own
  · split at some'
    · cases some'
    · cases some'
      exact pruned

theorem activePass_ledger (h : s.Ledger owed stale) (d : s.ZonesDistinct) {z : Nat} {own : Option Tag} {r : ZoneRecord}
    {a : Nat} (at_z : s.zone z = some r) (sound : r.Sound) (some' : activePass z own r a s = some t) :
    t.Ledger owed stale := by
  unfold activePass at some'
  split at some'
  · cases some'
  · rename_i w rest list
    have waits : w.tag ∈ r.placedTags := by simp [ZoneRecord.placedTags, list]
    have ended := endRole_ledger h d at_z sound.single waits .floor
    split at some'
    · split at some'
      · cases some'
        have at_p : (pushActive z s).zone z = some r.pushed := by
          rw [zone_mapZone (pushActive_za z s (by simp [at_z])) ZoneRecord.pushed_zone, at_z]
          rfl
        exact promote_ledger (pushActive_ledger h d z) ((pushActive_quiet (b := false) z s).distinct d) at_p
          (r.pushed_active sound) own
      · cases some'
        exact ended
    · split at some'
      · split at some'
        · cases some'
          exact joinActive_ledger h d at_z list own
        · cases some'
          exact ended
      · cases some'

theorem settlePass_ledger (h : s.Ledger owed stale) (d : s.ZonesDistinct) {z : Nat} {own : Option Tag}
    (sound : s.AtZone z ZoneRecord.Sound) (some' : settlePass z own s = some t) : t.Ledger owed stale := by
  unfold settlePass at some'
  split at some'
  · cases some'
  · rename_i r at_z
    split at some'
    · rename_i none
      exact emptyPass_ledger h d at_z (sound r at_z) ((sound r at_z).level.mp none) some'
    · exact activePass_ledger h d at_z (sound r at_z) some'

theorem settleLoop_ledger (z : Nat) (own : Option Tag) : ∀ (n : Nat) {s : State}, s.Ledger owed stale → s.ZonesDistinct →
    s.LawfulElse z → s.AtZone z ZoneRecord.Sound → (settleLoop z own n s).Ledger owed stale
  | 0, _, h, _, _, _ => h
  | n + 1, s, h, d, other, sound => by
    unfold settleLoop
    split
    · exact h
    · rename_i u pass
      have settled := settlePass_settled other sound pass
      exact settleLoop_ledger z own n (settlePass_ledger h d sound pass) ((settlePass_quiet (b := false) pass).distinct d)
        settled.other fun r at_z => (settled.at_z r at_z).toSound

theorem settle_ledger (h : s.Ledger owed stale) (d : s.ZonesDistinct) {z : Nat} (other : s.LawfulElse z)
    (sound : s.AtZone z ZoneRecord.Sound) (own : Option Tag) (wasActive : Bool) :
    (settle z own wasActive s).Ledger owed stale := by
  unfold settle
  split
  · exact h
  · rename_i r _
    have loop := settleLoop_ledger z own r.passBound h d other sound
    simp only
    split
    · exact loop.aside (post_aside _ _)
    · exact loop

end Ledger

end Sys2Proof.Machine
end


section
/-! SUPPORT. The account of the listen table through whole events: answers, acknowledgements, endings and the lapse (R58 to R83,
R120 to R129). -/

namespace Sys2Proof.Machine

section Ledger
variable {owed : List Tag} {stale : Tag → Prop} {s t : State}

/-! Answers and acknowledgements -/

theorem reserve_ledger (h : s.Ledger owed stale) (d : s.ZonesDistinct) {z : Nat} {r : ZoneRecord} (at_z : s.zone z = some r)
    (t : Terms) : (reserve z t s).Ledger owed stale := by
  have taken := h.take t.tag t.gain t.duration
  have d' : (takeReference t.tag t.gain t.duration s).ZonesDistinct := d.of_za (takeReference_za ..)
  have free := breakReservation_ledger taken d' z
  have za := (breakReservation_za d' z).trans (congrArg (mapZone z ZoneRecord.broken) (takeReference_za ..))
  have at_b := zone_mapZone za ZoneRecord.broken_zone
  rw [at_z, Option.map_some] at at_b
  have none_left : r.broken.reservation = none := by
    unfold ZoneRecord.broken
    split
    · assumption
    · rfl
  unfold reserve
  refine free.mapZone ((breakReservation_quiet (b := false) z _).distinct d') at_b rfl rfl (fun u => ?_) fun u fresh => ?_
  · rw [ZoneRecord.count_tags, ZoneRecord.count_tags, none_left]
    simp only [Reservation.tags, List.count_cons, List.count_nil, ZoneRecord.placedTags]
    omega
  · exact ⟨fresh, rfl, rfl⟩

theorem answer_ledger (h : s.Ledger owed stale) (d : s.ZonesDistinct) {z : Nat} {r : ZoneRecord} (at_z : s.zone z = some r)
    (t : Terms) : (answer z t r s).2.Ledger owed stale := by
  by_cases held : r.verdict t = .held
  · rw [answer_of_held z s held]
    split
    · exact reserve_ledger h d at_z t
    · exact h
  · rw [answer_of_ne_held z s held]
    exact h

/-- The reference kept of a reservation becomes that of an active member. -/
theorem enterActive_ledger {t : Terms} (h : s.Ledger (t.tag :: owed) stale) (d : s.ZonesDistinct) {z : Nat}
    {r : ZoneRecord} (at_z : s.zone z = some r) : (enterActive z t s).Ledger owed stale := by
  have entered : (updateZone z (ZoneRecord.entered t) s).Ledger owed fun u => stale u ∨ u = t.tag := by
    have placed : (r.entered t).placedTags.Perm (t.tag :: r.placedTags) := by
      simp only [ZoneRecord.placedTags, ZoneRecord.entered, Terms.member, List.map_append, List.map_cons, List.map_nil,
        List.append_assoc, List.singleton_append]
      exact List.perm_middle
    refine h.mapZone d at_z rfl rfl (fun u => ?_) fun u fresh => ?_
    · rw [ZoneRecord.count_tags, ZoneRecord.count_tags, placed.count_eq]
      simp only [List.count_cons, ZoneRecord.entered]
      omega
    · obtain ⟨old, other⟩ := not_or.mp fresh
      refine ⟨old, ZoneRecord.isActive_congr ?_, ZoneRecord.isPlaced_congr ?_⟩
      · simp [ZoneRecord.activeTags, ZoneRecord.entered, Terms.member, other]
      · simp [placed.mem_iff, other]
  exact (entered.report t.tag).weaken fun u st => st.1.resolve_right st.2

theorem takeIn_ledger {t : Terms} {u : State} (h : u.Ledger (t.tag :: owed) stale) (d : u.ZonesDistinct) {z : Nat}
    {r : ZoneRecord} (at_z : u.zone z = some r) (other : u.LawfulElse z) (sound : (r.entered t).Sound) (wasActive : Bool) :
    (takeIn z t wasActive u).Ledger owed stale := by
  have za : (post (.zoneGranted z t.tag) (enterActive z t u)).za = mapZone z (·.entered t) u.za := by
    rw [post_za, enterActive_za]
    rfl
  have at_e := zone_mapZone za fun _ => rfl
  rw [at_z, Option.map_some] at at_e
  refine settle_ledger ((enterActive_ledger h d at_z).aside (post_aside _ _)) ?_ (other.map za fun _ => rfl) ?_ _ _
  · exact (post_quiet (b := false) _ _).distinct ((enterActive_quiet (b := false) z t u).distinct d)
  · intro q at_q
    cases at_e.symm.trans at_q
    exact sound

theorem commitHeld_ledger (h : s.Ledger owed stale) (o : s.Orderly) {z : Nat} {r : ZoneRecord} {t : Terms}
    (at_z : s.zone z = some r) (new : t.tag ∉ r.placedTags) : (commitHeld z t r s).2.Ledger owed stale := by
  have law := o.at_zone at_z
  unfold commitHeld
  split
  · rename_i reserved
    obtain ⟨v, held, tag⟩ : ∃ v, r.reservation = some v ∧ v.tag = t.tag := by
      unfold ZoneRecord.isReserved at reserved
      split at reserved
      · rename_i v held
        exact ⟨v, held, beq_iff_eq.mp reserved⟩
      · cases reserved
    have off : (updateZone z (fun r => { r with reservation := none }) s).Ledger (t.tag :: owed) stale :=
      tag ▸ h.unreserve o.distinct at_z held (g := ZoneRecord.unreserved) rfl rfl rfl rfl rfl
    have za := unreserve_za z s
    have d : (updateZone z (fun r => { r with reservation := none }) s).ZonesDistinct := by
      exact (updateZone_quiet (b := false) z (f := ZoneRecord.unreserved) (fun _ => rfl) s).distinct o.distinct
    have at_u := zone_mapZone za fun _ => rfl
    rw [at_z, Option.map_some] at at_u
    have other := (o.else z).map za fun _ => rfl
    simp only
    split
    · exact off.released
    · rename_i passes
      have passes : r.passes t.level = true := by simpa using passes
      rcases r.admission_cases t.level with ⟨sole, empty⟩ | ⟨a, push, level, above⟩ | ⟨join, level, mix, room⟩ | outranked
      · rw [sole]
        exact takeIn_ledger off d at_u other (law.taken_sole empty passes new) _
      · rw [push]
        have at_p := zone_mapZone (pushActive_unreserved_za at_z) fun r => r.unreserved.pushed_zone
        rw [at_z, Option.map_some] at at_p
        exact takeIn_ledger (pushActive_ledger off d z) ((pushActive_quiet (b := false) z _).distinct d) at_p
          ((o.else z).map (pushActive_unreserved_za at_z) fun r => r.unreserved.pushed_zone) (law.taken_push level above new) _
      · rw [join]
        exact takeIn_ledger off d at_u other (law.taken_join level mix room new) _
      · rw [outranked]
        exact off.released
  · split
    · exact h.records (g := fun r => { r with superseded := none }) rfl rfl fun _ => ⟨rfl, rfl, rfl⟩
    · exact h

/-- A tag joins the wait list, in place of its own reservation where it has one. -/
theorem joinWaiting_ledger (h : s.Ledger owed stale) (d : s.ZonesDistinct) {z : Nat} {r : ZoneRecord}
    (at_z : s.zone z = some r) (t : Terms) : (joinWaiting z t s).Ledger owed stale := by
  have d' : (takeReference t.tag t.gain t.duration s).ZonesDistinct := d.of_za (takeReference_za ..)
  have rid := dropReservation_ledger (h.take t.tag t.gain t.duration) d' z (· == t.tag)
  have at_r := zone_mapZone (dropReservation_za d' z (· == t.tag)) fun r => r.dropped_zone _
  rw [show (takeReference t.tag t.gain t.duration s).zone z = some r by rw [State.zone, takeReference_za]; exact at_z,
    Option.map_some] at at_r
  have joined : (updateZone z (fun r => { r with waiting := insertWaiter { tag := t.tag, level := t.level } r.waiting })
      (dropReservation z (· == t.tag) (takeReference t.tag t.gain t.duration s))).Ledger owed
      fun u => stale u ∨ u = t.tag := by
    generalize r.dropped (· == t.tag) = q at at_r
    have placed : ({ q with waiting := insertWaiter { tag := t.tag, level := t.level } q.waiting } : ZoneRecord).placedTags.Perm
        (t.tag :: q.placedTags) :=
      (((insertWaiter_perm _ q.waiting).map (·.tag)).append_left _).trans List.perm_middle
    refine rid.mapZone ((dropReservation_quiet (b := false) z _ _).distinct d') at_r rfl rfl (fun u => ?_) fun u fresh => ?_
    · rw [ZoneRecord.count_tags, ZoneRecord.count_tags, placed.count_eq]
      simp only [List.count_cons]
      omega
    · obtain ⟨old, other⟩ := not_or.mp fresh
      exact ⟨old, rfl, ZoneRecord.isPlaced_congr (by simp [placed.mem_iff, other])⟩
  exact (joined.report t.tag).weaken fun u st => st.1.resolve_right st.2

theorem commitWaiting_ledger (h : s.Ledger owed stale) (o : s.Orderly) {z : Nat} {r : ZoneRecord} {t : Terms}
    (at_z : s.zone z = some r) (new : t.tag ∉ r.placedTags) : (commitWaiting z t r s).2.Ledger owed stale := by
  unfold commitWaiting
  split
  · exact h
  · split
    · exact h
    · rename_i room
      split
      · exact h
      · rename_i listens
        have one : ∀ q ∈ s.za, q.zone = z → q = r := fun q mem hz => by
          have := o.distinct.zone mem
          rw [hz, at_z] at this
          exact (Option.some.inj this).symm
        have za := joinWaiting_za t at_z one
        have at_w := zone_mapZone za fun _ => rfl
        rw [at_z, Option.map_some] at at_w
        refine settle_ledger (joinWaiting_ledger h o.distinct at_z t) ?_ ((o.else z).map za fun _ => rfl) ?_ _ _
        · exact (joinWaiting_quiet (b := false) z t (by simpa using listens)).distinct o.distinct
        · intro q at_q
          cases at_w.symm.trans at_q
          exact (o.at_zone at_z).toSound.waits (by omega) new

/-! Endings -/

theorem endWhere_ledger (h : s.Ledger owed stale) (o : s.Orderly) (reason : Reason) (p : Tag → Bool) (z : Nat) :
    (endWhere reason p z s).Ledger owed stale := by
  unfold endWhere
  split
  · exact h
  · rename_i r at_z
    have law := o.at_zone at_z
    simp only
    have nodup : (r.placedTags.filter p).Nodup := law.single.filter _
    have inside : r.placedTags.filter p ⊆ r.placedTags := List.filter_sublist.subset
    generalize r.placedTags.filter p = tags at nodup inside
    have za := endTags_za o.distinct z reason p tags
    have d : (forEach tags (endRole z reason) s).ZonesDistinct :=
      (forEach_quiet (b := false) (fun t s => endRole_quiet z reason t s) tags s).distinct o.distinct
    have ended := endRoles_ledger reason tags h o.distinct at_z law.single nodup inside
    have dropped := dropReservation_ledger ended d z p
    have cleared : (dropSuperseded z p (dropReservation z p (forEach tags (endRole z reason) s))).Ledger owed stale :=
      dropped.records (dropSuperseded_za z p _) rfl fun _ => ⟨rfl, rfl, rfl⟩
    split
    · exact cleared
    · have at_e := zone_mapZone za (ZoneRecord.ended_zone p tags)
      rw [at_z, Option.map_some] at at_e
      refine settle_ledger cleared ?_ ((o.else z).map za (ZoneRecord.ended_zone p tags)) ?_ _ _
      · exact (dropSuperseded_quiet (b := false) z p _).distinct ((dropReservation_quiet (b := false) z p _).distinct d)
      · intro q at_q
        cases at_e.symm.trans at_q
        exact ((law.toSound.withoutAll tags).dropped p).superseded _

theorem endEach_ledger (reason : Reason) (p : Tag → Bool) : ∀ (zones : List Nat) {s : State}, s.Ledger owed stale →
    s.Orderly → (forEach zones (endWhere reason p) s).Ledger owed stale
  | [], _, h, _ => h
  | z :: rest, s, h, o => endEach_ledger reason p rest (endWhere_ledger h o reason p z)
      ((Acts.ends reason p z s).orderly o)

theorem setFloorAt_ledger (h : s.Ledger owed stale) (o : s.Orderly) (z : Nat) {floor : Nat} (range : 1 ≤ floor ∧ floor ≤ 7) :
    (setFloorAt z floor s).Ledger owed stale := by
  have za : (post (.zoneFloor z floor) (updateZone z (fun r => { r with floor := floor }) s)).za =
      mapZone z (fun r => { r with floor := floor }) s.za := by rw [post_za]; rfl
  have floored : (updateZone z (fun r => { r with floor := floor }) s).Ledger owed stale :=
    h.records (g := fun r => { r with floor := floor }) rfl rfl fun _ => ⟨rfl, rfl, rfl⟩
  refine settle_ledger (floored.aside (post_aside _ _)) ?_ ((o.else z).map za fun _ => rfl) (fun q at_q => ?_) _ _
  · have zones : (updateZone z (fun r => { r with floor := floor }) s).za.map (·.zone) = s.za.map (·.zone) :=
      (updateZone_tame z (f := fun r => { r with floor := floor }) (fun _ => rfl) s).zones
    refine (post_quiet (b := false) _ _).distinct ?_
    unfold State.ZonesDistinct
    rw [zones]
    exact o.distinct
  · rw [zone_mapZone za fun _ => rfl] at at_q
    obtain ⟨r, at_z, rfl⟩ := Option.map_eq_some_iff.mp at_q
    exact (o.at_zone at_z).toSound.floored range

theorem autoEndExpiryAt_ledger (h : s.Ledger owed stale) (o : s.Orderly) (z : Nat) (u : Tag) :
    (autoEndExpiryAt z u s).Ledger owed stale := by
  unfold autoEndExpiryAt
  split
  · exact h
  · rename_i r at_z
    split
    · rename_i runs
      have law := o.at_zone at_z
      obtain ⟨m, member, meant⟩ := List.any_eq_true.mp runs
      have placed : u ∈ r.placedTags := by
        have tag : m.tag = u := beq_iff_eq.mp (Bool.and_eq_true_iff.mp meant).1
        rw [r.placedTags_eq, List.append_assoc]
        exact List.mem_append_left _ (List.mem_map.mpr ⟨m, member, tag⟩)
      refine settle_ledger (endRole_ledger h o.distinct at_z law.single placed .autoEnd)
        ((endRole_quiet (b := false) z _ u s).distinct o.distinct) ((o.else z).map (endRole_za z _ u s) fun _ => rfl)
        (fun q at_q => ?_) _ _
      rw [zone_mapZone (endRole_za z _ u s) fun _ => rfl, at_z] at at_q
      cases at_q
      exact law.toSound.without u
    · exact h

/-! Audio -/

theorem arriveSamples_ledger (h : s.Ledger owed stale) (u : Tag) (block : List Sample) :
    (arriveSamples u block s).Ledger owed stale := by
  refine h.entries (t := arriveSamples u block s) rfl rfl fun e => ?_
  split
  · unfold ListenEntry.arrive
    split
    · exact ⟨rfl, rfl, rfl, rfl⟩
    · rename_i runs
      dsimp only
      split
      · exact ⟨rfl, rfl, rfl, by simp [ListenEntry.append, runs]⟩
      · exact ⟨rfl, rfl, rfl, by simp [runs]⟩
  · exact ⟨rfl, rfl, rfl, rfl⟩

theorem afterYield_ledger (h : s.Ledger owed stale) :
    ({ s with lu := s.lu.map ListenEntry.afterYield } : State).Ledger owed stale := by
  refine h.entries rfl rfl fun e => ?_
  unfold ListenEntry.afterYield
  split
  · split <;> exact ⟨rfl, rfl, rfl, rfl⟩
  · exact ⟨rfl, rfl, rfl, rfl⟩

end Ledger

/-! What an ending everywhere leaves -/

theorem ZoneRecord.mem_withoutAll {r : ZoneRecord} {u : Tag} : ∀ {tags : List Tag},
    u ∈ (r.withoutAll tags).placedTags ↔ u ∈ r.placedTags ∧ u ∉ tags := by
  intro tags
  induction tags generalizing r with
  | nil => simp [ZoneRecord.withoutAll]
  | cons v rest ih =>
    change u ∈ ((r.without v).withoutAll rest).placedTags ↔ _
    rw [ih, ZoneRecord.without_placedTags, List.mem_filter, List.mem_cons, not_or]
    simp only [bne_iff_ne, and_assoc]

/-- A record holds no role and no superseded tag that satisfies `p`. -/
def ZoneRecord.Rid (p : Tag → Bool) (r : ZoneRecord) : Prop :=
  (∀ u ∈ r.tags, p u = false) ∧ ∀ u, r.superseded = some u → p u = false

/-- What an ending makes of its zone's record before it settles it holds nothing that satisfies `p`. -/
theorem ZoneRecord.ended_rid (p : Tag → Bool) (r : ZoneRecord) : (r.ended p (r.placedTags.filter p)).Rid p := by
  have placed : ∀ u ∈ (r.withoutAll (r.placedTags.filter p)).placedTags, p u = false := fun u mem => by
    obtain ⟨place, kept⟩ := ZoneRecord.mem_withoutAll.mp mem
    cases meant : p u with
    | false => rfl
    | true => exact absurd (List.mem_filter.mpr ⟨place, meant⟩) kept
  refine ⟨fun u mem => ?_, fun u superseded => ?_⟩
  · unfold ZoneRecord.ended ZoneRecord.unsuperseded ZoneRecord.dropped at mem
    rcases List.mem_append.mp mem with mem | mem
    · refine placed u ?_
      split at mem <;> exact mem
    · split at mem
      · exact absurd mem List.not_mem_nil
      · rename_i other
        cases held : (r.withoutAll (r.placedTags.filter p)).reservation with
        | none =>
          simp only [held] at mem
          exact absurd mem List.not_mem_nil
        | some v =>
          simp only [held, Reservation.tags, List.mem_singleton] at mem
          rw [mem]
          simpa [held] using other
  · obtain ⟨-, kept⟩ := Option.filter_eq_some_iff.mp superseded
    simpa using kept

/-- Settling brings back nothing that is gone. -/
theorem ZoneRecord.Rid.narrowed {p : Tag → Bool} {r r' : ZoneRecord} (h : r.Rid p) (placed : r'.placedTags ⊆ r.placedTags)
    (reservation : r'.reservation = r.reservation) (superseded : r'.superseded = r.superseded) : r'.Rid p := by
  refine ⟨fun u mem => h.1 u ?_, fun u same => h.2 u (superseded ▸ same)⟩
  rcases List.mem_append.mp mem with mem | mem
  · exact List.mem_append_left _ (placed mem)
  · exact List.mem_append_right _ (reservation ▸ mem)

/-- An ending in one zone leaves there no role and no superseded tag that satisfies `p`, and touches no other zone. -/
theorem endWhere_rid {s : State} (d : s.ZonesDistinct) (reason : Reason) (p : Tag → Bool) (z : Nat) :
    (∀ r, (endWhere reason p z s).zone z = some r → r.Rid p) ∧
      ∀ z', z' ≠ z → (endWhere reason p z s).zone z' = s.zone z' := by
  unfold endWhere
  split
  · rename_i none_at
    exact ⟨fun r at_z => absurd (none_at.symm.trans at_z) (by simp), fun _ _ => rfl⟩
  · rename_i r at_z
    simp only
    have za := endTags_za d z reason p (r.placedTags.filter p)
    have same := ZoneRecord.ended_zone p (r.placedTags.filter p)
    have at_e := zone_mapZone za same
    rw [at_z, Option.map_some] at at_e
    have rid := r.ended_rid p
    split
    · refine ⟨fun q at_q => ?_, fun z' other => zone_mapZone_other za same other⟩
      cases at_e.symm.trans at_q
      exact rid
    · have d' : (dropSuperseded z p (dropReservation z p (forEach (r.placedTags.filter p) (endRole z reason) s))).ZonesDistinct :=
        (dropSuperseded_quiet (b := false) z p _).distinct ((dropReservation_quiet (b := false) z p _).distinct
          ((forEach_quiet (b := false) (fun t s => endRole_quiet z reason t s) _ s).distinct d))
      have narrows := settle_narrows z none (!r.active.isEmpty) d'
      refine ⟨fun q at_q => ?_, fun z' other => (narrows.other other).trans (zone_mapZone_other za same other)⟩
      obtain ⟨q', at_q', -, placed, reservation, superseded⟩ := narrows.at_zone at_q
      cases at_e.symm.trans at_q'
      exact rid.narrowed placed reservation superseded

/-- An ending everywhere leaves no role and no superseded tag that satisfies `p` in any own zone. -/
theorem endEverywhere_rid {s : State} (d : s.ZonesDistinct) (reason : Reason) (p : Tag → Bool) :
    ∀ r ∈ (endEverywhere reason p s).za, r.Rid p := by
  have each : ∀ (zones : List Nat) (s : State), s.ZonesDistinct →
      (∀ r ∈ s.za, r.zone ∉ zones → r.Rid p) → ∀ r ∈ (forEach zones (endWhere reason p) s).za, r.Rid p := by
    intro zones
    induction zones with
    | nil => exact fun s _ h r mem => h r mem List.not_mem_nil
    | cons z rest ih =>
      intro s d h
      obtain ⟨here, elsewhere⟩ := endWhere_rid d reason p z
      have d' := (Acts.ends reason p z s).distinct d
      refine ih _ d' fun r mem outside => ?_
      by_cases hz : r.zone = z
      · exact here r (hz ▸ d'.zone mem)
      · have was := d'.zone mem
        rw [elsewhere r.zone hz] at was
        refine h r (zone_zone was).2 fun member => ?_
        rcases List.mem_cons.mp member with same | member
        · exact hz same
        · exact outside member
  exact each s.ownZones s d fun r mem outside => absurd (List.mem_map.mpr ⟨r, mem, rfl⟩) outside

theorem roleCount_rid {s : State} {p : Tag → Bool} (rid : ∀ r ∈ s.za, r.Rid p) {u : Tag} (meant : p u = true) :
    s.roleCount u = 0 := by
  refine List.count_eq_zero.mpr fun mem => ?_
  obtain ⟨r, known, role⟩ := List.mem_flatMap.mp mem
  rw [(rid r known).1 u role] at meant
  cases meant

/-- A tag with no role has no entry. -/
theorem State.Ledger.no_entry {stale : Tag → Prop} {s : State} (h : s.Ledger [] stale) {u : Tag} (none_left : s.roleCount u = 0) :
    s.listenEntry u = none := by
  cases entry : s.listenEntry u with
  | none => rfl
  | some e =>
    obtain ⟨tag, known⟩ := listenEntry_tag entry
    have := h.refs e known
    rw [tag, none_left] at this
    simp at this
    omega

/-- Within a lapse, the one stale tag is that of the timer. -/
theorem lapseExpiry_ledger {s : State} (h : s.Ledger [] noTag) (o : s.Orderly) (u : Tag) :
    (lapseExpiry u s).Ledger [] noTag := by
  unfold lapseExpiry
  split
  · have silenced : (updateListen u (fun e => { e with lapse := none }) s).Ledger [] (· = u) := by
      have tags : ∀ e : ListenEntry, (if e.tag = u then { e with lapse := none } else e).tag = e.tag := by
        intro e
        split <;> rfl
      refine ⟨by rw [updateListen_lu, map_tags tags]; exact h.single, fun e mem => ?_, fun v needed => ?_, fun e mem fresh => ?_⟩
      · obtain ⟨q, known, rfl⟩ := List.mem_map.mp mem
        rw [tags]
        have refs : (if q.tag = u then { q with lapse := none } else q).references = q.references := by
          split <;> rfl
        rw [refs]
        exact h.refs q known
      · have := h.held v needed
        simp only [State.listenEntry, updateListen_lu] at this ⊢
        rw [find_map_tags tags, Option.isSome_map]
        exact this
      · obtain ⟨q, known, rfl⟩ := List.mem_map.mp mem
        rw [tags] at fresh
        rw [if_neg fresh]
        exact h.agree q known id
    have unreported : State.Orderly (updateListen u (fun e => { e with lapse := none }) s) := ⟨o.distinct, o.lawful⟩
    have ended := endEach_ledger .silent (· == u) (updateListen u (fun e => { e with lapse := none }) s).ownZones silenced
      unreported
    have gone := ended.no_entry
      (roleCount_rid (endEverywhere_rid unreported.distinct .silent (· == u)) (beq_self_eq_true u))
    refine ⟨ended.single, ended.refs, ended.held, fun e mem _ => ended.agree e mem fun same => ?_⟩
    exact listenEntry_none gone mem same
  · exact h

/-! Every act -/

theorem Acts.ledger {s t : State} (acts : Acts s t) (o : s.Orderly) (h : s.Ledger [] noTag) : t.Ledger [] noTag := by
  induction acts with
  | aside k => exact h.aside k
  | trans h₁ h₂ ih ih' => exact ih' (h₁.orderly o) (ih o h)
  | answer t at_z => exact answer_ledger h o.distinct at_z t
  | held t at_z new => exact commitHeld_ledger h o at_z (not_placed new)
  | waiting t at_z new => exact commitWaiting_ledger h o at_z (not_placed new)
  | ends reason p z s => exact endWhere_ledger h o reason p z
  | drop z p s => exact dropReservation_ledger h o.distinct z p
  | floor z s range => exact setFloorAt_ledger h o z range
  | autoEnd z t s => exact autoEndExpiryAt_ledger h o z t
  | lapse t s => exact lapseExpiry_ledger h o t
  | samples t block s => exact arriveSamples_ledger h t block
  | yields s => exact afterYield_ledger h

/-! Resets, loads and the passage of time -/

/-- With no listen entry and no role, the table is exact. -/
theorem ledger_of_empty {t : State} (lu : t.lu = []) (roles : ∀ r ∈ t.za, r.tags = []) : t.Ledger [] noTag := by
  have none_held : ∀ u, t.roleCount u = 0 := fun u => List.count_eq_zero.mpr fun mem => by
    obtain ⟨r, known, role⟩ := List.mem_flatMap.mp mem
    rw [roles r known] at role
    exact List.not_mem_nil role
  refine ⟨by simp [lu], fun e mem => ?_, fun u needed => ?_, fun e mem _ => ?_⟩
  · exact absurd (lu ▸ mem) List.not_mem_nil
  · simp [none_held] at needed
  · exact absurd (lu ▸ mem) List.not_mem_nil

theorem zoneRecordsOf_tags (c : Configuration) : ∀ r ∈ zoneRecordsOf c, r.tags = [] := by
  intro r mem
  obtain ⟨i, _, rfl⟩ := List.mem_mapIdx.mp mem
  rfl

theorem enterJoining_aside (s : State) : Aside s (enterJoining s) :=
  have talks := enterJoining_talks s
  ⟨talks.za, talks.lu, talks.config⟩

theorem endLoad_ledger (memory : List Byte) {s : State} (coherent : s.Coherent) (h : s.Ledger [] noTag) :
    (endLoad memory s).Ledger [] noTag := by
  unfold endLoad
  split
  · rename_i loading
    have outside := coherent.not_member_of_reading loading.1
    split
    · rename_i c _
      exact (ledger_of_empty (t := sampleKeys (takeZones c { s with config := some c, cl := ⟨.done, none⟩ }))
        (coherent.repeating outside).listen (zoneRecordsOf_tags c)).aside (enterJoining_aside _)
    · exact State.Ledger.aside h ⟨post_za _ _, post_lu _ _, post_config _ _⟩
  · exact h

theorem softReset_ledger {s : State} (h : s.Ledger [] noTag) : (softReset s).Ledger [] noTag := by
  unfold softReset
  split
  · split
    · rename_i c _
      exact (ledger_of_empty (t := clearedState c s) rfl (zoneRecordsOf_tags c)).aside (enterJoining_aside _)
    · exact h
  · exact h.aside ⟨rfl, rfl, rfl⟩

theorem resetCommand_ledger {s : State} (h : s.Ledger [] noTag) : (resetCommand s).Ledger [] noTag :=
  whenListening_of h fun _ => (softReset_ledger h).aside ⟨rfl, rfl, rfl⟩

theorem beginLoad_ledger {s : State} (h : s.Ledger [] noTag) : (beginLoad s).Ledger [] noTag := by
  unfold beginLoad
  split
  · exact h.aside ⟨rfl, rfl, rfl⟩
  · exact h

theorem tick_ledger {s : State} (h : s.Ledger [] noTag) : (tick s).Ledger [] noTag := by
  refine h.alike (g := ZoneRecord.oneLess) (f := ListenEntry.oneLess) rfl rfl (fun r => ?_) fun e => ?_
  · exact ⟨by simp [ZoneRecord.activeTags, ZoneRecord.oneLess, Function.comp_def], r.oneLess_tags⟩
  · exact ⟨rfl, rfl, rfl, by simp [ListenEntry.oneLess, oneLess]⟩

theorem after_ledger (c : Instr) {s : State} (coherent : s.Coherent) (o : s.Orderly) (h : s.Ledger [] noTag) :
    (after c s).Ledger [] noTag := by
  by_cases kept : keepsZones c = true
  · exact (after_acts kept s).ledger o h
  · cases c with
    | rstnReset => exact ledger_of_empty rfl fun _ mem => absurd mem List.not_mem_nil
    | loadBegins => exact beginLoad_ledger h
    | loadSucceeds memory => exact endLoad_ledger memory coherent h
    | loadFails memory => exact endLoad_ledger memory coherent h
    | reset => exact resetCommand_ledger h
    | _ => exact absurd rfl kept

theorem State.Safe.orderly {s : State} (h : s.Safe) : s.Orderly := ⟨h.matched.distinct h.coherent, h.arbitrated⟩

/-- Settles O60. -/
theorem stepKeepsTheListenTable : Obligations.StepKeepsTheListenTable := by
  intro s t safe next
  have exact' := (heard_iff s).mp safe.heard
  rw [heard_iff]
  rcases step_cases next with ⟨c, rest, -, rfl⟩ | ⟨c, rfl⟩ | rfl
  · exact after_ledger c (safe.coherent.withPending rest) ⟨safe.orderly.distinct, safe.orderly.lawful⟩
      (exact'.aside ⟨rfl, rfl, rfl⟩)
  · exact after_ledger c safe.coherent safe.orderly exact'
  · exact tick_ledger exact'

end Sys2Proof.Machine
end


section
/-! SUPPORT. A step's front command and an idle millisecond, resets and the start of a load, the arbiter of Ring Out, and the removal
of a silent peer: what each says about one equation of the model. -/

namespace Sys2Proof.Machine

/-! Steps -/

/-- Settles O1. -/
theorem stepTakesFrontCommand : Obligations.StepTakesFrontCommand := by
  intro c rest s waiting
  rw [step, waiting]

theorem step_of_nothing_due {s : State} (empty : s.pending = []) (nothing : dueEvent s = none) : step s = .next (tick s) := by
  rw [step, empty]
  simp only [idle, nothing]

/-- Settles O2: with nothing due the idle step is the tick, whose fields are the statement's. -/
theorem idleMillisecond : Obligations.IdleMillisecond := by
  intro s empty nothing
  rw [step_of_nothing_due empty nothing]
  rfl

/-! Resets and loads -/

theorem beginLoad_of_low {s : State} (low : s.rstnLow = true) :
    beginLoad s = { s with rstnLow := false, cl := { loadState := .reading, faultCode := none } } := by
  rw [beginLoad, if_pos low, startLoad]

theorem beginLoad_of_high {s : State} (high : s.rstnLow = false) : beginLoad s = s := by
  rw [beginLoad, if_neg (by simp [high])]

theorem loadBegins : Clause.LoadBegins := by
  intro s
  refine ⟨fun low => ⟨beginLoad s, rfl, ?_, beginLoad_of_low low⟩, fun high => congrArg _ (beginLoad_of_high high)⟩
  rw [beginLoad_of_low low]
  rfl

theorem resetStateIsReached : Clause.ResetStateIsReached := by
  intro s empty opened
  refine ⟨hardReset s, rfl, congrArg Host.Outcome.next ?_⟩
  rw [beginLoad_of_low rfl, hardReset, empty, opened]
  rfl

/-- Settles O4. -/
theorem resetThenLoad : Obligations.ResetThenLoad := ⟨fun _ => rfl, loadBegins, resetStateIsReached⟩

/-- With room in the queue a notice is stored under its vector (R172, R174). -/
theorem post_of_room {n : HostNotice} {s : State} (room : s.cp.notices.length < 32) :
    post n s = { s with cp := { s.cp with
      notices := s.cp.notices ++ [{ vector := s.vectorBase + n.category.index, notice := n }] } } := if_pos room

theorem endLoad_of_error {memory : List Byte} {code : FaultCode} {s : State} (reading : s.cl.loadState = .reading)
    (high : s.rstnLow = false) (failed : loadImage memory = .error code) : endLoad memory s = loadFailed code s := by
  rw [endLoad, if_pos ⟨reading, high⟩, failed]

theorem endLoad_of_ok {memory : List Byte} {c : Configuration} {s : State} (reading : s.cl.loadState = .reading)
    (high : s.rstnLow = false) (taken : loadImage memory = .ok c) : endLoad memory s = loadSucceeded c s := by
  rw [endLoad, if_pos ⟨reading, high⟩, taken]

theorem loadFailed_of_room {code : FaultCode} {s : State} (room : s.cp.notices.length < 32) :
    loadFailed code s = { s with
      cl := { loadState := .failed, faultCode := some code }
      pu := { s.pu with ringState := .passive }
      cp := { s.cp with notices := s.cp.notices ++ [{ vector := s.vectorBase + 3, notice := .configFault code }] } } :=
  if_pos room

/-- Settles O6: a load in progress is at a repeater, so no configuration stands and the vector base is 0. -/
theorem loadFailureEntersPassive : Obligations.LoadFailureEntersPassive := by
  intro memory code s coherent room reading high failed
  have base : s.vectorBase = 0 := by
    simp only [State.vectorBase, coherent.config_none (coherent.not_member_of_reading reading)]
  have passive := loadFailed_of_room (code := code) room
  rw [base] at passive
  exact congrArg Host.Outcome.next ((endLoad_of_error reading high failed).trans passive)

/-! Ring Out -/

namespace RingPort
variable {p : RingPort}

theorem arbitrate_of_busy {o : OutFrame} (busy : p.out = some o) : p.arbitrate = p := by
  simp only [arbitrate, busy]

theorem arbitrate_forward_first {f : Frame} {rest : List Frame} (free : p.out = none) (waits : p.forward = f :: rest) :
    p.arbitrate = { p with forward := rest, out := some { frame := f, source := .forward, reported := false } } := by
  simp only [arbitrate, free, waits]

theorem arbitrate_control_next {f : Frame} {rest : List Frame} (free : p.out = none) (none_forward : p.forward = [])
    (waits : p.control = f :: rest) :
    p.arbitrate = { p with control := rest, out := some { frame := f, source := .control, reported := true } } := by
  simp only [arbitrate, free, none_forward, waits]

theorem arbitrate_audio_last {f : Frame} {rest : List Frame} (free : p.out = none) (none_forward : p.forward = [])
    (none_control : p.control = []) (waits : p.audio = f :: rest) :
    p.arbitrate = { p with audio := rest, out := some { frame := f, source := .audio, reported := false } } := by
  simp only [arbitrate, free, none_forward, none_control, waits]

theorem arbitrate_none (none_forward : p.forward = []) (none_control : p.control = []) (none_audio : p.audio = []) :
    p.arbitrate = p := by
  cases line : p.out with
  | some o => exact arbitrate_of_busy line
  | none => simp only [arbitrate, line, none_forward, none_control, none_audio]

end RingPort

theorem forwardQueueOrder : Clause.ForwardQueueOrder := by
  intro f p
  refine ⟨fun o busy => RingPort.arbitrate_of_busy busy, fun free empty => ?_, fun g rest free waits => ?_⟩
  · have alone := RingPort.arbitrate_forward_first (p := { p with forward := p.forward ++ [f] }) (f := f) (rest := []) free
      (by simp [empty])
    rwa [show ({ p with forward := [], out := _ } : RingPort) = { p with out := _ } by rw [← empty]] at alone
  · exact RingPort.arbitrate_forward_first free (by rw [waits]; rfl)

/-- A frame that is reported to no unit leaves the line, and nothing else is done (R28). -/
theorem completeTransmission_of_unreported {s : State} {o : OutFrame} (line : s.rp.out = some o) (quiet : o.reported = false) :
    completeTransmission s = freeLine s := by
  rw [completeTransmission, line]
  simp [quiet]

theorem freeLine_eq {s : State} {p : RingPort} (taken : ({ s.rp with out := none } : RingPort).arbitrate = p) :
    freeLine s = { s with rp := p } := by
  rw [freeLine, taken]

theorem completionTakesTheNextFrame : Clause.CompletionTakesTheNextFrame := by
  intro s
  refine ⟨fun free => ?_, fun o line quiet => ?_⟩
  · change Host.Outcome.next (completeTransmission s) = _
    rw [completeTransmission, free]
  · have next : exec .transmissionCompletion s = .next (freeLine s) :=
      congrArg _ (completeTransmission_of_unreported line quiet)
    rw [next]
    refine ⟨fun f rest waits => ?_, fun f rest noForward waits => ?_, fun f rest noForward noControl waits => ?_,
      fun noForward noControl noAudio => ?_⟩
    · exact congrArg _ (freeLine_eq (RingPort.arbitrate_forward_first rfl waits))
    · exact congrArg _ (freeLine_eq (RingPort.arbitrate_control_next rfl noForward waits))
    · exact congrArg _ (freeLine_eq (RingPort.arbitrate_audio_last rfl noForward noControl waits))
    · exact congrArg _ (freeLine_eq (RingPort.arbitrate_none noForward noControl noAudio))

/-- Settles O13. -/
theorem ringOutOrder : Obligations.RingOutOrder := ⟨forwardQueueOrder, completionTakesTheNextFrame⟩

/-! Peers -/

/-- A post is about the Control Port and the vector base alone. -/
theorem post_eq (n : HostNotice) (s : State) : post n s = { s with cp := (post n s).cp } := by
  unfold post
  split <;> rfl

/-- A post asks nothing of the Presence Unit. -/
theorem post_with_pu (n : HostNotice) (s : State) (p : PresenceUnit) : post n { s with pu := p } = { post n s with pu := p } := by
  unfold post
  split <;> rfl

/-- Settles O20. -/
theorem silentPeerIsRemoved : Obligations.SilentPeerIsRemoved := by
  intro a s
  refine ⟨fun p known => ?_, fun unknown => congrArg Host.Outcome.next (if_neg (by simp [unknown]))⟩
  have others : (s.pu.peers.filter fun p => p.address != a) = s.pu.peers.filter fun p => p.address ≠ a :=
    List.filter_congr fun p _ => by
      rw [decide_not]
      rfl
  refine congrArg Host.Outcome.next ((if_pos (by simp [known])).trans ?_)
  rw [others, post_with_pu, startCleanup, post_cleanups]

end Sys2Proof.Machine
end


section
/-! SUPPORT. The commands of the Control Port, each by what its guards find: the answers to CLAIM and CLAIM PRESET, the contacts and
their debounce, the commands that do not act or are refused, notices, masks and records (R157 to R177, R193). -/

namespace Sys2Proof.Machine

/-! Answers -/

/-- A one-byte answer changes the response alone. -/
theorem answerCode_eq (code : ResultCode) (s : State) :
    answerCode code s = { s with cp := { s.cp with response := [code.code] } } := rfl

theorem whenListening_of_low {act : State → State} {s : State} (low : s.rstnLow = true) : whenListening act s = s := by
  simp [whenListening, low]

theorem whenMember_of_low {act : State → State} {s : State} (low : s.rstnLow = true) : whenMember act s = s :=
  whenListening_of_low low

theorem onOwnZone_of_low {zone : Byte} {act : Nat → State → State} {s : State} (low : s.rstnLow = true) :
    onOwnZone zone act s = s := whenMember_of_low low

theorem whenMember_of_passive {act : State → State} {s : State} (high : s.rstnLow = false) (outside : s.isMember = false) :
    whenMember act s = answerCode .passive s := by
  rw [whenMember, whenListening_of_high high, if_neg (by simp [outside])]

theorem onOwnZone_of_owned {zone : Byte} {act : Nat → State → State} {s : State} (high : s.rstnLow = false)
    (member : s.isMember = true) (owned : s.owns zone.toNat = true) : onOwnZone zone act s = act zone.toNat s := by
  rw [onOwnZone, whenMember_of_isMember high member, if_pos owned]

theorem onOwnZone_of_not_owned {zone : Byte} {act : Nat → State → State} {s : State} (high : s.rstnLow = false)
    (member : s.isMember = true) (foreign : s.owns zone.toNat = false) :
    onOwnZone zone act s = answerCode .notOwned s := by
  rw [onOwnZone, whenMember_of_isMember high member, if_neg (by simp [foreign])]

theorem onOwnZone_of_passive {zone : Byte} {act : Nat → State → State} {s : State} (high : s.rstnLow = false)
    (outside : s.isMember = false) : onOwnZone zone act s = answerCode .passive s := whenMember_of_passive high outside

/-! CLAIM and CLAIM PRESET -/

theorem modeOfCode_eq_none {b : Byte} (above : 1 < b.toNat) : modeOfCode b = none := by
  unfold modeOfCode
  split
  · omega
  · omega
  · rfl

theorem flagOfCode_eq_none {b : Byte} (above : 1 < b.toNat) : flagOfCode b = none := by
  unfold flagOfCode
  split
  · omega
  · omega
  · rfl

/-- The code of a flag that is one (R193). -/
theorem flagOfCode_of_le {b : Byte} (small : b.toNat ≤ 1) : flagOfCode b = some (b == 1) := by
  obtain zero | one : b.toNat = 0 ∨ b.toNat = 1 := by omega
  · rw [BitVec.eq_of_toNat_eq (y := 0) zero]
    rfl
  · rw [BitVec.eq_of_toNat_eq (y := 1) one]
    rfl

theorem claimDescOf_eq_none {count : Byte} (places : List Byte) (level : Byte) {mode wait : Byte} (gain duration : Word16)
    (port : Byte) (h : count.toNat = 0 ∨ 8 < count.toNat ∨ 1 < mode.toNat ∨ 1 < wait.toNat) :
    claimDescOf count places level mode wait gain duration port = none := by
  unfold claimDescOf
  split
  · rename_i modeKnown waitKnown
    refine if_neg fun range => ?_
    rcases h with zero | nine | mode | wait
    · omega
    · omega
    · rw [modeOfCode_eq_none mode] at modeKnown
      cases modeKnown
    · rw [flagOfCode_eq_none wait] at waitKnown
      cases waitKnown
  · rfl

theorem claimCommand_of_high {s : State} (high : s.rstnLow = false) (d : ClaimDesc) :
    claimCommand (some d) s = answerIssue (issue .host d s) := by
  rw [claimCommand, whenListening_of_high high]

theorem refusedClaimIsAnswered : Clause.RefusedClaimIsAnswered := by
  intro count places level mode wait gain duration port s high
  constructor
  · intro wrong
    refine congrArg Host.Outcome.next (?_ : claimCommand _ s = _)
    rw [claimDescOf_eq_none places level gain duration port wrong, claimCommand, whenListening_of_high high]
    rfl
  · intro d code given refused
    refine congrArg Host.Outcome.next (?_ : claimCommand _ s = _)
    rw [given, claimCommand_of_high high, refused]
    rfl

theorem presetRefusal_of_member {s : State} (member : s.isMember = true) : presetRefusal s.ringState = none := by
  unfold State.isMember at member
  cases ring : s.ringState with
  | loading | passive =>
    rw [ring] at member
    cases member
  | joining | up | broken => rfl

theorem presetCommand_of_defined {s : State} (high : s.rstnLow = false) (member : s.isMember = true) {number : Nat}
    {p : Preset} (defined : s.preset number = some p) : presetCommand number s = answerIssue (issue .host p.desc s) := by
  rw [presetCommand, whenListening_of_high high]
  simp only [presetRefusal_of_member member, defined]

theorem presetIsIssued : Clause.PresetIsIssued := by
  intro number s high
  refine ⟨fun loading => ?_, fun passive => ?_, fun member unknown => ?_, fun p member defined => ⟨fun code t refused => ?_,
    fun slot generation t accepted => ?_⟩⟩
  all_goals refine congrArg Host.Outcome.next (?_ : presetCommand _ s = _)
  · rw [presetCommand, whenListening_of_high high]
    simp only [loading, presetRefusal]
    rfl
  · rw [presetCommand, whenListening_of_high high]
    simp only [passive, presetRefusal]
    rfl
  · rw [presetCommand, whenListening_of_high high]
    simp only [presetRefusal_of_member member, unknown]
    rfl
  · rw [presetCommand_of_defined high member defined, refused]
    rfl
  · rw [presetCommand_of_defined high member defined, accepted]
    rfl

/-- Settles O35. -/
theorem issueCommandsAreAnswered : Obligations.IssueCommandsAreAnswered := ⟨refusedClaimIsAnswered, presetIsIssued⟩

/-! Contacts -/

theorem modify_eq_set {α : Type} {l : List α} {n : Nat} {a : α} (at_n : l[n]? = some a) (f : α → α) :
    l.modify n f = l.set n (f a) := by
  obtain ⟨inside, -⟩ := List.getElem?_eq_some_iff.mp at_n
  refine List.ext_getElem? fun m => ?_
  rw [List.getElem?_modify, List.getElem?_set]
  by_cases here : n = m
  · subst here
    rw [at_n, if_pos rfl, if_pos inside]
    exact congrArg some (if_pos rfl)
  · rw [if_neg here]
    cases at_m : l[m]? with
    | none => rfl
    | some b => exact congrArg some (if_neg here)

theorem contactChangeTimesTheDebounce : Clause.ContactChangeTimesTheDebounce := by
  intro n closed k s at_n
  refine ⟨fun same => congrArg Host.Outcome.next (if_pos same), fun changed => congrArg Host.Outcome.next ?_⟩
  refine (if_neg changed).trans ?_
  unfold updateKey
  rw [modify_eq_set (l := s.ku) at_n]
  rfl

/-- A running debounce timer's expiry takes the contact's level (R157). -/
theorem debounceExpiry_of_running {n : Nat} {k : Key} {s : State} (at_n : s.ku[n]? = some k) (running : k.timer.isSome = true) :
    debounceExpiry n s =
      let s' := { s with ku := s.ku.set n { k with debounced := some (keyStateOf (s.keyClosed n)), timer := none } }
      if k.debounced = some (keyStateOf (s.keyClosed n)) then s' else keyChanged n (s.keyClosed n) s' := by
  unfold debounceExpiry
  simp only [at_n, running, if_true, updateKey]
  rw [modify_eq_set (l := s.ku) at_n]

theorem keyChanged_of_unbound {n : Nat} {s : State} (unbound : s.bound n = none) (closed : Bool) : keyChanged n closed s = s := by
  unfold keyChanged
  split
  · simp only [keyPress, unbound]
  · simp only [keyRelease, unbound]

theorem unboundKeysAreIgnored : Clause.UnboundKeysAreIgnored := by
  intro n k s at_n
  constructor
  · intro stopped
    refine congrArg Host.Outcome.next (?_ : debounceExpiry n s = s)
    unfold debounceExpiry
    simp [at_n, stopped]
  · intro running unbound
    refine congrArg Host.Outcome.next ((debounceExpiry_of_running at_n running).trans ?_)
    simp only
    split
    · rfl
    · exact keyChanged_of_unbound (s := { s with ku := s.ku.set n { k with
        debounced := some (keyStateOf (s.keyClosed n)), timer := none } }) unbound _

/-- Settles O45. -/
theorem contactsAreDebounced : Obligations.ContactsAreDebounced := ⟨contactChangeTimesTheDebounce, unboundKeysAreIgnored⟩

/-! Commands that do not act, and commands refused -/

theorem exec_transaction_of_low {c : Instr} {s : State} (low : s.rstnLow = true) (sent : (transactionBytes c).isSome = true) :
    exec c s = .next s := by
  cases c with
  | status | claim | claimPreset | notice | setMask | reset | badCommand =>
    exact congrArg Host.Outcome.next (whenListening_of_low low)
  | endClaim | claimStatus | peers => exact congrArg Host.Outcome.next (whenMember_of_low low)
  | zoneStatus | setFloor | setTrim | clearZone | meter => exact congrArg Host.Outcome.next (onOwnZone_of_low low)
  | transactionCutShort clocked => rfl
  | _ => cases sent

/-- Settles O47. -/
theorem commandsThatDoNotAct : Obligations.CommandsThatDoNotAct := by
  refine ⟨fun c bytes cutShort s low => ⟨exec_transaction_of_low low, congrArg Host.Outcome.next (if_pos low)⟩,
    fun command clocked s => ⟨rfl, fun high => congrArg Host.Outcome.next ?_⟩⟩
  exact whenListening_of_high high

theorem commandsAnsweredPassive : Clause.CommandsAnsweredPassive := by
  intro a b s high outside c mem
  simp only [List.mem_cons, List.not_mem_nil, or_false] at mem
  have answered : ∀ {act : State → State}, whenMember act s = answerCode .passive s := whenMember_of_passive high outside
  have zoneAnswered : ∀ {zone : Byte} {act : Nat → State → State}, onOwnZone zone act s = answerCode .passive s :=
    onOwnZone_of_passive high outside
  rcases mem with rfl | rfl | rfl | rfl | rfl | rfl | rfl | rfl
  · exact congrArg _ answered
  · exact congrArg _ answered
  · exact congrArg _ zoneAnswered
  · exact congrArg _ zoneAnswered
  · exact congrArg _ zoneAnswered
  · exact congrArg _ zoneAnswered
  · exact congrArg _ zoneAnswered
  · exact congrArg _ answered

theorem zonesOutsideTheWindow : Clause.ZonesOutsideTheWindow := by
  intro zone value s high member foreign c mem
  simp only [List.mem_cons, List.not_mem_nil, or_false] at mem
  rcases mem with rfl | rfl | rfl | rfl | rfl
  all_goals exact congrArg Host.Outcome.next (onOwnZone_of_not_owned high member foreign)

/-- Settles O48. -/
theorem commandsRefusedByStateOrZone : Obligations.CommandsRefusedByStateOrZone :=
  ⟨commandsAnsweredPassive, zonesOutsideTheWindow⟩

/-! Notices -/

theorem noticePopsTheHead : Clause.NoticePopsTheHead := by
  intro s high
  refine ⟨fun empty => ?_, fun q rest waits => ?_⟩
  · refine congrArg Host.Outcome.next (?_ : noticeCommand s = _)
    rw [noticeCommand, whenListening_of_high high, empty]
    rfl
  · refine congrArg Host.Outcome.next (?_ : noticeCommand s = _)
    rw [noticeCommand, whenListening_of_high high, waits]
    simp only [answerData_eq, QueuedNotice.bytes, List.cons_append, List.nil_append]
    rfl

theorem post_of_full {n : HostNotice} {s : State} (full : 32 ≤ s.cp.notices.length) :
    post n s = { s with cp := { s.cp with overflow := true } } := if_neg (Nat.not_lt.mpr full)

theorem postsAreQueued : Clause.PostsAreQueued := by
  intro n s
  refine ⟨fun room => (post_of_room room).trans ?_, post_of_full⟩
  cases n.category <;> rfl

/-- Settles O50. -/
theorem noticesAreQueuedAndPopped : Obligations.NoticesAreQueuedAndPopped := ⟨noticePopsTheHead, postsAreQueued⟩

/-! Records -/

theorem Issuer.code_eq (i : Issuer) :
    i.code = match i with
      | .key number => BitVec.ofNat 8 number
      | .host => 4 := by
  cases i <;> rfl

theorem ClaimClass.code_eq (c : ClaimClass) : c.code = if c = .ofRing then 1 else 0 := by cases c <;> rfl

theorem modeCode_eq (m : Mode) : modeCode m = if m = .all then 1 else 0 := by cases m <;> rfl

theorem policyCode_eq (p : Policy) : policyCode p = if p = .mix then 1 else 0 := by cases p <;> rfl

theorem outcomeByte_eq (outcome : Option ClaimOutcome) :
    outcomeByte outcome = match outcome with
      | none => 0
      | some .done => 1
      | some .refused => 2
      | some .broken => 3
      | some .noOwner => 4
      | some .noReturn => 5
      | some .queueFull => 6
      | some .withdrawn => 7
      | some .autoEnd => 8 := by
  rcases outcome with _ | code
  · rfl
  · cases code <;> rfl

theorem remainingBytes_eq (left : Option Nat) :
    remainingBytes left = match left with
      | none => [0xFF, 0xFF]
      | some ms => splitBytes (BitVec.ofNat 16 ((ms + 9) / 10)) := by
  cases left <;> rfl

theorem levelByte_eq (level : Option Nat) :
    levelByte level = match level with
      | none => 255
      | some a => BitVec.ofNat 8 a := by
  cases level <;> rfl

theorem claimStatusCommand_of_slot {s : State} (high : s.rstnLow = false) (member : s.isMember = true) {n : Nat} {k : Slot}
    (at_n : s.slot n = some k) : claimStatusCommand n s = answerData k.statusBytes s := by
  rw [claimStatusCommand, whenMember_of_isMember high member, at_n]

theorem claimStatusReadsTheSlot : Clause.ClaimStatusReadsTheSlot := by
  intro slot s shaped high member
  constructor
  · intro beyond
    refine congrArg Host.Outcome.next (?_ : claimStatusCommand _ s = _)
    have absent : s.slot slot.toNat = none := List.getElem?_eq_none (by rw [shaped.slots]; exact beyond)
    rw [claimStatusCommand, whenMember_of_isMember high member, absent]
    rfl
  · intro k at_n
    refine congrArg Host.Outcome.next ((claimStatusCommand_of_slot high member at_n).trans ?_)
    rw [answerData_eq, Slot.statusBytes]
    cases k.info with
    | none => rfl
    | some i =>
      simp only [ClaimInfo.statusBytes, Issuer.code_eq, ClaimClass.code_eq, modeCode_eq, outcomeByte_eq, remainingBytes_eq,
        List.append_assoc, List.cons_append, List.nil_append]
      rfl

theorem zoneStatusCommand_of_zone {zone : Byte} {r : ZoneRecord} {s : State} (high : s.rstnLow = false)
    (member : s.isMember = true) (owned : s.owns zone.toNat = true) (at_z : s.zone zone.toNat = some r) :
    zoneStatusCommand zone s = answerData (r.statusBytes (s.trimOf zone.toNat)) s := by
  rw [zoneStatusCommand, onOwnZone_of_owned high member owned, at_z]

theorem zoneStatusReadsTheRecord : Clause.ZoneStatusReadsTheRecord := by
  intro zone r m s high member owned at_z mixed
  refine congrArg Host.Outcome.next ((zoneStatusCommand_of_zone high member owned at_z).trans ?_)
  have trim : s.trimOf zone.toNat = m.trim := by rw [State.trimOf, mixed]
  rw [answerData_eq, trim, ZoneRecord.statusBytes]
  cases r.reservation <;> cases r.superseded <;>
    simp only [policyCode_eq, levelByte_eq, List.append_assoc, List.cons_append, List.nil_append] <;> rfl

/-- Settles O53. -/
theorem recordsAreRead : Obligations.RecordsAreRead := ⟨claimStatusReadsTheSlot, zoneStatusReadsTheRecord⟩

/-! Trim and meter -/

theorem find?_map_update {α : Type} {l : List α} {key : α → Nat} {f : α → α} (keeps : ∀ a, key (f a) = key a) (z : Nat) :
    (l.map fun a => if key a = z then f a else a).find? (fun a => key a == z) = (l.find? fun a => key a == z).map f := by
  induction l with
  | nil => rfl
  | cons a rest ih =>
    by_cases at_z : key a = z
    · simp [at_z, keeps]
    · simp [at_z, ih]

theorem find?_map_update_ne {α : Type} {l : List α} {key : α → Nat} {f : α → α} (keeps : ∀ a, key (f a) = key a)
    {z z' : Nat} (ne : z' ≠ z) :
    (l.map fun a => if key a = z then f a else a).find? (fun a => key a == z') = l.find? fun a => key a == z' := by
  induction l with
  | nil => rfl
  | cons a rest ih =>
    by_cases at_z : key a = z
    · simp [at_z, keeps, ne.symm, ih]
    · by_cases at_z' : key a = z'
      · simp [at_z', ne]
      · simp [at_z, at_z', ih]

/-- What is read of the mix fields after a change of one zone's. -/
theorem updateMixZone_mixZone {z : Nat} {f : MixZone → MixZone} (keeps : ∀ m, (f m).zone = m.zone) (s : State) :
    (updateMixZone z f s).mixZone z = (s.mixZone z).map f := find?_map_update keeps z

theorem updateMixZone_mixZone_ne {z z' : Nat} (ne : z' ≠ z) {f : MixZone → MixZone} (keeps : ∀ m, (f m).zone = m.zone)
    (s : State) : (updateMixZone z f s).mixZone z' = s.mixZone z' := find?_map_update_ne keeps ne

theorem setTrimSetsTheTrim : Clause.SetTrimSetsTheTrim := by
  intro zone trim s high member owned
  constructor
  · intro small
    have sets : setTrimCommand zone trim s = answerCode .ok (setTrimAt zone.toNat trim.toNat s) := by
      rw [setTrimCommand, onOwnZone_of_owned high member owned, if_pos (by simpa [isTrim] using small)]
    refine ⟨_, congrArg Host.Outcome.next sets, rfl, rfl, fun m mixed => ?_, fun z ne => ?_⟩
    · exact (updateMixZone_mixZone (f := fun m => { m with trim := trim.toNat }) (fun _ => rfl) s).trans
        (congrArg (Option.map _) mixed)
    · exact updateMixZone_mixZone_ne (f := fun m => { m with trim := trim.toNat }) ne (fun _ => rfl) s
  · intro large
    refine congrArg Host.Outcome.next (?_ : setTrimCommand zone trim s = _)
    rw [setTrimCommand, onOwnZone_of_owned high member owned, if_neg (by simpa [isTrim] using large)]
    rfl

theorem meterReadsAndClearsTotal : Clause.MeterReadsAndClearsTotal := by
  intro zone m s high member owned mixed
  have reads : meterCommand zone s = answerData m.meterBytes (clearTotalClips zone.toNat s) := by
    rw [meterCommand, onOwnZone_of_owned high member owned, mixed]
  refine ⟨_, congrArg Host.Outcome.next reads, rfl, rfl, ?_, fun z ne => ?_, ?_⟩
  · exact (updateMixZone_mixZone (f := fun m => { m with totalClips := 0 }) (fun _ => rfl) s).trans
      (congrArg (Option.map _) mixed)
  · exact updateMixZone_mixZone_ne (f := fun m => { m with totalClips := 0 }) ne (fun _ => rfl) s
  · rw [answerData_eq, MixZone.meterBytes]
    cases m.last <;> rfl

/-- Settles O54. -/
theorem trimAndMeter : Obligations.TrimAndMeter := ⟨setTrimSetsTheTrim, meterReadsAndClearsTotal⟩

/-! Masks and lines -/

theorem masksOf_of_le {m0 m1 m2 m3 : Byte} (h0 : m0.toNat ≤ 1) (h1 : m1.toNat ≤ 1) (h2 : m2.toNat ≤ 1) (h3 : m3.toNat ≤ 1) :
    masksOf m0 m1 m2 m3 = some [m0 == 1, m1 == 1, m2 == 1, m3 == 1] := by
  rw [masksOf, flagOfCode_of_le h0, flagOfCode_of_le h1, flagOfCode_of_le h2, flagOfCode_of_le h3]

theorem masksOf_eq_none {m0 m1 m2 m3 : Byte} (h : 1 < m0.toNat ∨ 1 < m1.toNat ∨ 1 < m2.toNat ∨ 1 < m3.toNat) :
    masksOf m0 m1 m2 m3 = none := by
  unfold masksOf
  split
  · rename_i f0 f1 f2 f3
    rcases h with above | above | above | above
    · rw [flagOfCode_eq_none above] at f0
      cases f0
    · rw [flagOfCode_eq_none above] at f1
      cases f1
    · rw [flagOfCode_eq_none above] at f2
      cases f2
    · rw [flagOfCode_eq_none above] at f3
      cases f3
  · rfl

theorem setMaskSetsAllFour : Clause.SetMaskSetsAllFour := by
  intro m0 m1 m2 m3 s high
  refine ⟨fun h0 h1 h2 h3 => ?_, fun above => ?_⟩
  · refine congrArg Host.Outcome.next (?_ : setMaskCommand _ s = _)
    rw [masksOf_of_le h0 h1 h2 h3, setMaskCommand, whenListening_of_high high]
    rfl
  · refine congrArg Host.Outcome.next (?_ : setMaskCommand _ s = _)
    rw [masksOf_eq_none above, setMaskCommand, whenListening_of_high high]
    rfl

theorem lineOf_eq (count : Nat) (c : Category) :
    lineOf count c = if count = 4 then c.index else if count = 2 ∧ (c = .ring ∨ c = .fault) then 1 else 0 := by
  cases c with
  | claim => simp [lineOf, Category.index]
  | zone => simp [lineOf, Category.index]
  | ring => simp [lineOf, Category.index]
  | fault => simp [lineOf, Category.index]

theorem lineAsserted_iff (s : State) (line : Nat) :
    s.lineAsserted line = true ↔ s.cp.masks.getD line false = false ∧
      ∃ q ∈ s.cp.notices, line = lineOf s.lineCount q.notice.category := by
  simp only [State.lineAsserted, State.linePending, Bool.and_eq_true, List.any_eq_true, beq_iff_eq, Bool.not_eq_true',
    eq_comm (a := line)]
  exact and_comm

theorem noticeLinesFollowTheQueue : Clause.NoticeLinesFollowTheQueue := by
  intro s line _
  refine ⟨?_, fun absent => ?_, fun c configured small => ?_⟩
  · simp only [lineAsserted_iff, lineOf_eq]
  · rw [State.lineCount, absent]
  · have range : c.station.lineCount = 0 ∨ c.station.lineCount = 1 ∨ c.station.lineCount = 2 ∨ c.station.lineCount = 3 ∨
        c.station.lineCount = 4 := by omega
    rw [State.lineCount, configured]
    rcases range with n | n | n | n | n <;> simp [n]

/-- Settles O51. -/
theorem masksAndLines : Obligations.MasksAndLines := ⟨setMaskSetsAllFour, noticeLinesFollowTheQueue⟩

/-! The state after reset -/

theorem State.reset_eq : State.reset = beginLoad (hardReset State.reset) := rfl

theorem State.reset_coherent : State.reset.Coherent := beginLoad_coherent (hardReset_coherent State.reset)

/-- Settles O56. -/
theorem resetIsSafe : Obligations.ResetIsSafe where
  bounded := beginLoad_bounded (hardReset_bounded State.reset)
  coherent := State.reset_coherent
  shaped := ⟨rfl, by decide, rfl, rfl, rfl, rfl, rfl⟩
  matched := (beginLoad_wellZoned (hardReset_wellZoned State.reset)).matched
  arbitrated := (beginLoad_wellZoned (hardReset_wellZoned State.reset)).lawful
  heard := (heard_iff State.reset).mpr (ledger_of_empty rfl fun _ known => absurd known List.not_mem_nil)

end Sys2Proof.Machine
end


section
/-! SUPPORT. Arrivals by their tests, and the Presence Unit's events by what they find (R15 to R21, R37 to R48). -/

namespace Sys2Proof.Machine

/-! Posts -/

/-- What a post leaves in the Control Port depends on the Control Port and the configuration alone. -/
theorem post_cp_congr (n : HostNotice) {s t : State} (cp : t.cp = s.cp) (config : t.config = s.config) :
    (post n t).cp = (post n s).cp := by
  unfold post State.vectorBase
  rw [cp, config]
  split <;> rfl

/-! Arrivals -/

theorem exec_frameArrival_of_good {bytes : List Byte} {f : Frame} {s : State} (high : s.rstnLow = false)
    (good : goodFrame bytes false = some f) : exec (.frameArrival bytes false) s = .next (takeGoodFrame f s) := by
  refine congrArg Host.Outcome.next ?_
  simp [arriveFrame, high, good]

theorem exec_frameArrival_of_own {bytes : List Byte} {f : Frame} {s : State} (high : s.rstnLow = false)
    (member : s.isMember = true) (good : goodFrame bytes false = some f) (own : f.origin.toNat = s.address) :
    exec (.frameArrival bytes false) s = .next (returnOwn f s) := by
  rw [exec_frameArrival_of_good high good, takeGoodFrame, if_pos member, if_pos own]

theorem carry_of_limit {take : Frame → State → State} {f : Frame} {s : State} (limit : 31 ≤ f.hop.toNat) :
    carry take f s = s := if_pos (Nat.min_eq_right limit)

theorem carry_of_below {take : Frame → State → State} {f : Frame} {s : State} (below : f.hop.toNat < 31) :
    carry take f s = if forwardCapacity ≤ s.rp.forward.length then countOverrun s else take f s :=
  if_neg fun limit => Nat.ne_of_lt below ((Nat.min_eq_left (Nat.le_of_lt below)).symm.trans limit)

theorem carry_of_full {take : Frame → State → State} {f : Frame} {s : State} (below : f.hop.toNat < 31)
    (full : 4 ≤ s.rp.forward.length) : carry take f s = countOverrun s := (carry_of_below below).trans (if_pos full)

theorem carry_of_room {take : Frame → State → State} {f : Frame} {s : State} (below : f.hop.toNat < 31)
    (room : s.rp.forward.length < 4) : carry take f s = take f s :=
  (carry_of_below below).trans (if_neg (Nat.not_le.mpr room))

theorem passOn_eq (f : Frame) (s : State) : passOn f s = { s with rp := s.rp.placeForward (Clause.carriedOn f) } := rfl

theorem takeGoodFrame_of_peer {f : Frame} {s : State} (member : s.isMember = true) (other : f.origin.toNat ≠ s.address) :
    takeGoodFrame f s = carry takePeerFrame f s := by
  rw [takeGoodFrame, if_pos member, if_neg other]

theorem takeGoodFrame_of_repeater {f : Frame} {s : State} (outside : s.isMember = false) :
    takeGoodFrame f s = carry passOn f s := by
  rw [takeGoodFrame, if_neg (by simp [outside])]

theorem takePeerFrame_of_undispatched {f : Frame} {s : State} (not : f.dispatched = none) :
    takePeerFrame f s = passOn f s := by
  rw [takePeerFrame, not]

/-- A peer's frame that is dispatched: its unit takes it and leaves it for the forward queue (R16, R19, R20). -/
theorem exec_frameArrival_of_peer {bytes : List Byte} {f : Frame} {m : Message} {s : State}
    (arrival : Clause.peerArrival bytes f s) (carries : f.message = some m) :
    exec (.frameArrival bytes false) s = .next (passOn (dispatch f m s).1 (dispatch f m s).2) := by
  obtain ⟨high, member, good, other, low, most, below, room⟩ := arrival
  have dispatched : f.dispatched = some m := (if_pos ⟨low, most⟩).trans carries
  rw [exec_frameArrival_of_good high good, takeGoodFrame_of_peer member other, carry_of_room below room, takePeerFrame,
    dispatched]

/-! Completions -/

theorem completeTransmission_of_reported {s : State} {o : OutFrame} (line : s.rp.out = some o)
    (reported : o.reported = true) : completeTransmission s = freeLine (reportSent o.frame s) := by
  rw [completeTransmission, line]
  simp [reported]

/-- The slot a change was made to takes it, and every other stays. -/
theorem slot_updateSlot (n : Nat) (f : Slot → Slot) (s : State) (m : Nat) :
    (updateSlot n f s).slot m = if m = n then (s.slot m).map f else s.slot m := by
  rw [State.slot, updateSlot_cu, List.getElem?_modify]
  by_cases same : n = m
  · subst same
    simp [State.slot]
  · simp [same, Ne.symm same, State.slot]

/-- A report asks the Presence Unit or a slot's return timer alone. -/
theorem reportSent_eq (f : Frame) (s : State) :
    reportSent f s = { s with pu := (reportSent f s).pu, cu := (reportSent f s).cu } := by
  unfold reportSent
  split
  · unfold presenceSent
    split <;> rfl
  all_goals rfl

theorem reportSent_of_presence {f : Frame} {sequence flags first last : Byte}
    (carries : f.message = some (.presence sequence flags first last)) (s : State) :
    reportSent f s = presenceSent sequence.toNat s := by
  rw [reportSent, carries]

theorem reportSent_of_claim {f : Frame} {c : Content} (carries : f.message = some (.claim c)) (s : State) :
    reportSent f s = claimSent .asking c.slot c.generation s := by
  rw [reportSent, carries]

theorem reportSent_of_commit {f : Frame} {c : Content} (carries : f.message = some (.commit c)) (s : State) :
    reportSent f s = claimSent .committing c.slot c.generation s := by
  rw [reportSent, carries]

theorem reportSent_of_withdraw {f : Frame} {slot generation : Byte} (carries : f.message = some (.withdraw slot generation))
    (s : State) : reportSent f s = s := by
  rw [reportSent, carries]

theorem reportSent_of_notice {f : Frame} {slot generation zone event reason : Byte}
    (carries : f.message = some (.notice slot generation zone event reason)) (s : State) : reportSent f s = s := by
  rw [reportSent, carries]

/-- The return timer's start in one slot (R91, R98). -/
theorem claimSent_slot (state : SlotState) (slot generation : Byte) {s : State} {n : Nat} {k : Slot}
    (at_n : s.slot n = some k) :
    (claimSent state slot generation s).slot n = some (if n = slot.toNat ∧ k.startsTimer state generation.toNat = true then
      { k with returnTimer := some s.returnTimeout } else k) := by
  rw [claimSent, slot_updateSlot, at_n]
  by_cases same : n = slot.toNat
  · simp only [same, if_true, true_and, Option.map_some]
  · simp [same]

/-- Settles O14. -/
theorem completionStartsReturnTimers : Obligations.CompletionStartsReturnTimers := by
  intro s o line reported
  have ends := completeTransmission_of_reported line reported
  have kept := reportSent_eq o.frame s
  generalize t_eq : reportSent o.frame s = t at ends kept
  refine ⟨freeLine t, congrArg Host.Outcome.next ends, by rw [kept]; rfl, by rw [kept]; rfl, by rw [kept]; rfl,
    by rw [kept]; rfl, by rw [kept]; rfl, fun sequence flags first last carries => ?_, fun c carries => ?_, fun c carries => ?_,
    fun slot generation carries => ?_, fun slot generation zone event reason carries => ?_⟩
  · rw [reportSent_of_presence carries] at t_eq
    subst t_eq
    change (presenceSent sequence.toNat s).cu = _ ∧ (presenceSent sequence.toNat s).pu = _
    unfold presenceSent
    split <;> exact ⟨rfl, rfl⟩
  · rw [reportSent_of_claim carries] at t_eq
    subst t_eq
    refine ⟨rfl, fun n k at_n => (claimSent_slot .asking c.slot c.generation at_n).trans ?_⟩
    simp [Slot.startsTimer, and_assoc]
  · rw [reportSent_of_commit carries] at t_eq
    subst t_eq
    refine ⟨rfl, fun n k at_n => (claimSent_slot .committing c.slot c.generation at_n).trans ?_⟩
    simp [Slot.startsTimer]
  · rw [reportSent_of_withdraw carries] at t_eq
    subst t_eq
    exact ⟨rfl, rfl⟩
  · rw [reportSent_of_notice carries] at t_eq
    subst t_eq
    exact ⟨rfl, rfl⟩

/-! Sending a PRESENCE -/

theorem RingPort.controlRoom_eq {p : RingPort} (unmarked : p.placeSetAside = false) :
    p.controlRoom = decide (p.control.length < 16) := by
  simp [RingPort.controlRoom, unmarked, controlCapacity]

theorem storePresence_of_full {s : State} (full : s.rp.controlRoom = false) : storePresence s = s :=
  if_neg (by simp [full])

/-- A PRESENCE stored with room in the control queue (R38). -/
theorem storePresence_of_room {s : State} (room : s.rp.controlRoom = true) :
    storePresence s =
      { s with
        rp := ({ s.rp with control := s.rp.control ++ [frameOf s.address 0 s.presenceMessage] } : RingPort).arbitrate
        pu := { s.pu with
          sequence := (s.pu.sequence + 1) % 256
          recent := recordRecent s.pu.recent ((s.pu.sequence + 1) % 256)
          outstanding := some { sequence := (s.pu.sequence + 1) % 256, phase := .queued } } } := by
  have stored : s.rp.storeControl (frameOf s.address 0 s.presenceMessage) =
      ({ s.rp with control := s.rp.control ++ [frameOf s.address 0 s.presenceMessage] } : RingPort).arbitrate := if_pos room
  rw [storePresence, if_pos room]
  simp only [storeControl, State.frame, stored]
  rfl

theorem sendPresence_of_none {s : State} (empty : s.pu.outstanding = none) : sendPresence s = storePresence s := by
  rw [sendPresence, giveUpPresence_of_none empty]

theorem recordRecent_eq (recent : List Nat) (n : Nat) :
    recordRecent recent n = (recent ++ [n]).drop (recent.length + 1 - 16) := by
  simp [recordRecent, recentCapacity]

theorem joiningFlag_eq (r : RingState) : flagCode (r == .joining) = if r = .joining then 1 else 0 := by
  simp [flagCode]

/-- Settles O16. -/
theorem periodExpirySendsPresence : Obligations.PeriodExpirySendsPresence := by
  intro s left running empty unmarked n flag
  have sends : exec .periodTimerExpiry s = .next (startPeriod (storePresence s)) :=
    congrArg Host.Outcome.next ((periodExpiry_of_running running).trans (congrArg _ (sendPresence_of_none empty)))
  constructor
  · intro room
    rw [sends, storePresence_of_room (by simpa [RingPort.controlRoom_eq unmarked] using room)]
    simp only [startPeriod, State.presenceMessage, joiningFlag_eq, recordRecent_eq]
    rfl
  · intro full
    rw [sends, storePresence_of_full (by simpa [RingPort.controlRoom_eq unmarked] using full)]
    rfl

/-! A PRESENCE that returns -/

theorem returnOwn_of_presence {f : Frame} {sequence flags first last : Byte}
    (carries : f.message = some (.presence sequence flags first last)) (s : State) :
    returnOwn f s = presenceReturned sequence.toNat first.toNat last.toNat s := by
  rw [returnOwn, carries]

theorem returnedPresenceProvesRing : Clause.ReturnedPresenceProvesRing := by
  intro bytes f sequence flags first last left s high member good own carries waits sameFirst sameLast
  have proves : s.proves sequence.toNat first.toNat last.toNat = true := by
    simp [State.proves, waits, PresencePhase.isTiming, sameFirst, sameLast]
  have proved : exec (.frameArrival bytes false) s = .next (proveRing s) := by
    rw [exec_frameArrival_of_own high member good own, returnOwn_of_presence carries, presenceReturned, if_pos proves]
  rw [proved]
  constructor
  · intro unproved
    have notUp : s.pu.ringState ≠ .up := by
      rcases unproved with state | state
      · simp [state]
      · simp [state]
    exact congrArg _ (if_neg notUp)
  · intro up
    refine congrArg _ ((if_pos up).trans ?_)
    rw [← up]

theorem returnedPresenceShowsClash : Clause.ReturnedPresenceShowsClash := by
  intro bytes f sequence flags first last s high member good own carries unproving
  have unproved : s.proves sequence.toNat first.toNat last.toNat = false := by
    refine Bool.eq_false_iff.mpr fun proves => ?_
    simp only [State.proves, Bool.and_eq_true, Option.any_eq_true, beq_iff_eq] at proves
    obtain ⟨⟨⟨o, waits, timing, same⟩, sameFirst⟩, sameLast⟩ := proves
    cases phase : o.phase with
    | queued =>
      rw [phase] at timing
      cases timing
    | timing left =>
      have differs := unproving left (by rw [waits, ← same, ← phase])
      exact differs.elim (fun ne => ne sameFirst) fun ne => ne sameLast
  have returned : exec (.frameArrival bytes false) s =
      .next (if s.showsClash sequence.toNat first.toNat last.toNat then reportClash s else s) := by
    rw [exec_frameArrival_of_own high member good own, returnOwn_of_presence carries, presenceReturned,
      if_neg (by simp [unproved])]
  rw [returned]
  constructor
  · intro marks
    have clash : s.showsClash sequence.toNat first.toNat last.toNat = true := by
      simp only [State.showsClash, Bool.or_eq_true, Bool.not_eq_true', Bool.and_eq_false_iff, beq_eq_false_iff_ne,
        beq_iff_eq, List.contains_eq_mem, decide_eq_false_iff_not, or_assoc]
      exact marks
    rw [if_pos clash]
    rfl
  · intro sameFirst sameLast notQueued recent
    have noClash : s.showsClash sequence.toNat first.toNat last.toNat = false := by
      simp [State.showsClash, sameFirst, sameLast, notQueued, recent]
    rw [if_neg (by simp [noClash])]

/-- Settles O17. -/
theorem returnedPresence : Obligations.ReturnedPresence := ⟨returnedPresenceProvesRing, returnedPresenceShowsClash⟩

/-! Peers -/

theorem inBounds_range {first last z : Nat} (inside : inBounds first last z = true) : 1 ≤ z ∧ z ≤ 240 := by
  simp only [inBounds, Bool.and_eq_true, decide_eq_true_eq] at inside
  exact ⟨inside.1.1.1, inside.1.1.2⟩

/-- The overlap test of windows that share no zone (R46). -/
theorem testOverlap_of_apart {a first last : Nat} {s : State}
    (apart : ∀ z, ¬(s.owns z = true ∧ inBounds first last z = true)) : testOverlap a first last s = s := by
  have no_zone : lowestShared s.windowFirst s.windowLast first last = none :=
    List.find?_eq_none.mpr fun z _ both => apart z (Bool.and_eq_true_iff.mp both)
  rw [testOverlap, no_zone]

/-- The overlap test of windows that share a zone: the lowest is posted (R46). -/
theorem testOverlap_of_shared {a first last z : Nat} {s : State} (owned : s.owns z = true)
    (inside : inBounds first last z = true) (lowest : ∀ z' < z, ¬(s.owns z' = true ∧ inBounds first last z' = true)) :
    testOverlap a first last s = post (.ownershipClash z a) s := by
  have at_z : lowestShared s.windowFirst s.windowLast first last = some z := by
    obtain ⟨low, high⟩ := inBounds_range inside
    refine List.find?_range'_eq_some.mpr ⟨Bool.and_eq_true_iff.mpr ⟨owned, inside⟩, List.mem_range'_1.mpr ⟨low, by omega⟩,
      fun z' _ below => ?_⟩
    rw [Bool.not_eq_true']
    exact Bool.eq_false_iff.mpr fun both => lowest z' below (Bool.and_eq_true_iff.mp both)
  rw [testOverlap, at_z]

/-- The overlap test asks the Control Port alone. -/
theorem testOverlap_eq (a first last : Nat) (s : State) :
    testOverlap a first last s = { s with cp := (testOverlap a first last s).cp } := by
  unfold testOverlap
  split
  · exact post_eq _ s
  · rfl

/-- The peer table with an entry for a new peer, before its notices (R44). -/
def withPeer (p : Peer) (s : State) : State := { s with pu := { s.pu with peers := insertPeer p s.pu.peers } }

theorem presenceFromPeer_of_unknown {a : Nat} {s : State} (unknown : s.peer a = none) (joining : Bool) (first last : Nat) :
    presenceFromPeer a joining first last s =
      testOverlap a first last (post (.peerJoined a)
        (withPeer { address := a, first := first, last := last, joining := joining, age := 3 * s.presencePeriod } s)) := by
  rw [presenceFromPeer, unknown]
  rfl

theorem presenceFromPeer_of_known {a : Nat} {p : Peer} {s : State} (known : s.peer a = some p) (joining : Bool)
    (first last : Nat) : presenceFromPeer a joining first last s = hearPeer p joining first last s := by
  rw [presenceFromPeer, known]

theorem owns_congr {s t : State} (config : t.config = s.config) (z : Nat) : t.owns z = s.owns z := by
  simp only [State.owns, State.windowFirst, State.windowLast, config]

/-- Settles O18. -/
theorem unknownPeerIsAdded : Obligations.UnknownPeerIsAdded := by
  intro bytes f sequence flags first last s high member good other low most below room carries unknown order
  have absent : s.peer f.origin.toNat = none := List.find?_eq_none.mpr fun p mem => by simpa using unknown p mem
  have arrives := exec_frameArrival_of_peer ⟨high, member, good, other, low, most, below, room⟩ carries
  have added := presenceFromPeer_of_unknown absent (flags.getLsbD 0) first.toNat last.toNat
  generalize entry_eq : Peer.mk f.origin.toNat first.toNat last.toNat (flags.getLsbD 0) (3 * s.presencePeriod) = entry
    at added ⊢
  have address : entry.address = f.origin.toNat := by rw [← entry_eq]
  generalize posted_eq : post (.peerJoined f.origin.toNat) (withPeer entry s) = posted at added
  have posted_cp : posted.cp = (post (.peerJoined f.origin.toNat) s).cp := by
    rw [← posted_eq]
    exact post_cp_congr _ rfl rfl
  have config : posted.config = s.config := by rw [← posted_eq, post_config]; rfl
  have shape : presenceFromPeer f.origin.toNat (flags.getLsbD 0) first.toNat last.toNat s =
      { withPeer entry s with cp := (testOverlap f.origin.toNat first.toNat last.toNat posted).cp } := by
    rw [added, testOverlap_eq, ← posted_eq, post_eq]
  refine ⟨passOn f (presenceFromPeer f.origin.toNat (flags.getLsbD 0) first.toNat last.toNat s), arrives, ?_, ?_, ?_, ?_, ?_,
    ?_, ?_, fun p => ?_, fun apart => ?_, fun z owned inside lowest => ?_⟩
  all_goals rw [passOn_eq, shape]
  · rfl
  · rfl
  · rfl
  · rfl
  · rfl
  · rfl
  · exact insertPeer_sorted order fun q mem => address ▸ unknown q mem
  · exact (mem_insertPeer entry p s.pu.peers).trans or_comm
  · have none_shared : ∀ z, ¬(posted.owns z = true ∧ inBounds first.toNat last.toNat z = true) := fun z shared =>
      apart z ⟨owns_congr config z ▸ shared.1, shared.2⟩
    exact (congrArg State.cp (testOverlap_of_apart none_shared)).trans posted_cp
  · have only : ∀ z' < z, ¬(posted.owns z' = true ∧ inBounds first.toNat last.toNat z' = true) := fun z' below shared =>
      lowest z' below ⟨owns_congr config z' ▸ shared.1, shared.2⟩
    have clash := testOverlap_of_shared (a := f.origin.toNat) ((owns_congr config z).trans owned) inside only
    exact (congrArg State.cp clash).trans (post_cp_congr _ posted_cp (config.trans (post_config _ s).symm))

theorem peer_address {s : State} {a : Nat} {p : Peer} (known : s.peer a = some p) : p.address = a := by
  simpa using List.find?_some known

/-- The renewed entry, and the others (R45). -/
theorem renewPeer_peer (a : Nat) (joining : Bool) (first last : Nat) (s : State) :
    (renewPeer a joining first last s).peer a = (s.peer a).map (Peer.heard s.peerAge joining first last) :=
  find?_map_update (key := Peer.address) (f := Peer.heard s.peerAge joining first last) (fun _ => rfl) a

theorem renewPeer_peer_ne {a b : Nat} (ne : b ≠ a) (joining : Bool) (first last : Nat) (s : State) :
    (renewPeer a joining first last s).peer b = s.peer b :=
  find?_map_update_ne (key := Peer.address) (f := Peer.heard s.peerAge joining first last) (fun _ => rfl) ne

theorem testChange_eq (p : Peer) (first last : Nat) (s : State) :
    testChange p first last s = { s with cp := (testChange p first last s).cp } := by
  unfold testChange
  split
  · rfl
  · exact testOverlap_eq _ _ _ s

theorem testChange_of_same {p : Peer} {first last : Nat} (same : p.first = first ∧ p.last = last) (s : State) :
    testChange p first last s = s := if_pos same

theorem testChange_of_changed {p : Peer} {first last : Nat} (changed : ¬(p.first = first ∧ p.last = last)) (s : State) :
    testChange p first last s = testOverlap p.address first last s := if_neg changed

/-- A restart: posted, and cleanup started (R45, R48). -/
def restarts (a : Nat) (s : State) : State := startCleanup a .restarted (post (.peerRestarted a) s)

theorem hearPeer_of_restart {p : Peer} {joining : Bool} (restart : joining = true ∧ p.joining = false) (first last : Nat)
    (s : State) :
    hearPeer p joining first last s =
      restarts p.address (testChange p first last (renewPeer p.address joining first last s)) :=
  (hearPeer_eq p joining first last s).trans (if_pos (by simp [restart]))

theorem hearPeer_of_no_restart {p : Peer} {joining : Bool} (stays : ¬(joining = true ∧ p.joining = false))
    (first last : Nat) (s : State) :
    hearPeer p joining first last s = testChange p first last (renewPeer p.address joining first last s) :=
  (hearPeer_eq p joining first last s).trans (if_neg (by simpa using stays))

/-- What a restart adds, about the parts that it leaves. -/
theorem restarts_eq (a : Nat) (s : State) :
    restarts a s = { s with
      cp := (post (.peerRestarted a) s).cp
      cleanups := s.cleanups ++ [{ side := .owner, peer := a, cause := .restarted },
        { side := .origin, peer := a, cause := .restarted }] } := by
  rw [restarts, startCleanup, post_cleanups, post_eq]

/-- The Control Port after a known peer's PRESENCE, about the overlap test's part. -/
theorem testChange_cp {p : Peer} {first last : Nat} {s t : State} (cp : t.cp = s.cp) (config : t.config = s.config) :
    (((p.first = first ∧ p.last = last) ∨ ∀ z, ¬(s.owns z = true ∧ inBounds first last z = true)) →
      (testChange p first last t).cp = s.cp) ∧
    (∀ z, (p.first ≠ first ∨ p.last ≠ last) → (s.owns z = true ∧ inBounds first last z = true) →
      (∀ z' < z, ¬(s.owns z' = true ∧ inBounds first last z' = true)) →
      (testChange p first last t).cp = (post (.ownershipClash z p.address) s).cp) := by
  have owns := owns_congr config
  constructor
  · intro quiet
    by_cases same : p.first = first ∧ p.last = last
    · rw [testChange_of_same same, cp]
    · have apart := quiet.resolve_left same
      rw [testChange_of_changed same, testOverlap_of_apart fun z => owns z ▸ apart z, cp]
  · intro z changed shared lowest
    rw [testChange_of_changed fun same => changed.elim (fun ne => ne same.1) fun ne => ne same.2,
      testOverlap_of_shared ((owns z).trans shared.1) shared.2 fun z' below => owns z' ▸ lowest z' below]
    exact post_cp_congr _ cp config

/-- A known peer's PRESENCE at its arrival: what is left beside its notices and its cleanup (R45). -/
theorem exec_presence_of_known {bytes : List Byte} {f : Frame} {sequence flags first last : Byte} {p : Peer} {s : State}
    (arrival : Clause.peerArrival bytes f s) (carries : f.message = some (.presence sequence flags first last))
    (known : s.peer f.origin.toNat = some p) {cp : ControlPort} {cleanups : List CleanupRequest}
    (heard : hearPeer p (flags.getLsbD 0) first.toNat last.toNat s =
      { renewPeer p.address (flags.getLsbD 0) first.toNat last.toNat s with cp := cp, cleanups := cleanups }) :
    ∃ t, exec (.frameArrival bytes false) s = .next t ∧
      t.rp = s.rp.placeForward (Clause.carriedOn f) ∧ t.za = s.za ∧ t.cu = s.cu ∧ t.lu = s.lu ∧
      t.peer f.origin.toNat = some { p with first := first.toNat, last := last.toNat, joining := flags.getLsbD 0,
                                            age := 3 * s.presencePeriod } ∧
      (∀ a, a ≠ f.origin.toNat → t.peer a = s.peer a) ∧ t.cleanups = cleanups ∧ t.cp = cp := by
  have address := peer_address known
  rw [address] at heard
  have renewed := renewPeer_peer f.origin.toNat (flags.getLsbD 0) first.toNat last.toNat s
  rw [known] at renewed
  refine ⟨passOn f (presenceFromPeer f.origin.toNat (flags.getLsbD 0) first.toNat last.toNat s),
    exec_frameArrival_of_peer arrival carries, ?_⟩
  rw [presenceFromPeer_of_known known, heard]
  exact ⟨rfl, rfl, rfl, rfl, renewed, fun a ne => renewPeer_peer_ne ne (flags.getLsbD 0) first.toNat last.toNat s, rfl, rfl⟩

/-- Settles O19. -/
theorem knownPeerIsRenewed : Obligations.KnownPeerIsRenewed := by
  intro bytes f sequence flags first last p s high member good other low most below room carries known
  have arrives := fun cp cleanups => exec_presence_of_known (cp := cp) (cleanups := cleanups)
    ⟨high, member, good, other, low, most, below, room⟩ carries known
  have address := peer_address known
  obtain ⟨quiet, clashes⟩ := testChange_cp (p := p) (first := first.toNat) (last := last.toNat)
    (t := renewPeer p.address (flags.getLsbD 0) first.toNat last.toNat s) (s := s) rfl rfl
  have shape := testChange_eq p first.toNat last.toNat
    (renewPeer p.address (flags.getLsbD 0) first.toNat last.toNat s)
  generalize tested_eq : testChange p first.toNat last.toNat _ = tested at quiet clashes shape
  have config : tested.config = s.config := by rw [shape]; rfl
  by_cases restart : flags.getLsbD 0 = true ∧ p.joining = false
  · have heard := hearPeer_of_restart restart first.toNat last.toNat s
    rw [tested_eq, restarts_eq, address] at heard
    obtain ⟨t, next, rp, za, cu, lu, entry, others, cleanups, cp⟩ := arrives
      (post (.peerRestarted f.origin.toNat) tested).cp _ (heard.trans (by rw [shape]))
    refine ⟨t, next, rp, za, cu, lu, entry, others, fun _ _ => ?_, fun stays => absurd restart stays, fun same => ?_,
      fun z changed shared lowest => ?_⟩
    · rw [cleanups]
      rfl
    · simp only [cp, if_pos restart]
      exact post_cp_congr _ (quiet same) config
    · simp only [cp, if_pos restart]
      exact post_cp_congr _ (address ▸ clashes z changed shared lowest) (config.trans (post_config _ s).symm)
  · have heard := hearPeer_of_no_restart restart first.toNat last.toNat s
    rw [tested_eq] at heard
    obtain ⟨t, next, rp, za, cu, lu, entry, others, cleanups, cp⟩ := arrives _ _ (heard.trans shape)
    refine ⟨t, next, rp, za, cu, lu, entry, others, fun joins clear => absurd ⟨joins, clear⟩ restart, fun _ => cleanups,
      fun same => ?_, fun z changed shared lowest => ?_⟩
    · simp only [cp, if_neg restart]
      exact quiet same
    · simp only [cp, if_neg restart]
      exact address ▸ clashes z changed shared lowest

end Sys2Proof.Machine
end


section
/-! SUPPORT. Audio: what an AUDIO does to its listen entry, the Stream Sender's strobes and the Mix Engine's (R123 to R126,
R133 to R150). -/

namespace Sys2Proof.Machine

/-! Arrivals of samples -/

/-- An entry at an arrival, by its lapse timer and its active flag (R123). -/
theorem ListenEntry.arrive_eq (lapseTime startFill : Nat) (samples : List Sample) (e : ListenEntry) :
    e.arrive lapseTime startFill samples =
      if e.lapse.isSome then
        if e.active then
          { e with
            lapse := some lapseTime
            buffer := (e.buffer ++ samples).take 64
            primed := e.primed || decide (startFill ≤ ((e.buffer ++ samples).take 64).length) }
        else { e with lapse := some lapseTime }
      else e := by
  unfold ListenEntry.arrive
  cases e.lapse with
  | none => rfl
  | some left => rfl

/-- What an arrival does to the listen table (R123). -/
theorem arriveSamples_eq (t : Tag) (samples : List Sample) (s : State) :
    arriveSamples t samples s = { s with lu := s.lu.map fun e =>
      if e.tag = t ∧ e.lapse.isSome then
        if e.active then
          { e with
            lapse := some s.lapseTime
            buffer := (e.buffer ++ samples).take 64
            primed := e.primed || decide (s.startFill ≤ ((e.buffer ++ samples).take 64).length) }
        else { e with lapse := some s.lapseTime }
      else e } := by
  unfold arriveSamples updateListen
  refine congrArg (fun lu => { s with lu := lu }) (List.map_congr_left fun e _ => ?_)
  rw [ListenEntry.arrive_eq]
  by_cases tag : e.tag = t
  · simp only [tag, true_and, if_true]
  · rw [if_neg tag, if_neg fun h => tag h.1]

/-- Settles O41. -/
theorem audioReachesItsEntry : Obligations.AudioReachesItsEntry := by
  intro bytes f slot generation samples s high member good other low most below room carries tag
  rw [exec_frameArrival_of_peer ⟨high, member, good, other, low, most, below, room⟩ carries]
  refine congrArg Host.Outcome.next ?_
  change passOn f (arriveSamples tag samples s) = _
  rw [arriveSamples_eq, passOn_eq]

/-! Strobes at the Stream Sender -/

theorem sendStrobe_of_member {samples : List Sample} {s : State} (member : s.isMember = true) :
    sendStrobe samples s =
      if (readPorts samples s).blocksComplete then completeBlocks (readPorts samples s) else readPorts samples s :=
  if_pos member

theorem readPorts_of_four {s : State} {b0 b1 b2 b3 : List Sample} (four : s.ss = [b0, b1, b2, b3])
    (s0 s1 s2 s3 : Sample) :
    readPorts [s0, s1, s2, s3] s = { s with ss := [b0 ++ [s0], b1 ++ [s1], b2 ++ [s2], b3 ++ [s3]] } := by
  rw [readPorts, four]
  rfl

theorem strobeFillsTheBuffers : Clause.StrobeFillsTheBuffers := by
  intro s0 s1 s2 s3 b0 b1 b2 b3 s member four h0 h1 h2 h3
  refine congrArg Host.Outcome.next ((sendStrobe_of_member member).trans ?_)
  rw [readPorts_of_four four]
  refine if_neg ?_
  change ¬([b0 ++ [s0], b1 ++ [s1], b2 ++ [s2], b3 ++ [s3]].any fun buffer => decide (s.blockLength ≤ buffer.length)) = true
  simp
  omega

/-- The claim in a slot that is LIVE on a port, as the sending of the port's block sees it. -/
def State.claimOn (s : State) (p n : Nat) : Option (Nat × Nat × Slot × ClaimInfo) :=
  match s.slot n with
  | none => none
  | some k =>
    match k.info with
    | none => none
    | some i => if k.state = .live ∧ i.port = p then some (p, n, k, i) else none

theorem claimsInOrder_eq (s : State) :
    Clause.claimsInOrder s = (List.range 4).flatMap fun p => (List.range 8).filterMap (s.claimOn p) := rfl

/-- The Ring Port after one claim's block: a ring claim's AUDIO frame stored, or lost at a full queue (R136, R137). -/
def storedBlock (own : Nat) (block : Nat → List Sample) (rp : RingPort) (x : Nat × Nat × Slot × ClaimInfo) : RingPort :=
  if x.2.2.2.cls = .ofRing ∧ rp.audio.length < 8 then
    ({ rp with audio := rp.audio ++
      [frameOf own 0 (.audio (byteOf x.2.1) (byteOf x.2.2.1.generation) (block x.1))] } : RingPort).arbitrate
  else rp

/-- The listen table after one claim's block: delivered where the claim has a place in an own zone (R138). -/
def deliveredBlock (s : State) (block : Nat → List Sample) (lu : List ListenEntry) (x : Nat × Nat × Slot × ClaimInfo) :
    List ListenEntry :=
  if ∃ e ∈ x.2.2.2.entries, s.owns e.zone = true ∧ (e.state = .active ∨ e.state = .suspended ∨ e.state = .waiting) then
    lu.map fun e =>
      if e.tag = { origin := s.address, slot := x.2.1, generation := x.2.2.1.generation } ∧ e.lapse.isSome then
        if e.active then
          { e with
            lapse := some s.lapseTime
            buffer := (e.buffer ++ block x.1).take 64
            primed := e.primed || decide (s.startFill ≤ ((e.buffer ++ block x.1).take 64).length) }
        else { e with lapse := some s.lapseTime }
      else e
  else lu

/-- The station while a completion's blocks are sent, `rp` and `lu` as they have become. -/
def sending (s : State) (rp : RingPort) (lu : List ListenEntry) : State := { s with rp := rp, lu := lu }

theorem EntryState.hasPlace_iff (e : EntryState) : e.hasPlace = true ↔ e = .active ∨ e = .suspended ∨ e = .waiting := by
  cases e <;> simp [EntryState.hasPlace]

theorem hasOwnPlace_iff {s : State} {k : Slot} {i : ClaimInfo} (info : k.info = some i) :
    s.hasOwnPlace k = true ↔
      ∃ e ∈ i.entries, s.owns e.zone = true ∧ (e.state = .active ∨ e.state = .suspended ∨ e.state = .waiting) := by
  simp [State.hasOwnPlace, Slot.entries, info, EntryState.hasPlace_iff]

theorem storeAudio_block (s : State) (block : Nat → List Sample) (p n : Nat) (k : Slot) (i : ClaimInfo) (rp : RingPort)
    (lu : List ListenEntry) (info : k.info = some i) :
    (if k.info.any fun i => i.cls == .ofRing then
      storeAudio (.audio (byteOf n) (byteOf k.generation) (block p)) (sending s rp lu) else sending s rp lu) =
      sending s (storedBlock s.address block rp (p, n, k, i)) lu := by
  unfold storedBlock
  by_cases ring : i.cls = .ofRing
  · by_cases room : rp.audio.length < 8
    · rw [if_pos (by simp [info, ring]), if_pos ⟨ring, room⟩]
      exact congrArg (sending s · lu) (if_pos room)
    · rw [if_pos (by simp [info, ring]), if_neg fun h => room h.2]
      exact congrArg (sending s · lu) (if_neg room)
  · rw [if_neg (by simp [info, ring]), if_neg fun h => ring h.1]

/-- One block sent for a claim on its port (R136, R138). -/
theorem sendBlockFor_eq (s : State) (block : Nat → List Sample) (p n : Nat) {k : Slot} {i : ClaimInfo}
    (info : k.info = some i) (rp : RingPort) (lu : List ListenEntry) :
    sendBlockFor n k (block p) (sending s rp lu) =
      sending s (storedBlock s.address block rp (p, n, k, i)) (deliveredBlock s block lu (p, n, k, i)) := by
  rw [sendBlockFor, storeAudio_block s block p n k i rp lu info]
  unfold deliveredBlock
  have place : (sending s rp lu).hasOwnPlace k = s.hasOwnPlace k := rfl
  by_cases placed : s.hasOwnPlace k = true
  · rw [if_pos (place.trans placed), if_pos ((hasOwnPlace_iff info).mp placed), arriveSamples_eq]
    rfl
  · rw [if_neg (place ▸ placed), if_neg fun h => placed ((hasOwnPlace_iff info).mpr h)]

theorem claimOn_of_empty {s : State} {n : Nat} (empty : s.slot n = none) (p : Nat) : s.claimOn p n = none := by
  simp only [State.claimOn, empty]

theorem claimOn_of_undescribed {s : State} {n : Nat} {k : Slot} (at_n : s.slot n = some k) (info : k.info = none) (p : Nat) :
    s.claimOn p n = none := by
  simp only [State.claimOn, at_n, info]

theorem claimOn_of_info {s : State} {n : Nat} {k : Slot} {i : ClaimInfo} (at_n : s.slot n = some k) (info : k.info = some i)
    (p : Nat) : s.claimOn p n = if k.state = .live ∧ i.port = p then some (p, n, k, i) else none := by
  simp only [State.claimOn, at_n, info]

theorem claimOn_of_not_live {s : State} {n : Nat} (not_live : ∀ k, s.slot n = some k → k.state ≠ .live) (p : Nat) :
    s.claimOn p n = none := by
  cases at_n : s.slot n with
  | none => exact claimOn_of_empty at_n p
  | some k =>
    cases info : k.info with
    | none => exact claimOn_of_undescribed at_n info p
    | some i => exact (claimOn_of_info at_n info p).trans (if_neg fun h => not_live k at_n h.1)

theorem Slot.onPort_iff {k : Slot} {i : ClaimInfo} (info : k.info = some i) (p : Nat) :
    k.onPort p = true ↔ k.state = .live ∧ i.port = p := by
  simp [Slot.onPort, info]

theorem sendBlockToSlot_eq (s : State) (block : Nat → List Sample) (p n : Nat) (rp : RingPort) (lu : List ListenEntry) :
    sendBlockToSlot p (block p) n (sending s rp lu) =
      match s.claimOn p n with
      | none => sending s rp lu
      | some x => sending s (storedBlock s.address block rp x) (deliveredBlock s block lu x) := by
  have same : (sending s rp lu).slot n = s.slot n := rfl
  unfold sendBlockToSlot
  rw [same]
  cases at_n : s.slot n with
  | none => rw [claimOn_of_empty at_n]
  | some k =>
    cases info : k.info with
    | none =>
      rw [claimOn_of_undescribed at_n info]
      exact if_neg (by simp [Slot.onPort, info])
    | some i =>
      rw [claimOn_of_info at_n info]
      by_cases on : k.state = .live ∧ i.port = p
      · rw [if_pos on]
        exact (if_pos ((Slot.onPort_iff info p).mpr on)).trans (sendBlockFor_eq s block p n info rp lu)
      · rw [if_neg on]
        exact if_neg fun h => on ((Slot.onPort_iff info p).mp h)

/-- A port's block sent for its claims, in slot order (R139). -/
theorem forEach_sendBlock (s : State) (block : Nat → List Sample) (p : Nat) : ∀ (slots : List Nat) (rp : RingPort)
    (lu : List ListenEntry), forEach slots (sendBlockToSlot p (block p)) (sending s rp lu) =
      sending s ((slots.filterMap (s.claimOn p)).foldl (storedBlock s.address block) rp)
        ((slots.filterMap (s.claimOn p)).foldl (deliveredBlock s block) lu)
  | [], _, _ => rfl
  | n :: rest, rp, lu => by
    have one := sendBlockToSlot_eq s block p n rp lu
    change forEach rest _ (sendBlockToSlot p (block p) n (sending s rp lu)) = _
    cases claim : s.claimOn p n with
    | none =>
      rw [claim] at one
      rw [one, List.filterMap_cons_none claim]
      exact forEach_sendBlock s block p rest rp lu
    | some x =>
      rw [claim] at one
      rw [one, List.filterMap_cons_some claim]
      exact forEach_sendBlock s block p rest _ _

/-- The ports' blocks sent in port order (R139). -/
theorem forEach_sendPort (s : State) (block : Nat → List Sample) (reads : ∀ p, s.ss.getD p [] = block p) :
    ∀ (ports : List Nat) (rp : RingPort) (lu : List ListenEntry), forEach ports sendPort (sending s rp lu) =
      sending s ((ports.flatMap fun p => (List.range 8).filterMap (s.claimOn p)).foldl (storedBlock s.address block) rp)
        ((ports.flatMap fun p => (List.range 8).filterMap (s.claimOn p)).foldl (deliveredBlock s block) lu)
  | [], _, _ => rfl
  | p :: rest, rp, lu => by
    change forEach rest sendPort (sendPort p (sending s rp lu)) = _
    have one : sendPort p (sending s rp lu) = forEach (List.range 8) (sendBlockToSlot p (block p)) (sending s rp lu) := by
      rw [← reads p]
      rfl
    rw [one, forEach_sendBlock, forEach_sendPort s block reads rest, List.flatMap_cons, List.foldl_append, List.foldl_append]

/-- The four blocks that a completion sends, by port. -/
def fourBlocks (b0 b1 b2 b3 : List Sample) (p : Nat) : List Sample := [b0, b1, b2, b3].getD p []

/-- The strobe that completes the blocks, about the Ring Port and the listen table (R134 to R139). -/
theorem exec_blockCompletion {s0 s1 s2 s3 : Sample} {b0 b1 b2 b3 : List Sample} {s : State} (member : s.isMember = true)
    (four : s.ss = [b0, b1, b2, b3]) (full : b0.length + 1 = s.blockLength) {block : Nat → List Sample}
    (blocks : block = fourBlocks (b0 ++ [s0]) (b1 ++ [s1]) (b2 ++ [s2]) (b3 ++ [s3])) :
    exec (.blockCompletion s0 s1 s2 s3) s = .next
      { s with
        ss := [[], [], [], []]
        rp := (Clause.claimsInOrder s).foldl (storedBlock s.address block) s.rp
        lu := (Clause.claimsInOrder s).foldl (deliveredBlock s block) s.lu } := by
  have complete : (readPorts [s0, s1, s2, s3] s).blocksComplete = true := by
    rw [readPorts_of_four four]
    refine List.any_eq_true.mpr ⟨b0 ++ [s0], List.mem_cons_self, ?_⟩
    change decide (s.blockLength ≤ _) = true
    simp [full]
  refine congrArg Host.Outcome.next ((sendStrobe_of_member member).trans ((if_pos complete).trans ?_))
  rw [readPorts_of_four four]
  generalize read_eq : ({ s with ss := _ } : State) = read
  have sent := forEach_sendPort read block (fun p => by rw [← read_eq, blocks]; rfl) [0, 1, 2, 3] read.rp read.lu
  change { forEach [0, 1, 2, 3] sendPort (sending read read.rp read.lu) with ss := [[], [], [], []] } = _
  rw [sent, ← read_eq]
  rfl

theorem blocksAreSentInOrder : Clause.BlocksAreSentInOrder := by
  intro s0 s1 s2 s3 b0 b1 b2 b3 s member four full block stored delivered
  have sent := exec_blockCompletion member four full (block := block) rfl (s0 := s0) (s1 := s1) (s2 := s2) (s3 := s3)
  have stores : storedBlock s.address block = stored := rfl
  have delivers : deliveredBlock s block = delivered := rfl
  rw [stores, delivers] at sent
  exact sent

/-- A free line has no frame waiting for it in the forward and control queues (R26). -/
def RingPort.Drained (p : RingPort) : Prop := p.out = none → p.forward = [] ∧ p.control = []

theorem RingPort.Drained.arbitrate {p : RingPort} (drained : p.Drained) :
    p.arbitrate.control = p.control ∧ p.arbitrate.forward = p.forward ∧ p.arbitrate.Drained := by
  cases line : p.out with
  | some o =>
    rw [RingPort.arbitrate_of_busy line]
    exact ⟨rfl, rfl, drained⟩
  | none =>
    obtain ⟨forward, control⟩ := drained line
    cases audio : p.audio with
    | nil =>
      rw [RingPort.arbitrate_none forward control audio]
      exact ⟨rfl, rfl, drained⟩
    | cons f rest =>
      rw [RingPort.arbitrate_audio_last line forward control audio]
      exact ⟨rfl, rfl, fun free => nomatch free⟩

/-- An audio frame stored leaves the other queues, where a free line finds them empty. -/
theorem storedBlock_queues (own : Nat) (block : Nat → List Sample) {rp : RingPort} (drained : rp.Drained)
    (x : Nat × Nat × Slot × ClaimInfo) :
    (storedBlock own block rp x).control = rp.control ∧ (storedBlock own block rp x).forward = rp.forward ∧
      (storedBlock own block rp x).Drained := by
  unfold storedBlock
  split
  · exact RingPort.Drained.arbitrate (p := { rp with audio := _ }) drained
  · exact ⟨rfl, rfl, drained⟩

theorem storedBlocks_queues (own : Nat) (block : Nat → List Sample) : ∀ (xs : List (Nat × Nat × Slot × ClaimInfo))
    {rp : RingPort}, rp.Drained → (xs.foldl (storedBlock own block) rp).control = rp.control ∧
      (xs.foldl (storedBlock own block) rp).forward = rp.forward
  | [], _, _ => ⟨rfl, rfl⟩
  | x :: rest, _, drained => by
    obtain ⟨control, forward, still⟩ := storedBlock_queues own block drained x
    obtain ⟨controls, forwards⟩ := storedBlocks_queues own block rest still
    exact ⟨controls.trans control, forwards.trans forward⟩

/-- With no claim LIVE a completion sends nothing. -/
theorem claimsInOrder_of_no_live {s : State} (no_live : ∀ k ∈ s.cu, k.state ≠ .live) : Clause.claimsInOrder s = [] := by
  rw [claimsInOrder_eq]
  refine List.flatMap_eq_nil_iff.mpr fun p _ => List.filterMap_eq_nil_iff.mpr fun n _ => ?_
  exact claimOn_of_not_live (fun k at_n => no_live k (List.mem_of_getElem? at_n)) p

/-- With one claim LIVE, on S0, a completion sends its block alone. -/
theorem claimsInOrder_of_one {s : State} {n : Nat} {k : Slot} {i : ClaimInfo} (slot : n < 8) (at_n : s.slot n = some k)
    (live : k.state = .live) (info : k.info = some i) (port : i.port = 0)
    (alone : ∀ m q, m ≠ n → s.slot m = some q → q.state ≠ .live) : Clause.claimsInOrder s = [(0, n, k, i)] := by
  have one : s.claimOn = fun p m => if p = 0 ∧ m = n then some (0, n, k, i) else none := by
    funext p m
    by_cases same : m = n
    · subst same
      rw [claimOn_of_info at_n info, port]
      by_cases zero : p = 0
      · subst zero
        rw [if_pos ⟨live, rfl⟩, if_pos ⟨rfl, rfl⟩]
      · rw [if_neg fun h => zero h.2.symm, if_neg fun h => zero h.1]
    · rw [claimOn_of_not_live (fun q at_m => alone m q same at_m), if_neg fun h => same h.2]
  rw [claimsInOrder_eq, one]
  have number : n = 0 ∨ n = 1 ∨ n = 2 ∨ n = 3 ∨ n = 4 ∨ n = 5 ∨ n = 6 ∨ n = 7 := by omega
  rcases number with rfl | rfl | rfl | rfl | rfl | rfl | rfl | rfl <;> rfl

theorem blockCompletionSendsTheBlocks : Clause.BlockCompletionSendsTheBlocks := by
  intro s0 s1 s2 s3 b0 b1 b2 b3 s bounded member four full
  have sent := exec_blockCompletion member four full rfl (s0 := s0) (s1 := s1) (s2 := s2) (s3 := s3)
  have first : fourBlocks (b0 ++ [s0]) (b1 ++ [s1]) (b2 ++ [s2]) (b3 ++ [s3]) 0 = b0 ++ [s0] := rfl
  generalize fourBlocks (b0 ++ [s0]) (b1 ++ [s1]) (b2 ++ [s2]) (b3 ++ [s3]) = block at sent first
  have drained : s.rp.Drained := fun free => ⟨(bounded.port.line free).1, (bounded.port.line free).2.1⟩
  obtain ⟨control, forward⟩ := storedBlocks_queues s.address block (Clause.claimsInOrder s) drained
  refine ⟨⟨_, sent, rfl, rfl, rfl, rfl, rfl, control, forward⟩, fun no_live => ?_,
    fun n k i slot at_n live info ring port alone apart => ?_⟩
  · rw [sent, claimsInOrder_of_no_live no_live]
    rfl
  · rw [sent, claimsInOrder_of_one slot at_n live info port alone]
    have no_place : ¬∃ e ∈ i.entries, s.owns e.zone = true ∧
        (e.state = .active ∨ e.state = .suspended ∨ e.state = .waiting) := by
      rintro ⟨e, mem, owned, -⟩
      rw [apart e mem] at owned
      cases owned
    simp only [List.foldl_cons, List.foldl_nil, storedBlock, deliveredBlock, if_neg no_place, ring, true_and, first]

theorem strobesOfARepeater : Clause.StrobesOfARepeater := by
  intro s0 s1 s2 s3 s outside
  have no : ¬ s.isMember = true := by simp [outside]
  exact ⟨congrArg Host.Outcome.next (if_neg no), congrArg Host.Outcome.next (if_neg no),
    congrArg Host.Outcome.next (if_neg no), congrArg Host.Outcome.next (if_neg no)⟩

/-- Settles O42. -/
theorem strobesAtTheStreamSender : Obligations.StrobesAtTheStreamSender :=
  ⟨strobeFillsTheBuffers, blockCompletionSendsTheBlocks, blocksAreSentInOrder, strobesOfARepeater⟩

/-! Strobes at the Mix Engine -/

theorem forEach_post_eq : ∀ (notices : List HostNotice) (s : State),
    forEach notices post s = { s with cp := (forEach notices post s).cp }
  | [], _ => rfl
  | n :: rest, s => by
    change forEach rest post (post n s) = { s with cp := (forEach rest post (post n s)).cp }
    rw [forEach_post_eq rest (post n s), post_eq]

theorem forEach_post_masks : ∀ (notices : List HostNotice) (s : State),
    (forEach notices post s).cp.masks = s.cp.masks ∧ (forEach notices post s).cp.response = s.cp.response
  | [], _ => ⟨rfl, rfl⟩
  | n :: rest, s => by
    obtain ⟨masks, response⟩ := forEach_post_masks rest (post n s)
    exact ⟨masks.trans (post_masks n s), response.trans (post_response n s)⟩

theorem forEach_post_cp_congr : ∀ (notices : List HostNotice) {s t : State}, t.cp = s.cp → t.config = s.config →
    (forEach notices post t).cp = (forEach notices post s).cp
  | [], _, _, cp, _ => cp
  | n :: rest, s, t, cp, config =>
    forEach_post_cp_congr rest (s := post n s) (t := post n t) (post_cp_congr n cp config)
      ((post_config n t).trans (config.trans (post_config n s).symm))

/-- A strobe at a full member: the yields taken, the ports driven, the meters advanced, the trims posted (R143 to R150). -/
theorem exec_mixStrobe {c : Instr} {s : State} (strobe : c = .sampleStrobeMix ∨ c = .meterWindowEnd)
    (member : s.isMember = true) :
    exec c s = .next { s with
      lu := s.lu.map ListenEntry.afterYield
      me := { zones := s.meteredZones, ports := s.zoneOutputs }
      cp := (forEach s.trimNotices post s).cp } := by
  have strobed : exec c s = .next (mixStrobe s) := by
    rcases strobe with rfl | rfl
    · rfl
    · rfl
  rw [strobed, mixStrobe, if_pos member, forEach_post_eq]
  generalize strobed_eq : ({ s with lu := _, me := _ } : State) = strobed
  have posts := forEach_post_cp_congr s.trimNotices (s := s) (t := strobed) (by rw [← strobed_eq]) (by rw [← strobed_eq])
  rw [posts, ← strobed_eq]

theorem ListenEntry.silent_yield {e : ListenEntry} (silent : e.active = false ∨ e.primed = false) :
    e.yielded = 0 ∧ e.afterYield = e := by
  have no : ¬(e.active && e.primed) = true := fun both => by
    rcases silent with off | off <;> simp [off] at both
  exact ⟨if_neg no, if_neg no⟩

theorem ListenEntry.afterYield_of_cons {e : ListenEntry} {x : Sample} {rest : List Sample} (active : e.active = true)
    (primed : e.primed = true) (buffer : e.buffer = x :: rest) :
    e.yielded = x ∧ e.afterYield = { e with buffer := rest } := by
  constructor
  · simp [ListenEntry.yielded, active, primed, buffer]
  · simp only [ListenEntry.afterYield, active, primed, buffer, Bool.and_self, if_true]

theorem ListenEntry.afterYield_of_nil {e : ListenEntry} (active : e.active = true) (primed : e.primed = true)
    (buffer : e.buffer = []) : e.yielded = 0 ∧ e.afterYield = { e with primed := false } := by
  constructor
  · simp [ListenEntry.yielded, active, primed, buffer]
  · simp only [ListenEntry.afterYield, active, primed, buffer, Bool.and_self, if_true]

theorem strobeYieldsTheOldestSample : Clause.StrobeYieldsTheOldestSample := by
  intro c s strobe member
  obtain ⟨masks, response⟩ := forEach_post_masks s.trimNotices s
  refine ⟨_, exec_mixStrobe strobe member, rfl, rfl, rfl, rfl, rfl, rfl, masks, response, List.length_map _,
    fun i e at_i => ?_⟩
  have after : (s.lu.map ListenEntry.afterYield)[i]? = some e.afterYield := by rw [List.getElem?_map, at_i]; rfl
  refine ⟨fun silent => ?_, fun x rest active primed buffer => ?_, fun active primed buffer => ?_⟩
  · obtain ⟨yields, stays⟩ := ListenEntry.silent_yield silent
    exact ⟨yields, after.trans (congrArg some stays)⟩
  · obtain ⟨yields, left⟩ := ListenEntry.afterYield_of_cons active primed buffer
    exact ⟨yields, after.trans (congrArg some left)⟩
  · obtain ⟨yields, left⟩ := ListenEntry.afterYield_of_nil active primed buffer
    exact ⟨yields, after.trans (congrArg some left)⟩

/-- A port's sample is the saturated value it stands for (R146). -/
theorem toInt_ofInt_saturated (v : Int) : (BitVec.ofInt 16 (saturated v)).toInt = saturated v := by
  have low : -32768 ≤ saturated v := by unfold saturated; omega
  have high : saturated v ≤ 32767 := by unfold saturated; omega
  rw [BitVec.toInt_ofInt]
  exact Int.bmod_eq_of_le (by omega) (by omega)

theorem shifted_eq (trim : Nat) (sum : Int) : shifted trim sum = Int.fdiv sum ((2 ^ (14 + trim) : Nat) : Int) :=
  (Int.fdiv_eq_ediv_of_nonneg sum (Int.natCast_nonneg _)).symm

theorem zoneOutputs_own {s : State} {i : Nat} {m : MixZone} (few : s.me.zones.length ≤ 8) (at_i : s.me.zones[i]? = some m) :
    s.zoneOutputs[i]? = some (BitVec.ofInt 16 (saturated (s.zoneValue m))) := by
  obtain ⟨inside, -⟩ := List.getElem?_eq_some_iff.mp at_i
  rw [State.zoneOutputs, List.getElem?_take_of_lt (by omega), List.getElem?_append_left (by simpa using inside),
    List.getElem?_map, at_i]
  rfl

theorem zoneOutputs_beyond {s : State} {i : Nat} (beyond : s.me.zones.length ≤ i) (port : i < 8) :
    s.zoneOutputs[i]? = some 0 := by
  rw [State.zoneOutputs, List.getElem?_take_of_lt port, List.getElem?_append_right (by simpa using beyond),
    List.getElem?_replicate, if_pos (by simp; omega)]

theorem portsCarryTheMix : Clause.PortsCarryTheMix := by
  intro c s strobe member few
  refine ⟨_, exec_mixStrobe strobe member, s.zoneOutputs_length, fun i m r at_i at_z => ?_, fun i => zoneOutputs_beyond⟩
  refine ⟨_, zoneOutputs_own few at_i, ?_⟩
  have value : s.zoneValue m = Int.fdiv ((r.active.map fun a => s.product a.tag).sum) ((2 ^ (14 + m.trim) : Nat) : Int) := by
    rw [State.zoneValue, shifted_eq, State.zoneSum, at_z]
  rw [toInt_ofInt_saturated, value]
  change let value := Int.fdiv ((r.active.map fun a => s.product a.tag).sum) ((2 ^ (14 + m.trim) : Nat) : Int)
    (32767 < value → _) ∧ (value < -32768 → _) ∧ (-32768 ≤ value → value ≤ 32767 → _ = value)
  generalize Int.fdiv ((r.active.map fun a => s.product a.tag).sum) ((2 ^ (14 + m.trim) : Nat) : Int) = v
  unfold saturated
  refine ⟨fun above => ?_, fun below => ?_, fun low high => ?_⟩
  · omega
  · omega
  · omega

/-- Settles O43. -/
theorem strobeMixesTheZones : Obligations.StrobeMixesTheZones := ⟨strobeYieldsTheOldestSample, portsCarryTheMix⟩

theorem isClip_iff (v : Int) : isClip v = true ↔ v < -32768 ∨ 32767 < v := by
  simp only [isClip, saturated, bne_iff_ne]
  omega

theorem clipCount_eq (v : Int) : clipCount (isClip v) = if v < -32768 ∨ 32767 < v then 1 else 0 := by
  simp only [clipCount, isClip_iff]

theorem totalClips_eq (v : Int) (total : Nat) :
    (if isClip v then countUp total else total) =
      if (if v < -32768 ∨ 32767 < v then 1 else 0) = 1 ∧ total < 65535 then total + 1 else total := by
  by_cases clip : v < -32768 ∨ 32767 < v
  · rw [if_pos ((isClip_iff v).mpr clip), if_pos clip, countUp]
    by_cases room : total < 65535
    · exact (if_pos room).trans (if_pos ⟨rfl, room⟩).symm
    · exact (if_neg room).trans (if_neg fun h => room h.2).symm
  · rw [if_neg fun h => clip ((isClip_iff v).mp h), if_neg clip, if_neg (by simp)]

theorem MixZone.autoTrims_iff (threshold : Nat) (m : MixZone) :
    m.autoTrims threshold = true ↔ threshold ≠ 0 ∧ threshold ≤ m.clips ∧ m.trim < 7 := by
  simp [MixZone.autoTrims, and_assoc]

theorem meterTakesTheOutput : Clause.MeterTakesTheOutput := by
  intro c i m s strobe member at_i
  have metered : s.meteredZones[i]? = some (m.afterStrobe s.meterWindow s.clipThreshold (s.zoneValue m)) := by
    rw [State.meteredZones, List.getElem?_map, at_i]
    rfl
  refine ⟨_, exec_mixStrobe strobe member, fun inside => metered.trans ?_, fun ends => metered.trans ?_⟩
  · refine congrArg some ((if_neg (Nat.not_le.mpr inside)).trans ?_)
    rw [MixZone.counted, clipCount_eq, totalClips_eq]
  · refine congrArg some ((if_pos ends).trans ?_)
    simp only [MixZone.windowEnd, MixZone.autoTrims_iff, MixZone.counted, clipCount_eq, totalClips_eq]

/-- The notice of one zone at a strobe (R150). -/
theorem trimNotice_eq (s : State) (m : MixZone) :
    (let after := m.afterStrobe s.meterWindow s.clipThreshold (s.zoneValue m)
     if after.trim = m.trim then none else some (HostNotice.zoneTrimmed m.zone after.trim)) =
      if s.meterWindow ≤ m.count + 1 ∧ s.clipThreshold ≠ 0 ∧
          s.clipThreshold ≤ m.clips + (if s.zoneValue m < -32768 ∨ 32767 < s.zoneValue m then 1 else 0) ∧ m.trim < 7 then
        some (HostNotice.zoneTrimmed m.zone (m.trim + 1))
      else none := by
  simp only [← clipCount_eq]
  have trim : (m.afterStrobe s.meterWindow s.clipThreshold (s.zoneValue m)).trim =
      if s.meterWindow ≤ m.count + 1 ∧ s.clipThreshold ≠ 0 ∧ s.clipThreshold ≤ m.clips + clipCount (isClip (s.zoneValue m)) ∧
        m.trim < 7 then m.trim + 1 else m.trim := by
    by_cases ends : s.meterWindow ≤ m.count + 1
    · refine (congrArg MixZone.trim (if_pos ends)).trans ?_
      simp only [MixZone.windowEnd, MixZone.autoTrims_iff, MixZone.counted, ends, true_and]
    · exact (congrArg MixZone.trim (if_neg ends)).trans (if_neg fun h => ends h.1).symm
  rw [trim]
  split
  · rw [if_neg (Nat.succ_ne_self m.trim)]
  · rw [if_pos rfl]

theorem trimmedZonesArePosted : Clause.TrimmedZonesArePosted := by
  intro c s strobe member trimmed
  have notices : s.trimNotices = trimmed := congrArg (List.filterMap · s.me.zones) (funext fun m => trimNotice_eq s m)
  refine ⟨_, exec_mixStrobe strobe member, ?_⟩
  rw [notices]
  rfl

/-- Settles O44. -/
theorem meterCountsTheOutput : Obligations.MeterCountsTheOutput := ⟨meterTakesTheOutput, trimmedZonesArePosted⟩

end Sys2Proof.Machine
end


section
/-! SUPPORT. What is sent is read back: the frames of the ring (R190) and the transactions of the Control Port (R163, R164,
R193). -/

namespace Sys2Proof.Machine

/-! Frames -/

theorem toNat_byteOf {n : Nat} (small : n < 256) : (byteOf n).toNat = n := by
  rw [byteOf, BitVec.toNat_ofNat]
  exact Nat.mod_eq_of_lt small

theorem claimEntries_flatMap : ∀ {entries : List WireEntry}, (∀ e ∈ entries, e.ack = 0) →
    claimEntries (entries.flatMap fun e => [e.zone, e.verdict, e.owner]) = entries
  | [], _ => rfl
  | e :: rest, unacknowledged => by
    have tail := claimEntries_flatMap fun e' mem => unacknowledged e' (List.mem_cons_of_mem e mem)
    rw [List.flatMap_cons]
    simp only [List.cons_append, List.nil_append, claimEntries, tail, List.cons.injEq, and_true]
    rw [← unacknowledged e List.mem_cons_self]

theorem commitEntries_flatMap : ∀ entries : List WireEntry,
    commitEntries (entries.flatMap fun e => [e.zone, e.verdict, e.ack, e.owner]) = entries
  | [] => rfl
  | e :: rest => by
    have tail := commitEntries_flatMap rest
    rw [List.flatMap_cons]
    simp only [List.cons_append, List.nil_append, commitEntries, tail]

theorem samplesOfBytes_bytes : ∀ samples : List Sample, samplesOfBytes (bytesOfSamples samples) = samples
  | [] => rfl
  | x :: rest => by
    have tail := samplesOfBytes_bytes rest
    change samplesOfBytes (highByte x :: lowByte x :: bytesOfSamples rest) = _
    rw [samplesOfBytes, tail, Laws.joinBytes_split]

theorem length_flatMap_of_const {α : Type} {f : α → List Byte} {n : Nat} (each : ∀ a, (f a).length = n) (l : List α) :
    (l.flatMap f).length = n * l.length := by
  induction l with
  | nil => rfl
  | cons a l ih => rw [List.flatMap_cons, List.length_append, each a, ih, List.length_cons, Nat.mul_succ, Nat.add_comm]

theorem length_bytesOfSamples (samples : List Sample) : (bytesOfSamples samples).length = 2 * samples.length :=
  length_flatMap_of_const (f := splitBytes) (fun _ => rfl) samples

theorem length_claimEntries (entries : List WireEntry) :
    (entries.flatMap fun e => [e.zone, e.verdict, e.owner]).length = 3 * entries.length :=
  length_flatMap_of_const (f := fun e : WireEntry => [e.zone, e.verdict, e.owner]) (fun _ => rfl) entries

theorem length_commitEntries (entries : List WireEntry) :
    (entries.flatMap fun e => [e.zone, e.verdict, e.ack, e.owner]).length = 4 * entries.length :=
  length_flatMap_of_const (f := fun e : WireEntry => [e.zone, e.verdict, e.ack, e.owner]) (fun _ => rfl) entries

/-- A content's bytes are read back as the content, given its entries' (R190). -/
theorem contentWith_head {size : Nat} {entriesOf : List Byte → List WireEntry} {c : Content} {rest : List Byte}
    (some_entry : 1 ≤ c.entries.length) (eight : c.entries.length ≤ 8) (whole : rest.length = size * c.entries.length)
    (entries : entriesOf rest = c.entries) : contentWith size entriesOf (c.head ++ rest) = some c := by
  have count : (byteOf c.entries.length).toNat = c.entries.length := toNat_byteOf (by omega)
  change (if 1 ≤ (byteOf c.entries.length).toNat ∧ (byteOf c.entries.length).toNat ≤ 8 ∧
    rest.length = size * (byteOf c.entries.length).toNat then _ else none) = _
  rw [count, if_pos ⟨some_entry, eight, whole⟩, Laws.joinBytes_split, Laws.joinBytes_split]
  exact congrArg (fun entries => some { c with entries := entries }) entries

theorem claimContent_claimBody {c : Content} (some_entry : 1 ≤ c.entries.length) (eight : c.entries.length ≤ 8)
    (unacknowledged : ∀ e ∈ c.entries, e.ack = 0) : claimContent c.claimBody = some c :=
  contentWith_head some_entry eight (length_claimEntries c.entries) (claimEntries_flatMap unacknowledged)

theorem commitContent_commitBody {c : Content} (some_entry : 1 ≤ c.entries.length) (eight : c.entries.length ≤ 8) :
    commitContent c.commitBody = some c :=
  contentWith_head some_entry eight (length_commitEntries c.entries) (commitEntries_flatMap c.entries)

theorem length_claimBody (c : Content) : c.claimBody.length = 10 + 3 * c.entries.length :=
  List.length_append.trans (congrArg (10 + ·) (length_claimEntries c.entries))

theorem length_commitBody (c : Content) : c.commitBody.length = 10 + 4 * c.entries.length :=
  List.length_append.trans (congrArg (10 + ·) (length_commitEntries c.entries))

/-- A message that the bytes of a frame can hold: its counts in their ranges, and no acknowledgement in a CLAIM (R16). -/
def Message.fits : Message → Prop
  | .claim c => 1 ≤ c.entries.length ∧ c.entries.length ≤ 8 ∧ ∀ e ∈ c.entries, e.ack = 0
  | .commit c => 1 ≤ c.entries.length ∧ c.entries.length ≤ 8
  | .audio _ _ samples => 1 ≤ samples.length ∧ samples.length ≤ 16
  | .presence _ _ _ _ => True
  | .withdraw _ _ => True
  | .notice _ _ _ _ _ => True

theorem Message.fits.body_length {m : Message} (fits : m.fits) : m.body.length ≤ 42 := by
  cases m with
  | presence sequence flags first last => exact Nat.le_of_ble_eq_true rfl
  | claim c =>
    have := length_claimBody c
    obtain ⟨-, eight, -⟩ := fits
    change c.claimBody.length ≤ 42
    omega
  | commit c =>
    have := length_commitBody c
    obtain ⟨-, eight⟩ := fits
    change c.commitBody.length ≤ 42
    omega
  | withdraw slot generation => exact Nat.le_of_ble_eq_true rfl
  | notice slot generation zone event reason => exact Nat.le_of_ble_eq_true rfl
  | audio slot generation samples =>
    have := length_bytesOfSamples samples
    obtain ⟨-, sixteen⟩ := fits
    change (bytesOfSamples samples).length + 1 + 1 + 1 ≤ 42
    omega

/-- A frame carries the message it was made for (R190). -/
theorem message_frameOf {m : Message} (fits : m.fits) (origin destination : Nat) :
    (frameOf origin destination m).message = some m := by
  cases m with
  | presence sequence flags first last => rfl
  | claim c =>
    obtain ⟨some_entry, eight, unacknowledged⟩ := fits
    exact congrArg (Option.map Message.claim) (claimContent_claimBody some_entry eight unacknowledged)
  | commit c =>
    obtain ⟨some_entry, eight⟩ := fits
    exact congrArg (Option.map Message.commit) (commitContent_commitBody some_entry eight)
  | withdraw slot generation => rfl
  | notice slot generation zone event reason => rfl
  | audio slot generation samples =>
    obtain ⟨some_sample, sixteen⟩ := fits
    have count : (byteOf samples.length).toNat = samples.length := toNat_byteOf (by omega)
    change (if 1 ≤ (byteOf samples.length).toNat ∧ (byteOf samples.length).toNat ≤ 16 ∧
      (bytesOfSamples samples).length = 2 * (byteOf samples.length).toNat then _ else none) = _
    rw [count, if_pos ⟨some_sample, sixteen, length_bytesOfSamples samples⟩, samplesOfBytes_bytes]

theorem Frame.sealed_check (f : Frame) : f.sealed.check = checkOf f.sealed.covered := by
  rw [show f.sealed.covered = f.covered from rfl, Frame.sealed]

theorem goodFrame_frameOf {m : Message} (fits : m.fits) (origin destination : Nat) :
    goodFrame (frameOf origin destination m).bytes false = some (frameOf origin destination m) := by
  have short := fits.body_length
  refine (goodFrameTest _ false _).mpr ⟨rfl, rfl, ?_, short, Frame.sealed_check _⟩
  change (byteOf m.body.length).toNat = m.body.length
  exact toNat_byteOf (by omega)

/-- Settles O11. -/
theorem frameRoundTrip : Obligations.FrameRoundTrip := by
  intro origin destination m _ high_origin high_destination claims commits audios
  have fits : m.fits := by
    cases m with
    | claim c => exact claims c rfl
    | commit c => exact commits c rfl
    | audio slot generation samples => exact audios slot generation samples rfl
    | presence | withdraw | notice => trivial
  exact ⟨_, goodFrame_frameOf fits origin destination, message_frameOf fits origin destination,
    toNat_byteOf (by omega), rfl, toNat_byteOf (by omega)⟩

/-! Transactions -/

/-- A command's bytes: the command byte and as many argument bytes as it takes, none where it names no command. -/
structure SpelledBy (bytes : List Byte) (command : Byte) (args : List Byte) : Prop where
  spells : bytes = command :: args
  takes : argumentCount command = some args.length ∨ argumentCount command = none ∧ args = []

theorem spelledBy_of_known {command : Byte} {args : List Byte} (known : argumentCount command = some args.length) :
    ∃ command' args', SpelledBy (command :: args) command' args' := ⟨command, args, rfl, .inl known⟩

/-- The bytes of a command that acts (R163, R193). -/
theorem transactionBytes_spelled {i : Instr} {bytes : List Byte} (wf : i.wellFormed = true)
    (spelled : transactionBytes i = some bytes) (whole : ∀ clocked, i ≠ .transactionCutShort clocked) :
    ∃ command args, SpelledBy bytes command args := by
  cases i with
  | claim n places level mode wait gain duration port =>
    cases spelled
    obtain ⟨p0, p1, p2, p3, p4, p5, p6, p7, rfl⟩ := Laws.eight_places (l := places) (by simpa [Instr.wellFormed] using wf)
    exact spelledBy_of_known rfl
  | badCommand command =>
    cases spelled
    have none : argumentCount command = none := by simpa [Instr.wellFormed] using wf
    exact ⟨command, [], rfl, .inr ⟨none, rfl⟩⟩
  | transactionCutShort clocked => exact absurd rfl (whole clocked)
  | status | claimPreset | endClaim | claimStatus | zoneStatus | setFloor | setTrim | clearZone | meter | notice | setMask
  | peers | reset =>
    cases spelled
    exact spelledBy_of_known rfl
  | _ => cases spelled

/-- Input bytes after those of a command that acts are ignored (R163). -/
theorem commandOfTransaction_append {bytes : List Byte} {command : Byte} {args : List Byte}
    (spelled : SpelledBy bytes command args) (extra : List Byte) :
    commandOfTransaction (bytes ++ extra) = commandOfTransaction bytes := by
  obtain ⟨rfl, known | ⟨unknown, rfl⟩⟩ := spelled
  · rw [List.cons_append]
    simp only [commandOfTransaction, known, List.length_append, Nat.lt_irrefl, if_false,
      if_neg (Nat.not_lt.mpr (Nat.le_add_right args.length extra.length)), List.take_left, List.take_length]
  · simp only [List.cons_append, List.nil_append, commandOfTransaction, unknown]

theorem bytesBeforeResponse_append {bytes : List Byte} {command : Byte} {args : List Byte}
    (spelled : SpelledBy bytes command args) (extra : List Byte) :
    bytesBeforeResponse (bytes ++ extra) = bytes.length + 1 := by
  obtain ⟨rfl, known | ⟨unknown, rfl⟩⟩ := spelled
  · rw [List.cons_append, bytesBeforeResponse_known _ known]
    rfl
  · rw [List.cons_append, bytesBeforeResponse_unknown _ unknown]
    rfl

/-- A transaction that is a command's bytes is read as that command (R163, R164, R193). -/
theorem commandOfTransaction_bytes {i : Instr} {bytes : List Byte} (wf : i.wellFormed = true)
    (spelled : transactionBytes i = some bytes) : commandOfTransaction bytes = i := by
  cases i with
  | status => exact Laws.Transaction.status wf bytes spelled
  | claim n places level mode wait gain duration port =>
    exact Laws.Transaction.claim n places level mode wait gain duration port wf bytes spelled
  | claimPreset number => exact Laws.Transaction.claimPreset number wf bytes spelled
  | endClaim slot generation => exact Laws.Transaction.endClaim slot generation wf bytes spelled
  | claimStatus slot => exact Laws.Transaction.claimStatus slot wf bytes spelled
  | zoneStatus zone => exact Laws.Transaction.zoneStatus zone wf bytes spelled
  | setFloor zone floor => exact Laws.Transaction.setFloor zone floor wf bytes spelled
  | setTrim zone trim => exact Laws.Transaction.setTrim zone trim wf bytes spelled
  | clearZone zone => exact Laws.Transaction.clearZone zone wf bytes spelled
  | meter zone => exact Laws.Transaction.meter zone wf bytes spelled
  | notice => exact Laws.Transaction.notice wf bytes spelled
  | setMask m0 m1 m2 m3 => exact Laws.Transaction.setMask m0 m1 m2 m3 wf bytes spelled
  | peers => exact Laws.Transaction.peers wf bytes spelled
  | reset => exact Laws.Transaction.reset wf bytes spelled
  | badCommand command => exact Laws.Transaction.badCommand command wf bytes spelled
  | transactionCutShort clocked => exact Laws.Transaction.transactionCutShort clocked wf bytes spelled
  | _ => cases spelled

theorem transactionsAreReadBack : Clause.TransactionsAreReadBack := by
  intro i bytes extra wf spelled
  have read := commandOfTransaction_bytes wf spelled
  refine ⟨read, fun whole => ?_⟩
  obtain ⟨command, args, bytes_eq⟩ := transactionBytes_spelled wf spelled whole
  exact (commandOfTransaction_append bytes_eq extra).trans read

/-! Responses -/

/-- A response is a result code, alone unless it is OK (R163). -/
def State.Answered (s : State) : Prop := ∃ code data, s.cp.response = code :: data ∧ (code ≠ 0 → data = [])

theorem answerCode_answered (code : ResultCode) (s : State) : (answerCode code s).Answered :=
  ⟨code.code, [], rfl, fun _ => rfl⟩

theorem answerData_answered (data : List Byte) (s : State) : (answerData data s).Answered :=
  ⟨0, data, rfl, fun ne => absurd rfl ne⟩

theorem whenListening_answered {act : State → State} {s : State} (high : s.rstnLow = false) (acts : (act s).Answered) :
    (whenListening act s).Answered := by
  rwa [whenListening_of_high high]

theorem whenMember_answered {act : State → State} {s : State} (high : s.rstnLow = false) (acts : (act s).Answered) :
    (whenMember act s).Answered := by
  refine whenListening_answered high ?_
  split
  · exact acts
  · exact answerCode_answered _ s

theorem onOwnZone_answered {zone : Byte} {act : Nat → State → State} {s : State} (high : s.rstnLow = false)
    (acts : (act zone.toNat s).Answered) : (onOwnZone zone act s).Answered := by
  refine whenMember_answered high ?_
  split
  · exact acts
  · exact answerCode_answered _ s

theorem answerIssue_answered (issued : IssueResult × State) : (answerIssue issued).Answered := by
  unfold answerIssue
  split
  · exact answerData_answered _ _
  · exact answerCode_answered _ _

theorem claimCommand_answered {s : State} (high : s.rstnLow = false) (d : Option ClaimDesc) :
    (claimCommand d s).Answered := by
  refine whenListening_answered high ?_
  cases d with
  | none => exact answerCode_answered _ s
  | some d => exact answerIssue_answered _

theorem presetCommand_answered {s : State} (high : s.rstnLow = false) (number : Nat) :
    (presetCommand number s).Answered := by
  refine whenListening_answered high ?_
  cases presetRefusal s.ringState with
  | some code => exact answerCode_answered _ s
  | none =>
    cases s.preset number with
    | none => exact answerCode_answered _ s
    | some p => exact answerIssue_answered _

theorem endCommand_answered {s : State} (high : s.rstnLow = false) (slot generation : Nat) :
    (endCommand slot generation s).Answered := by
  refine whenMember_answered high ?_
  split
  · exact answerCode_answered _ _
  · exact answerCode_answered _ s

theorem claimStatusCommand_answered {s : State} (high : s.rstnLow = false) (slot : Nat) :
    (claimStatusCommand slot s).Answered := by
  refine whenMember_answered high ?_
  cases s.slot slot with
  | none => exact answerCode_answered _ s
  | some k => exact answerData_answered _ s

theorem zoneStatusCommand_answered {s : State} (high : s.rstnLow = false) (zone : Byte) :
    (zoneStatusCommand zone s).Answered := by
  refine onOwnZone_answered high ?_
  cases s.zone zone.toNat with
  | none => exact answerCode_answered _ s
  | some r => exact answerData_answered _ s

theorem setFloorCommand_answered {s : State} (high : s.rstnLow = false) (zone floor : Byte) :
    (setFloorCommand zone floor s).Answered := by
  refine onOwnZone_answered high ?_
  split
  · exact answerCode_answered _ _
  · exact answerCode_answered _ s

theorem setTrimCommand_answered {s : State} (high : s.rstnLow = false) (zone trim : Byte) :
    (setTrimCommand zone trim s).Answered := by
  refine onOwnZone_answered high ?_
  split
  · exact answerCode_answered _ _
  · exact answerCode_answered _ s

theorem meterCommand_answered {s : State} (high : s.rstnLow = false) (zone : Byte) : (meterCommand zone s).Answered := by
  refine onOwnZone_answered high ?_
  cases s.mixZone zone.toNat with
  | none => exact answerCode_answered _ s
  | some m => exact answerData_answered _ _

theorem noticeCommand_answered {s : State} (high : s.rstnLow = false) : (noticeCommand s).Answered := by
  refine whenListening_answered high ?_
  cases s.cp.notices with
  | nil => exact answerCode_answered _ s
  | cons q rest => exact answerData_answered _ _

theorem setMaskCommand_answered {s : State} (high : s.rstnLow = false) (masks : Option (List Bool)) :
    (setMaskCommand masks s).Answered := by
  refine whenListening_answered high ?_
  cases masks with
  | none => exact answerCode_answered _ s
  | some masks => exact answerCode_answered _ _

/-- With RSTN high every command that acts is answered (R163). -/
theorem after_answered {c : Instr} {bytes : List Byte} {s : State} (spelled : transactionBytes c = some bytes)
    (whole : ∀ clocked, c ≠ .transactionCutShort clocked) (high : s.rstnLow = false) : (after c s).Answered := by
  cases c with
  | status => exact whenListening_answered high (answerData_answered _ _)
  | claim n places level mode wait gain duration port => exact claimCommand_answered high _
  | claimPreset number => exact presetCommand_answered high _
  | endClaim slot generation => exact endCommand_answered high _ _
  | claimStatus slot => exact claimStatusCommand_answered high _
  | zoneStatus zone => exact zoneStatusCommand_answered high zone
  | setFloor zone floor => exact setFloorCommand_answered high zone floor
  | setTrim zone trim => exact setTrimCommand_answered high zone trim
  | clearZone zone => exact onOwnZone_answered high (answerCode_answered _ _)
  | meter zone => exact meterCommand_answered high zone
  | notice => exact noticeCommand_answered high
  | setMask m0 m1 m2 m3 => exact setMaskCommand_answered high _
  | peers => exact whenMember_answered high (answerData_answered _ s)
  | reset => exact whenListening_answered high (answerCode_answered _ _)
  | badCommand command => exact whenListening_answered high (answerCode_answered _ s)
  | transactionCutShort clocked => exact absurd rfl (whole clocked)
  | _ => cases spelled

theorem incompleteTransaction_short {clocked : List Byte} (cut : incompleteTransaction clocked = true) :
    clocked.length < bytesBeforeResponse clocked := by
  cases clocked with
  | nil => exact Nat.zero_lt_one
  | cons command rest =>
    cases known : argumentCount command with
    | none =>
      simp only [incompleteTransaction, known] at cut
      cases cut
    | some n =>
      simp only [incompleteTransaction, known, decide_eq_true_eq] at cut
      rw [bytesBeforeResponse_known rest known, List.length_cons]
      omega

theorem transaction_keeps_rstnLow {c : Instr} {bytes : List Byte} (spelled : transactionBytes c = some bytes) (s : State) :
    (after c s).rstnLow = s.rstnLow := by
  refine after_rstnLow (fun reset => ?_) (fun begins => ?_) s
  · rw [reset] at spelled
    cases spelled
  · rw [begins] at spelled
    cases spelled

theorem sdoCarriesTheResponse : Clause.SdoCarriesTheResponse := by
  intro c bytes extra s wf spelled
  have pin := transaction_keeps_rstnLow spelled s
  refine ⟨after c s, exec_eq_after c s, fun i => rfl, fun low i => State.sdo_reset _ _ i (pin.trans low),
    fun high whole => ?_, fun high cut i inside => ?_⟩
  · have driven := fun i => State.sdo_driven (after c s) (bytes ++ extra) i (pin.trans high)
    obtain ⟨command, args, bytes_eq⟩ := transactionBytes_spelled wf spelled whole
    have before := bytesBeforeResponse_append bytes_eq extra
    refine ⟨fun i within => ?_, fun i => ?_, after_answered spelled whole high⟩
    · rw [driven, drivenByte_before (by omega)]
    · rw [driven, ← before, drivenByte_response]
  · obtain ⟨clocked, rfl⟩ := cut
    cases spelled
    have short := incompleteTransaction_short (clocked := bytes) wf
    rw [State.sdo_driven _ _ _ (pin.trans high), drivenByte_before (by omega)]

/-- Settles O55. -/
theorem transactionRoundTrip : Obligations.TransactionRoundTrip := ⟨transactionsAreReadBack, sdoCarriesTheResponse⟩

end Sys2Proof.Machine
end


section
/-! SUPPORT. The verdict on a claim (R59 to R62) and the checks of an issue (R89), test by test. -/

namespace Sys2Proof.Machine

/-! Verdicts -/

theorem ZoneRecord.verdict_of_role {r : ZoneRecord} {t : Terms} (role : t.tag ∈ r.tags) : r.verdict t = .busy :=
  if_pos ((r.hasRole_iff t.tag).mpr role)

theorem ZoneRecord.passes_of_le {r : ZoneRecord} {level : Nat} (above : r.floor ≤ level) : r.passes level = false :=
  decide_eq_false (Nat.not_lt.mpr above)

theorem ZoneRecord.verdict_of_floor {r : ZoneRecord} {t : Terms} (new : t.tag ∉ r.tags) (above : r.floor ≤ t.level) :
    r.verdict t = .floor := by
  have noRole : ¬ r.hasRole t.tag = true := fun role => new ((r.hasRole_iff t.tag).mp role)
  rw [ZoneRecord.verdict, if_neg noRole, ZoneRecord.passes_of_le above]
  rfl

theorem tagPresentAndFloorRefuse : Clause.TagPresentAndFloorRefuse := by
  intro z t r s
  constructor
  · intro role
    have busy := ZoneRecord.verdict_of_role role
    rw [answer_of_ne_held z s (by simp [busy]), busy]
  · intro new above
    have floor := ZoneRecord.verdict_of_floor new above
    rw [answer_of_ne_held z s (by simp [floor]), floor]

theorem ZoneRecord.outranked_iff (r : ZoneRecord) (level : Nat) :
    r.outranked level = true ↔ ∀ a, r.activeLevel = some a → level < a := by
  unfold ZoneRecord.outranked
  cases r.activeLevel with
  | none => simp
  | some a => simp

theorem ZoneRecord.bid_of_reservation {r : ZoneRecord} {v : Reservation} (reserved : r.reservation = some v) (level : Nat) :
    r.bid level = if level < v.level ∧ ∀ a, r.activeLevel = some a → level < a then .held else .busy := by
  simp only [ZoneRecord.bid, reserved, ZoneRecord.outranked_iff]

theorem ZoneRecord.bid_of_idle {r : ZoneRecord} (free : r.reservation = none) (idle : r.activeLevel = none) (level : Nat) :
    r.bid level = .held := by
  simp only [ZoneRecord.bid, free, idle]

theorem ZoneRecord.bid_of_active {r : ZoneRecord} {a : Nat} (free : r.reservation = none) (active : r.activeLevel = some a)
    (level : Nat) :
    r.bid level = if level < a then .held else if level = a then
      if r.policy = .stack then .busy else if r.active.length < 4 then .held else .full
    else .lower := by
  simp only [ZoneRecord.bid, free, active]
  cases r.policy <;> rfl

theorem verdictOfALevel : Clause.VerdictOfALevel := by
  intro t r new passes written
  have verdict := ZoneRecord.verdict_of_passes new passes
  have held : r.bid t.level = .held → r.verdict t = .held := fun bid => by rw [verdict, bid]; rfl
  have refused : ∀ v, (v = .busy ∨ v = .full ∨ v = .lower) → r.bid t.level = v → r.verdict t = written v :=
    fun v refusal bid => by rw [verdict, bid, r.converted_of_refusal t.mode t.wait refusal]
  refine ⟨fun v reserved => ⟨fun wins => ?_, fun loses => ?_⟩, fun free => ⟨fun idle => ?_, fun a active => ?_⟩⟩
  · exact held ((ZoneRecord.bid_of_reservation reserved _).trans (if_pos wins))
  · exact refused .busy (.inl rfl) ((ZoneRecord.bid_of_reservation reserved _).trans (if_neg loses))
  · exact held (ZoneRecord.bid_of_idle free idle _)
  · have bid := ZoneRecord.bid_of_active free active t.level
    refine ⟨fun above => held (bid.trans (if_pos above)), fun below => refused .lower (.inr (.inr rfl)) ?_,
      fun same stack => refused .busy (.inl rfl) ?_, fun same mix room => held ?_,
      fun same mix full => refused .full (.inr (.inl rfl)) ?_⟩
    · exact bid.trans ((if_neg (Nat.not_lt.mpr (Nat.le_of_lt below))).trans (if_neg (Nat.ne_of_gt below)))
    · refine bid.trans ((if_neg (by omega)).trans ((if_pos same).trans (if_pos stack)))
    · refine bid.trans ((if_neg (by omega)).trans ((if_pos same).trans ((if_neg ?_).trans (if_pos room))))
      simp [mix]
    · refine bid.trans ((if_neg (by omega)).trans ((if_pos same).trans ((if_neg ?_).trans (if_neg (Nat.not_lt.mpr full)))))
      simp [mix]

/-- Settles O21. -/
theorem verdictTable : Obligations.VerdictTable := ⟨tagPresentAndFloorRefuse, verdictOfALevel⟩

/-! Issues -/

/-- The ranges of an issue request's arguments (R89). -/
def descInRange (d : ClaimDesc) : Prop :=
  1 ≤ d.zones.length ∧ d.zones.length ≤ 8 ∧ (∀ z ∈ d.zones, 1 ≤ z ∧ z ≤ 240) ∧ d.zones.Nodup ∧
    d.level ≤ 7 ∧ d.gain ≤ 32767 ∧ d.duration ≤ 6000 ∧ d.port ≤ 3

theorem descValid_iff (d : ClaimDesc) : descValid d = true ↔ descInRange d := by
  simp only [descValid, Bool.and_eq_true, decide_eq_true_eq, List.all_eq_true, and_assoc]
  exact Iff.rfl

theorem classOf_eq_ofRing_iff (s : State) (d : ClaimDesc) : s.classOf d = .ofRing ↔ ∃ z ∈ d.zones, s.owns z = false := by
  simp [State.classOf]

theorem classOf_eq_ofWindow_iff (s : State) (d : ClaimDesc) : s.classOf d = .ofWindow ↔ ∀ z ∈ d.zones, s.owns z = true := by
  simp [State.classOf]

theorem freeSlotNumber_eq_none_iff (s : State) : s.freeSlotNumber = none ↔ ¬∃ k ∈ s.cu, k.state = .free := by
  simp [State.freeSlotNumber]

theorem issue_of_invalid {issuer : Issuer} {d : ClaimDesc} {s : State} (invalid : descValid d = false) :
    issue issuer d s = (.refused .badArgs, s) := if_pos (by simp [invalid])

theorem issue_of_state {issuer : Issuer} {d : ClaimDesc} {s : State} {code : ResultCode} (valid : descValid d = true)
    (state : stateRefusal s.ringState (s.classOf d) = some code) : issue issuer d s = (.refused code, s) := by
  rw [issue, if_neg (by simp [valid])]
  simp only [state]

theorem issue_of_no_slot {issuer : Issuer} {d : ClaimDesc} {s : State} (valid : descValid d = true)
    (state : stateRefusal s.ringState (s.classOf d) = none) (none_free : s.freeSlotNumber = none) :
    issue issuer d s = (.refused .noSlot, s) := by
  rw [issue, if_neg (by simp [valid])]
  simp only [state, none_free]

theorem issue_of_slot {issuer : Issuer} {d : ClaimDesc} {s : State} {n : Nat} {k : Slot} (valid : descValid d = true)
    (state : stateRefusal s.ringState (s.classOf d) = none) (free : s.freeSlotNumber = some n) (at_n : s.slot n = some k) :
    issue issuer d s =
      if s.classOf d = .ofRing ∧ 16 ≤ s.rp.control.length then (.refused .queueFull, s)
      else (.accepted n ((k.generation + 1) % 16), runIssue n k (issueInfo issuer (s.classOf d) d) s) := by
  rw [issue, if_neg (by simp [valid])]
  simp only [state, free, at_n]
  rfl

/-- The ring states that permit a claim (R89). -/
theorem stateRefusal_eq_none {s : State} {d : ClaimDesc} (member : s.isMember = true)
    (up : s.classOf d = .ofRing → s.ringState = .up) : stateRefusal s.ringState (s.classOf d) = none := by
  unfold State.isMember at member
  cases cls : s.classOf d with
  | ofRing => rw [up cls]; rfl
  | ofWindow =>
    cases ring : s.ringState with
    | loading | passive =>
      rw [ring] at member
      cases member
    | joining | up | broken => rfl

theorem freeSlot_exists {s : State} (free : ∃ k ∈ s.cu, k.state = .free) :
    ∃ n k, s.freeSlotNumber = some n ∧ s.slot n = some k := by
  cases none_free : s.freeSlotNumber with
  | none => exact absurd free ((freeSlotNumber_eq_none_iff s).mp none_free)
  | some n =>
    obtain ⟨k, at_n, -⟩ := findIdx_free none_free
    exact ⟨n, k, rfl, at_n⟩

/-- Settles O32. -/
theorem issueChecksInOrder : Obligations.IssueChecksInOrder := by
  intro issuer d s valid ofRing free
  have desc : valid → descValid d = true := (descValid_iff d).mpr
  have ring : ofRing → s.classOf d = .ofRing := (classOf_eq_ofRing_iff s d).mpr
  refine ⟨fun invalid => ?_, fun ok loading => ?_, fun ok passive => ?_, fun ok joining foreign => ?_,
    fun ok broken foreign => ?_, fun ok member up => ?_⟩
  · exact issue_of_invalid (Bool.eq_false_iff.mpr fun ok => invalid ((descValid_iff d).mp ok))
  · exact issue_of_state (desc ok) (by rw [loading]; cases s.classOf d <;> rfl)
  · exact issue_of_state (desc ok) (by rw [passive]; cases s.classOf d <;> rfl)
  · exact issue_of_state (desc ok) (by rw [joining, ring foreign]; rfl)
  · exact issue_of_state (desc ok) (by rw [broken, ring foreign]; rfl)
  · have permits : stateRefusal s.ringState (s.classOf d) = none :=
      stateRefusal_eq_none member fun cls => up ((classOf_eq_ofRing_iff s d).mp cls)
    refine ⟨fun none_free => issue_of_no_slot (desc ok) permits ((freeSlotNumber_eq_none_iff s).mpr none_free),
      fun some_free foreign full => ?_, fun some_free room => ?_⟩
    · obtain ⟨n, k, number, at_n⟩ := freeSlot_exists some_free
      exact (issue_of_slot (desc ok) permits number at_n).trans (if_pos ⟨ring foreign, full⟩)
    · obtain ⟨n, k, number, at_n⟩ := freeSlot_exists some_free
      refine ⟨n, _, _, (issue_of_slot (desc ok) permits number at_n).trans (if_neg fun refused => ?_)⟩
      exact Nat.not_le.mpr (room ((classOf_eq_ofRing_iff s d).mp refused.1)) refused.2

end Sys2Proof.Machine
end


section
/-! SUPPORT. The entry to JOINING (R37), at the end of a load (R186) and at a soft reset in the ring states (R50, R188), and the
soft reset of a repeater (R51). -/

namespace Sys2Proof.Machine

/-- The first PRESENCE of a station that enters JOINING (R37, R38). -/
def joiningFrame (s : State) : Frame :=
  frameOf s.address 0 (.presence (byteOf ((s.pu.sequence + 1) % 256)) 1 (byteOf s.windowFirst) (byteOf s.windowLast))

/-- Entry to JOINING with no PRESENCE outstanding and room for one (R37, R38). -/
theorem enterJoining_of_room {s : State} (empty : s.pu.outstanding = none) (room : s.rp.controlRoom = true) :
    enterJoining s = { s with
      rp := s.rp.storeControl (joiningFrame s)
      pu := { s.pu with
        ringState := .joining
        sequence := (s.pu.sequence + 1) % 256
        recent := recordRecent s.pu.recent ((s.pu.sequence + 1) % 256)
        outstanding := some { sequence := (s.pu.sequence + 1) % 256, phase := .queued }
        period := some s.presencePeriod } } := by
  have sends := storePresence_of_room (s := { s with pu := { s.pu with ringState := .joining } }) room
  have stored : s.rp.storeControl (joiningFrame s) =
      ({ s.rp with control := s.rp.control ++ [joiningFrame s] } : RingPort).arbitrate := if_pos room
  rw [enterJoining, sendPresence_of_none (s := { s with pu := { s.pu with ringState := .joining } }) empty, sends, stored]
  rfl

theorem controlRoom_of_empty {p : RingPort} (empty : p.control = []) (unmarked : p.placeSetAside = false) :
    p.controlRoom = true := by
  simp [RingPort.controlRoom_eq unmarked, empty]

theorem sampledKeys_at {s : State} {n : Nat} (key : n < 4) :
    s.sampledKeys[n]? = some { debounced := some (if s.keyClosed n then .pressed else .released), timer := none,
                               remembered := none } := by
  rw [State.sampledKeys, List.getElem?_map, List.getElem?_range key]
  rfl

/-- Settles O5. -/
theorem loadSuccessTakesEveryValue : Obligations.LoadSuccessTakesEveryValue := by
  intro memory c s bounded coherent shaped reading high taken
  have repeating := coherent.repeating (coherent.not_member_of_reading reading)
  have joins := enterJoining_of_room
    (s := sampleKeys (takeZones c { s with config := some c, cl := { loadState := .done, faultCode := none } }))
    repeating.presence.1 (controlRoom_of_empty repeating.queues.1 bounded.port.mark)
  refine ⟨_, congrArg Host.Outcome.next ((endLoad_of_ok reading high taken).trans joins), rfl, rfl, rfl, rfl, rfl, rfl,
    fun n key => sampledKeys_at key, rfl, rfl, rfl, rfl, rfl, rfl⟩

/-! The soft reset -/

theorem resetCommand_of_high {s : State} (high : s.rstnLow = false) :
    resetCommand s = answerCode .ok (softReset s) := whenListening_of_high high

theorem softReset_of_member {s : State} {c : Configuration} (member : s.isMember = true) (config : s.config = some c) :
    softReset s = memberReset c s := by
  rw [softReset, if_pos member, config]

theorem softReset_of_repeater {s : State} (outside : s.isMember = false) : softReset s = repeaterReset s :=
  if_neg (by simp [outside])

/-- What the control queue and the line hold after a soft reset in the ring states (R34). -/
theorem softReset_storeControl (p : RingPort) (f : Frame) :
    p.softReset.storeControl f = ({ p with
      control := [f]
      audio := []
      placeSetAside := false
      out := p.out.map fun o => { o with reported := false } } : RingPort).arbitrate := rfl

theorem softResetInRingStates : Clause.SoftResetInRingStates := by
  intro c s high member config
  have address : (clearedState c s).address = c.station.address := by
    change s.address = _
    rw [State.address, config]
  have first : (clearedState c s).windowFirst = c.first := by
    change s.windowFirst = _
    rw [State.windowFirst, config]
  have last : (clearedState c s).windowLast = c.last := by
    change s.windowLast = _
    rw [State.windowLast, config]
  have period : (clearedState c s).presencePeriod = c.station.presencePeriod := by
    change s.presencePeriod = _
    rw [State.presencePeriod, config]
  have joins := enterJoining_of_room (s := clearedState c s) rfl rfl
  rw [joiningFrame, address, first, last, period] at joins
  have resets : resetCommand s = answerCode .ok (enterJoining (clearedState c s)) := by
    rw [resetCommand_of_high high, softReset_of_member member config]
    rfl
  refine ⟨_, congrArg Host.Outcome.next (resets.trans (congrArg _ joins)), config, rfl, rfl, rfl, rfl, rfl, rfl, rfl, rfl, rfl,
    softReset_storeControl _ _, fun n key => sampledKeys_at key⟩

theorem softResetRestartsLoading : Clause.SoftResetRestartsLoading := by
  intro s high outside
  have resets : resetCommand s = answerCode .ok (repeaterReset s) := by
    rw [resetCommand_of_high high, softReset_of_repeater outside]
  exact ⟨_, congrArg Host.Outcome.next resets, rfl, rfl, rfl⟩

/-- Settles O9. -/
theorem softResetInEveryState : Obligations.SoftResetInEveryState := ⟨softResetInRingStates, softResetRestartsLoading⟩

end Sys2Proof.Machine
end


section
/-! SUPPORT. The configuration image: the order of its checks, the walk of its chain, and the bytes beyond it (R179 to R185). -/

namespace Sys2Proof.Machine

/-! The checks before the chain -/

theorem byteAt_eq_iff {bytes : List Byte} {i : Nat} (inside : i < bytes.length) (b : Byte) :
    byteAt bytes i = b.toNat ↔ bytes[i]? = some b := by
  rw [byteAt, List.getD_eq_getElem?_getD, List.getElem?_eq_getElem inside, Option.getD_some, Option.some_inj,
    BitVec.toNat_inj]

theorem loadImage_of_unread {memory : List Byte} {code : FaultCode} (unread : readImage memory = .error code) :
    loadImage memory = .error code := by
  rw [loadImage, unread]

section Read
variable {memory image : List Byte}

theorem loadImage_of_no_chain {code : FaultCode} (read : readImage memory = .ok image)
    (failed : walkChain image = .error code) : loadImage memory = .error code := by
  simp only [loadImage, read, failed]

theorem loadImage_of_no_station {blocks : Blocks} (read : readImage memory = .ok image) (walked : walkChain image = .ok blocks)
    (absent : blocks.station = none) : loadImage memory = .error .noStation := by
  simp only [loadImage, read, walked, absent]

theorem loadImage_of_bad_field {blocks : Blocks} {body : List Byte} (read : readImage memory = .ok image)
    (walked : walkChain image = .ok blocks) (station : blocks.station = some body) (wrong : contentsOf body blocks = none) :
    loadImage memory = .error .badField := by
  simp only [loadImage, read, walked, station, wrong]

theorem loadImage_of_contents {blocks : Blocks} {body : List Byte} {c : Configuration} (read : readImage memory = .ok image)
    (walked : walkChain image = .ok blocks) (station : blocks.station = some body) (right : contentsOf body blocks = some c) :
    loadImage memory = .ok c := by
  simp only [loadImage, read, walked, station, right]

end Read

theorem readImage_of_length {memory : List Byte} (long : 8 ≤ memory.length) :
    readImage memory =
      if byteAt memory 0 ≠ 0xD7 ∨ byteAt memory 1 ≠ 0x4C then .error .badImage
      else if wordAt memory 2 < 8 ∨ 2048 < wordAt memory 2 then .error .badImage
      else if memory.length < wordAt memory 2 then .error .noMemory
      else if imageSum (memory.take (wordAt memory 2)) ≠ wordAt (memory.take (wordAt memory 2)) 6 then .error .badSum
      else .ok (memory.take (wordAt memory 2)) := if_neg (Nat.not_lt.mpr long)

theorem readImage_of_magic {memory : List Byte} (long : 8 ≤ memory.length) (first : memory[0]? = some 0xD7)
    (second : memory[1]? = some 0x4C) :
    readImage memory =
      if wordAt memory 2 < 8 ∨ 2048 < wordAt memory 2 then .error .badImage
      else if memory.length < wordAt memory 2 then .error .noMemory
      else if imageSum (memory.take (wordAt memory 2)) ≠ wordAt (memory.take (wordAt memory 2)) 6 then .error .badSum
      else .ok (memory.take (wordAt memory 2)) := by
  refine (readImage_of_length long).trans (if_neg ?_)
  rw [not_or, Decidable.not_not, Decidable.not_not]
  exact ⟨(byteAt_eq_iff (by omega) 0xD7).mpr first, (byteAt_eq_iff (by omega) 0x4C).mpr second⟩

theorem walkFrom_error {image : List Byte} : ∀ {left offset : Nat} {visited : List Extent} {blocks : Blocks} {code : FaultCode},
    walkFrom image left offset visited blocks = .error code → code = .badChain
  | 0, _, _, _, _, failed => by cases failed; rfl
  | left + 1, offset, visited, blocks, code, failed => by
    rw [walkFrom] at failed
    split at failed
    · cases failed
      rfl
    · split at failed
      · cases failed
        rfl
      · dsimp only at failed
        split at failed
        · cases failed
        · exact walkFrom_error failed

theorem walkChain_error {image : List Byte} {code : FaultCode} (failed : walkChain image = .error code) :
    code = .badChain := by
  unfold walkChain at failed
  split at failed
  · cases failed
  · exact walkFrom_error failed

theorem imageChecksInOrder : Clause.ImageChecksInOrder := by
  intro memory
  refine ⟨fun short => loadImage_of_unread (if_pos short), fun long => ⟨fun wrong => ?_, fun first second => ?_⟩⟩
  · refine loadImage_of_unread ((readImage_of_length long).trans (if_pos ?_))
    refine Classical.byContradiction fun both => ?_
    rw [not_or, Decidable.not_not, Decidable.not_not] at both
    exact wrong ⟨(byteAt_eq_iff (by omega) 0xD7).mp both.1, (byteAt_eq_iff (by omega) 0x4C).mp both.2⟩
  · have read := readImage_of_magic long first second
    refine ⟨fun range => loadImage_of_unread (read.trans (if_pos range)), fun low high short => ?_,
      fun low high whole => ⟨fun differs => ?_, fun agrees => ?_⟩⟩
    · exact loadImage_of_unread (read.trans ((if_neg (by omega)).trans (if_pos short)))
    · exact loadImage_of_unread (read.trans ((if_neg (by omega)).trans ((if_neg (by omega)).trans (if_pos differs))))
    · have image := read.trans ((if_neg (by omega)).trans ((if_neg (by omega)).trans (if_neg (Decidable.not_not.mpr agrees))))
      exact ⟨fun code failed => ⟨loadImage_of_no_chain image failed, walkChain_error failed⟩, fun blocks walked =>
        ⟨loadImage_of_no_station image walked, fun body => loadImage_of_bad_field image walked,
          fun body c => loadImage_of_contents image walked⟩⟩

/-! The chain -/

/-- A block's bytes as the walk keeps them. -/
def extentAt (image : List Byte) (o : Nat) : Extent := { first := o, next := o + 5 + wordAt image (o + 1) }

/-- Two blocks share no byte. -/
def Apart (image : List Byte) (o p : Nat) : Prop :=
  o + 5 + wordAt image (o + 1) ≤ p ∨ p + 5 + wordAt image (p + 1) ≤ o

theorem extentAt_overlaps (image : List Byte) (o p : Nat) :
    (extentAt image o).overlaps (extentAt image p) = false ↔ Apart image p o := by
  unfold Extent.overlaps Apart extentAt
  rw [Bool.and_eq_false_iff, decide_eq_false_iff_not, decide_eq_false_iff_not, Nat.not_lt, Nat.not_lt]

/-- A block whose type is one of the four known comes after none of its type (R181). -/
def NewType (image : List Byte) (p o : Nat) : Prop := byteAt image o ∈ [1, 2, 3, 4] → byteAt image p ≠ byteAt image o

/-- The body of the first block of a type. -/
def found (image : List Byte) (type : Nat) (offsets : List Nat) : Option (List Byte) :=
  (offsets.find? fun o => byteAt image o == type).map (Clause.bodyAt image)

/-- The bodies recorded of the blocks at these offsets. -/
def recordedOf (image : List Byte) (offsets : List Nat) : Blocks :=
  { station := found image 1 offsets, zones := found image 2 offsets, presets := found image 3 offsets,
    keys := found image 4 offsets }

theorem found_isSome_iff (image : List Byte) (type : Nat) (offsets : List Nat) :
    (found image type offsets).isSome = true ↔ ∃ p ∈ offsets, byteAt image p = type := by
  simp [found]

theorem found_append_other {image : List Byte} {type o : Nat} (other : byteAt image o ≠ type) (offsets : List Nat) :
    found image type (offsets ++ [o]) = found image type offsets := by
  rw [found, found, List.find?_append, List.find?_cons_of_neg (by simpa using other), List.find?_nil, Option.or_none]

theorem found_append_new {image : List Byte} {type o : Nat} (is : byteAt image o = type) {offsets : List Nat}
    (new : ∀ p ∈ offsets, byteAt image p ≠ type) : found image type (offsets ++ [o]) = some (Clause.bodyAt image o) := by
  have none_before : offsets.find? (fun p => byteAt image p == type) = none :=
    List.find?_eq_none.mpr fun p mem => by simpa using new p mem
  rw [found, List.find?_append, none_before, List.find?_cons_of_pos (by simpa using is)]
  rfl

theorem record_of_unknown {type : Nat} (unknown : type ∉ [1, 2, 3, 4]) (body : List Byte) (b : Blocks) :
    b.record type body = some b := by
  simp only [List.mem_cons, List.not_mem_nil, or_false, not_or] at unknown
  obtain ⟨one, two, three, four⟩ := unknown
  unfold Blocks.record
  split
  · exact absurd rfl one
  · exact absurd rfl two
  · exact absurd rfl three
  · exact absurd rfl four
  · rfl

/-- A second block of a known type is not recorded (R181). -/
theorem record_of_seen {image : List Byte} {pre : List Nat} {o : Nat} (known : byteAt image o ∈ [1, 2, 3, 4])
    (seen : ∃ p ∈ pre, byteAt image p = byteAt image o) (body : List Byte) :
    (recordedOf image pre).record (byteAt image o) body = none := by
  have before := (found_isSome_iff image _ pre).mpr seen
  simp only [List.mem_cons, List.not_mem_nil, or_false] at known
  rcases known with type | type | type | type
  all_goals
    rw [type] at before ⊢
    exact if_pos before

/-- The first block of a known type is recorded (R181). -/
theorem record_of_unseen {image : List Byte} {pre : List Nat} {o : Nat} (known : byteAt image o ∈ [1, 2, 3, 4])
    (unseen : ∀ p ∈ pre, byteAt image p ≠ byteAt image o) :
    (recordedOf image pre).record (byteAt image o) (Clause.bodyAt image o) = some (recordedOf image (pre ++ [o])) := by
  have before : ¬(found image (byteAt image o) pre).isSome = true := fun seen => by
    obtain ⟨p, mem, same⟩ := (found_isSome_iff image _ pre).mp seen
    exact unseen p mem same
  have recorded := found_append_new (image := image) rfl unseen
  have others := fun type ne => found_append_other (image := image) (type := type) (o := o) ne pre
  simp only [List.mem_cons, List.not_mem_nil, or_false] at known
  rcases known with type | type | type | type
  all_goals
    rw [type] at before recorded others ⊢
    refine (if_neg before).trans (congrArg some ?_)
    simp [recordedOf, recorded, others]

/-- A block is recorded beside those before it where its type is new among them (R181). -/
theorem record_recordedOf_of_new {image : List Byte} {pre : List Nat} {o : Nat} (new : ∀ p ∈ pre, NewType image p o) :
    (recordedOf image pre).record (byteAt image o) (Clause.bodyAt image o) = some (recordedOf image (pre ++ [o])) := by
  by_cases known : byteAt image o ∈ [1, 2, 3, 4]
  · exact record_of_unseen known fun p mem => new p mem known
  · rw [record_of_unknown known]
    simp only [List.mem_cons, List.not_mem_nil, or_false, not_or] at known
    obtain ⟨one, two, three, four⟩ := known
    simp only [recordedOf, found_append_other one, found_append_other two, found_append_other three, found_append_other four]

theorem record_recordedOf_of_not_new {image : List Byte} {pre : List Nat} {o : Nat} (second : ¬∀ p ∈ pre, NewType image p o) :
    (recordedOf image pre).record (byteAt image o) (Clause.bodyAt image o) = none := by
  obtain ⟨p, second⟩ := Classical.not_forall.mp second
  obtain ⟨mem, seen⟩ := Classical.not_imp.mp second
  obtain ⟨known, same⟩ := Classical.not_imp.mp seen
  exact record_of_seen known ⟨p, mem, Decidable.not_not.mp same⟩ _

/-- The block at an offset fits behind the blocks visited before it: behind the header, within the image, apart from them and
of a type that is new among them, where it is a known one (R181). -/
structure Fits (image : List Byte) (pre : List Nat) (o : Nat) : Prop where
  behind : 8 ≤ o
  within : o + 5 + wordAt image (o + 1) ≤ image.length
  apart : ∀ p ∈ pre, Apart image p o
  new : ∀ p ∈ pre, NewType image p o

/-- The walk's own record of the blocks visited. -/
def visitedOf (image : List Byte) (pre : List Nat) : List Extent := (pre.map (extentAt image)).reverse

theorem visitedOf_append (image : List Byte) (pre : List Nat) (o : Nat) :
    extentAt image o :: visitedOf image pre = visitedOf image (pre ++ [o]) := by
  simp [visitedOf]

theorem visitedOf_overlaps (image : List Byte) (pre : List Nat) (o : Nat) :
    (visitedOf image pre).any (extentAt image o).overlaps = true ↔ ¬∀ p ∈ pre, Apart image p o := by
  rw [visitedOf, List.any_reverse, List.any_map, ← Bool.not_eq_false, List.any_eq_false]
  simp only [Function.comp, Bool.not_eq_true, extentAt_overlaps]

theorem walkFrom_of_fits {image : List Byte} {pre : List Nat} {left o : Nat} (fits : Fits image pre o) :
    walkFrom image (left + 1) o (visitedOf image pre) (recordedOf image pre) =
      if wordAt image (o + 3) = 0 then .ok (recordedOf image (pre ++ [o]))
      else walkFrom image left (wordAt image (o + 3)) (visitedOf image (pre ++ [o])) (recordedOf image (pre ++ [o])) := by
  obtain ⟨behind, within, apart, new⟩ := fits
  have no_overlap := fun overlaps => (visitedOf_overlaps image pre o).mp overlaps apart
  have recorded := record_recordedOf_of_new new
  rw [walkFrom, ← visitedOf_append]
  refine (if_neg ?_).trans ?_
  · rintro (low | short | short | overlaps)
    · omega
    · omega
    · exact absurd within (Nat.not_le.mpr short)
    · exact no_overlap overlaps
  · change (match (recordedOf image pre).record (byteAt image o) (Clause.bodyAt image o) with
      | none => Except.error FaultCode.badChain
      | some blocks' => _) = _
    rw [recorded]
    rfl

theorem walkFrom_of_not_fits {image : List Byte} {pre : List Nat} {o : Nat} (misfits : ¬Fits image pre o) (left : Nat) :
    walkFrom image left o (visitedOf image pre) (recordedOf image pre) = .error .badChain := by
  cases left with
  | zero => rfl
  | succ left =>
    rw [walkFrom]
    by_cases outside : o < 8 ∨ image.length < o + 5 ∨ image.length < (extentAt image o).next ∨
        (visitedOf image pre).any (extentAt image o).overlaps = true
    · exact if_pos outside
    · refine (if_neg outside).trans ?_
      simp only [not_or, visitedOf_overlaps, Classical.not_not] at outside
      obtain ⟨low, -, within, apart⟩ := outside
      have second : ¬∀ p ∈ pre, NewType image p o := fun new =>
        misfits ⟨Nat.not_lt.mp low, Nat.not_lt.mp within, apart, new⟩
      change (match (recordedOf image pre).record (byteAt image o) (Clause.bodyAt image o) with
        | none => Except.error FaultCode.badChain
        | some blocks' => _) = _
      rw [record_recordedOf_of_not_new second]

/-- The rest of a chain from an offset: `left` is how many blocks may still be visited, `pre` the offsets visited (R181). -/
inductive Walk (image : List Byte) : List Nat → Nat → Nat → List Nat → Prop where
  | last {pre left o} : Fits image pre o → wordAt image (o + 3) = 0 → Walk image pre (left + 1) o [o]
  | more {pre left o rest} : Fits image pre o → wordAt image (o + 3) ≠ 0 →
      Walk image (pre ++ [o]) left (wordAt image (o + 3)) rest → Walk image pre (left + 1) o (o :: rest)

theorem Walk.walkFrom {image : List Byte} {pre offsets : List Nat} {left o : Nat} (walk : Walk image pre left o offsets) :
    Machine.walkFrom image left o (visitedOf image pre) (recordedOf image pre) =
      .ok (recordedOf image (pre ++ offsets)) := by
  induction walk with
  | last fits ends => rw [walkFrom_of_fits fits, if_pos ends]
  | more fits goes _ ih => rw [walkFrom_of_fits fits, if_neg goes, ih, List.append_assoc]; rfl

theorem walk_or_badChain (image : List Byte) : ∀ (left : Nat) (pre : List Nat) (o : Nat),
    (∃ offsets, Walk image pre left o offsets) ∨
      walkFrom image left o (visitedOf image pre) (recordedOf image pre) = .error .badChain
  | 0, _, _ => .inr rfl
  | left + 1, pre, o => by
    by_cases fits : Fits image pre o
    · by_cases ends : wordAt image (o + 3) = 0
      · exact .inl ⟨[o], .last fits ends⟩
      · rcases walk_or_badChain image left (pre ++ [o]) (wordAt image (o + 3)) with ⟨rest, walk⟩ | failed
        · exact .inl ⟨o :: rest, .more fits ends walk⟩
        · exact .inr ((walkFrom_of_fits fits).trans ((if_neg ends).trans failed))
    · exact .inr (walkFrom_of_not_fits fits (left + 1))

/-- Where a block's next field leads (R181). -/
def linkOf (image : List Byte) (o : Nat) : Option Nat := if wordAt image (o + 3) = 0 then none else some (wordAt image (o + 3))

/-- What a rest of a chain is, apart from the walk. -/
structure Rest (image : List Byte) (pre : List Nat) (left o : Nat) (offsets : List Nat) : Prop where
  starts : offsets.head? = some o
  linked : ∀ (i p : Nat), offsets[i]? = some p → offsets[i + 1]? = linkOf image p
  places : ∀ p ∈ offsets, 8 ≤ p ∧ p + 5 + wordAt image (p + 1) ≤ image.length
  few : offsets.length ≤ left
  apart : pre.Pairwise (Apart image) → (pre ++ offsets).Pairwise (Apart image)
  new : pre.Pairwise (NewType image) → (pre ++ offsets).Pairwise (NewType image)

theorem Walk.rest {image : List Byte} {pre offsets : List Nat} {left o : Nat} (walk : Walk image pre left o offsets) :
    Rest image pre left o offsets := by
  have snoc : ∀ {R : Nat → Nat → Prop} {pre : List Nat} {o : Nat}, (∀ p ∈ pre, R p o) → pre.Pairwise R →
      (pre ++ [o]).Pairwise R := fun all before =>
    List.pairwise_append.mpr ⟨before, List.pairwise_singleton _ _, fun p mem q is => by
      rw [List.mem_singleton.mp is]
      exact all p mem⟩
  induction walk with
  | @last pre left o fits ends =>
    refine ⟨rfl, fun i p at_i => ?_, fun p mem => ?_, Nat.succ_le_succ (Nat.zero_le left), snoc fits.apart, snoc fits.new⟩
    · cases i with
      | zero =>
        cases at_i
        exact (if_pos ends).symm
      | succ i => cases at_i
    · rw [List.mem_singleton.mp mem]
      exact ⟨fits.behind, fits.within⟩
  | @more pre left o rest fits goes _ ih =>
    refine ⟨rfl, fun i p at_i => ?_, fun p mem => ?_, Nat.succ_le_succ ih.few, fun before => ?_, fun before => ?_⟩
    · cases i with
      | zero =>
        cases at_i
        rw [List.getElem?_cons_succ, ← List.head?_eq_getElem?, ih.starts]
        exact (if_neg goes).symm
      | succ i =>
        rw [List.getElem?_cons_succ] at at_i ⊢
        exact ih.linked i p at_i
    · rcases List.mem_cons.mp mem with rfl | mem
      · exact ⟨fits.behind, fits.within⟩
      · exact ih.places p mem
    · have all := ih.apart (snoc fits.apart before)
      rwa [List.append_assoc] at all
    · have all := ih.new (snoc fits.new before)
      rwa [List.append_assoc] at all

/-- A rest of a chain is walked. -/
theorem Rest.walk {image : List Byte} : ∀ {offsets pre : List Nat} {left o : Nat}, Rest image pre left o offsets →
    pre.Pairwise (Apart image) → pre.Pairwise (NewType image) → Walk image pre left o offsets
  | [], _, _, _, rest, _, _ => by cases rest.starts
  | q :: tail, pre, left, o, rest, apart, new => by
    cases rest.starts
    obtain ⟨left, rfl⟩ : ∃ n, left = n + 1 := ⟨left - 1, by have := rest.few; simp only [List.length_cons] at this; omega⟩
    have all_apart := rest.apart apart
    have all_new := rest.new new
    have fits : Fits image pre q :=
      ⟨(rest.places q List.mem_cons_self).1, (rest.places q List.mem_cons_self).2,
        fun p mem => (List.pairwise_append.mp all_apart).2.2 p mem q List.mem_cons_self,
        fun p mem => (List.pairwise_append.mp all_new).2.2 p mem q List.mem_cons_self⟩
    have next := rest.linked 0 q rfl
    rw [List.getElem?_cons_succ, ← List.head?_eq_getElem?] at next
    by_cases ends : wordAt image (q + 3) = 0
    · rw [linkOf, if_pos ends] at next
      rw [List.head?_eq_none_iff.mp next]
      exact .last fits ends
    · rw [linkOf, if_neg ends] at next
      refine .more fits ends (Rest.walk ⟨next, fun i p at_i => rest.linked (i + 1) p at_i, fun p mem =>
        rest.places p (List.mem_cons_of_mem q mem), Nat.le_of_succ_le_succ rest.few, fun _ => ?_, fun _ => ?_⟩ ?_ ?_)
      · rwa [List.append_assoc]
      · rwa [List.append_assoc]
      · rw [← List.singleton_append, ← List.append_assoc] at all_apart
        exact (List.pairwise_append.mp all_apart).1
      · rw [← List.singleton_append, ← List.append_assoc] at all_new
        exact (List.pairwise_append.mp all_new).1

/-- No known type comes twice exactly where each block's type is new among those before it. -/
theorem once_iff (image : List Byte) : ∀ offsets : List Nat,
    (∀ type ∈ [1, 2, 3, 4], (offsets.filter fun o => byteAt image o == type).length ≤ 1) ↔
      offsets.Pairwise (NewType image) := by
  intro offsets
  rw [List.pairwise_iff_forall_sublist]
  constructor
  · intro once p q two known same
    have kept := two.filter fun o => byteAt image o == byteAt image q
    have both : [p, q].filter (fun o => byteAt image o == byteAt image q) = [p, q] := by simp [same]
    rw [both] at kept
    exact absurd (Nat.le_trans kept.length_le (once _ known)) (Nat.not_succ_le_self 1)
  · intro new type known
    have within : (offsets.filter fun o => byteAt image o == type).Sublist offsets := List.filter_sublist
    have types : ∀ p ∈ offsets.filter fun o => byteAt image o == type, byteAt image p = type := fun p mem => by
      simpa using (List.mem_filter.mp mem).2
    match same : offsets.filter fun o => byteAt image o == type with
    | [] => exact Nat.zero_le _
    | [p] => exact Nat.le_refl _
    | p :: q :: rest =>
      rw [same] at within types
      have two : [p, q].Sublist offsets := ((List.nil_sublist rest).cons_cons q |>.cons_cons p).trans within
      have of_q : byteAt image q = type := types q (by simp)
      exact absurd ((types p (by simp)).trans of_q.symm) (new two (of_q ▸ known))

/-- A whole chain that is not empty is what the walk calls a rest of a chain. -/
theorem chain_iff_rest {image : List Byte} {offsets : List Nat} (starts : wordAt image 4 ≠ 0) :
    Clause.Chain image offsets ↔ Rest image [] 16 (wordAt image 4) offsets := by
  constructor
  · intro chain
    exact ⟨chain.starts.trans (if_neg starts), chain.linked, fun p mem => ⟨chain.behind p mem, chain.within p mem⟩,
      chain.sixteen, fun _ => chain.apart, fun _ => (once_iff image offsets).mp chain.once⟩
  · intro rest
    exact ⟨rest.starts.trans (if_neg starts).symm, rest.linked, fun p mem => (rest.places p mem).1,
      fun p mem => (rest.places p mem).2, rest.apart .nil, rest.few, (once_iff image offsets).mpr (rest.new .nil)⟩

theorem chainIsWalked : Clause.ChainIsWalked := by
  intro image
  by_cases starts : wordAt image 4 = 0
  · have walked : walkChain image = .ok (recordedOf image []) := if_pos starts
    have empty : Clause.Chain image [] :=
      { starts := (if_pos starts).symm
        linked := fun i o at_i => by simp at at_i
        behind := fun o mem => absurd mem List.not_mem_nil
        within := fun o mem => absurd mem List.not_mem_nil
        apart := List.Pairwise.nil
        sixteen := Nat.zero_le _
        once := fun _ _ => Nat.zero_le _ }
    refine ⟨fun offsets chain => ?_, fun no_chain => absurd ⟨[], empty⟩ no_chain⟩
    · have first := chain.starts
      rw [if_pos starts] at first
      rw [List.head?_eq_none_iff.mp first]
      exact walked
  · have walks : walkChain image = walkFrom image 16 (wordAt image 4) (visitedOf image []) (recordedOf image []) :=
      if_neg starts
    refine ⟨fun offsets chain => ?_, fun no_chain => ?_⟩
    · exact walks.trans (((chain_iff_rest starts).mp chain).walk .nil .nil).walkFrom
    · rcases walk_or_badChain image 16 [] (wordAt image 4) with ⟨offsets, walk⟩ | failed
      · exact absurd ⟨offsets, (chain_iff_rest starts).mpr walk.rest⟩ no_chain
      · exact walks.trans failed

/-! Bytes beyond the image -/

theorem getD_append_left {image : List Byte} {i : Nat} (inside : i < image.length) (extra : List Byte) :
    (image ++ extra).getD i 0 = image.getD i 0 := by
  simp [List.getD_eq_getElem?_getD, List.getElem?_append_left inside]

theorem readImage_append {image : List Byte} (whole : image.length = wordAt image 2) (long : 8 ≤ image.length)
    (extra : List Byte) : readImage (image ++ extra) = readImage image := by
  have longer : 8 ≤ (image ++ extra).length := by
    rw [List.length_append]
    omega
  have first : byteAt (image ++ extra) 0 = byteAt image 0 := congrArg _ (getD_append_left (by omega) extra)
  have second : byteAt (image ++ extra) 1 = byteAt image 1 := congrArg _ (getD_append_left (by omega) extra)
  have total : wordAt (image ++ extra) 2 = wordAt image 2 := by
    rw [wordAt, wordAt, getD_append_left (by omega), getD_append_left (by omega)]
  have enough : ¬(image ++ extra).length < wordAt image 2 := by
    rw [List.length_append]
    omega
  rw [readImage_of_length longer, readImage_of_length long, first, second, total, if_neg enough,
    if_neg (Nat.not_lt.mpr (Nat.le_of_eq whole.symm)), ← whole, List.take_left, List.take_length]

theorem bytesBeyondTheImageAreNotRead : Clause.BytesBeyondTheImageAreNotRead := by
  intro image extra whole long
  rw [loadImage, loadImage, readImage_append whole long]

/-- Settles O7. -/
theorem imageIsChecked : Obligations.ImageIsChecked :=
  ⟨imageChecksInOrder, chainIsWalked, bytesBeyondTheImageAreNotRead⟩

end Sys2Proof.Machine
end


section
/-! SUPPORT. What each pass of settling makes of its zone's record, that every pass brings the record nearer to rest, and that
settling comes to rest (R71 to R75). -/

namespace Sys2Proof.Machine

/-! The listen entries of other tags -/

theorem find?_map_other {t u : Tag} (other : u ≠ t) (f : ListenEntry → ListenEntry) (same : ∀ e, (f e).tag = e.tag)
    (l : List ListenEntry) :
    (l.map fun e => if e.tag = t then f e else e).find? (·.tag == u) = l.find? (·.tag == u) := by
  induction l with
  | nil => rfl
  | cons e l ih =>
    by_cases at_t : e.tag = t
    · simp [at_t, same, Ne.symm other, ih]
    · simp [List.find?_cons, at_t, ih]

theorem find?_filter_other {t u : Tag} (other : u ≠ t) (l : List ListenEntry) :
    (l.filter fun e => e.tag != t).find? (·.tag == u) = l.find? (·.tag == u) := by
  rw [List.find?_filter]
  refine congrArg (l.find? ·) (funext fun e => ?_)
  by_cases at_u : e.tag = u <;> simp [at_u, other]

theorem updateListen_listenEntry_ne {t u : Tag} (other : u ≠ t) {f : ListenEntry → ListenEntry}
    (same : ∀ e, (f e).tag = e.tag) (s : State) : (updateListen t f s).listenEntry u = s.listenEntry u :=
  find?_map_other other f same s.lu

theorem reportStanding_listenEntry_ne {t u : Tag} (other : u ≠ t) (s : State) :
    (reportStanding t s).listenEntry u = s.listenEntry u := by
  unfold reportStanding
  exact updateListen_listenEntry_ne other (by intro _; rfl) s

theorem releaseReference_listenEntry_ne {t u : Tag} (other : u ≠ t) (s : State) :
    (releaseReference t s).listenEntry u = s.listenEntry u := by
  unfold releaseReference
  split
  · rfl
  · split
    · exact find?_filter_other other s.lu
    · exact updateListen_listenEntry_ne other (by intro _; rfl) s

theorem releaseRole_listenEntry_ne {t u : Tag} (other : u ≠ t) (s : State) :
    (releaseRole t s).listenEntry u = s.listenEntry u :=
  (reportStanding_listenEntry_ne other _).trans (releaseReference_listenEntry_ne other s)

theorem listenEntry_of_lu {s t : State} (lu : t.lu = s.lu) (u : Tag) : t.listenEntry u = s.listenEntry u := by
  rw [State.listenEntry, lu, State.listenEntry]

theorem endRole_listenEntry_ne {t u : Tag} (other : u ≠ t) (z : Nat) (reason : Reason) (s : State) :
    (endRole z reason t s).listenEntry u = s.listenEntry u := by
  have released := releaseRole_listenEntry_ne other (updateZone z (·.without t) s)
  unfold endRole
  simp only
  split
  · exact (listenEntry_of_lu (notify_lu ..) u).trans released
  · exact (listenEntry_of_lu (post_lu ..) u).trans released

/-- What leaves a tag's entry for each item leaves it for all. -/
theorem forEach_listenEntry {α : Type} {act : α → State → State} {u : Tag} : ∀ (items : List α) (s : State),
    (∀ a ∈ items, ∀ s, (act a s).listenEntry u = s.listenEntry u) → (forEach items act s).listenEntry u = s.listenEntry u
  | [], _, _ => rfl
  | a :: rest, s, h =>
    (forEach_listenEntry rest (act a s) fun b mem => h b (List.mem_cons_of_mem a mem)).trans (h a List.mem_cons_self s)

theorem promotedMember_congr {s t : State} {w : Waiter} (same : t.listenEntry w.tag = s.listenEntry w.tag) :
    t.promotedMember w = s.promotedMember w := by
  unfold State.promotedMember
  rw [same]

/-- A waiter's member record is made of its listen entry, which a push of other tags leaves. -/
theorem pushActive_promotedMember {s : State} {z : Nat} {r : ZoneRecord} (at_z : s.zone z = some r) {w : Waiter}
    (inactive : w.tag ∉ r.activeTags) : (pushActive z s).promotedMember w = s.promotedMember w := by
  refine promotedMember_congr ?_
  unfold pushActive
  rw [at_z]
  refine (forEach_listenEntry r.active _ fun m mem s => ?_).trans rfl
  refine (listenEntry_of_lu (notify_lu ..) _).trans (reportStanding_listenEntry_ne (fun same => inactive ?_) s)
  exact List.mem_map.mpr ⟨m, mem, same.symm⟩

/-! The record pruned (R72) -/

/-- A group without the tags of a list. -/
def Group.withoutAll (ts : List Tag) (g : Group) : Group := { g with members := g.members.filter fun m => m.tag ∉ ts }

theorem Group.withoutAll_cons (t : Tag) (ts : List Tag) (g : Group) :
    (g.without t).withoutAll ts = g.withoutAll (t :: ts) := by
  simp only [Group.withoutAll, Group.without, List.filter_filter, List.mem_cons, not_or]
  congr 2
  funext m
  by_cases same : m.tag = t <;> simp [same]

theorem Group.withoutAll_self {ts : List Tag} {g : Group} (apart : ∀ m ∈ g.members, m.tag ∉ ts) : g.withoutAll ts = g := by
  have whole : g.members.filter (fun m => decide (m.tag ∉ ts)) = g.members :=
    List.filter_eq_self.mpr fun m mem => decide_eq_true (apart m mem)
  rw [Group.withoutAll, whole]

/-- Groups that tags are removed from in turn are those that all are removed from at once, the empty ones gone. -/
theorem stack_withoutAll_cons (t : Tag) (ts : List Tag) (stack : List Group) :
    (((stack.map (Group.without t)).filter fun g => !g.members.isEmpty).map (Group.withoutAll ts)).filter
        (fun g => !g.members.isEmpty) =
      (stack.map (Group.withoutAll (t :: ts))).filter fun g => !g.members.isEmpty := by
  induction stack with
  | nil => rfl
  | cons g rest ih =>
    have both := Group.withoutAll_cons t ts g
    simp only [List.map_cons]
    by_cases empty : (g.without t).members = []
    · have gone : (g.withoutAll (t :: ts)).members = [] := by rw [← both]; simp [Group.withoutAll, empty]
      rw [List.filter_cons_of_neg (by simp [empty]), List.filter_cons_of_neg (by simp [gone])]
      exact ih
    · rw [List.filter_cons_of_pos (by simp [empty]), List.map_cons, both, List.filter_cons, List.filter_cons, ih]

theorem ZoneRecord.withoutAll_stack (ts : List Tag) : ∀ {r : ZoneRecord}, (∀ g ∈ r.stack, g.members ≠ []) →
    (r.withoutAll ts).stack = (r.stack.map (Group.withoutAll ts)).filter fun g => !g.members.isEmpty := by
  induction ts with
  | nil =>
    intro r full
    have same : r.stack.map (Group.withoutAll []) = r.stack :=
      (List.map_congr_left fun g _ => Group.withoutAll_self fun _ _ => List.not_mem_nil).trans (List.map_id _)
    rw [same]
    exact (List.filter_eq_self.mpr fun g mem => by simp [full g mem]).symm
  | cons t ts ih =>
    intro r _
    have full : ∀ g ∈ (r.without t).stack, g.members ≠ [] := fun g mem => by
      simpa using (List.mem_filter.mp mem).2
    exact (ih full).trans (stack_withoutAll_cons t ts r.stack)

theorem ZoneRecord.withoutAll_waiting (ts : List Tag) (r : ZoneRecord) :
    (r.withoutAll ts).waiting = r.waiting.filter fun w => w.tag ∉ ts := by
  induction ts generalizing r with
  | nil => exact (List.filter_eq_self.mpr fun _ _ => by simp).symm
  | cons t ts ih =>
    refine (ih (r.without t)).trans ?_
    simp only [ZoneRecord.without, List.filter_filter, List.mem_cons, not_or]
    congr 1
    funext w
    by_cases same : w.tag = t <;> simp [same]

theorem ZoneRecord.withoutAll_superseded (ts : List Tag) (r : ZoneRecord) : (r.withoutAll ts).superseded = r.superseded :=
  (shrinks_withoutAll ts).superseded r

/-- What a pass over an empty active set leaves of the record before it fills the set (R72). -/
def ZoneRecord.kept (r : ZoneRecord) : ZoneRecord :=
  { r with
    stack := r.stack.dropWhile fun g => decide (r.floor ≤ g.level)
    waiting := r.waiting.filter fun w => decide (w.level < r.floor) }

theorem ZoneRecord.not_passes (r : ZoneRecord) (level : Nat) : (!r.passes level) = decide (r.floor ≤ level) := by
  by_cases passes : level < r.floor
  · simp [ZoneRecord.passes, passes]
  · simp [ZoneRecord.passes, passes, Nat.le_of_not_lt passes]

/-- The tags pruned, of the stack and of the wait list. -/
theorem ZoneRecord.mem_pruned (r : ZoneRecord) (t : Tag) : t ∈ r.pruned ↔
    (∃ g ∈ r.stack.takeWhile fun g => decide (r.floor ≤ g.level), ∃ m ∈ g.members, m.tag = t) ∨
      ∃ w ∈ r.waiting, r.floor ≤ w.level ∧ w.tag = t := by
  simp only [ZoneRecord.pruned, r.not_passes, List.mem_append, List.mem_flatMap, List.mem_map, List.mem_filter,
    decide_eq_true_eq, and_assoc]

theorem eq_of_nodup_map {α β : Type} {f : α → β} : ∀ {l : List α}, (l.map f).Nodup → ∀ {a b : α}, a ∈ l → b ∈ l →
    f a = f b → a = b
  | [], _, _, _, mem, _, _ => absurd mem List.not_mem_nil
  | c :: l, nodup, a, b, mem_a, mem_b, same => by
    obtain ⟨new, rest⟩ := List.nodup_cons.mp nodup
    rcases List.mem_cons.mp mem_a with first_a | later_a
    · rcases List.mem_cons.mp mem_b with first_b | later_b
      · exact first_a.trans first_b.symm
      · exact absurd (List.mem_map.mpr ⟨b, later_b, same.symm.trans (congrArg f first_a)⟩) new
    · rcases List.mem_cons.mp mem_b with first_b | later_b
      · exact absurd (List.mem_map.mpr ⟨a, later_a, same.trans (congrArg f first_b)⟩) new
      · exact eq_of_nodup_map rest later_a later_b same

theorem ZoneRecord.Sound.waiting_kept {r : ZoneRecord} (h : r.Sound) {w : Waiter} (mem : w ∈ r.waiting) :
    w.tag ∉ r.pruned ↔ w.level < r.floor := by
  have single := List.nodup_append.mp h.single
  have apart : ∀ g ∈ r.stack, ∀ m ∈ g.members, m.tag ≠ w.tag := fun g known m member =>
    single.2.2 m.tag (List.mem_append_right _ (List.mem_flatMap.mpr ⟨g, known, List.mem_map.mpr ⟨m, member, rfl⟩⟩)) w.tag
      (List.mem_map.mpr ⟨w, mem, rfl⟩)
  rw [r.mem_pruned, ← Nat.not_le]
  refine not_congr ?_
  constructor
  · rintro (⟨g, top, m, member, same⟩ | ⟨v, known, fails, same⟩)
    · exact absurd same (apart g (List.takeWhile_subset _ top) m member)
    · rwa [eq_of_nodup_map single.2.1 known mem same] at fails
  · exact fun fails => .inr ⟨w, mem, fails, rfl⟩

theorem ZoneRecord.Sound.pruned_waiting {r : ZoneRecord} (h : r.Sound) : (r.withoutAll r.pruned).waiting = r.kept.waiting := by
  rw [ZoneRecord.withoutAll_waiting]
  exact List.filter_congr fun w mem => decide_eq_decide.mpr (h.waiting_kept mem)

theorem ZoneRecord.Sound.pruned_stack {r : ZoneRecord} (h : r.Sound) : (r.withoutAll r.pruned).stack = r.kept.stack := by
  have single := List.nodup_append.mp h.single
  have groups : (r.stack.flatMap fun g => g.members.map (·.tag)).Nodup := (List.nodup_append.mp single.1).2.1
  have split := List.takeWhile_append_dropWhile (p := fun g : Group => decide (r.floor ≤ g.level)) (l := r.stack)
  have apart := groups
  rw [← split, List.flatMap_append, List.nodup_append] at apart
  have gone : ∀ g ∈ r.stack.takeWhile fun g => decide (r.floor ≤ g.level), (g.withoutAll r.pruned).members = [] :=
    fun g top => List.filter_eq_nil_iff.mpr fun m member => by
      simpa using (r.mem_pruned m.tag).mpr (.inl ⟨g, top, m, member, rfl⟩)
  have stays : ∀ g ∈ r.kept.stack, g.withoutAll r.pruned = g := fun g bottom =>
    Group.withoutAll_self fun m member pruned => by
      have known : g ∈ r.stack := (List.dropWhile_sublist _).subset bottom
      rcases (r.mem_pruned m.tag).mp pruned with ⟨g', top, m', member', same⟩ | ⟨w, mem, -, same⟩
      · exact apart.2.2 m'.tag (List.mem_flatMap.mpr ⟨g', top, List.mem_map.mpr ⟨m', member', rfl⟩⟩) m.tag
          (List.mem_flatMap.mpr ⟨g, bottom, List.mem_map.mpr ⟨m, member, rfl⟩⟩) same
      · exact single.2.2 m.tag
          (List.mem_append_right _ (List.mem_flatMap.mpr ⟨g, known, List.mem_map.mpr ⟨m, member, rfl⟩⟩)) w.tag
          (List.mem_map.mpr ⟨w, mem, rfl⟩) same.symm
  have top : ((r.stack.takeWhile fun g => decide (r.floor ≤ g.level)).map (Group.withoutAll r.pruned)).filter
      (fun g => !g.members.isEmpty) = [] :=
    List.filter_eq_nil_iff.mpr fun g mem => by
      obtain ⟨g, known, rfl⟩ := List.mem_map.mp mem
      simp [gone g known]
  have bottom : (r.kept.stack.map (Group.withoutAll r.pruned)).filter (fun g => !g.members.isEmpty) = r.kept.stack := by
    rw [(List.map_congr_left stays).trans (List.map_id _)]
    exact List.filter_eq_self.mpr fun g mem => by
      simp [(h.groups g ((List.dropWhile_sublist _).subset mem)).1]
  calc (r.withoutAll r.pruned).stack
      = (r.stack.map (Group.withoutAll r.pruned)).filter fun g => !g.members.isEmpty :=
        ZoneRecord.withoutAll_stack _ fun g mem => (h.groups g mem).1
    _ = ((r.stack.takeWhile fun g => decide (r.floor ≤ g.level)).map (Group.withoutAll r.pruned)).filter
          (fun g => !g.members.isEmpty) ++ (r.kept.stack.map (Group.withoutAll r.pruned)).filter
          (fun g => !g.members.isEmpty) := by
        rw [← List.filter_append, ← List.map_append]
        exact congrArg (fun l => (List.map _ l).filter _) split.symm
    _ = r.kept.stack := by rw [top, bottom, List.nil_append]

/-- A record with an empty active set, pruned. -/
theorem ZoneRecord.Sound.pruned_eq {r : ZoneRecord} (h : r.Sound) (empty : r.active = []) :
    r.withoutAll r.pruned = r.kept := by
  obtain ⟨zone, floor, policy, port, reservation⟩ := r.withoutAll_fixed r.pruned
  have active := r.withoutAll_active_nil r.pruned empty
  have level : (r.withoutAll r.pruned).activeLevel = none := (h.withoutAll r.pruned).level.mpr active
  have level' : r.activeLevel = none := h.level.mpr empty
  have superseded := r.withoutAll_superseded r.pruned
  have stack := h.pruned_stack
  have waiting := h.pruned_waiting
  generalize r.withoutAll r.pruned = q at zone floor policy port reservation active level superseded stack waiting
  cases q
  simp only at zone floor policy port reservation active level superseded stack waiting
  subst zone floor policy port reservation active level superseded stack waiting
  rw [ZoneRecord.kept, empty, level']

theorem ZoneRecord.kept_of_bare {r : ZoneRecord} (stack : r.stack = []) (waiting : r.waiting = []) : r.pruned = [] := by
  simp [ZoneRecord.pruned, stack, waiting]

/-! A pass over an empty active set (R72, R73) -/

section EmptySet
variable {z : Nat} {own : Option Tag} {r : ZoneRecord} {s : State}

theorem settlePass_of_empty (at_z : s.zone z = some r) (level : r.activeLevel = none) :
    settlePass z own s = emptyPass z own r s := by
  unfold settlePass
  simp only [at_z, level]

theorem settlePass_of_active (at_z : s.zone z = some r) {a : Nat} (level : r.activeLevel = some a) :
    settlePass z own s = activePass z own r a s := by
  unfold settlePass
  simp only [at_z, level]

/-- The state with every pruned role ended. -/
def pruneZone (z : Nat) (r : ZoneRecord) (s : State) : State := forEach r.pruned (endRole z .floor) s

theorem pruneZone_za (z : Nat) (r : ZoneRecord) (s : State) :
    (pruneZone z r s).za = mapZone z (·.withoutAll r.pruned) s.za := endRoles_za z .floor r.pruned s

theorem pruneZone_zone (at_z : s.zone z = some r) (sound : r.Sound) (empty : r.active = []) :
    (pruneZone z r s).zone z = some r.kept := by
  rw [zone_mapZone (pruneZone_za z r s) (fun q => (q.withoutAll_fixed _).1), at_z, Option.map_some, sound.pruned_eq empty]

/-- A waiter that is not pruned keeps its listen entry. -/
theorem pruneZone_promotedMember (sound : r.Sound) {w : Waiter} (mem : w ∈ r.kept.waiting) :
    (pruneZone z r s).promotedMember w = s.promotedMember w := by
  obtain ⟨known, passes⟩ := List.mem_filter.mp mem
  have spared : w.tag ∉ r.pruned := (sound.waiting_kept known).mpr (of_decide_eq_true passes)
  exact promotedMember_congr (forEach_listenEntry _ s fun t pruned s =>
    endRole_listenEntry_ne (fun same : w.tag = t => spared (same ▸ pruned)) z .floor s)

theorem emptyPass_of_group (taken : (pruneZone z r s).zone z = some r.kept) (group : r.kept.taken = .group) :
    emptyPass z own r s = some (resumeGroup z (pruneZone z r s)) := by
  unfold pruneZone at taken ⊢
  unfold emptyPass
  simp only [taken, Option.map_some, group]

theorem emptyPass_of_waiter (taken : (pruneZone z r s).zone z = some r.kept) (waiter : r.kept.taken = .waiter) :
    emptyPass z own r s = some (promote z own (pruneZone z r s)) := by
  unfold pruneZone at taken ⊢
  unfold emptyPass
  simp only [taken, Option.map_some, waiter]

theorem emptyPass_of_nothing (taken : (pruneZone z r s).zone z = some r.kept) (nothing : r.kept.taken = .nothing) :
    emptyPass z own r s = if r.pruned.isEmpty then none else some (pruneZone z r s) := by
  unfold pruneZone at taken ⊢
  unfold emptyPass
  simp only [taken, Option.map_some, nothing]

theorem ZoneRecord.taken_nothing {r : ZoneRecord} (stack : r.stack = []) (waiting : r.waiting = []) : r.taken = .nothing := by
  simp [ZoneRecord.taken, stack, waiting]

theorem ZoneRecord.taken_group {r : ZoneRecord} {g : Group} {rest : List Group} (stack : r.stack = g :: rest)
    (wins : ∀ w ∈ r.waiting.head?, g.level ≤ w.level) : r.taken = .group := by
  cases waiting : r.waiting with
  | nil => simp [ZoneRecord.taken, stack, waiting]
  | cons w waiters =>
    have := wins w (by simp [waiting])
    simp [ZoneRecord.taken, stack, waiting, Nat.not_lt.mpr this]

theorem ZoneRecord.taken_waiter {r : ZoneRecord} {w : Waiter} {rest : List Waiter} (waiting : r.waiting = w :: rest)
    (wins : ∀ g ∈ r.stack.head?, w.level < g.level) : r.taken = .waiter := by
  cases stack : r.stack with
  | nil => simp [ZoneRecord.taken, stack, waiting]
  | cons g groups =>
    have := wins g (by simp [stack])
    simp [ZoneRecord.taken, stack, waiting, this]

theorem ZoneRecord.waiter_of_taken {r : ZoneRecord} (waiter : r.taken = .waiter) :
    ∃ w rest, r.waiting = w :: rest ∧ ∀ g ∈ r.stack.head?, w.level < g.level := by
  unfold ZoneRecord.taken at waiter
  cases waiting : r.waiting with
  | nil => cases stack : r.stack <;> simp [stack, waiting] at waiter
  | cons w rest =>
    refine ⟨w, rest, rfl, fun g head => ?_⟩
    obtain ⟨groups, stack⟩ := List.head?_eq_some_iff.mp head
    rw [stack, waiting] at waiter
    refine Classical.byContradiction fun no => ?_
    simp [no] at waiter

/-- A pass leaves the records of the other zones. -/
theorem pass_leaves {t : State} {r' : ZoneRecord} (d : s.ZonesDistinct) (pass : settlePass z own s = some t)
    (at_t : t.zone z = some r') :
    ∃ t, settlePass z own s = some t ∧ t.zone z = some r' ∧ ∀ z', z' ≠ z → t.zone z' = s.zone z' :=
  ⟨t, pass, at_t, fun _ other => (settlePass_narrows d pass).other other⟩

theorem emptyPass_of_bare (at_z : s.zone z = some r) (stack : r.stack = []) (waiting : r.waiting = []) :
    emptyPass z own r s = none := by
  have nothing : pruneZone z r s = s := by rw [pruneZone, ZoneRecord.kept_of_bare stack waiting]; rfl
  have bare : r.kept = r := by cases r; simp_all [ZoneRecord.kept]
  rw [emptyPass_of_nothing (by rw [nothing, bare]; exact at_z) (by rw [bare]; exact ZoneRecord.taken_nothing stack waiting),
    ZoneRecord.kept_of_bare stack waiting]
  rfl

theorem emptyPass_prunes_all (at_z : s.zone z = some r) (sound : r.Sound) (empty : r.active = [])
    (some_place : ¬(r.stack = [] ∧ r.waiting = [])) (stack : r.kept.stack = []) (waiting : r.kept.waiting = []) :
    emptyPass z own r s = some (pruneZone z r s) ∧ (pruneZone z r s).zone z = some { r with stack := [], waiting := [] } := by
  have at_t := pruneZone_zone at_z sound empty
  have bare : r.kept = { r with stack := [], waiting := [] } := by
    rw [ZoneRecord.kept, ZoneRecord.mk.injEq]
    exact ⟨rfl, rfl, rfl, rfl, rfl, rfl, rfl, rfl, stack, waiting⟩
  have pruned : r.pruned ≠ [] := fun none => some_place <| by
    have whole := sound.pruned_eq empty
    rw [none] at whole
    have whole : r = r.kept := whole
    rw [whole]
    exact ⟨stack, waiting⟩
  refine ⟨?_, bare ▸ at_t⟩
  rw [emptyPass_of_nothing at_t (ZoneRecord.taken_nothing stack waiting), if_neg (by simpa using pruned)]

theorem emptyPass_resumes (at_z : s.zone z = some r) (sound : r.Sound) (empty : r.active = []) {g : Group}
    {rest : List Group} (stack : r.kept.stack = g :: rest) (wins : ∀ w ∈ r.kept.waiting.head?, g.level ≤ w.level) :
    ∃ t, emptyPass z own r s = some t ∧
      t.zone z = some { r.kept with active := g.members, activeLevel := some g.level, stack := rest } := by
  have at_p := pruneZone_zone at_z sound empty
  refine ⟨_, emptyPass_of_group at_p (ZoneRecord.taken_group stack wins), ?_⟩
  rw [zone_mapZone (resumeGroup_za at_p (by simp [stack])) (fun q => congrArg Prod.fst q.resumed_fixed), at_p]
  simp [ZoneRecord.resumed, stack]

theorem promoted_congr {r : ZoneRecord} {f g : Waiter → Member} (same : ∀ w ∈ r.waiting, f w = g w) :
    r.promoted f = r.promoted g := by
  have entered : r.promotable.map f = r.promotable.map g := List.map_congr_left fun w mem => by
    rw [r.promotable_eq] at mem
    exact same w (List.mem_of_mem_take mem)
  rw [ZoneRecord.promoted, entered, ZoneRecord.promoted]

theorem emptyPass_promotes (at_z : s.zone z = some r) (sound : r.Sound) (empty : r.active = []) {w : Waiter}
    {rest : List Waiter} (waiting : r.kept.waiting = w :: rest) (wins : ∀ g ∈ r.kept.stack.head?, w.level < g.level) :
    ∃ t, emptyPass z own r s = some t ∧ t.zone z = some (r.kept.promoted s.promotedMember) := by
  have at_p := pruneZone_zone at_z sound empty
  refine ⟨_, emptyPass_of_waiter at_p (ZoneRecord.taken_waiter waiting wins), ?_⟩
  rw [zone_mapZone (promote_za z own _ (by simp [at_p])) (fun _ => rfl), at_p, Option.map_some,
    promoted_congr fun w mem => pruneZone_promotedMember sound mem]

end EmptySet

/-! A pass over an active set (R75) -/

section ActiveSet
variable {z : Nat} {own : Option Tag} {r : ZoneRecord} {a : Nat} {s : State}

/-- The head waiter is due: more urgent than the active set, or at its level under MIX with room (R75). -/
def ZoneRecord.Due (r : ZoneRecord) (a : Nat) (w : Waiter) : Prop :=
  w.level < a ∨ w.level = a ∧ r.policy = .mix ∧ r.active.length < mixCapacity

theorem activePass_of_none (waiting : r.waiting = []) : activePass z own r a s = none := by
  unfold activePass
  simp only [waiting]

theorem activePass_of_not_due {w : Waiter} {rest : List Waiter} (waiting : r.waiting = w :: rest) (waits : ¬r.Due a w) :
    activePass z own r a s = none := by
  obtain ⟨less, joins⟩ := not_or.mp waits
  unfold activePass
  simp only [waiting, if_neg less, if_neg joins]

theorem activePass_of_displaces {w : Waiter} {rest : List Waiter} (waiting : r.waiting = w :: rest) (less : w.level < a)
    (passes : w.level < r.floor) : activePass z own r a s = some (promote z own (pushActive z s)) := by
  have passes : r.passes w.level = true := decide_eq_true passes
  unfold activePass
  simp only [waiting, if_pos less, passes, if_true]

theorem activePass_of_joins {w : Waiter} {rest : List Waiter} (waiting : r.waiting = w :: rest)
    (joins : w.level = a ∧ r.policy = .mix ∧ r.active.length < mixCapacity) (passes : w.level < r.floor) :
    activePass z own r a s = some (joinActive z own w s) := by
  have passes : r.passes w.level = true := decide_eq_true passes
  unfold activePass
  simp only [waiting, if_neg (Nat.not_lt.mpr (Nat.le_of_eq joins.1.symm)), if_pos joins, passes, if_true]

theorem activePass_of_fails {w : Waiter} {rest : List Waiter} (waiting : r.waiting = w :: rest) (due : r.Due a w)
    (fails : r.floor ≤ w.level) : activePass z own r a s = some (endRole z .floor w.tag s) := by
  have fails : ¬r.passes w.level = true := by simpa [ZoneRecord.passes] using fails
  unfold activePass
  simp only [waiting]
  by_cases less : w.level < a
  · rw [if_pos less, if_neg fails]
  · rw [if_neg less, if_pos (due.resolve_left less), if_neg fails]

/-- The head waiter leaves the record whole but for its place. -/
theorem ZoneRecord.Sound.without_head {r : ZoneRecord} {w : Waiter} {rest : List Waiter} (h : r.Sound)
    (waiting : r.waiting = w :: rest) (full : r.active ≠ []) : r.without w.tag = { r with waiting := rest } := by
  have single := h.single
  simp only [ZoneRecord.placedTags, waiting, List.map_cons] at single
  have apart := List.nodup_append.mp single
  have active := ZoneRecord.without_waiter h waiting
  have stack : (r.without w.tag).stack = r.stack := by
    have same : r.stack.map (Group.without w.tag) = r.stack :=
      (List.map_congr_left fun g mem => by
        have whole : g.members.filter (fun m => m.tag != w.tag) = g.members :=
          List.filter_eq_self.mpr fun m member => by
            simpa using apart.2.2 m.tag
              (List.mem_append_right _ (List.mem_flatMap.mpr ⟨g, mem, List.mem_map.mpr ⟨m, member, rfl⟩⟩)) w.tag
              List.mem_cons_self
        rw [Group.without, whole]
        rfl).trans (List.map_id _)
    change (r.stack.map (Group.without w.tag)).filter _ = _
    rw [same]
    exact List.filter_eq_self.mpr fun g mem => by simp [(h.groups g mem).1]
  have waiters : (r.without w.tag).waiting = rest := by
    have others : ∀ v ∈ rest, v.tag ≠ w.tag := fun v mem same =>
      (List.nodup_cons.mp apart.2.1).1 (List.mem_map.mpr ⟨v, mem, same⟩)
    change r.waiting.filter _ = _
    rw [waiting, List.filter_cons_of_neg (by simp)]
    exact List.filter_eq_self.mpr fun v mem => by simpa using others v mem
  have level : (r.without w.tag).activeLevel = r.activeLevel := by
    change (if (r.without w.tag).active.isEmpty then none else r.activeLevel) = _
    rw [active, if_neg (by simpa using full)]
  rw [ZoneRecord.mk.injEq]
  exact ⟨rfl, rfl, rfl, rfl, active, level, rfl, rfl, stack, waiters⟩

theorem active_of_level (sound : r.Sound) (level : r.activeLevel = some a) : r.active ≠ [] := fun empty => by
  rw [sound.level.mpr empty] at level
  cases level

/-- The active set pushed, and the waiters let in. -/
theorem displace_zone (at_z : s.zone z = some r) (sound : r.Sound) (level : r.activeLevel = some a) :
    (promote z own (pushActive z s)).zone z = some (r.pushed.promoted s.promotedMember) := by
  have at_p : (pushActive z s).zone z = some r.pushed := by
    rw [zone_mapZone (pushActive_za z s (by simp [at_z])) (fun q => q.pushed_zone), at_z, Option.map_some]
  have waiting : r.pushed.waiting = r.waiting := by simp only [ZoneRecord.pushed, level]
  have inactive : ∀ w ∈ r.waiting, w.tag ∉ r.activeTags := fun w mem active =>
    (List.nodup_append.mp sound.single).2.2 w.tag (List.mem_append_left _ active) w.tag (List.mem_map.mpr ⟨w, mem, rfl⟩) rfl
  rw [zone_mapZone (promote_za z own _ (by simp [at_p])) (fun _ => rfl), at_p, Option.map_some,
    promoted_congr (g := s.promotedMember) fun w mem => pushActive_promotedMember at_z (inactive w (waiting ▸ mem))]

theorem ZoneRecord.displaced_eq {r : ZoneRecord} {a : Nat} (level : r.activeLevel = some a) (member : Waiter → Member) :
    r.pushed.promoted member = { r with
      active := r.promotable.map member
      activeLevel := r.waiting.head?.map (·.level)
      stack := { level := a, members := r.active } :: r.stack
      waiting := r.waiting.drop r.promotable.length } := by
  have pushed : r.pushed = { r with active := [], activeLevel := none,
                                    stack := { level := a, members := r.active } :: r.stack } := by
    simp only [ZoneRecord.pushed, level]
  rw [pushed]
  rfl

end ActiveSet

/-! What a pass makes of the record -/

/-- The waiters let in, as the model takes them. -/
theorem letIn_eq (r : ZoneRecord) : Clause.letIn r.policy r.waiting = r.promotable := by
  unfold Clause.letIn ZoneRecord.promotable
  cases r.waiting with
  | nil => rfl
  | cons w rest =>
    cases r.policy with
    | stack => rfl
    | mix => simp [mixCapacity]

theorem memberOf_eq (s : State) : Clause.memberOf s = s.promotedMember := rfl

/-- R72, R73: a pass over an empty active set. -/
theorem passOverAnEmptySet : Clause.PassOverAnEmptySet := by
  intro z own r s matched coherent at_z sound empty
  have d := matched.distinct coherent
  have pass : settlePass z own s = emptyPass z own r s := settlePass_of_empty at_z (sound.level.mpr empty)
  refine ⟨fun stack waiting => pass.trans (emptyPass_of_bare at_z stack waiting), fun some_place stack waiting => ?_,
    fun g rest stack wins => ?_, fun w rest waiting wins => ?_⟩
  · obtain ⟨all, at_t⟩ := emptyPass_prunes_all (own := own) at_z sound empty some_place stack waiting
    exact pass_leaves d (pass.trans all) at_t
  · obtain ⟨t, resumes, at_t⟩ := emptyPass_resumes (own := own) at_z sound empty stack wins
    exact pass_leaves d (pass.trans resumes) at_t
  · obtain ⟨t, promotes, at_t⟩ := emptyPass_promotes (own := own) at_z sound empty waiting wins
    refine pass_leaves d (pass.trans promotes) (at_t.trans ?_)
    have entering : Clause.letIn r.policy r.kept.waiting = r.kept.promotable := letIn_eq r.kept
    have head : r.kept.waiting.head? = some w := congrArg List.head? waiting
    rw [ZoneRecord.promoted, head, ← entering]
    rfl

/-- R75: a pass over an active set. -/
theorem passOverAnActiveSet : Clause.PassOverAnActiveSet := by
  intro z own r a s matched coherent at_z sound level
  have d := matched.distinct coherent
  have pass : settlePass z own s = activePass z own r a s := settlePass_of_active at_z level
  refine ⟨fun waiting => pass.trans (activePass_of_none waiting), fun w rest waiting => ⟨?_, ?_, ?_, ?_⟩⟩
  · intro less passes
    refine pass_leaves d (pass.trans (activePass_of_displaces waiting less passes)) ?_
    rw [displace_zone at_z sound level, ZoneRecord.displaced_eq level, letIn_eq, memberOf_eq, waiting]
    rfl
  · intro joins passes
    refine pass_leaves d (pass.trans (activePass_of_joins waiting joins passes)) ?_
    rw [zone_mapZone (joinActive_za z own w s) (fun _ => rfl), at_z, Option.map_some, ZoneRecord.joined, waiting]
    rfl
  · intro due fails
    refine pass_leaves d (pass.trans (activePass_of_fails waiting due fails)) ?_
    rw [zone_mapZone (endRole_za z .floor w.tag s) (fun _ => rfl), at_z, Option.map_some,
      sound.without_head waiting (active_of_level sound level)]
  · exact fun waits => pass.trans (activePass_of_not_due waiting waits)

/-! Rest -/

/-- A record that no pass changes: nothing suspended or waiting behind an empty active set, and no head waiter due. -/
structure ZoneRecord.Rests (r : ZoneRecord) : Prop where
  bare : r.activeLevel = none → r.stack = [] ∧ r.waiting = []
  waits : ∀ a w, r.activeLevel = some a → r.waiting.head? = some w → ¬r.Due a w

theorem ZoneRecord.Rests.pass_none {r : ZoneRecord} (h : r.Rests) {s : State} {z : Nat} (at_z : s.zone z = some r)
    (own : Option Tag) : settlePass z own s = none := by
  cases level : r.activeLevel with
  | none =>
    obtain ⟨stack, waiting⟩ := h.bare level
    exact (settlePass_of_empty at_z level).trans (emptyPass_of_bare at_z stack waiting)
  | some a =>
    rw [settlePass_of_active at_z level]
    cases waiting : r.waiting with
    | nil => exact activePass_of_none waiting
    | cons w rest => exact activePass_of_not_due waiting (h.waits a w level (by simp [waiting]))

theorem rests_of_pass_none {r : ZoneRecord} (sound : r.Sound) {s : State} {z : Nat} (at_z : s.zone z = some r)
    {own : Option Tag} (none_left : settlePass z own s = none) : r.Rests := by
  refine ⟨fun level => ?_, fun a w level head due => ?_⟩
  · rw [settlePass_of_empty at_z level] at none_left
    exact (emptyPass_none at_z sound none_left).rest (sound.level.mp level)
  · rw [settlePass_of_active at_z level] at none_left
    obtain ⟨rest, waiting⟩ := List.head?_eq_some_iff.mp head
    by_cases passes : w.level < r.floor
    · by_cases less : w.level < a
      · rw [activePass_of_displaces waiting less passes] at none_left
        cases none_left
      · rw [activePass_of_joins waiting (due.resolve_left less) passes] at none_left
        cases none_left
    · rw [activePass_of_fails waiting due (Nat.le_of_not_lt passes)] at none_left
      cases none_left

/-- How far a record is from rest: its waiters, and one for an empty active set before suspended groups. -/
def ZoneRecord.unrest (r : ZoneRecord) : Nat :=
  r.waiting.length + if r.active = [] ∧ r.stack ≠ [] then 1 else 0

theorem ZoneRecord.unrest_lt_passBound (r : ZoneRecord) : r.unrest < r.passBound := by
  unfold ZoneRecord.unrest ZoneRecord.passBound
  split <;> omega

theorem ZoneRecord.unrest_of_active {r : ZoneRecord} (full : r.active ≠ []) : r.unrest = r.waiting.length := by
  simp [ZoneRecord.unrest, full]

theorem ZoneRecord.waiting_le_unrest (r : ZoneRecord) : r.waiting.length ≤ r.unrest := Nat.le_add_right _ _

theorem ZoneRecord.kept_waiting_le (r : ZoneRecord) : r.kept.waiting.length ≤ r.waiting.length :=
  List.length_filter_le _ _

theorem ZoneRecord.promoted_unrest {r : ZoneRecord} {w : Waiter} {rest : List Waiter} (waiting : r.waiting = w :: rest)
    (member : Waiter → Member) : (r.promoted member).unrest < r.waiting.length := by
  have some_in : r.promotable.length ≠ 0 := fun none =>
    ZoneRecord.promotable_ne_nil waiting (List.length_eq_zero_iff.mp none)
  rw [ZoneRecord.unrest_of_active (ZoneRecord.promoted_active waiting)]
  simp only [ZoneRecord.promoted, List.length_drop, waiting, List.length_cons]
  omega

/-- What follows a pass: a sound record, nearer to rest. -/
structure ZoneRecord.Nearer (r r' : ZoneRecord) : Prop where
  sound : r'.Sound
  unrest : r'.unrest < r.unrest

theorem ZoneRecord.Sound.kept {r : ZoneRecord} (h : r.Sound) (empty : r.active = []) : r.kept.Sound :=
  h.pruned_eq empty ▸ h.withoutAll r.pruned

/-- The head waiter that wins may fill the empty active set. -/
theorem ZoneRecord.Sound.kept_open {r : ZoneRecord} (h : r.Sound) (empty : r.active = []) {w : Waiter}
    (mem : w ∈ r.kept.waiting) (wins : ∀ g ∈ r.kept.stack.head?, w.level < g.level) : r.kept.Open w.level := by
  have passes : w.level < r.floor := of_decide_eq_true (List.mem_filter.mp mem).2
  have urgent : w.level ≤ 6 := by
    have := h.floor.2
    omega
  refine ⟨empty, urgent, fun g known => ?_⟩
  have order := (h.kept empty).order
  have level : r.kept.activeLevel = none := h.level.mpr empty
  cases stack : r.kept.stack with
  | nil =>
    rw [stack] at known
    exact absurd known List.not_mem_nil
  | cons top groups =>
    have above := wins top (by simp [stack])
    simp only [ZoneRecord.levels, level, stack, Option.toList_none, List.nil_append, List.map_cons] at order
    rw [stack] at known
    rcases List.mem_cons.mp known with rfl | below
    · exact above
    · exact Nat.lt_trans above ((List.pairwise_cons.mp order).1 _ (List.mem_map.mpr ⟨g, below, rfl⟩))

theorem emptyPass_nearer {z : Nat} {own : Option Tag} {r : ZoneRecord} {s t : State} (at_z : s.zone z = some r)
    (sound : r.Sound) (empty : r.active = []) (pass : emptyPass z own r s = some t) :
    ∃ r', t.zone z = some r' ∧ r.Nearer r' := by
  have fewer := r.kept_waiting_le
  have kept := sound.kept empty
  by_cases bare : r.stack = [] ∧ r.waiting = []
  · rw [emptyPass_of_bare at_z bare.1 bare.2] at pass
    cases pass
  · have restless : r.waiting.length ≠ 0 ∨ r.unrest = r.waiting.length + 1 := by
      by_cases waiting : r.waiting = []
      · have groups : r.stack ≠ [] := fun stack => bare ⟨stack, waiting⟩
        exact .inr (by simp [ZoneRecord.unrest, empty, groups])
      · exact .inl fun none => waiting (List.length_eq_zero_iff.mp none)
    have least := r.waiting_le_unrest
    by_cases waiter : r.kept.taken = .waiter
    · obtain ⟨w, rest, waiting, wins⟩ := ZoneRecord.waiter_of_taken waiter
      obtain ⟨u, promotes, at_t⟩ := emptyPass_promotes (own := own) at_z sound empty waiting wins
      cases pass.symm.trans promotes
      have fill := sound.kept_open empty (by simp [waiting]) wins
      have := ZoneRecord.promoted_unrest waiting s.promotedMember
      exact ⟨_, at_t, kept.promoted waiting fill fun _ => rfl, by omega⟩
    · cases stack : r.kept.stack with
      | nil =>
        cases waiting : r.kept.waiting with
        | nil =>
          obtain ⟨all, at_t⟩ := emptyPass_prunes_all (own := own) at_z sound empty bare stack waiting
          cases pass.symm.trans all
          rw [pruneZone_zone at_z sound empty] at at_t
          refine ⟨r.kept, pruneZone_zone at_z sound empty, kept, ?_⟩
          have rest : r.kept.unrest = 0 := by simp [ZoneRecord.unrest, stack, waiting]
          omega
        | cons w rest => exact absurd (ZoneRecord.taken_waiter waiting (by simp [stack])) waiter
      | cons g groups =>
        have wins : ∀ w ∈ r.kept.waiting.head?, g.level ≤ w.level := fun w head => by
          obtain ⟨rest, waiting⟩ := List.head?_eq_some_iff.mp head
          refine Classical.byContradiction fun less => ?_
          exact waiter (ZoneRecord.taken_waiter waiting (by simpa [stack] using less))
        obtain ⟨u, resumes, at_t⟩ := emptyPass_resumes (own := own) at_z sound empty stack wins
        cases pass.symm.trans resumes
        have resumed : r.kept.resumed =
            { r.kept with active := g.members, activeLevel := some g.level, stack := groups } := by
          simp only [ZoneRecord.resumed, stack]
        refine ⟨_, at_t, resumed ▸ kept.resumed empty, ?_⟩
        have groups_full : r.stack ≠ [] := fun none => by simp [ZoneRecord.kept, none] at stack
        rw [ZoneRecord.unrest_of_active (kept.groups g (by simp [stack])).1]
        simp only [ZoneRecord.unrest, empty, groups_full, ne_eq, not_false_eq_true, and_self, if_true]
        omega

theorem activePass_nearer {z : Nat} {own : Option Tag} {r : ZoneRecord} {a : Nat} {s t : State} (at_z : s.zone z = some r)
    (sound : r.Sound) (level : r.activeLevel = some a) (pass : activePass z own r a s = some t) :
    ∃ r', t.zone z = some r' ∧ r.Nearer r' := by
  have full := active_of_level sound level
  have unrest := ZoneRecord.unrest_of_active full
  cases waiting : r.waiting with
  | nil =>
    rw [activePass_of_none waiting] at pass
    cases pass
  | cons w rest =>
    by_cases due : r.Due a w
    · by_cases passes : w.level < r.floor
      · by_cases less : w.level < a
        · cases pass.symm.trans (activePass_of_displaces waiting less passes)
          have pushed : r.pushed.waiting = w :: rest := by simp [ZoneRecord.pushed, level, waiting]
          have fewer := ZoneRecord.promoted_unrest pushed s.promotedMember
          refine ⟨_, displace_zone at_z sound level,
            sound.pushed.promoted pushed (sound.pushed_open level less) fun _ => rfl, ?_⟩
          rw [unrest, waiting, ← pushed]
          exact fewer
        · have joins := due.resolve_left less
          cases pass.symm.trans (activePass_of_joins waiting joins passes)
          refine ⟨_, by rw [zone_mapZone (joinActive_za z own w s) (fun _ => rfl), at_z, Option.map_some],
            sound.joined waiting rfl (by simp [level]) joins.2.1 joins.2.2, ?_⟩
          rw [ZoneRecord.unrest_of_active (by simp [ZoneRecord.joined])]
          simp [unrest, ZoneRecord.joined, waiting]
      · cases pass.symm.trans (activePass_of_fails waiting due (Nat.le_of_not_lt passes))
        have without := sound.without_head waiting full
        refine ⟨_, by rw [zone_mapZone (endRole_za z .floor w.tag s) (fun _ => rfl), at_z, Option.map_some],
          sound.without w.tag, ?_⟩
        rw [without, ZoneRecord.unrest_of_active (r := { r with waiting := rest }) full]
        simp [unrest, waiting]
    · rw [activePass_of_not_due waiting due] at pass
      cases pass

theorem settlePass_nearer {z : Nat} {own : Option Tag} {r : ZoneRecord} {s t : State} (at_z : s.zone z = some r)
    (sound : r.Sound) (pass : settlePass z own s = some t) : ∃ r', t.zone z = some r' ∧ r.Nearer r' := by
  cases level : r.activeLevel with
  | none => exact emptyPass_nearer at_z sound (sound.level.mp level) (settlePass_of_empty at_z level ▸ pass)
  | some a => exact activePass_nearer at_z sound level (settlePass_of_active at_z level ▸ pass)

/-- Enough passes bring the record to rest. -/
theorem settleLoop_rests (z : Nat) (own : Option Tag) : ∀ (n : Nat) (s : State) (r : ZoneRecord), s.zone z = some r →
    r.Sound → r.unrest < n → ∃ r', (settleLoop z own n s).zone z = some r' ∧ r'.Rests
  | 0, _, _, _, _, few => absurd few (Nat.not_lt_zero _)
  | n + 1, s, r, at_z, sound, few => by
    unfold settleLoop
    split
    · rename_i none_left
      exact ⟨r, at_z, rests_of_pass_none sound at_z none_left⟩
    · rename_i t pass
      obtain ⟨r', at_t, nearer⟩ := settlePass_nearer at_z sound pass
      have := nearer.unrest
      exact settleLoop_rests z own n t r' at_t nearer.sound (by omega)

/-- Settling comes to rest (R71). -/
theorem settle_rests {z : Nat} {s : State} {r : ZoneRecord} (at_z : s.zone z = some r) (sound : r.Sound) (own : Option Tag) (wasActive : Bool) :
    ∃ r', (settle z own wasActive s).zone z = some r' ∧ r'.Rests := by
  obtain ⟨r', at_t, rests⟩ := settleLoop_rests z own r.passBound s r at_z sound r.unrest_lt_passBound
  refine ⟨r', ?_, rests⟩
  unfold settle
  simp only [at_z]
  split
  · rw [State.zone, post_za]
    exact at_t
  · exact at_t

/-- R71: no pass over a settled zone changes anything. -/
theorem settledZonesAreAtRest : Clause.SettledZonesAreAtRest := by
  intro z own wasActive s _ _ sound
  cases at_z : s.zone z with
  | none =>
    have same : settle z own wasActive s = s := by
      unfold settle
      simp only [at_z]
    unfold settlePass
    simp only [same, at_z]
  | some r =>
    obtain ⟨r', at_t, rests⟩ := settle_rests at_z (sound r (zone_zone at_z).2) own wasActive
    exact rests.pass_none at_t own

/-- Settles O27: the case of each pass, with a count of waiters that every pass lowers. -/
theorem settlingComesToRest : Obligations.SettlingComesToRest :=
  ⟨passOverAnEmptySet, passOverAnActiveSet, settledZonesAreAtRest⟩

end Sys2Proof.Machine
end


section
/-! SUPPORT. A HELD verdict, the timers of a zone, CLEAR ZONE and SET FLOOR, and the endings that leave no role (R63 to R65, R76,
R79 to R83). -/

namespace Sys2Proof.Machine

/-! What touches the records and the listen table alone -/

/-- A state that differs in its zone records and its listen table alone. -/
def OnlyZones (s t : State) : Prop := t = { s with za := t.za, lu := t.lu }

theorem OnlyZones.refl (s : State) : OnlyZones s s := rfl

theorem OnlyZones.trans {s t u : State} (h : OnlyZones s t) (k : OnlyZones t u) : OnlyZones s u :=
  Eq.trans k (congrArg (fun x : State => { x with za := u.za, lu := u.lu }) h)

theorem OnlyZones.rp {s t : State} (h : OnlyZones s t) : t.rp = s.rp := (congrArg State.rp h : _)
theorem OnlyZones.cp {s t : State} (h : OnlyZones s t) : t.cp = s.cp := (congrArg State.cp h : _)
theorem OnlyZones.cu {s t : State} (h : OnlyZones s t) : t.cu = s.cu := (congrArg State.cu h : _)
theorem OnlyZones.pu {s t : State} (h : OnlyZones s t) : t.pu = s.pu := (congrArg State.pu h : _)
theorem OnlyZones.me {s t : State} (h : OnlyZones s t) : t.me = s.me := (congrArg State.me h : _)

theorem updateZone_onlyZones (z : Nat) (f : ZoneRecord → ZoneRecord) (s : State) : OnlyZones s (updateZone z f s) := rfl

theorem updateListen_onlyZones (t : Tag) (f : ListenEntry → ListenEntry) (s : State) : OnlyZones s (updateListen t f s) := rfl

theorem takeReference_onlyZones (t : Tag) (gain duration : Nat) (s : State) : OnlyZones s (takeReference t gain duration s) := by
  unfold takeReference
  split <;> rfl

theorem releaseReference_onlyZones (t : Tag) (s : State) : OnlyZones s (releaseReference t s) := by
  unfold releaseReference
  split
  · rfl
  · split <;> rfl

theorem releaseRole_onlyZones (t : Tag) (s : State) : OnlyZones s (releaseRole t s) :=
  (releaseReference_onlyZones t s).trans (updateListen_onlyZones t _ _)

theorem breakReservation_onlyZones (z : Nat) (s : State) : OnlyZones s (breakReservation z s) := by
  unfold breakReservation
  split
  · exact OnlyZones.refl s
  · exact (updateZone_onlyZones z _ s).trans (releaseRole_onlyZones _ _)

theorem reserve_onlyZones (z : Nat) (t : Terms) (s : State) : OnlyZones s (reserve z t s) :=
  ((takeReference_onlyZones ..).trans (breakReservation_onlyZones z _)).trans (updateZone_onlyZones z _ _)

/-! The zones of the window -/

/-- A zone has a record exactly where the station owns it. -/
theorem State.Coherent.zone_isSome_iff {s : State} (coherent : s.Coherent) (matched : s.ZonesMatch) (z : Nat) :
    (s.zone z).isSome = true ↔ s.owns z = true := by
  have record : (s.zone z).isSome = true ↔ z ∈ s.za.map (·.zone) := by
    simp [State.zone, List.find?_isSome]
  cases member : s.isMember with
  | false =>
    have none := coherent.config_none member
    rw [record, (coherent.repeating member).zones]
    simp only [State.owns, State.windowFirst, State.windowLast, none, inBounds, List.map_nil, List.not_mem_nil, false_iff,
      Bool.and_eq_true, decide_eq_true_eq]
    omega
  | true =>
    obtain ⟨c, config, valid⟩ := coherent.member_config member
    have width := valid.width.1
    rw [record, matched.2 c config, List.mem_range'_1, width]
    simp only [State.owns, State.windowFirst, State.windowLast, config, inBounds, windowWidth, Bool.and_eq_true, decide_eq_true_eq]
    rcases valid.window with ⟨first, last⟩ | ⟨low, high, low', high'⟩
    · omega
    · omega

theorem State.Coherent.member_of_zone {s : State} (coherent : s.Coherent) {z : Nat} {r : ZoneRecord}
    (at_z : s.zone z = some r) : s.isMember = true := by
  cases member : s.isMember with
  | true => rfl
  | false =>
    rw [zone_none (coherent.repeating member)] at at_z
    cases at_z

/-- A command on a zone with a record acts on it. -/
theorem onOwnZone_of_zone {s : State} (safe : s.Safe) (high : s.rstnLow = false) {zone : Byte} {r : ZoneRecord}
    (at_z : s.zone zone.toNat = some r) (act : Nat → State → State) : onOwnZone zone act s = act zone.toNat s :=
  onOwnZone_of_owned high (safe.coherent.member_of_zone at_z)
    ((safe.coherent.zone_isSome_iff safe.matched _).mp (by rw [at_z]; rfl))

/-! A HELD verdict (R63, R64) -/

/-- Settles O23. -/
theorem heldMakesTheReservation : Obligations.HeldMakesTheReservation := by
  intro z t r s matched coherent at_z held
  have d := matched.distinct coherent
  have za := reserve_za d z t
  have only := reserve_onlyZones z t s
  refine ⟨fun no_place => ?_, fun place => ?_⟩
  · rw [answer_of_held z s held, no_place]
    rfl
  · rw [answer_of_held z s held, place, if_pos rfl]
    refine ⟨rfl, ?_, fun z' other => zone_mapZone_other za (fun _ => rfl) other, ?_, ?_, ?_, ?_⟩
    · rw [zone_mapZone za fun _ => rfl, at_z]
      rfl
    · exact only.rp
    · exact only.cp
    · exact only.cu
    · exact only.me

/-! The timers of a zone (R65, R76) -/

theorem holdExpiryAt_of_reservation {s : State} {z : Nat} {r : ZoneRecord} {v : Reservation} (at_z : s.zone z = some r)
    (held : r.reservation = some v) :
    holdExpiryAt z s = releaseRole v.tag (updateZone z (fun r => { r with reservation := none }) s) := by
  unfold holdExpiryAt dropReservation
  simp only [at_z, Option.bind_some, held, if_true]

theorem holdExpiryAt_of_none {s : State} {z : Nat} (none_held : ∀ r, s.zone z = some r → r.reservation = none) :
    holdExpiryAt z s = s := by
  unfold holdExpiryAt dropReservation
  cases at_z : s.zone z with
  | none => rfl
  | some r => simp only [Option.bind_some, none_held r at_z]

/-- R65: a hold timer expires. -/
theorem holdExpiryRemovesTheReservation : Clause.HoldExpiryRemovesTheReservation := by
  intro z s _ _
  refine ⟨fun r v at_z held => ⟨holdExpiryAt z s, rfl, ?_⟩, fun none_held =>
    congrArg Host.Outcome.next (holdExpiryAt_of_none none_held)⟩
  rw [holdExpiryAt_of_reservation at_z held]
  have za : (releaseRole v.tag (updateZone z (fun r => { r with reservation := none }) s)).za =
      mapZone z ZoneRecord.unreserved s.za := releaseRole_za ..
  have only := (updateZone_onlyZones z (fun r => { r with reservation := none }) s).trans (releaseRole_onlyZones v.tag _)
  refine ⟨?_, fun z' other => zone_mapZone_other za (fun _ => rfl) other, only.rp, only.cp,
    only.cu, only.pu, only.me,
    fun u other => releaseRole_listenEntry_ne other _⟩
  rw [zone_mapZone za fun _ => rfl, at_z]
  rfl

/-- R76: an auto-end timer expires. -/
theorem autoEndExpiryEndsTheMember : Clause.AutoEndExpiryEndsTheMember := by
  rintro z tag r m s safe at_z member rfl running
  have orderly := safe.orderly
  have expires : autoEndExpiryAt z m.tag s = settle z none true (endRole z .autoEnd m.tag s) := by
    have found : (r.active.any fun q => q.tag == m.tag && q.left.isSome) = true :=
      List.any_eq_true.mpr ⟨m, member, by simp [running]⟩
    unfold autoEndExpiryAt
    simp only [at_z, found, if_true]
  have za := endRole_za z .autoEnd m.tag s
  have distinct := (endRole_quiet (b := false) z .autoEnd m.tag s).distinct orderly.distinct
  have at_e : (endRole z .autoEnd m.tag s).zone z = some (r.without m.tag) := by
    rw [zone_mapZone za fun _ => rfl, at_z, Option.map_some]
  have narrows := settle_narrows z none true distinct
  obtain ⟨r', at_t, -⟩ := settle_rests at_e ((orderly.at_zone at_z).toSound.without m.tag) none true
  have law : r'.Lawful := autoEndExpiryAt_arbitrated orderly z m.tag r' (expires ▸ (zone_zone at_t).2)
  refine ⟨autoEndExpiryAt z m.tag s, rfl, ?_, ?_, expires⟩
  · rw [expires]
    refine ⟨r', at_t, fun placed => ?_, law⟩
    obtain ⟨q, at_q, -, places, -⟩ := narrows.at_zone at_t
    cases at_e.symm.trans at_q
    have left := places placed
    rw [ZoneRecord.without_placedTags] at left
    simpa using (List.mem_filter.mp left).2
  · intro z' other
    rw [expires]
    exact (narrows.other other).trans (zone_mapZone_other za (fun _ => rfl) other)

/-- Settles O28. -/
theorem zoneTimersExpire : Obligations.ZoneTimersExpire := ⟨holdExpiryRemovesTheReservation, autoEndExpiryEndsTheMember⟩

/-! Settling at rest (R71) -/

theorem settle_of_rests {s : State} {z : Nat} {r : ZoneRecord} (at_z : s.zone z = some r) (rests : r.Rests)
    (own : Option Tag) (wasActive : Bool) :
    settle z own wasActive s = if wasActive && r.isIdle then post (.zoneIdle z) s else s := by
  have loop : settleLoop z own r.passBound s = s := by
    unfold ZoneRecord.passBound settleLoop
    simp only [rests.pass_none at_z own]
  unfold settle
  simp only [at_z, loop, Option.any_some]

/-- A record with nothing in it is at rest. -/
theorem ZoneRecord.rests_of_bare {r : ZoneRecord} (stack : r.stack = []) (waiting : r.waiting = []) : r.Rests :=
  ⟨fun _ => ⟨stack, waiting⟩, fun _ _ _ head => by simp [waiting] at head⟩

theorem settle_za_of_rests {s : State} {z : Nat} {r : ZoneRecord} (at_z : s.zone z = some r) (rests : r.Rests)
    (own : Option Tag) (wasActive : Bool) : (settle z own wasActive s).za = s.za := by
  rw [settle_of_rests at_z rests]
  split
  · exact post_za _ _
  · rfl

/-! CLEAR ZONE (R82) -/

/-- A record cleared: its fixed fields and its floor are left. -/
def ZoneRecord.cleared (r : ZoneRecord) : ZoneRecord :=
  { r with active := [], activeLevel := none, reservation := none, superseded := none, stack := [], waiting := [] }

theorem ZoneRecord.withoutAll_active (ts : List Tag) (r : ZoneRecord) :
    (r.withoutAll ts).active = r.active.filter fun m => m.tag ∉ ts := by
  induction ts generalizing r with
  | nil => exact (List.filter_eq_self.mpr fun _ _ => by simp).symm
  | cons t ts ih =>
    refine (ih (r.without t)).trans ?_
    simp only [ZoneRecord.without, List.filter_filter, List.mem_cons, not_or]
    congr 1
    funext m
    by_cases same : m.tag = t <;> simp [same]

theorem filter_not_mem_eq_nil {α : Type} {tag : α → Tag} {ts : List Tag} {l : List α} (all : ∀ a ∈ l, tag a ∈ ts) :
    l.filter (fun a => tag a ∉ ts) = [] := List.filter_eq_nil_iff.mpr fun a mem => by simp [all a mem]

/-- Without its placed tags a sound record has nothing placed. -/
theorem ZoneRecord.Sound.withoutAll_placed {r : ZoneRecord} (h : r.Sound) :
    (r.withoutAll r.placedTags).active = [] ∧ (r.withoutAll r.placedTags).stack = [] ∧
      (r.withoutAll r.placedTags).waiting = [] := by
  have active : ∀ m ∈ r.active, m.tag ∈ r.placedTags := fun m mem =>
    List.mem_append_left _ (List.mem_append_left _ (List.mem_map_of_mem mem))
  have suspended : ∀ g ∈ r.stack, ∀ m ∈ g.members, m.tag ∈ r.placedTags := fun g known m mem =>
    List.mem_append_left _ (List.mem_append_right _ (List.mem_flatMap.mpr ⟨g, known, List.mem_map_of_mem mem⟩))
  have waiting : ∀ w ∈ r.waiting, w.tag ∈ r.placedTags := fun w mem => List.mem_append_right _ (List.mem_map_of_mem mem)
  refine ⟨?_, ?_, ?_⟩
  · rw [ZoneRecord.withoutAll_active]
    exact filter_not_mem_eq_nil active
  · rw [ZoneRecord.withoutAll_stack _ fun g mem => (h.groups g mem).1]
    refine List.filter_eq_nil_iff.mpr fun g mem => ?_
    obtain ⟨g, known, rfl⟩ := List.mem_map.mp mem
    rw [Group.withoutAll, filter_not_mem_eq_nil (suspended g known)]
    simp
  · rw [ZoneRecord.withoutAll_waiting]
    exact filter_not_mem_eq_nil waiting

/-- An ending of every tag clears the record. -/
theorem ZoneRecord.Sound.ended_all {r : ZoneRecord} (h : r.Sound) :
    r.ended (fun _ => true) (r.placedTags.filter fun _ => true) = r.cleared := by
  have whole : (r.placedTags.filter fun _ => true) = r.placedTags := List.filter_eq_self.mpr fun _ _ => rfl
  obtain ⟨zone, floor, policy, port, -⟩ := r.withoutAll_fixed r.placedTags
  obtain ⟨active, stack, waiting⟩ := h.withoutAll_placed
  have level := (h.withoutAll r.placedTags).level.mpr active
  rw [whole, ZoneRecord.ended, ZoneRecord.cleared]
  generalize r.withoutAll r.placedTags = q at zone floor policy port active stack waiting level
  cases held : q.reservation with
  | none => simp [ZoneRecord.dropped, ZoneRecord.unsuperseded, held, zone, floor, policy, port, active, stack, waiting, level]
  | some v =>
    simp [ZoneRecord.dropped, ZoneRecord.unsuperseded, ZoneRecord.unreserved, held, zone, floor, policy, port, active, stack,
      waiting, level]

theorem clearZoneAt_zone {s : State} (orderly : s.Orderly) {z : Nat} {r : ZoneRecord} (at_z : s.zone z = some r) :
    (clearZoneAt z s).zone z = some r.cleared := by
  have za := endTags_za orderly.distinct z .cleared (fun _ => true) (r.placedTags.filter fun _ => true)
  have at_e := zone_mapZone za (ZoneRecord.ended_zone _ _)
  rw [at_z, Option.map_some, (orderly.at_zone at_z).toSound.ended_all] at at_e
  unfold clearZoneAt endWhere
  simp only [at_z]
  split
  · exact at_e
  · rw [State.zone, settle_za_of_rests at_e (ZoneRecord.rests_of_bare rfl rfl)]
    exact at_e

/-- Settles O29. -/
theorem clearZoneEmptiesTheRecord : Obligations.ClearZoneEmptiesTheRecord := by
  intro zone r s safe high at_z
  have clears : clearZoneCommand zone s = answerCode .ok (clearZoneAt zone.toNat s) := onOwnZone_of_zone safe high at_z _
  refine ⟨clearZoneCommand zone s, rfl, ?_⟩
  rw [clears]
  exact ⟨rfl, clearZoneAt_zone safe.orderly at_z, (endWhere_rid safe.orderly.distinct .cleared _ zone.toNat).2⟩

/-! SET FLOOR (R83) -/

/-- The tags that were let in: of the active set and of the stack. -/
def ZoneRecord.seated (r : ZoneRecord) : List Tag := r.activeTags ++ r.stackTags

theorem activePass_seated {z : Nat} {own : Option Tag} {r : ZoneRecord} {a : Nat} {s t : State} (at_z : s.zone z = some r)
    (sound : r.Sound) (level : r.activeLevel = some a) (pass : activePass z own r a s = some t) :
    ∃ r', t.zone z = some r' ∧ r'.Sound ∧ r'.active ≠ [] ∧ r.seated ⊆ r'.seated := by
  have full := active_of_level sound level
  obtain ⟨r', at_t, nearer⟩ := activePass_nearer at_z sound level pass
  refine ⟨r', at_t, nearer.sound, ?_⟩
  cases waiting : r.waiting with
  | nil =>
    rw [activePass_of_none waiting] at pass
    cases pass
  | cons w rest =>
    by_cases due : r.Due a w
    · by_cases passes : w.level < r.floor
      · by_cases less : w.level < a
        · cases pass.symm.trans (activePass_of_displaces waiting less passes)
          cases at_t.symm.trans (displace_zone at_z sound level)
          rw [ZoneRecord.displaced_eq level]
          refine ⟨by simpa using ZoneRecord.promotable_ne_nil waiting, ?_⟩
          exact fun u mem => List.mem_append_right _ mem
        · cases pass.symm.trans (activePass_of_joins waiting (due.resolve_left less) passes)
          have at_j := zone_mapZone (joinActive_za z own w s) fun _ => rfl
          rw [at_z, Option.map_some] at at_j
          cases at_t.symm.trans at_j
          refine ⟨by simp [ZoneRecord.joined], fun u mem => ?_⟩
          rcases List.mem_append.mp mem with active | suspended
          · exact List.mem_append_left _ (by simp [ZoneRecord.activeTags, ZoneRecord.joined] at active ⊢; exact .inl active)
          · exact List.mem_append_right _ suspended
      · cases pass.symm.trans (activePass_of_fails waiting due (Nat.le_of_not_lt passes))
        have at_e := zone_mapZone (endRole_za z .floor w.tag s) fun _ => rfl
        rw [at_z, Option.map_some, sound.without_head waiting full] at at_e
        cases at_t.symm.trans at_e
        exact ⟨full, fun u mem => mem⟩
    · rw [activePass_of_not_due waiting due] at pass
      cases pass

theorem settleLoop_seated (z : Nat) (own : Option Tag) : ∀ (n : Nat) (s : State) (r : ZoneRecord), s.zone z = some r →
    r.Sound → r.active ≠ [] → ∃ r', (settleLoop z own n s).zone z = some r' ∧ r.seated ⊆ r'.seated
  | 0, _, r, at_z, _, _ => ⟨r, at_z, fun _ mem => mem⟩
  | n + 1, s, r, at_z, sound, full => by
    obtain ⟨a, level⟩ := Option.ne_none_iff_exists'.mp fun none => full (sound.level.mp none)
    unfold settleLoop
    split
    · exact ⟨r, at_z, fun _ mem => mem⟩
    · rename_i t pass
      obtain ⟨q, at_t, sound', full', kept⟩ := activePass_seated at_z sound level (settlePass_of_active at_z level ▸ pass)
      obtain ⟨r', at_u, kept'⟩ := settleLoop_seated z own n t q at_t sound' full'
      exact ⟨r', at_u, fun _ mem => kept' (kept mem)⟩

/-- Settling ends no active member of a zone that has one: each plays on or is suspended. -/
theorem settle_seated {z : Nat} {s : State} {r r' : ZoneRecord} (at_z : s.zone z = some r) (sound : r.Sound)
    (own : Option Tag) (wasActive : Bool) (at_t : (settle z own wasActive s).zone z = some r') {m : Member}
    (active : m ∈ r.active) : m.tag ∈ r'.seated := by
  obtain ⟨q, at_q, kept⟩ := settleLoop_seated z own r.passBound s r at_z sound (List.ne_nil_of_mem active)
  have same : (settle z own wasActive s).zone z = some q := by
    unfold settle
    simp only [at_z]
    split
    · rw [State.zone, post_za]
      exact at_q
    · exact at_q
  cases at_t.symm.trans same
  exact kept (List.mem_append_left _ (List.mem_map.mpr ⟨m, active, rfl⟩))

theorem ZoneRecord.mem_seated {r : ZoneRecord} {u : Tag} (seated : u ∈ r.seated) :
    ∃ m : Member, m.tag = u ∧ (m ∈ r.active ∨ ∃ g ∈ r.stack, m ∈ g.members) := by
  rcases List.mem_append.mp seated with active | suspended
  · obtain ⟨m, mem, tag⟩ := List.mem_map.mp active
    exact ⟨m, tag, .inl mem⟩
  · obtain ⟨g, known, inside⟩ := List.mem_flatMap.mp suspended
    obtain ⟨m, mem, tag⟩ := List.mem_map.mp inside
    exact ⟨m, tag, .inr ⟨g, known, mem⟩⟩

/-- Whether a record is at rest does not turn on its floor. -/
theorem ZoneRecord.Rests.floored {r : ZoneRecord} (h : r.Rests) (floor : Nat) :
    ({ r with floor := floor } : ZoneRecord).Rests := ⟨h.bare, h.waits⟩

theorem mapZone_zones (z : Nat) {g : ZoneRecord → ZoneRecord} (same : ∀ r, (g r).zone = r.zone) (l : List ZoneRecord) :
    (mapZone z g l).map (·.zone) = l.map (·.zone) := by
  rw [mapZone, List.map_map]
  refine List.map_congr_left fun q _ => ?_
  simp only [Function.comp]
  split
  · exact same q
  · rfl

theorem setFloorAt_of_zone {s : State} {z : Nat} {r : ZoneRecord} (at_z : s.zone z = some r) (floor : Nat) :
    setFloorAt z floor s = settle z none (!r.active.isEmpty)
      (post (.zoneFloor z floor) (updateZone z (fun r => { r with floor := floor }) s)) := by
  unfold setFloorAt
  rw [at_z]
  rfl

theorem setFloorAt_za (z floor : Nat) (s : State) :
    (post (.zoneFloor z floor) (updateZone z (fun r => { r with floor := floor }) s)).za =
      mapZone z (fun r => { r with floor := floor }) s.za := by
  rw [post_za]
  rfl

/-- At rest, the floor and the notice are all that changes. -/
theorem setFloorAt_of_rests {s : State} {z : Nat} {r : ZoneRecord} (at_z : s.zone z = some r) (rests : r.Rests)
    (floor : Nat) :
    setFloorAt z floor s = post (.zoneFloor z floor) (updateZone z (fun r => { r with floor := floor }) s) := by
  have at_f := zone_mapZone (setFloorAt_za z floor s) fun _ => rfl
  rw [at_z, Option.map_some] at at_f
  have plays : (!r.active.isEmpty && ({ r with floor := floor } : ZoneRecord).isIdle) = false := by
    cases empty : r.active.isEmpty <;> simp [ZoneRecord.isIdle, empty]
  rw [setFloorAt_of_zone at_z, settle_of_rests at_f (rests.floored floor), plays]
  rfl

theorem post_updateZone_eq (n : HostNotice) (z : Nat) (f : ZoneRecord → ZoneRecord) (s : State) :
    post n (updateZone z f s) = { s with
      za := s.za.map fun q => if q.zone = z then f q else q
      cp := (post n s).cp } := by
  rw [post_eq, post_cp_congr n (s := s) (t := updateZone z f s) rfl rfl]
  rfl

/-- Settles O30: settling keeps every member it finds among the active and the suspended. -/
theorem setFloorKeepsActiveMembers : Obligations.SetFloorKeepsActiveMembers := by
  intro zone floor r s safe high at_z
  have orderly := safe.orderly
  have sound := (orderly.at_zone at_z).toSound
  have command : setFloorCommand zone floor s = if isFloor floor.toNat then
      answerCode .ok (setFloorAt zone.toNat floor.toNat s) else answerCode .badArgs s := onOwnZone_of_zone safe high at_z _
  refine ⟨fun low_end high_end => ?_, fun outside => ?_⟩
  · have range : isFloor floor.toNat = true := by simp [isFloor, low_end, high_end]
    have sets := setFloorAt_of_zone at_z floor.toNat
    have za := setFloorAt_za zone.toNat floor.toNat s
    have at_f := zone_mapZone za fun _ => rfl
    rw [at_z, Option.map_some] at at_f
    have sound_f := sound.floored (f := floor.toNat) ⟨low_end, high_end⟩
    have distinct : (post (.zoneFloor zone.toNat floor.toNat)
        (updateZone zone.toNat (fun r => { r with floor := floor.toNat }) s)).ZonesDistinct := by
      have zones := mapZone_zones zone.toNat (g := fun r : ZoneRecord => { r with floor := floor.toNat }) (fun _ => rfl) s.za
      unfold State.ZonesDistinct
      rw [za, zones]
      exact orderly.distinct
    have narrows := settle_narrows zone.toNat none (!r.active.isEmpty) distinct
    refine ⟨?_, fun none_left => ?_, ?_, fun z' other => ?_⟩
    · refine congrArg Host.Outcome.next (command.trans ?_)
      rw [if_pos range, sets]
      rfl
    · have rests := rests_of_pass_none sound at_z none_left
      rw [← sets, setFloorAt_of_rests at_z rests, post_updateZone_eq]
    · obtain ⟨r', at_t, -⟩ := settle_rests at_f sound_f none (!r.active.isEmpty)
      obtain ⟨q, at_q, fixed, -⟩ := narrows.at_zone at_t
      cases at_f.symm.trans at_q
      have fixed : r'.zone = r.zone ∧ r'.port = r.port ∧ r'.policy = r.policy ∧ r'.floor = floor.toNat := by
        simpa [ZoneRecord.fixed] using fixed
      obtain ⟨-, -, policy, floor_eq⟩ := fixed
      exact ⟨r', at_t, floor_eq, policy, fun m active =>
        ZoneRecord.mem_seated (settle_seated at_f sound_f none _ at_t active)⟩
    · exact (narrows.other other).trans (zone_mapZone_other za (fun _ => rfl) other)
  · have range : isFloor floor.toNat = false := by
      cases test : isFloor floor.toNat with
      | false => rfl
      | true => exact absurd (by simpa [isFloor] using test) outside
    refine congrArg Host.Outcome.next (command.trans ?_)
    rw [range]
    rfl

/-! The endings that leave no role (R79 to R81) -/

/-- R81: cleanup at the owner. -/
theorem cleanupEndsEveryRoleOfThePeer : Clause.CleanupEndsEveryRoleOfThePeer := by
  intro peer cause s safe
  have rid := endEverywhere_rid (s := takeRequest .owner peer cause s) safe.orderly.distinct .originLost (·.origin == peer)
  refine ⟨_, rfl, (endEverywhere_quiet (b := false) .originLost _ _).cleanups, fun r known => ?_⟩
  obtain ⟨roles, superseded⟩ := rid r known
  exact ⟨fun u mem => by simpa using roles u mem, fun u same => by simpa using superseded u same⟩

/-- An ending of a tag leaves it no role, and in a lawful state no listen entry. -/
theorem rid_of_tag {s : State} {tag : Tag} (rid : ∀ r ∈ s.za, r.Rid (· == tag)) :
    ∀ r ∈ s.za, tag ∉ r.tags ∧ r.superseded ≠ some tag := by
  intro r known
  obtain ⟨roles, superseded⟩ := rid r known
  exact ⟨fun mem => by simpa using roles tag mem, fun same => by simpa using superseded tag same⟩

/-- R79: a WITHDRAW from the ring. -/
theorem withdrawEndsEveryRoleOfTheTag : Clause.WithdrawEndsEveryRoleOfTheTag := by
  intro bytes f slot generation s safe high member good other low_end high_end below room carries tag
  have arrives := exec_frameArrival_of_peer ⟨high, member, good, other, low_end, high_end, below, room⟩ carries
  have orderly := safe.orderly
  have rid := endEverywhere_rid orderly.distinct .withdrawn (· == tag)
  have acts := endEverywhere_acts .withdrawn (· == tag) s
  have gone := (acts.ledger orderly ((heard_iff s).mp safe.heard)).no_entry
    (roleCount_rid rid (beq_self_eq_true tag))
  exact ⟨_, arrives, gone, rid_of_tag rid⟩

/-- R80: a lapse. -/
theorem lapseEndsEveryRoleOfTheTag : Clause.LapseEndsEveryRoleOfTheTag := by
  intro tag e s safe entry
  have orderly := safe.orderly
  refine ⟨fun running => ?_, fun stopped => ?_⟩
  · have lapses : lapseExpiry tag s = lapseAtOwner tag (updateListen tag (fun e => { e with lapse := none }) s) := by
      unfold lapseExpiry
      rw [entry, Option.any_some, running, if_pos rfl]
    have rid := endEverywhere_rid (s := updateListen tag (fun e => { e with lapse := none }) s) orderly.distinct .silent
      (· == tag)
    have rid : ∀ r ∈ (lapseExpiry tag s).za, r.Rid (· == tag) := by
      rw [lapses]
      exact rid
    have gone := (lapseExpiry_ledger ((heard_iff s).mp safe.heard) orderly tag).no_entry
      (roleCount_rid rid (beq_self_eq_true tag))
    exact ⟨lapseExpiry tag s, rfl, gone, rid_of_tag rid⟩
  · refine congrArg Host.Outcome.next (?_ : lapseExpiry tag s = s)
    unfold lapseExpiry
    rw [entry, Option.any_some, stopped]
    rfl

/-- Settles O31: an ending everywhere leaves no role, and the account of the listen table then no entry. -/
theorem noRoleIsLeft : Obligations.NoRoleIsLeft :=
  ⟨cleanupEndsEveryRoleOfThePeer, withdrawEndsEveryRoleOfTheTag, lapseEndsEveryRoleOfTheTag⟩

end Sys2Proof.Machine
end


section
/-! SUPPORT. What an owner writes into the entries of a CLAIM and a COMMIT, and what a COMMIT's entry makes of its zone (R58, R66
to R70). -/

namespace Sys2Proof.Machine

/-! The entries, one by one -/

theorem eachEntry_length (take : WireEntry → State → WireEntry × State) : ∀ (entries : List WireEntry) (s : State),
    (eachEntry take entries s).1.length = entries.length
  | [], _ => rfl
  | e :: rest, s => congrArg (· + 1) (eachEntry_length take rest (take e s).2)

/-- Each entry is taken in a state that the entries before it have left. -/
theorem eachEntry_get {take : WireEntry → State → WireEntry × State} {R : State → Prop}
    (keeps : ∀ e s, R s → R (take e s).2) : ∀ (entries : List WireEntry) (s : State), R s → ∀ (i : Nat) (e : WireEntry),
    entries[i]? = some e → ∃ u, R u ∧ (eachEntry take entries s).1[i]? = some (take e u).1
  | [], _, _, i, e, at_i => by simp at at_i
  | e :: rest, s, h, 0, e', at_i => by
    cases at_i
    exact ⟨s, h, rfl⟩
  | e :: rest, s, h, i + 1, e', at_i => eachEntry_get keeps rest _ (keeps e s h) i e' at_i

theorem State.zone_isSome_iff (s : State) (z : Nat) : (s.zone z).isSome = true ↔ z ∈ s.za.map (·.zone) := by
  simp [State.zone, List.find?_isSome]

theorem Quiet.zone_isSome {s t : State} (h : Quiet false s t) (z : Nat) :
    (t.zone z).isSome = (s.zone z).isSome := by
  rw [Bool.eq_iff_iff, t.zone_isSome_iff, s.zone_isSome_iff, h.tame.zones]

theorem address_congr {s t : State} (config : t.config = s.config) : t.address = s.address := by
  unfold State.address
  rw [config]

theorem Quiet.address {b : Bool} {s t : State} (h : Quiet b s t) : t.address = s.address := address_congr h.config

/-- A station's address fits a byte. -/
theorem State.Coherent.address_small {s : State} (coherent : s.Coherent) : s.address < 256 := by
  unfold State.address
  split
  · rename_i c config
    have := (coherent.valid c config).station.address
    omega
  · omega

/-! The entries of a CLAIM (R4, R58) -/

theorem ZoneRecord.bid_ne_blank (r : ZoneRecord) (level : Nat) : r.bid level ≠ .blank := by
  unfold ZoneRecord.bid
  split
  · split <;> decide
  · split
    · decide
    · split
      · decide
      · split
        · split
          · split <;> decide
          · decide
        · decide

theorem ZoneRecord.converted_ne_blank (r : ZoneRecord) (mode : Mode) (wait : Bool) {v : Verdict} (h : v ≠ .blank) :
    r.converted mode wait v ≠ .blank := by
  unfold ZoneRecord.converted
  split
  · split <;> decide
  · split <;> decide
  · split <;> decide
  · exact h

theorem ZoneRecord.verdict_ne_blank (r : ZoneRecord) (t : Terms) : r.verdict t ≠ .blank := by
  unfold ZoneRecord.verdict
  split
  · decide
  · split
    · decide
    · exact r.converted_ne_blank _ _ (r.bid_ne_blank _)

theorem answer_ne_blank (z : Nat) (t : Terms) (r : ZoneRecord) (s : State) : (answer z t r s).1 ≠ .blank := by
  by_cases held : r.verdict t = .held
  · rw [answer_of_held z s held]
    split <;> simp
  · rw [answer_of_ne_held z s held]
    exact r.verdict_ne_blank t

theorem Verdict.code_range {v : Verdict} (h : v ≠ .blank) : 1 ≤ v.code.toNat ∧ v.code.toNat ≤ 7 := by
  cases v with
  | blank => exact absurd rfl h
  | _ => decide

theorem answerEntry_of_none {t : Terms} {e : WireEntry} {s : State} (none_at : s.zone e.zone.toNat = none) :
    answerEntry t e s = (e, s) := by
  unfold answerEntry
  rw [none_at]

theorem answerEntry_of_blank {t : Terms} {e : WireEntry} {r : ZoneRecord} {s : State} (at_z : s.zone e.zone.toNat = some r)
    (blank : e.verdict = 0 ∧ e.owner = 0) :
    answerEntry t e s = ({ e with verdict := (answer e.zone.toNat t r s).1.code, owner := byteOf s.address },
      (answer e.zone.toNat t r s).2) := by
  unfold answerEntry
  simp only [at_z, if_pos blank]

theorem answerEntry_of_answered {t : Terms} {e : WireEntry} {r : ZoneRecord} {s : State} (at_z : s.zone e.zone.toNat = some r)
    (answered : ¬(e.verdict = 0 ∧ e.owner = 0)) :
    answerEntry t e s = (e, post (.ownershipClash e.zone.toNat e.owner.toNat) s) := by
  unfold answerEntry
  simp only [at_z, if_neg answered]

/-- R4: an owner writes into its own BLANK entries alone. -/
theorem ownerWritesOnlyItsOwnEntries : Clause.OwnerWritesOnlyItsOwnEntries := by
  intro origin c s matched coherent
  refine ⟨eachEntry_length _ _ _, fun i e at_i => ?_⟩
  obtain ⟨u, quiet, taken⟩ := eachEntry_get (R := Quiet false s) (take := answerEntry (c.terms origin))
    (fun e u h => h.trans (answerEntry_quiet _ e u)) c.entries s (Quiet.refl _ s) i e at_i
  refine ⟨_, taken, fun ⟨owned, verdict, owner⟩ => ?_, fun not_own => ?_⟩
  · have some_at := quiet.zone_isSome e.zone.toNat
    rw [(coherent.zone_isSome_iff matched _).mpr owned] at some_at
    obtain ⟨r, at_z⟩ := Option.isSome_iff_exists.mp some_at
    rw [answerEntry_of_blank at_z ⟨verdict, owner⟩]
    refine ⟨rfl, rfl, ?_, Verdict.code_range (answer_ne_blank _ _ r u)⟩
    rw [quiet.address]
    exact toNat_byteOf coherent.address_small
  · cases at_z : u.zone e.zone.toNat with
    | none => rw [answerEntry_of_none at_z]
    | some r =>
      have owned : s.owns e.zone.toNat = true := by
        rw [← coherent.zone_isSome_iff matched, ← quiet.zone_isSome, at_z]
        rfl
      rw [answerEntry_of_answered at_z fun blank => not_own ⟨owned, blank⟩]

/-! The entries of a COMMIT (R66) -/

theorem commitHeld_ack (z : Nat) (t : Terms) (r : ZoneRecord) (s : State) : (commitHeld z t r s).1 ≠ .none := by
  unfold commitHeld
  split
  · simp only
    split
    · simp
    · split <;> simp
  · split <;> simp

theorem commitWaiting_ack (z : Nat) (t : Terms) (r : ZoneRecord) (s : State) : (commitWaiting z t r s).1 ≠ .none := by
  unfold commitWaiting
  split
  · simp
  · split
    · simp
    · split
      · simp
      · simp only
        split <;> simp

theorem Ack.code_range {a : Ack} (h : a ≠ .none) : 1 ≤ a.code.toNat ∧ a.code.toNat ≤ 8 := by
  cases a with
  | none => exact absurd rfl h
  | _ => decide

theorem verdictOfByte_held : verdictOfByte 1 = .held := rfl

theorem verdictOfByte_waiting : verdictOfByte 2 = .waiting := rfl

/-- The bytes that HELD and WAITING are read from. -/
theorem verdictOfByte_cases (b : Byte) : (b = 1 ∧ verdictOfByte b = .held) ∨ (b = 2 ∧ verdictOfByte b = .waiting) ∨
    (b ≠ 1 ∧ b ≠ 2 ∧ verdictOfByte b ≠ .held ∧ verdictOfByte b ≠ .waiting) := by
  by_cases held : b = 1
  · exact .inl ⟨held, held ▸ rfl⟩
  · by_cases waiting : b = 2
    · exact .inr (.inl ⟨waiting, waiting ▸ rfl⟩)
    · have one : b.toNat ≠ 1 := fun h => held (BitVec.eq_of_toNat_eq h)
      have two : b.toNat ≠ 2 := fun h => waiting (BitVec.eq_of_toNat_eq h)
      refine .inr (.inr ⟨held, waiting, ?_⟩)
      unfold verdictOfByte
      split <;> first | omega | exact ⟨by decide, by decide⟩

section Acknowledge
variable {t : Terms} {e : WireEntry} {r : ZoneRecord} {s : State}

theorem acknowledgeEntry_of_none (none_at : s.zone e.zone.toNat = none) : acknowledgeEntry t e s = (e, s) := by
  unfold acknowledgeEntry
  rw [none_at]

theorem acknowledgeEntry_of_other (at_z : s.zone e.zone.toNat = some r) (other : e.owner.toNat ≠ s.address) :
    acknowledgeEntry t e s = (e, s) := by
  unfold acknowledgeEntry
  simp only [at_z, if_neg other]

theorem acknowledgeEntry_of_refused (at_z : s.zone e.zone.toNat = some r) (held : verdictOfByte e.verdict ≠ .held)
    (waiting : verdictOfByte e.verdict ≠ .waiting) : acknowledgeEntry t e s = (e, s) := by
  unfold acknowledgeEntry
  simp only [at_z]
  split
  · rfl
  · rfl

theorem acknowledgeEntry_of_placed (at_z : s.zone e.zone.toNat = some r) (own : e.owner.toNat = s.address)
    (verdict : e.verdict = 1 ∨ e.verdict = 2) (placed : t.tag ∈ r.placedTags) :
    acknowledgeEntry t e s = ({ e with ack := 3 }, s) := by
  have placed := (r.isPlaced_iff t.tag).mpr placed
  unfold acknowledgeEntry
  rcases verdict with held | waiting
  · simp only [at_z, if_pos own, held, verdictOfByte_held, placed, if_true]
    rfl
  · simp only [at_z, if_pos own, waiting, verdictOfByte_waiting, placed, if_true]
    rfl

theorem isPlaced_of_not_mem {u : Tag} (new : u ∉ r.placedTags) : r.isPlaced u = false :=
  Bool.eq_false_iff.mpr fun placed => new ((r.isPlaced_iff u).mp placed)

theorem acknowledgeEntry_of_held (at_z : s.zone e.zone.toNat = some r) (own : e.owner.toNat = s.address)
    (held : e.verdict = 1) (new : t.tag ∉ r.placedTags) :
    acknowledgeEntry t e s = ({ e with ack := (commitHeld e.zone.toNat t r s).1.code }, (commitHeld e.zone.toNat t r s).2) := by
  unfold acknowledgeEntry
  simp only [at_z, if_pos own, held, verdictOfByte_held, isPlaced_of_not_mem new, Bool.false_eq_true, if_false]

theorem acknowledgeEntry_of_waiting (at_z : s.zone e.zone.toNat = some r) (own : e.owner.toNat = s.address)
    (waiting : e.verdict = 2) (new : t.tag ∉ r.placedTags) :
    acknowledgeEntry t e s =
      ({ e with ack := (commitWaiting e.zone.toNat t r s).1.code }, (commitWaiting e.zone.toNat t r s).2) := by
  unfold acknowledgeEntry
  simp only [at_z, if_pos own, waiting, verdictOfByte_waiting, isPlaced_of_not_mem new, Bool.false_eq_true, if_false]

/-- An own entry that carries HELD or WAITING is acknowledged, and nothing else of it is written. -/
theorem acknowledgeEntry_own (at_z : s.zone e.zone.toNat = some r) (own : e.owner.toNat = s.address)
    (verdict : e.verdict = 1 ∨ e.verdict = 2) :
    ∃ ack, ack ≠ Ack.none ∧ (acknowledgeEntry t e s).1 = { e with ack := ack.code } := by
  by_cases placed : t.tag ∈ r.placedTags
  · exact ⟨.lapsed, by decide, by rw [acknowledgeEntry_of_placed at_z own verdict placed]; rfl⟩
  · rcases verdict with held | waiting
    · exact ⟨_, commitHeld_ack _ t r s, by rw [acknowledgeEntry_of_held at_z own held placed]⟩
    · exact ⟨_, commitWaiting_ack _ t r s, by rw [acknowledgeEntry_of_waiting at_z own waiting placed]⟩

end Acknowledge

/-- R66: an owner acknowledges the HELD and WAITING entries that carry its address, alone. -/
theorem ownerAcknowledgesItsOwnEntries : Clause.OwnerAcknowledgesItsOwnEntries := by
  intro origin c s matched coherent
  refine ⟨eachEntry_length _ _ _, fun i e at_i => ?_⟩
  obtain ⟨u, quiet, taken⟩ := eachEntry_get (R := Quiet false s) (take := acknowledgeEntry (c.terms origin))
    (fun e u h => h.trans (acknowledgeEntry_quiet _ e u)) c.entries s (Quiet.refl _ s) i e at_i
  refine ⟨_, taken, fun ⟨owned, owner, verdict⟩ => ?_, fun not_own => ?_⟩
  · have some_at := quiet.zone_isSome e.zone.toNat
    rw [(coherent.zone_isSome_iff matched _).mpr owned] at some_at
    obtain ⟨r, at_z⟩ := Option.isSome_iff_exists.mp some_at
    obtain ⟨ack, given, written⟩ := acknowledgeEntry_own (t := c.terms origin) at_z (owner.trans quiet.address.symm) verdict
    rw [written]
    exact ⟨rfl, rfl, rfl, Ack.code_range given⟩
  · cases at_z : u.zone e.zone.toNat with
    | none => rw [acknowledgeEntry_of_none at_z]
    | some r =>
      have owned : s.owns e.zone.toNat = true := by
        rw [← coherent.zone_isSome_iff matched, ← quiet.zone_isSome, at_z]
        rfl
      by_cases owner : e.owner.toNat = u.address
      · rcases verdictOfByte_cases e.verdict with ⟨held, -⟩ | ⟨waiting, -⟩ | ⟨-, -, held, waiting⟩
        · exact absurd ⟨owned, owner.trans quiet.address, .inl held⟩ not_own
        · exact absurd ⟨owned, owner.trans quiet.address, .inr waiting⟩ not_own
        · rw [acknowledgeEntry_of_refused at_z held waiting]
      · rw [acknowledgeEntry_of_other at_z owner]

/-! Frames and contents -/

/-- R19, R20: a peer's CLAIM or COMMIT is answered and carried on. -/
theorem peerFramesAreAnsweredAndCarriedOn : Clause.PeerFramesAreAnsweredAndCarriedOn := by
  intro bytes f c s arrival
  exact ⟨fun carries => exec_frameArrival_of_peer arrival carries, fun carries => exec_frameArrival_of_peer arrival carries⟩

theorem termsIn_eq (origin : Nat) (c : Content) : Clause.termsIn origin c = c.terms origin := rfl

/-- R58, R66: entries are taken in list order, each whole before the next. -/
theorem entriesAreTakenInOrder : Clause.EntriesAreTakenInOrder := by
  intro origin c e rest s entries
  constructor
  · unfold claimAtOwner
    rw [entries]
    rfl
  · unfold commitAtOwner
    rw [entries]
    rfl

theorem claimAtOwner_one (origin : Nat) {c : Content} {e : WireEntry} (entries : c.entries = [e]) (s : State) :
    claimAtOwner origin c s =
      ({ c with entries := [(answerEntry (c.terms origin) e s).1] }, (answerEntry (c.terms origin) e s).2) := by
  unfold claimAtOwner
  rw [entries]
  rfl

theorem commitAtOwner_one (origin : Nat) {c : Content} {e : WireEntry} (entries : c.entries = [e]) (s : State) :
    commitAtOwner origin c s =
      ({ c with entries := [(acknowledgeEntry (c.terms origin) e s).1] }, (acknowledgeEntry (c.terms origin) e s).2) := by
  unfold commitAtOwner
  rw [entries]
  rfl

theorem content_one {c : Content} {e : WireEntry} (entries : c.entries = [e]) : { c with entries := [e] } = c := by
  rw [← entries]

/-- R4, R58: one entry of a CLAIM. -/
theorem oneEntryOfAClaim : Clause.OneEntryOfAClaim := by
  intro origin c e s entries
  have one := claimAtOwner_one origin entries s
  refine ⟨fun none_at => ?_, fun r at_z => ⟨fun verdict owner => ?_, fun answered => ?_⟩⟩
  · rw [one, answerEntry_of_none none_at, content_one entries]
  · rw [one, answerEntry_of_blank at_z ⟨verdict, owner⟩]
    rfl
  · rw [one, answerEntry_of_answered at_z answered, content_one entries]

/-- R5, R66: one entry of a COMMIT. -/
theorem oneEntryOfACommit : Clause.OneEntryOfACommit := by
  intro origin c e s entries
  have one := commitAtOwner_one origin entries s
  refine ⟨fun left => ?_, fun r at_z own => ⟨fun verdict placed => ?_, fun held new => ?_, fun waiting new => ?_⟩⟩
  · have same : acknowledgeEntry (c.terms origin) e s = (e, s) := by
      cases at_z : s.zone e.zone.toNat with
      | none => exact acknowledgeEntry_of_none at_z
      | some r =>
        rcases left with none_at | other | ⟨held, waiting⟩
        · rw [at_z] at none_at
          cases none_at
        · exact acknowledgeEntry_of_other at_z other
        · rcases verdictOfByte_cases e.verdict with ⟨is_held, -⟩ | ⟨is_waiting, -⟩ | ⟨-, -, not_held, not_waiting⟩
          · exact absurd is_held held
          · exact absurd is_waiting waiting
          · exact acknowledgeEntry_of_refused at_z not_held not_waiting
    rw [one, same, content_one entries]
  · rw [one, acknowledgeEntry_of_placed (t := c.terms origin) at_z own verdict placed]
  · rw [one, acknowledgeEntry_of_held (t := c.terms origin) at_z own held new]
    rfl
  · rw [one, acknowledgeEntry_of_waiting (t := c.terms origin) at_z own waiting new]
    rfl

/-- Settles O24. -/
theorem ownersWriteOnlyTheirEntries : Obligations.OwnersWriteOnlyTheirEntries :=
  ⟨ownerWritesOnlyItsOwnEntries, ownerAcknowledgesItsOwnEntries, peerFramesAreAnsweredAndCarriedOn, entriesAreTakenInOrder,
    oneEntryOfAClaim, oneEntryOfACommit⟩

/-! A HELD entry of a COMMIT (R67 to R69) -/

/-- With one record to a zone, a change of it may be written for that record alone. -/
theorem updateZone_congr {s : State} (d : s.ZonesDistinct) {z : Nat} {r : ZoneRecord} (at_z : s.zone z = some r)
    {f g : ZoneRecord → ZoneRecord} (same : f r = g r) : updateZone z f s = updateZone z g s :=
  congrArg (fun za => { s with za := za }) (mapZone_congr d at_z same)

theorem takeIn_eq {s : State} (d : s.ZonesDistinct) {z : Nat} {r : ZoneRecord} (at_z : s.zone z = some r) (t : Terms)
    (wasActive : Bool) {active : List Member} (same : active = r.active ++ [t.member]) :
    takeIn z t wasActive s = settle z none wasActive (post (.zoneGranted z t.tag) (reportStanding t.tag
      (updateZone z (fun r => { r with active := active, activeLevel := some t.level }) s))) := by
  have entered : enterActive z t s = reportStanding t.tag
      (updateZone z (fun r => { r with active := active, activeLevel := some t.level }) s) :=
    congrArg (reportStanding t.tag) (updateZone_congr d at_z (by rw [same]; rfl))
  unfold takeIn
  rw [entered]

theorem unreserved_zone {s : State} {z : Nat} {r : ZoneRecord} (at_z : s.zone z = some r) :
    (updateZone z (fun r => { r with reservation := none }) s).zone z = some r.unreserved := by
  rw [zone_mapZone (unreserve_za z s) fun _ => rfl, at_z]
  rfl

/-- R67 to R69: a HELD entry whose tag holds the reservation. -/
theorem commitTakesTheReservation : Clause.CommitTakesTheReservation := by
  intro z t r v s matched coherent at_z held tag member without entered
  have d := matched.distinct coherent
  have at_w : without.zone z = some r.unreserved := unreserved_zone at_z
  have d' : without.ZonesDistinct := by
    unfold State.ZonesDistinct
    rw [unreserve_za, mapZone_zones z (g := ZoneRecord.unreserved) fun _ => rfl]
    exact d
  have reserved : r.isReserved t.tag = true := by simp [ZoneRecord.isReserved, held, tag]
  have commits : commitHeld z t r s =
      if !r.passes t.level then (.floor, releaseRole t.tag without)
      else match r.admission t.level with
        | .sole => (.taken, takeIn z t (!r.active.isEmpty) without)
        | .push => (.taken, takeIn z t true (pushActive z without))
        | .join => (.taken, takeIn z t (!r.active.isEmpty) without)
        | .outranked => (.outranked, releaseRole t.tag without) := by
    unfold commitHeld
    refine (if_pos reserved).trans ?_
    cases r.admission t.level <;> rfl
  refine ⟨fun fails => ?_, fun passes => ?_⟩
  · rw [commits, if_pos (by simpa [ZoneRecord.passes] using fails)]
  · rw [commits, if_neg (by simpa [ZoneRecord.passes] using passes)]
    refine ⟨fun level empty => ?_, fun a level mix same room => ?_, fun a level full above => ?_, fun a level below => ?_⟩
    · have sole : r.admission t.level = .sole := by simp only [ZoneRecord.admission, level]
      rw [sole]
      exact congrArg _ (takeIn_eq d' at_w t _ (by rw [ZoneRecord.unreserved, empty]; rfl))
    · have join : r.admission t.level = .join := by
        simp only [ZoneRecord.admission, level, same, Nat.lt_irrefl, if_false]
        exact if_pos ⟨trivial, mix, room⟩
      rw [join]
      exact congrArg _ (takeIn_eq d' at_w t _ rfl)
    · have push : r.admission t.level = .push := by simp only [ZoneRecord.admission, level, above, if_true]
      have za := pushActive_unreserved_za at_z
      have at_p := zone_mapZone za fun q => q.unreserved.pushed_zone
      rw [at_z, Option.map_some] at at_p
      have d'' : (pushActive z without).ZonesDistinct := (pushActive_quiet (b := false) z without).distinct d'
      have bare : r.unreserved.pushed.active = [] := by simp only [ZoneRecord.pushed, ZoneRecord.unreserved, level]
      have wasActive : (!r.active.isEmpty) = true := by simpa using full
      rw [push]
      simp only [entered, wasActive]
      exact congrArg _ (takeIn_eq d'' at_p t true (by rw [bare]; rfl))
    · have outranked : r.admission t.level = .outranked := by
        have not_above : ¬t.level < a := by omega
        have no_room : ¬(t.level = a ∧ r.policy = .mix ∧ r.active.length < mixCapacity) := fun ⟨same, mix, room⟩ => by
          rcases below with less | ⟨-, stack | full⟩
          · omega
          · rw [mix] at stack
            cases stack
          · exact absurd room (Nat.not_lt.mpr full)
        simp only [ZoneRecord.admission, level, if_neg not_above, if_neg no_room]
      rw [outranked]

/-- R69: a HELD entry whose reservation is gone. -/
theorem lostReservationIsAnswered : Clause.LostReservationIsAnswered := by
  intro z t r s other
  have free : ¬r.isReserved t.tag = true := fun reserved => by
    unfold ZoneRecord.isReserved at reserved
    split at reserved
    · rename_i v held
      exact other v held (beq_iff_eq.mp reserved)
    · cases reserved
  unfold commitHeld
  exact ⟨fun superseded => by rw [if_neg free, if_pos superseded], fun not_superseded => by rw [if_neg free, if_neg not_superseded]⟩

/-- Settles O25. -/
theorem commitAnswersHeldEntries : Obligations.CommitAnswersHeldEntries := ⟨commitTakesTheReservation, lostReservationIsAnswered⟩

/-! A WAITING entry of a COMMIT (R70) -/

/-- Settles O26: the place is that of `insertWaiter`, and settling leaves the reservation. -/
theorem commitJoinsTheWaitList : Obligations.CommitJoinsTheWaitList := by
  intro z t r s
  have passing : t.level < r.floor → ¬(!r.passes t.level) = true := fun passes => by simpa [ZoneRecord.passes] using passes
  refine ⟨fun fails => ?_, fun passes full => ?_, fun passes room no_place => ?_, fun passes room place sorted matched coherent at_z => ?_⟩
  · unfold commitWaiting
    rw [if_pos (by simpa [ZoneRecord.passes] using fails)]
  · unfold commitWaiting
    rw [if_neg (passing passes), if_pos (show waitCapacity ≤ _ from full)]
  · unfold commitWaiting
    rw [if_neg (passing passes), if_neg (show ¬waitCapacity ≤ _ from Nat.not_le.mpr room), if_pos (by rw [no_place]; rfl)]
  · have d := matched.distinct coherent
    have joins : commitWaiting z t r s =
        (if ((settle z (some t.tag) (!r.active.isEmpty) (joinWaiting z t s)).zone z).any (·.isActive t.tag) then .taken
          else .queued, settle z (some t.tag) (!r.active.isEmpty) (joinWaiting z t s)) := by
      unfold commitWaiting
      rw [if_neg (passing passes), if_neg (show ¬waitCapacity ≤ _ from Nat.not_le.mpr room), if_neg (by rw [place]; decide)]
    have one : ∀ q ∈ s.za, q.zone = z → q = r := fun q mem hz => by
      have := d.zone mem
      rw [hz, at_z] at this
      exact (Option.some.inj this).symm
    have za := joinWaiting_za t at_z one
    have at_j := zone_mapZone za fun _ => rfl
    rw [at_z, Option.map_some] at at_j
    have d_j : (joinWaiting z t s).ZonesDistinct := (joinWaiting_quiet (b := false) z t place).distinct d
    obtain ⟨before, after, split, ahead, behind, placed⟩ := insertWaiter_split { tag := t.tag, level := t.level } sorted
    refine ⟨before, after, split, ahead, behind, ?_, fun r' at_t => ?_, by rw [joins]⟩
    · have at_taken : (takeReference t.tag t.gain t.duration s).zone z = some r := by
        rw [State.zone, takeReference_za]
        exact at_z
      have d_t : (takeReference t.tag t.gain t.duration s).ZonesDistinct := d.of_za (takeReference_za ..)
      have d_r := (dropReservation_quiet (b := false) z (· == t.tag) (takeReference t.tag t.gain t.duration s)).distinct d_t
      have at_r := zone_mapZone (dropReservation_za d_t z (· == t.tag)) fun q => q.dropped_zone _
      rw [at_taken, Option.map_some] at at_r
      have waiting : (r.dropped (· == t.tag)).waiting = r.waiting := by
        unfold ZoneRecord.dropped
        split <;> rfl
      have joined : joinWaiting z t s = reportStanding t.tag (updateZone z (fun r =>
          { r with waiting := before ++ { tag := t.tag, level := t.level } :: after })
            (dropReservation z (· == t.tag) (takeReference t.tag t.gain t.duration s))) :=
        congrArg (reportStanding t.tag) (updateZone_congr d_r at_r (by simp only [waiting, placed]))
      rw [joins, joined, dropReservation_own t.tag at_taken]
    · rw [joins] at at_t
      obtain ⟨q, at_q, -, -, reservation, -⟩ := (settle_narrows z (some t.tag) (!r.active.isEmpty) d_j).at_zone at_t
      cases at_j.symm.trans at_q
      exact reservation

end Sys2Proof.Machine
end


section
/-! SUPPORT. What ends a claim, a notice and a cleanup make of a slot (R87, R103 to R105, R111, R113). -/

namespace Sys2Proof.Machine

/-! A slot changed -/

theorem slot_set {s : State} {n : Nat} {k : Slot} (at_n : s.slot n = some k) (q : Slot) :
    (s.cu.set n q)[n]? = some q := by
  obtain ⟨inside, -⟩ := List.getElem?_eq_some_iff.mp at_n
  exact List.getElem?_set_self inside

theorem updateSlot_of_slot {s : State} {n : Nat} {k : Slot} (at_n : s.slot n = some k) (f : Slot → Slot) :
    updateSlot n f s = { s with cu := s.cu.set n (f k) } :=
  congrArg (fun cu => { s with cu := cu }) (modify_eq_set at_n f)

theorem Slot.withEntries_entries (k : Slot) (entries : List ZoneEntry) :
    (k.withEntries entries).entries = if k.info.isSome then entries else [] := by
  unfold Slot.entries Slot.withEntries
  cases k.info <;> rfl

theorem Slot.withEntries_issuer (k : Slot) (entries : List ZoneEntry) : (k.withEntries entries).issuer = k.issuer := by
  unfold Slot.issuer Slot.withEntries
  cases k.info <;> rfl

theorem Slot.info_isSome_of_mem {k : Slot} {e : ZoneEntry} (mem : e ∈ k.entries) : k.info.isSome = true := by
  unfold Slot.entries at mem
  split at mem
  · rename_i known
    rw [known]
    rfl
  · exact absurd mem List.not_mem_nil

/-- A post asks nothing of the slots, the keys or the records. -/
theorem post_with (n : HostNotice) (s : State) (za : List ZoneRecord) (cu : List Slot) (lu : List ListenEntry) (ku : List Key) :
    post n { s with za := za, cu := cu, lu := lu, ku := ku } =
      { s with za := za, cu := cu, lu := lu, ku := ku, cp := (post n s).cp } :=
  (post_eq n _).trans (congrArg (fun cp => { s with za := za, cu := cu, lu := lu, ku := ku, cp := cp })
    (post_cp_congr n (s := s) (t := { s with za := za, cu := cu, lu := lu, ku := ku }) rfl rfl))

/-! The end of a claim (R87, R105, R113) -/

/-- A slot returned to FREE with an outcome (R87). -/
def Slot.freed (outcome : ClaimOutcome) (k : Slot) : Slot :=
  { k with state := .free, outcome := some outcome, durationLeft := none, returnTimer := none }

/-- The notice that tells an outcome (R113). -/
def finishNotice (n : Nat) (k : Slot) (outcome : ClaimOutcome) : HostNotice :=
  if outcome.isEnding then .claimEnded n k.generation k.issuer outcome else .claimFailed n k.generation k.issuer outcome

theorem finishClaim_eq {s : State} {n : Nat} {k : Slot} (at_n : s.slot n = some k) (outcome : ClaimOutcome) :
    finishClaim n outcome s = { s with
      cu := s.cu.set n (k.freed outcome)
      ku := s.ku.map (Key.forget n k.generation)
      cp := (post (finishNotice n k outcome) s).cp } := by
  have freed : freeSlot n outcome s =
      { s with cu := s.cu.set n (k.freed outcome), ku := s.ku.map (Key.forget n k.generation) } := by
    unfold freeSlot
    simp only [at_n, updateSlot_of_slot at_n]
    rfl
  unfold finishClaim
  simp only [at_n, freed]
  exact post_with _ s s.za _ s.lu _

theorem finishClaim_slot {s : State} {n : Nat} {k : Slot} (at_n : s.slot n = some k) (outcome : ClaimOutcome) :
    (finishClaim n outcome s).slot n = some (k.freed outcome) := by
  rw [finishClaim_eq at_n]
  exact slot_set at_n _

theorem finishClaim_slot_ne {n m : Nat} (other : m ≠ n) (outcome : ClaimOutcome) (s : State) :
    (finishClaim n outcome s).slot m = s.slot m := by
  cases at_n : s.slot n with
  | none =>
    unfold finishClaim
    rw [at_n]
  | some k =>
    rw [finishClaim_eq at_n]
    exact List.getElem?_set_ne (Ne.symm other)

theorem allTerminalTest_of_slot {s : State} {n : Nat} {k : Slot} (at_n : s.slot n = some k) :
    allTerminalTest n s =
      if k.state = .live ∧ ∀ e ∈ k.entries, e.state.isTerminal = true then finishClaim n .done s else s := by
  unfold allTerminalTest
  simp only [at_n, List.all_eq_true]

theorem allTerminalTest_of_not_live {s : State} {n : Nat} {k : Slot} (at_n : s.slot n = some k) (not_live : k.state ≠ .live) :
    allTerminalTest n s = s := by
  rw [allTerminalTest_of_slot at_n, if_neg fun h => not_live h.1]

theorem allTerminalTest_slot_ne {n m : Nat} (other : m ≠ n) (s : State) : (allTerminalTest n s).slot m = s.slot m := by
  unfold allTerminalTest
  split
  · rfl
  · split
    · exact finishClaim_slot_ne other _ s
    · rfl

/-! A notice from an owner (R103, R104) -/

theorem concerns_iff (sender zone : Nat) (e : ZoneEntry) :
    Clause.concerns sender zone e = true ↔ e.zone = zone ∧ e.owner = some sender ∧ e.state.isTerminal = false := by
  simp [Clause.concerns, and_assoc]

/-- The entries that a notice concerns, after it. -/
def Slot.noticed (sender zone : Nat) (event : NoticeEvent) (k : Slot) : Slot :=
  k.withEntries (k.entries.map fun e => if Clause.concerns sender zone e then e.notice event else e)

theorem takesNotice_iff (k : Slot) (sender generation zone : Nat) : k.takesNotice sender generation zone = true ↔
    (k.state = .committing ∨ k.state = .live) ∧ k.generation = generation ∧ ∃ e ∈ k.entries, Clause.concerns sender zone e := by
  simp [Slot.takesNotice, Clause.concerns, and_assoc]

theorem applyNotice_of_ignored {s : State} {n : Nat} {sender generation zone : Nat} {event : NoticeEvent}
    (ignored : ∀ k, s.slot n = some k → k.takesNotice sender generation zone = false) :
    applyNotice sender n generation zone event s = s := by
  unfold applyNotice
  cases at_n : s.slot n with
  | none => rfl
  | some k => simp only [ignored k at_n, Bool.false_eq_true, if_false]

theorem applyNotice_of_taken {s : State} {n : Nat} {k : Slot} {sender generation zone : Nat} {event : NoticeEvent}
    (at_n : s.slot n = some k) (takes : k.takesNotice sender generation zone = true) :
    applyNotice sender n generation zone event s = allTerminalTest n { s with
      cu := s.cu.set n (k.noticed sender zone event)
      cp := (post (.claimZone n generation k.issuer zone event.entryState event.reason) s).cp } := by
  have entries : (k.entries.map fun e =>
      if e.zone = zone ∧ e.owner = some sender ∧ e.state.isTerminal = false then e.notice event else e) =
      k.entries.map fun e => if Clause.concerns sender zone e then e.notice event else e :=
    List.map_congr_left fun e _ => by simp only [concerns_iff]
  unfold applyNotice
  simp only [at_n, takes, if_true]
  rw [updateSlot_of_slot at_n, Slot.noticed, ← entries]
  exact congrArg _ (post_with _ s s.za _ s.lu s.ku)

theorem applyNotice_slot_ne {n m : Nat} (other : m ≠ n) (sender generation zone : Nat) (event : NoticeEvent) (s : State) :
    (applyNotice sender n generation zone event s).slot m = s.slot m := by
  unfold applyNotice
  split
  · rfl
  · split
    · refine (allTerminalTest_slot_ne other _).trans ?_
      rw [State.slot, post_cu]
      exact (slot_updateSlot n _ s m).trans (if_neg other)
    · rfl

/-- A notice that gives a place leaves the claim an entry that is not terminal. -/
theorem Slot.noticed_plays {k : Slot} {sender zone : Nat} {event : NoticeEvent}
    (concerned : ∃ e ∈ k.entries, Clause.concerns sender zone e) (plays : event.entryState.isTerminal = false) :
    ¬∀ e ∈ (k.noticed sender zone event).entries, e.state.isTerminal = true := by
  obtain ⟨e, mem, concerns⟩ := concerned
  intro all
  rw [Slot.noticed, Slot.withEntries_entries, Slot.info_isSome_of_mem mem, if_pos rfl] at all
  have := all _ (List.mem_map_of_mem mem)
  rw [if_pos concerns] at this
  exact absurd (plays.symm.trans this) (by decide)

/-- A notice that gives a place ends no claim. -/
theorem applyNotice_of_place {s : State} {n : Nat} {k : Slot} {sender generation zone : Nat} {event : NoticeEvent}
    (at_n : s.slot n = some k) (takes : k.takesNotice sender generation zone = true) (place : event.reason = none)
    (plays : event.entryState.isTerminal = false) :
    applyNotice sender n generation zone event s = { s with
      cu := s.cu.set n (k.noticed sender zone event)
      cp := (post (.claimZone n generation k.issuer zone event.entryState none) s).cp } := by
  obtain ⟨-, -, concerned⟩ := (takesNotice_iff ..).mp takes
  rw [applyNotice_of_taken at_n takes, place]
  have at_t : ∀ cp, State.slot { s with cu := s.cu.set n (k.noticed sender zone event), cp := cp } n =
      some (k.noticed sender zone event) := fun _ => slot_set at_n _
  exact (allTerminalTest_of_slot (at_t _)).trans (if_neg fun h => Slot.noticed_plays concerned plays h.2)

/-- The claim with its last place ended is DONE (R105). -/
theorem applyNotice_of_end {s : State} {n : Nat} {k : Slot} {sender generation zone : Nat} {why : Reason}
    (at_n : s.slot n = some k) (takes : k.takesNotice sender generation zone = true) (same : k.generation = generation) :
    applyNotice sender n generation zone (.ended why) s =
      if k.state = .live ∧ ∀ e ∈ (k.noticed sender zone (.ended why)).entries, e.state.isTerminal = true then
        { s with
          cu := s.cu.set n ((k.noticed sender zone (.ended why)).freed .done)
          ku := s.ku.map (Key.forget n k.generation)
          cp := (post (.claimEnded n k.generation k.issuer .done)
            (post (.claimZone n k.generation k.issuer zone .ended (some why)) s)).cp }
      else { s with
        cu := s.cu.set n (k.noticed sender zone (.ended why))
        cp := (post (.claimZone n k.generation k.issuer zone .ended (some why)) s).cp } := by
  have issuer : (k.noticed sender zone (.ended why)).issuer = k.issuer := k.withEntries_issuer _
  rw [applyNotice_of_taken at_n takes, ← same]
  generalize told_eq : post (.claimZone n k.generation k.issuer zone .ended (some why)) s = told
  have config : told.config = s.config := told_eq ▸ post_config _ _
  have at_t : State.slot { s with cu := s.cu.set n (k.noticed sender zone (.ended why)), cp := told.cp } n =
      some (k.noticed sender zone (.ended why)) := slot_set at_n _
  refine (congrArg (allTerminalTest n) (?_ : _ = { s with cu := s.cu.set n _, cp := told.cp })).trans
    ((allTerminalTest_of_slot at_t).trans ?_)
  · rw [← told_eq]
    rfl
  · by_cases last : k.state = .live ∧ ∀ e ∈ (k.noticed sender zone (.ended why)).entries, e.state.isTerminal = true
    · have cp := post_cp_congr (.claimEnded n k.generation k.issuer .done) (s := told)
        (t := { s with cu := s.cu.set n (k.noticed sender zone (.ended why)), cp := told.cp }) rfl config.symm
      refine (if_pos last).trans (Eq.trans ?_ (if_pos last).symm)
      rw [finishClaim_eq at_t, ← cp, ← issuer]
      simp only [List.set_set]
      rfl
    · exact (if_neg last).trans (if_neg last).symm

/-- The events of a NOTICE. -/
theorem noticeEvent_cases (event reason : Byte) :
    (event.toNat = 1 ∧ noticeEventOfBytes event reason = some .granted) ∨
    (event.toNat = 2 ∧ noticeEventOfBytes event reason = some .suspended) ∨
    (event.toNat = 3 ∧ noticeEventOfBytes event reason = some .resumed) ∨
    (event.toNat = 4 ∧ reason.toNat = 1 ∧ noticeEventOfBytes event reason = some (.ended .autoEnd)) ∨
    (event.toNat = 4 ∧ reason.toNat = 2 ∧ noticeEventOfBytes event reason = some (.ended .silent)) ∨
    (event.toNat = 4 ∧ reason.toNat = 3 ∧ noticeEventOfBytes event reason = some (.ended .floor)) ∨
    (event.toNat = 4 ∧ reason.toNat = 4 ∧ noticeEventOfBytes event reason = some (.ended .cleared)) ∨
    (¬(1 ≤ event.toNat ∧ event.toNat ≤ 3) ∧ ¬(event.toNat = 4 ∧ 1 ≤ reason.toNat ∧ reason.toNat ≤ 4) ∧
      noticeEventOfBytes event reason = none) := by
  unfold noticeEventOfBytes
  split <;> simp_all
  omega

/-- The reason an ENDED notice gives (R190). -/
def reasonGiven (reason : Byte) : Reason :=
  if reason = 1 then .autoEnd else if reason = 2 then .silent else if reason = 3 then .floor else .cleared

theorem byte_eq {b : Byte} {n : Nat} (value : b.toNat = n) : b = BitVec.ofNat 8 n :=
  BitVec.eq_of_toNat_eq (by rw [← value]; simp)

theorem noticeEvent_of_place {event reason : Byte} (low : 1 ≤ event.toNat) (high : event.toNat ≤ 3) :
    ∃ e, noticeEventOfBytes event reason = some e ∧ e.reason = none ∧
      e.entryState = (if event = 2 then EntryState.suspended else .active) ∧ e.entryState.isTerminal = false := by
  obtain one | two | three : event.toNat = 1 ∨ event.toNat = 2 ∨ event.toNat = 3 := by omega
  · rw [byte_eq one]
    exact ⟨.granted, rfl, rfl, rfl, rfl⟩
  · rw [byte_eq two]
    exact ⟨.suspended, rfl, rfl, rfl, rfl⟩
  · rw [byte_eq three]
    exact ⟨.resumed, rfl, rfl, rfl, rfl⟩

theorem noticeEvent_of_end {event reason : Byte} (ends : event = 4) (low : 1 ≤ reason.toNat) (high : reason.toNat ≤ 4) :
    noticeEventOfBytes event reason = some (.ended (reasonGiven reason)) := by
  obtain one | two | three | four : reason.toNat = 1 ∨ reason.toNat = 2 ∨ reason.toNat = 3 ∨ reason.toNat = 4 := by omega
  · rw [ends, byte_eq one]; rfl
  · rw [ends, byte_eq two]; rfl
  · rw [ends, byte_eq three]; rfl
  · rw [ends, byte_eq four]; rfl

theorem ZoneEntry.notice_of_place {event : NoticeEvent} (place : event.reason = none) (e : ZoneEntry) :
    e.notice event = { e with state := event.entryState } := by
  unfold ZoneEntry.notice
  rw [place]

/-- Settles O38. -/
theorem noticeSetsTheEntry : Obligations.NoticeSetsTheEntry := by
  intro bytes f slot generation zone event reason k s arrival carries at_n n takes setting known
  have arrives : exec (.frameArrival bytes false) s = .next (passOn f
      (if f.destination.toNat = s.address then noticeArrived f.origin.toNat slot generation zone event reason s else s)) :=
    exec_frameArrival_of_peer arrival carries
  have applied : ∀ e, noticeEventOfBytes event reason = some e →
      noticeArrived f.origin.toNat slot generation zone event reason s =
        applyNotice f.origin.toNat n generation.toNat zone.toNat e s := fun e given => by
    unfold noticeArrived
    rw [given]
  have taken : takes → f.destination.toNat = s.address ∧ k.takesNotice f.origin.toNat generation.toNat zone.toNat = true :=
    fun ⟨mine, rest⟩ => ⟨mine, (takesNotice_iff ..).mpr rest⟩
  refine ⟨fun ignored => ?_, fun takes low high => ?_, fun takes ends low high => ?_⟩
  · refine arrives.trans (congrArg Host.Outcome.next ((congrArg (passOn f) ?_).trans (passOn_eq f s)))
    by_cases mine : f.destination.toNat = s.address
    · rw [if_pos mine]
      cases given : noticeEventOfBytes event reason with
      | none =>
        unfold noticeArrived
        rw [given]
      | some e =>
        rw [applied e given]
        refine applyNotice_of_ignored fun q at_q => Bool.eq_false_iff.mpr fun takes' => ignored ⟨?_, ?_⟩
        · cases at_n.symm.trans at_q
          exact ⟨mine, (takesNotice_iff ..).mp takes'⟩
        · rcases noticeEvent_cases event reason with h | h | h | h | h | h | h | ⟨-, -, none_given⟩
          · exact .inl (by omega)
          · exact .inl (by omega)
          · exact .inl (by omega)
          · exact .inr ⟨byte_eq h.1, by omega⟩
          · exact .inr ⟨byte_eq h.1, by omega⟩
          · exact .inr ⟨byte_eq h.1, by omega⟩
          · exact .inr ⟨byte_eq h.1, by omega⟩
          · rw [given] at none_given
            cases none_given
    · rw [if_neg mine]
  · obtain ⟨mine, takes'⟩ := taken takes
    obtain ⟨-, -, same, concerned⟩ := takes
    obtain ⟨e, given, place, state, plays⟩ := noticeEvent_of_place (reason := reason) low high
    have noticed : k.noticed f.origin.toNat zone.toNat e = setting fun e =>
        { e with state := if event = 2 then .suspended else .active } := by
      rw [Slot.noticed]
      simp only [ZoneEntry.notice_of_place place, state, setting]
    rw [arrives, if_pos mine, applied e given, applyNotice_of_place at_n takes' place plays, noticed, ← same, state]
    rfl
  · obtain ⟨mine, takes'⟩ := taken takes
    obtain ⟨-, -, same, concerned⟩ := takes
    have given := noticeEvent_of_end ends low high
    rw [arrives, if_pos mine, applied _ given, applyNotice_of_end at_n takes' same]
    by_cases last : k.state = .live ∧
        ∀ e ∈ (k.noticed f.origin.toNat zone.toNat (.ended (reasonGiven reason))).entries, e.state.isTerminal = true
    · rw [if_pos last]
      exact congrArg Host.Outcome.next (Eq.trans rfl (if_pos last).symm)
    · rw [if_neg last]
      exact congrArg Host.Outcome.next (Eq.trans rfl (if_neg last).symm)

/-! Cleanup at the origin (R111) -/

/-- A slot whose entries with a peer are LOST. -/
def Slot.losing (peer : Nat) (k : Slot) : Slot :=
  k.withEntries (k.entries.map fun e => if e.isLostWith peer then { e with state := .lost } else e)

/-- What cleanup for a peer makes of a slot. -/
def Slot.cleaned (peer : Nat) (k : Slot) : Slot :=
  if (k.state = .committing ∨ k.state = .live) ∧ k.entries.any (ZoneEntry.isLostWith peer) then
    if k.state = .live ∧ ∀ e ∈ (k.losing peer).entries, e.state.isTerminal = true then (k.losing peer).freed .done
    else k.losing peer
  else k

/-- A state that differs in its slots, its keys and its Control Port alone. -/
def OnlySlots (s t : State) : Prop := t = { s with cu := t.cu, ku := t.ku, cp := t.cp }

theorem OnlySlots.refl (s : State) : OnlySlots s s := rfl

theorem OnlySlots.trans {s t u : State} (h : OnlySlots s t) (k : OnlySlots t u) : OnlySlots s u :=
  Eq.trans k (congrArg (fun x : State => { x with cu := u.cu, ku := u.ku, cp := u.cp }) h)

theorem OnlySlots.cleanups {s t : State} (h : OnlySlots s t) : t.cleanups = s.cleanups := (congrArg State.cleanups h : _)
theorem OnlySlots.rp {s t : State} (h : OnlySlots s t) : t.rp = s.rp := (congrArg State.rp h : _)
theorem OnlySlots.pu {s t : State} (h : OnlySlots s t) : t.pu = s.pu := (congrArg State.pu h : _)
theorem OnlySlots.za {s t : State} (h : OnlySlots s t) : t.za = s.za := (congrArg State.za h : _)
theorem OnlySlots.lu {s t : State} (h : OnlySlots s t) : t.lu = s.lu := (congrArg State.lu h : _)
theorem OnlySlots.config {s t : State} (h : OnlySlots s t) : t.config = s.config := (congrArg State.config h : _)

theorem post_onlySlots (n : HostNotice) (s : State) : OnlySlots s (post n s) := by
  unfold post
  split <;> rfl

theorem finishClaim_onlySlots (n : Nat) (outcome : ClaimOutcome) (s : State) : OnlySlots s (finishClaim n outcome s) := by
  cases at_n : s.slot n with
  | none =>
    unfold finishClaim
    rw [at_n]
    exact OnlySlots.refl s
  | some k =>
    rw [finishClaim_eq at_n]
    rfl

theorem allTerminalTest_onlySlots (n : Nat) (s : State) : OnlySlots s (allTerminalTest n s) := by
  unfold allTerminalTest
  split
  · exact OnlySlots.refl s
  · split
    · exact finishClaim_onlySlots n _ s
    · exact OnlySlots.refl s

theorem forEach_onlySlots {α : Type} {act : α → State → State} (one : ∀ a s, OnlySlots s (act a s)) :
    ∀ (items : List α) (s : State), OnlySlots s (forEach items act s)
  | [], s => OnlySlots.refl s
  | a :: rest, s => (one a s).trans (forEach_onlySlots one rest (act a s))

theorem forEach_cu {α : Type} {act : α → State → State} (one : ∀ a s, (act a s).cu = s.cu) :
    ∀ (items : List α) (s : State), (forEach items act s).cu = s.cu
  | [], _ => rfl
  | a :: rest, s => (forEach_cu one rest (act a s)).trans (one a s)

/-- The slots with the lost entries marked, and each told. -/
def markLost (peer n : Nat) (k : Slot) (s : State) : State :=
  forEach (k.entries.filter (ZoneEntry.isLostWith peer)) (fun e => post (.claimZone n k.generation k.issuer e.zone .lost none))
    { s with cu := s.cu.set n (k.losing peer) }

theorem markLost_onlySlots (peer n : Nat) (k : Slot) (s : State) : OnlySlots s (markLost peer n k s) :=
  OnlySlots.trans (t := { s with cu := s.cu.set n (k.losing peer) }) rfl (forEach_onlySlots (fun _ _ => post_onlySlots _ _) _ _)

theorem markLost_cu (peer n : Nat) (k : Slot) (s : State) : (markLost peer n k s).cu = s.cu.set n (k.losing peer) :=
  forEach_cu (fun _ _ => post_cu _ _) _ _

theorem cleanupSlot_of_slot {s : State} {n : Nat} {k : Slot} (at_n : s.slot n = some k) (peer : Nat) :
    cleanupSlot peer n s =
      if (k.state = .committing ∨ k.state = .live) ∧ k.entries.any (ZoneEntry.isLostWith peer) then
        allTerminalTest n (markLost peer n k s) else s := by
  unfold cleanupSlot
  simp only [at_n, updateSlot_of_slot at_n]
  rfl

theorem cleanupSlot_of_none {s : State} {n : Nat} (none_at : s.slot n = none) (peer : Nat) : cleanupSlot peer n s = s := by
  unfold cleanupSlot
  rw [none_at]

theorem cleanupSlot_onlySlots (peer n : Nat) (s : State) : OnlySlots s (cleanupSlot peer n s) := by
  cases at_n : s.slot n with
  | none =>
    rw [cleanupSlot_of_none at_n]
    exact OnlySlots.refl s
  | some k =>
    rw [cleanupSlot_of_slot at_n]
    split
    · exact (markLost_onlySlots peer n k s).trans (allTerminalTest_onlySlots n _)
    · exact OnlySlots.refl s

theorem cleanupSlot_slot_ne {n m : Nat} (other : m ≠ n) (peer : Nat) (s : State) :
    (cleanupSlot peer n s).slot m = s.slot m := by
  cases at_n : s.slot n with
  | none => rw [cleanupSlot_of_none at_n]
  | some k =>
    rw [cleanupSlot_of_slot at_n]
    split
    · rw [allTerminalTest_slot_ne other, State.slot, markLost_cu]
      exact List.getElem?_set_ne (Ne.symm other)
    · rfl

theorem cleanupSlot_slot (peer n : Nat) (s : State) : (cleanupSlot peer n s).slot n = (s.slot n).map (Slot.cleaned peer) := by
  cases at_n : s.slot n with
  | none => rw [cleanupSlot_of_none at_n, at_n, Option.map_none]
  | some k =>
    rw [cleanupSlot_of_slot at_n, Option.map_some, Slot.cleaned]
    by_cases loses : (k.state = .committing ∨ k.state = .live) ∧ k.entries.any (ZoneEntry.isLostWith peer)
    · have at_t : (markLost peer n k s).slot n = some (k.losing peer) := by
        rw [State.slot, markLost_cu]
        exact slot_set at_n _
      rw [if_pos loses, if_pos loses, allTerminalTest_of_slot at_t]
      by_cases last : k.state = .live ∧ ∀ e ∈ (k.losing peer).entries, e.state.isTerminal = true
      · rw [if_pos last]
        exact (congrArg (State.slot · n) (if_pos last)).trans (finishClaim_slot at_t _)
      · rw [if_neg last]
        exact (congrArg (State.slot · n) (if_neg last)).trans at_t
    · rw [if_neg loses, if_neg loses, at_n]

/-- Each slot of a list taken in turn, each by itself. -/
theorem forEach_slot {act : Nat → State → State} {g : Slot → Slot} (own : ∀ n s, (act n s).slot n = (s.slot n).map g)
    (other : ∀ n m s, m ≠ n → (act n s).slot m = s.slot m) (n : Nat) : ∀ (slots : List Nat) (s : State), slots.Nodup →
    (forEach slots act s).slot n = if n ∈ slots then (s.slot n).map g else s.slot n
  | [], _, _ => by simp [forEach]
  | m :: rest, s, distinct => by
    obtain ⟨new, distinct⟩ := List.nodup_cons.mp distinct
    refine (forEach_slot own other n rest (act m s) distinct).trans ?_
    by_cases same : n = m
    · rw [same, if_neg new, if_pos List.mem_cons_self, own]
    · rw [other m n s same]
      simp [same]

theorem Slot.losing_entries (peer : Nat) (k : Slot) :
    (k.losing peer).entries = k.entries.map fun e => if e.isLostWith peer then { e with state := .lost } else e := by
  rw [Slot.losing, Slot.withEntries_entries]
  split
  · rfl
  · rename_i none
    unfold Slot.entries
    cases known : k.info with
    | none => rfl
    | some i => simp [known] at none

theorem isLostWith_iff (peer : Nat) (e : ZoneEntry) :
    e.isLostWith peer = true ↔ e.state.isTerminal = false ∧ e.owner = some peer := by
  simp [ZoneEntry.isLostWith]

theorem Slot.cleaned_entries (peer : Nat) {k : Slot} (playing : k.state = .committing ∨ k.state = .live) :
    (k.cleaned peer).entries = k.entries.map fun e =>
      if e.state.isTerminal = false ∧ e.owner = some peer then { e with state := .lost } else e := by
  have same : (k.losing peer).entries = k.entries.map fun e =>
      if e.state.isTerminal = false ∧ e.owner = some peer then { e with state := .lost } else e := by
    rw [k.losing_entries]
    exact List.map_congr_left fun e _ => by simp only [isLostWith_iff]
  unfold Slot.cleaned
  split
  · split
    · exact same
    · exact same
  · rename_i none_lost
    refine ((List.map_congr_left fun e mem => if_neg fun lost => none_lost ⟨playing, ?_⟩).trans (List.map_id _)).symm
    exact List.any_eq_true.mpr ⟨e, mem, (isLostWith_iff peer e).mpr lost⟩

/-- Settles O39. -/
theorem cleanupMarksEntriesLost : Obligations.CleanupMarksEntriesLost := by
  intro peer cause s shaped
  have only : OnlySlots (takeRequest .origin peer cause s) (cleanupAtOrigin peer (takeRequest .origin peer cause s)) :=
    forEach_onlySlots (cleanupSlot_onlySlots peer) _ _
  refine ⟨_, rfl, only.cleanups, only.za, only.rp, only.lu, only.pu, fun n k at_n => ?_⟩
  have inside : n < 8 := by
    obtain ⟨inside, -⟩ := List.getElem?_eq_some_iff.mp at_n
    rw [shaped.slots] at inside
    exact inside
  have at_t : (cleanupAtOrigin peer (takeRequest .origin peer cause s)).slot n = some (k.cleaned peer) := by
    refine (forEach_slot (cleanupSlot_slot peer) (fun n m s other => cleanupSlot_slot_ne other peer s) n _ _
      List.nodup_range).trans ?_
    rw [if_pos (List.mem_range.mpr inside)]
    exact congrArg (Option.map _) at_n
  rw [at_t]
  refine ⟨fun idle => ?_, fun playing => ?_, fun committing => ?_, fun live ⟨e, mem, lost⟩ all => ?_⟩
  · have not_playing : ¬(k.state = .committing ∨ k.state = .live) := by
      rcases idle with free | asking
      · rw [free]; decide
      · rw [asking]; decide
    rw [Slot.cleaned, if_neg fun h => not_playing h.1]
  · rw [Option.map_some, Slot.cleaned_entries peer playing]
  · have not_live : ¬k.state = .live := by rw [committing]; decide
    have stays : (k.cleaned peer).state = .committing := by
      unfold Slot.cleaned
      split
      · rw [if_neg fun h => not_live h.1]
        exact committing
      · exact committing
    exact congrArg some stays
  · have some_lost : k.entries.any (ZoneEntry.isLostWith peer) = true :=
      List.any_eq_true.mpr ⟨e, mem, (isLostWith_iff peer e).mpr lost⟩
    have last : ∀ e ∈ (k.losing peer).entries, e.state.isTerminal = true := fun q known => by
      rw [k.losing_entries] at known
      obtain ⟨e, mem, rfl⟩ := List.mem_map.mp known
      by_cases lost : e.isLostWith peer = true
      · rw [if_pos lost]
        rfl
      · rw [if_neg lost]
        rcases all e mem with terminal | owner
        · exact terminal
        · refine Classical.byContradiction fun plays => ?_
          exact lost ((isLostWith_iff peer e).mpr ⟨by simpa using plays, owner⟩)
    rw [Slot.cleaned, if_pos ⟨.inr live, some_lost⟩, if_pos ⟨live, last⟩]
    rfl

end Sys2Proof.Machine
end


section
/-! SUPPORT. Which claims the Zone Arbiter tells of what it does, and what that leaves of the slots and the forward queue (R77, R78):
a withdrawal tells no claim of its own tag. -/

namespace Sys2Proof.Machine

/-! Telling -/

/-- What is done with no change of slot, key or frame but by events told to tags that satisfy `p`. -/
inductive Tells (p : Tag → Prop) : State → State → Prop
  | still {s t : State} (cu : t.cu = s.cu) (ku : t.ku = s.ku) (config : t.config = s.config) (rp : t.rp = s.rp) : Tells p s t
  | tell (z : Nat) {t : Tag} (e : NoticeEvent) (s : State) (meant : p t) : Tells p s (notify z t e s)
  | trans {s t u : State} (h : Tells p s t) (k : Tells p t u) : Tells p s u

/-- Every tag. -/
def anyTag : Tag → Prop := fun _ => True

section Sweep
variable {p : Tag → Prop}

theorem Tells.refl (s : State) : Tells p s s := .still rfl rfl rfl rfl

theorem OnlyZones.ku {s t : State} (h : OnlyZones s t) : t.ku = s.ku := (congrArg State.ku h : _)
theorem OnlyZones.config {s t : State} (h : OnlyZones s t) : t.config = s.config := (congrArg State.config h : _)

theorem OnlyZones.tells {s t : State} (h : OnlyZones s t) : Tells p s t := .still h.cu h.ku h.config h.rp

theorem post_tells (n : HostNotice) (s : State) : Tells p s (post n s) :=
  .still (post_cu n s) (post_ku n s) (post_config n s) (post_rp n s)

theorem dropReservation_onlyZones (z : Nat) (q : Tag → Bool) (s : State) : OnlyZones s (dropReservation z q s) := by
  unfold dropReservation
  split
  · exact OnlyZones.refl s
  · split
    · exact (updateZone_onlyZones z _ s).trans (releaseRole_onlyZones _ _)
    · exact OnlyZones.refl s

theorem dropSuperseded_onlyZones (z : Nat) (q : Tag → Bool) (s : State) : OnlyZones s (dropSuperseded z q s) :=
  updateZone_onlyZones z _ s

theorem forEach_tells {α : Type} {act : α → State → State} : ∀ (items : List α) (s : State),
    (∀ a ∈ items, ∀ s, Tells p s (act a s)) → Tells p s (forEach items act s)
  | [], s, _ => .refl s
  | a :: rest, s, h => (h a List.mem_cons_self s).trans
      (forEach_tells rest (act a s) fun b mem => h b (List.mem_cons_of_mem a mem))

/-- The end of a role is told where its reason travels (R14). -/
theorem endRole_tells (z : Nat) {reason : Reason} {t : Tag} (meant : reason.travels = true → p t) (s : State) :
    Tells p s (endRole z reason t s) := by
  have released := (updateZone_onlyZones z (·.without t) s).trans (releaseRole_onlyZones t _)
  unfold endRole
  simp only
  split
  · exact released.tells.trans (.tell z _ _ (meant ‹_›))
  · exact released.tells.trans (post_tells _ _)

/-- Every tag placed in a zone satisfies `p`. -/
def PlacedAt (z : Nat) (p : Tag → Prop) (s : State) : Prop := s.AtZone z fun r => ∀ u ∈ r.placedTags, p u

theorem Narrows.placedAt {z : Nat} {s t : State} (h : Narrows z s t) (placed : PlacedAt z p s) : PlacedAt z p t :=
  fun _ at_t u mem => by
    obtain ⟨r, at_z, -, places, -⟩ := h.at_zone at_t
    exact placed r at_z u (places mem)

theorem ZoneRecord.active_placed {r : ZoneRecord} {m : Member} (mem : m ∈ r.active) : m.tag ∈ r.placedTags :=
  List.mem_append_left _ (List.mem_append_left _ (List.mem_map_of_mem mem))

theorem ZoneRecord.suspended_placed {r : ZoneRecord} {g : Group} (known : g ∈ r.stack) {m : Member} (mem : m ∈ g.members) :
    m.tag ∈ r.placedTags :=
  List.mem_append_left _ (List.mem_append_right _ (List.mem_flatMap.mpr ⟨g, known, List.mem_map_of_mem mem⟩))

theorem ZoneRecord.waiting_placed {r : ZoneRecord} {w : Waiter} (mem : w ∈ r.waiting) : w.tag ∈ r.placedTags :=
  List.mem_append_right _ (List.mem_map_of_mem mem)

theorem reportAndTell_tells (z : Nat) {t : Tag} (e : NoticeEvent) (meant : p t) (s : State) :
    Tells p s (notify z t e (reportStanding t s)) :=
  (updateListen_onlyZones t _ s).tells.trans (.tell z e _ meant)

theorem pushActive_tells {z : Nat} {s : State} (placed : PlacedAt z p s) : Tells p s (pushActive z s) := by
  unfold pushActive
  split
  · exact .refl s
  · rename_i r at_z
    exact (updateZone_onlyZones z _ s).tells.trans (forEach_tells _ _ fun m mem s =>
      reportAndTell_tells z _ (placed r at_z _ (ZoneRecord.active_placed mem)) s)

theorem resumeGroup_tells {z : Nat} {s : State} (placed : PlacedAt z p s) : Tells p s (resumeGroup z s) := by
  unfold resumeGroup
  split
  · exact .refl s
  · rename_i g top
    obtain ⟨r, at_z, head⟩ := Option.bind_eq_some_iff.mp top
    exact (updateZone_onlyZones z _ s).tells.trans (forEach_tells _ _ fun m mem s =>
      reportAndTell_tells z _ (placed r at_z _ (ZoneRecord.suspended_placed (List.mem_of_head? head) mem)) s)

theorem grant_tells (z : Nat) (own : Option Tag) {w : Waiter} (meant : p w.tag) (s : State) : Tells p s (grant z own w s) := by
  unfold grant
  simp only
  split
  · exact (updateListen_onlyZones w.tag _ s).tells.trans (post_tells _ _)
  · exact reportAndTell_tells z _ meant s

theorem promote_tells {z : Nat} {s : State} (own : Option Tag) (placed : PlacedAt z p s) : Tells p s (promote z own s) := by
  unfold promote
  split
  · exact .refl s
  · rename_i r at_z
    refine (updateZone_onlyZones z _ s).tells.trans (forEach_tells _ _ fun w mem s => grant_tells z own ?_ s)
    rw [r.promotable_eq] at mem
    exact placed r at_z _ (ZoneRecord.waiting_placed (List.mem_of_mem_take mem))

theorem joinActive_tells (z : Nat) (own : Option Tag) {w : Waiter} (meant : p w.tag) (s : State) :
    Tells p s (joinActive z own w s) :=
  (updateZone_onlyZones z _ s).tells.trans (grant_tells z own meant _)

theorem ZoneRecord.pruned_placed {r : ZoneRecord} {t : Tag} (mem : t ∈ r.pruned) : t ∈ r.placedTags := by
  rcases (r.mem_pruned t).mp mem with ⟨g, top, m, member, rfl⟩ | ⟨w, known, -, rfl⟩
  · exact ZoneRecord.suspended_placed (List.takeWhile_subset _ top) member
  · exact ZoneRecord.waiting_placed known

/-- A pass tells the tags placed in its zone, and gives no other a place. -/
theorem emptyPass_tells {z : Nat} {own : Option Tag} {r : ZoneRecord} {s t : State} (at_z : s.zone z = some r)
    (placed : PlacedAt z p s) (pass : emptyPass z own r s = some t) : Tells p s t ∧ PlacedAt z p t := by
  have pruned : Tells p s (forEach r.pruned (endRole z .floor) s) := forEach_tells _ s fun u mem s =>
    endRole_tells z (fun _ => placed r at_z u (ZoneRecord.pruned_placed mem)) s
  have placed' := (endRoles_narrows z .floor r.pruned s).placedAt placed
  unfold emptyPass at pass
  simp only at pass
  split at pass
  · cases pass
    exact ⟨pruned.trans (resumeGroup_tells placed'), (resumeGroup_narrows z _).placedAt placed'⟩
  · cases pass
    exact ⟨pruned.trans (promote_tells own placed'), (promote_narrows z own _).placedAt placed'⟩
  · split at pass
    · cases pass
    · cases pass
      exact ⟨pruned, placed'⟩

theorem activePass_tells {z : Nat} {own : Option Tag} {r : ZoneRecord} {a : Nat} {s t : State} (at_z : s.zone z = some r)
    (placed : PlacedAt z p s) (pass : activePass z own r a s = some t) : Tells p s t ∧ PlacedAt z p t := by
  cases waiting : r.waiting with
  | nil =>
    rw [activePass_of_none waiting] at pass
    cases pass
  | cons w rest =>
    have meant : p w.tag := placed r at_z _ (ZoneRecord.waiting_placed (by simp [waiting]))
    by_cases due : r.Due a w
    · by_cases passes : w.level < r.floor
      · by_cases less : w.level < a
        · cases pass.symm.trans (activePass_of_displaces waiting less passes)
          have placed' := (pushActive_narrows z s).placedAt placed
          exact ⟨(pushActive_tells placed).trans (promote_tells own placed'), (promote_narrows z own _).placedAt placed'⟩
        · cases pass.symm.trans (activePass_of_joins waiting (due.resolve_left less) passes)
          refine ⟨joinActive_tells z own meant s, fun q at_t u mem => ?_⟩
          rw [zone_mapZone (joinActive_za z own w s) fun _ => rfl, at_z] at at_t
          cases at_t
          exact placed r at_z u (ZoneRecord.joined_placedTags_subset waiting rfl mem)
      · cases pass.symm.trans (activePass_of_fails waiting due (Nat.le_of_not_lt passes))
        exact ⟨endRole_tells z (fun _ => meant) s, (endRole_narrows z .floor w.tag s).placedAt placed⟩
    · rw [activePass_of_not_due waiting due] at pass
      cases pass

theorem settlePass_tells {z : Nat} {own : Option Tag} {s t : State} (placed : PlacedAt z p s)
    (pass : settlePass z own s = some t) : Tells p s t ∧ PlacedAt z p t := by
  cases at_z : s.zone z with
  | none =>
    unfold settlePass at pass
    rw [at_z] at pass
    cases pass
  | some r =>
    cases level : r.activeLevel with
    | none => exact emptyPass_tells at_z placed (settlePass_of_empty at_z level ▸ pass)
    | some a => exact activePass_tells at_z placed (settlePass_of_active at_z level ▸ pass)

theorem settleLoop_tells (z : Nat) (own : Option Tag) : ∀ (n : Nat) (s : State), PlacedAt z p s →
    Tells p s (settleLoop z own n s)
  | 0, s, _ => .refl s
  | n + 1, s, placed => by
    unfold settleLoop
    split
    · exact .refl s
    · rename_i t pass
      obtain ⟨told, placed'⟩ := settlePass_tells placed pass
      exact told.trans (settleLoop_tells z own n t placed')

/-- Settling tells no tag that has no place in its zone. -/
theorem settle_tells {z : Nat} {s : State} (placed : PlacedAt z p s) (own : Option Tag) (wasActive : Bool) :
    Tells p s (settle z own wasActive s) := by
  unfold settle
  split
  · exact .refl s
  · rename_i r _
    have loop := settleLoop_tells z own r.passBound s placed
    simp only
    split
    · exact loop.trans (post_tells _ _)
    · exact loop

/-! A withdrawal -/

/-- The reservation and the superseded tag apart, nothing of a zone's record is dropped. -/
theorem dropReservation_placedAt {z : Nat} {s : State} (q : Tag → Bool) (placed : PlacedAt z p s) :
    PlacedAt z p (dropReservation z q s) := by
  unfold dropReservation
  split
  · exact placed
  · split
    · intro r at_t
      rw [zone_mapZone (g := ZoneRecord.unreserved) (releaseRole_za ..) fun _ => rfl] at at_t
      obtain ⟨r₀, at_z, rfl⟩ := Option.map_eq_some_iff.mp at_t
      exact placed r₀ at_z
    · exact placed

theorem dropSuperseded_placedAt {z : Nat} {s : State} (q : Tag → Bool) (placed : PlacedAt z p s) :
    PlacedAt z p (dropSuperseded z q s) := by
  intro r at_t
  rw [zone_mapZone (dropSuperseded_za z q s) fun _ => rfl] at at_t
  obtain ⟨r₀, at_z, rfl⟩ := Option.map_eq_some_iff.mp at_t
  exact placed r₀ at_z

end Sweep

/-- A withdrawal in a zone tells only tags other than its own. -/
theorem endWhere_withdrawn_tells (tag : Tag) (z : Nat) (s : State) :
    Tells (· ≠ tag) s (endWhere .withdrawn (· == tag) z s) := by
  unfold endWhere
  split
  · exact .refl s
  · rename_i r at_z
    have ends : Tells (· ≠ tag) s (forEach (r.placedTags.filter (· == tag)) (endRole z .withdrawn) s) :=
      forEach_tells _ s fun u _ s => endRole_tells z (fun travels => by cases travels) s
    have dropped := ends.trans ((dropReservation_onlyZones z (· == tag) _).trans (dropSuperseded_onlyZones z (· == tag) _)).tells
    have placed : PlacedAt z (· ≠ tag) (forEach (r.placedTags.filter (· == tag)) (endRole z .withdrawn) s) := by
      intro q at_t u mem same
      rw [zone_mapZone (endRoles_za z .withdrawn _ s) (fun q => (q.withoutAll_fixed _).1), at_z] at at_t
      cases at_t
      obtain ⟨place, kept⟩ := ZoneRecord.mem_withoutAll.mp mem
      exact kept (List.mem_filter.mpr ⟨place, by simp [same]⟩)
    simp only
    split
    · exact dropped
    · exact dropped.trans (settle_tells (dropSuperseded_placedAt _ (dropReservation_placedAt _ placed)) _ _)

theorem withdrawAtOwner_tells (tag : Tag) (s : State) : Tells (· ≠ tag) s (withdrawAtOwner tag s) :=
  forEach_tells _ s fun z _ s => endWhere_withdrawn_tells tag z s

/-! What telling leaves -/

section Leaves
variable {p : Tag → Prop} {s t : State}

theorem Tells.config (h : Tells p s t) : t.config = s.config := by
  induction h with
  | still cu ku config rp => exact config
  | tell z e s meant => exact notify_config z _ e s
  | trans h k ih ih' => exact ih'.trans ih

theorem Tells.address (h : Tells p s t) : t.address = s.address := address_congr h.config

/-- An event told to another claim leaves a slot. -/
theorem applyNotice_slot_spared {n : Nat} {k : Slot} {sender slot generation zone : Nat} {event : NoticeEvent}
    (at_n : s.slot n = some k) (other : slot ≠ n ∨ generation ≠ k.generation) :
    (applyNotice sender slot generation zone event s).slot n = some k := by
  by_cases same : slot = n
  · subst same
    have ignored : k.takesNotice sender generation zone = false := Bool.eq_false_iff.mpr fun takes => by
      obtain ⟨-, generations, -⟩ := (takesNotice_iff ..).mp takes
      exact other.elim (fun h => h rfl) fun h => h generations.symm
    rw [applyNotice_of_ignored fun q at_q => by cases at_n.symm.trans at_q; exact ignored]
    exact at_n
  · rw [applyNotice_slot_ne (Ne.symm same)]
    exact at_n

theorem notify_slot_spared {n : Nat} {k : Slot} (at_n : s.slot n = some k) (z : Nat) {u : Tag} (other : u ≠ s.tagOf n k)
    (event : NoticeEvent) : (notify z u event s).slot n = some k := by
  unfold notify
  rw [State.slot, post_cu]
  unfold tellOrigin
  split
  · rename_i own
    refine applyNotice_slot_spared at_n ?_
    refine Classical.byContradiction fun same => ?_
    obtain ⟨slot, generation⟩ := not_or.mp same
    have slot := Decidable.not_not.mp slot
    have generation := Decidable.not_not.mp generation
    refine other ?_
    cases u
    simp only at own slot generation
    rw [State.tagOf, own, slot, generation]
  · exact at_n

/-- A slot whose claim is not told stays as it is. -/
theorem Tells.slot {n : Nat} {k : Slot} (h : Tells p s t) (at_n : s.slot n = some k) (spared : ¬p (s.tagOf n k)) :
    t.slot n = some k := by
  induction h with
  | still cu ku config rp => rw [State.slot, cu]; exact at_n
  | tell z e s meant => exact notify_slot_spared at_n z (fun same => spared (same ▸ meant)) e
  | trans h k ih ih' =>
    refine ih' (ih at_n spared) ?_
    unfold State.tagOf at spared ⊢
    rw [h.address]
    exact spared

theorem withdrawAtOwner_slot {n : Nat} {k : Slot} (at_n : s.slot n = some k) :
    (withdrawAtOwner (s.tagOf n k) s).slot n = some k :=
  (withdrawAtOwner_tells _ s).slot at_n fun other => other rfl

end Leaves

/-! A claim withdrawn and its slot freed (R96, R87) -/

theorem withdrawClaim_of_slot {s : State} {n : Nat} {k : Slot} (at_n : s.slot n = some k) :
    withdrawClaim n s = { withdrawAtOwner (s.tagOf n k) s with
      rp := if k.info.any fun i => i.cls == .ofRing then
          (withdrawAtOwner (s.tagOf n k) s).rp.storeControl (frameOf s.address 0 (.withdraw (byteOf n) (byteOf k.generation)))
        else (withdrawAtOwner (s.tagOf n k) s).rp } := by
  have address := (withdrawAtOwner_tells (s.tagOf n k) s).address
  unfold withdrawClaim
  simp only [at_n]
  split
  · unfold storeControl State.frame
    rw [address]
  · rfl

theorem withdrawAndFinish_eq {s : State} {n : Nat} {k : Slot} (at_n : s.slot n = some k) (outcome : ClaimOutcome) :
    withdrawAndFinish n outcome s = { withdrawAtOwner (s.tagOf n k) s with
      rp := if k.info.any fun i => i.cls == .ofRing then
          (withdrawAtOwner (s.tagOf n k) s).rp.storeControl (frameOf s.address 0 (.withdraw (byteOf n) (byteOf k.generation)))
        else (withdrawAtOwner (s.tagOf n k) s).rp
      cu := (withdrawAtOwner (s.tagOf n k) s).cu.set n (k.freed outcome)
      ku := (withdrawAtOwner (s.tagOf n k) s).ku.map (Key.forget n k.generation)
      cp := (post (finishNotice n k outcome) (withdrawAtOwner (s.tagOf n k) s)).cp } := by
  have at_w := withdrawAtOwner_slot at_n
  unfold withdrawAndFinish
  rw [withdrawClaim_of_slot at_n]
  generalize withdrawAtOwner (s.tagOf n k) s = w at at_w
  generalize (if k.info.any fun i => i.cls == .ofRing then
      w.rp.storeControl (frameOf s.address 0 (.withdraw (byteOf n) (byteOf k.generation))) else w.rp) = rp
  have at_t : State.slot { w with rp := rp } n = some k := at_w
  rw [finishClaim_eq at_t, post_cp_congr _ (s := w) (t := { w with rp := rp }) rfl rfl]

theorem Key.forget_remembered (n generation : Nat) (k : Key) : (k.forget n generation).remembered ≠ some (n, generation) := by
  unfold Key.forget
  split
  · simp
  · assumption

/-- What is left of a claim that has been withdrawn and ended with an outcome. -/
def ClaimGone (n : Nat) (k : Slot) (s : State) (outcome : ClaimOutcome) (t : State) : Prop :=
  let tag : Tag := { origin := s.address, slot := n, generation := k.generation }
  let withdrawn := withdrawAtOwner tag s
  t.slot n = some { k with state := .free, outcome := some outcome, durationLeft := none, returnTimer := none } ∧
    (∀ m, m ≠ n → t.slot m = withdrawn.slot m) ∧
    t.za = withdrawn.za ∧ t.lu = withdrawn.lu ∧
    (∀ r ∈ t.za, tag ∉ r.tags ∧ r.superseded ≠ some tag) ∧
    t.rp = (if k.info.any fun i => i.cls == .ofRing then
        withdrawn.rp.storeControl (frameOf s.address 0 (.withdraw (byteOf n) (byteOf k.generation)))
      else withdrawn.rp) ∧
    ∀ key ∈ t.ku, key.remembered ≠ some (n, k.generation)

theorem withdrawAndFinish_gone {s : State} (safe : s.Safe) {n : Nat} {k : Slot} (at_n : s.slot n = some k)
    (outcome : ClaimOutcome) (cp : ControlPort) :
    ClaimGone n k s outcome { withdrawAndFinish n outcome s with cp := cp } := by
  have at_w := withdrawAtOwner_slot at_n
  have rid := endEverywhere_rid safe.orderly.distinct .withdrawn (· == s.tagOf n k)
  rw [withdrawAndFinish_eq at_n]
  refine ⟨slot_set at_w _, fun m other => List.getElem?_set_ne (Ne.symm other), rfl, rfl, rid_of_tag rid, rfl, ?_⟩
  intro key mem
  obtain ⟨old, -, rfl⟩ := List.mem_map.mp mem
  exact old.forget_remembered n k.generation

theorem withdrawAndFinish_cp {s : State} {n : Nat} {k : Slot} (at_n : s.slot n = some k) (outcome : ClaimOutcome) :
    (withdrawAndFinish n outcome s).cp = (post (finishNotice n k outcome) (withdrawAtOwner (s.tagOf n k) s)).cp := by
  rw [withdrawAndFinish_eq at_n]

theorem claimExists_of_slot {s : State} {n : Nat} {k : Slot} (at_n : s.slot n = some k) (claimed : k.state ≠ .free) :
    s.claimExists n k.generation = true := by
  unfold State.claimExists
  rw [at_n]
  simp [claimed]

theorem endRequest_of_slot {s : State} {n : Nat} {k : Slot} (at_n : s.slot n = some k) (claimed : k.state ≠ .free) :
    endRequest n k.generation s = (.ok, withdrawAndFinish n .withdrawn s) := by
  unfold endRequest
  rw [if_pos (claimExists_of_slot at_n claimed)]

theorem endCommand_eq {s : State} (high : s.rstnLow = false) (member : s.isMember = true) (slot generation : Nat) :
    endCommand slot generation s = if slot < 8 ∧ generation < 16 then
      answerCode (endRequest slot generation s).1 (endRequest slot generation s).2 else answerCode .badArgs s := by
  unfold endCommand whenMember whenListening
  simp only [high, member, Bool.false_eq_true, if_false, if_true]

/-- R106, R107, R109: the endings that free a slot. -/
theorem endingsFreeTheSlot : Clause.EndingsFreeTheSlot := by
  intro n k s safe at_n
  refine ⟨?_, fun live running => ?_, fun waiting running => ?_⟩
  · intro slot generation same_slot same_generation claimed high member
    obtain ⟨inside, known⟩ := List.getElem?_eq_some_iff.mp at_n
    have eight : n < 8 := by
      rw [safe.shaped.slots] at inside
      exact inside
    have small : k.generation < 16 := safe.shaped.generations k (known ▸ List.getElem_mem inside)
    have ends : endCommand slot.toNat generation.toNat s = answerCode .ok (withdrawAndFinish n .withdrawn s) := by
      rw [endCommand_eq high member, same_slot, same_generation, if_pos ⟨eight, small⟩, endRequest_of_slot at_n claimed]
    refine ⟨answerCode .ok (withdrawAndFinish n .withdrawn s), congrArg Host.Outcome.next ends,
      withdrawAndFinish_gone safe at_n _ _, ?_⟩
    rw [answerCode_eq, withdrawAndFinish_cp at_n]
    rfl
  · have ends : durationExpiry n s = withdrawAndFinish n .autoEnd s := by
      unfold durationExpiry
      simp only [at_n]
      rw [if_pos ⟨live, running⟩]
    exact ⟨_, congrArg Host.Outcome.next ends, withdrawAndFinish_gone safe at_n _ _, withdrawAndFinish_cp at_n _⟩
  · have ends : returnExpiry n s = withdrawAndFinish n .noReturn s := by
      unfold returnExpiry
      simp only [at_n]
      rw [if_pos ⟨waiting, running⟩]
    exact ⟨_, congrArg Host.Outcome.next ends, withdrawAndFinish_gone safe at_n _ _, withdrawAndFinish_cp at_n _⟩

/-- R106, log 8: the endings that find no claim. -/
theorem endingsThatFindNothing : Clause.EndingsThatFindNothing := by
  intro slot generation n s
  refine ⟨fun high member nothing => ?_, fun stopped => ?_, fun stopped => ?_⟩
  · refine congrArg Host.Outcome.next ((endCommand_eq high member _ _).trans ?_)
    by_cases inside : slot.toNat < 8 ∧ generation.toNat < 16
    · have none_found : s.claimExists slot.toNat generation.toNat = false := Bool.eq_false_iff.mpr fun found => by
        unfold State.claimExists at found
        cases at_n : s.slot slot.toNat with
        | none => simp [at_n] at found
        | some k =>
          rw [at_n] at found
          rcases nothing with beyond | beyond | others
          · omega
          · omega
          · rcases others k at_n with free | other
            · simp [free] at found
            · simp [other] at found
      rw [if_pos inside, endRequest, none_found]
      rfl
    · rw [if_neg inside]
      rfl
  · refine congrArg Host.Outcome.next (?_ : durationExpiry n s = s)
    unfold durationExpiry
    cases at_n : s.slot n with
    | none => rfl
    | some k =>
      refine if_neg fun ⟨live, running⟩ => ?_
      rcases stopped k at_n with other | none_left
      · exact other live
      · simp [none_left] at running
  · refine congrArg Host.Outcome.next (?_ : returnExpiry n s = s)
    unfold returnExpiry
    cases at_n : s.slot n with
    | none => rfl
    | some k =>
      refine if_neg fun ⟨waiting, running⟩ => ?_
      rcases stopped k at_n with ⟨asking, committing⟩ | none_left
      · exact waiting.elim asking committing
      · simp [none_left] at running

/-- Settles O36: a withdrawal tells its own claim nothing, so the slot is freed as it stands. -/
theorem claimsAreEnded : Obligations.ClaimsAreEnded := ⟨endingsFreeTheSlot, endingsThatFindNothing⟩

/-! Keys (R157 to R161) -/

theorem keyIssue_of_refused {n : Nat} {b : KeyBinding} {d : ClaimDesc} {code : ResultCode} {s t : State}
    (refused : issue (.key n) d s = (.refused code, t)) : keyIssue n b d s = post (.keyRefused n b.preset code) t := by
  unfold keyIssue
  rw [refused]

theorem keyIssue_of_accepted {n : Nat} {b : KeyBinding} {d : ClaimDesc} {slot generation : Nat} {s t : State}
    (accepted : issue (.key n) d s = (.accepted slot generation, t)) :
    keyIssue n b d s = if t.claimExists slot generation then
      updateKey n (fun k => { k with remembered := some (slot, generation) }) t else t := by
  unfold keyIssue
  rw [accepted]

/-- A press with nothing remembered issues the key's preset. -/
theorem keyPress_of_forgotten {n : Nat} {k : Key} {b : KeyBinding} {d : ClaimDesc} {s : State} (at_n : s.ku[n]? = some k)
    (forgotten : k.remembered = none) (bound : s.bound n = some (b, d)) : keyPress n s = keyIssue n b d s := by
  have none_left : s.liveMemory n = none := by
    unfold State.liveMemory
    rw [at_n, Option.bind_some, forgotten, Option.filter_none]
  unfold keyPress
  simp only [bound]
  cases b.action with
  | momentary => rfl
  | latch => simp only [none_left]

theorem bound_congr {s t : State} (config : t.config = s.config) (n : Nat) : t.bound n = s.bound n := by
  unfold State.bound State.preset
  rw [config]

theorem key_set {s : State} {n : Nat} {k : Key} (at_n : s.ku[n]? = some k) (q : Key) : (s.ku.set n q)[n]? = some q := by
  obtain ⟨inside, -⟩ := List.getElem?_eq_some_iff.mp at_n
  exact List.getElem?_set_self inside

/-- R158, R161: a press that issues the preset. -/
theorem pressIssuesThePreset : Clause.PressIssuesThePreset := by
  intro n k b d s at_n running raised forgotten closed bound pressed
  have presses : debounceExpiry n s = keyIssue n b d pressed := by
    rw [debounceExpiry_of_running at_n running, closed]
    refine (if_neg raised).trans ?_
    exact keyPress_of_forgotten (s := pressed) (key_set at_n _) forgotten bound
  refine ⟨fun code t refused => congrArg Host.Outcome.next (presses.trans (keyIssue_of_refused refused)),
    fun slot generation t accepted => ⟨fun exists_ => ?_, fun gone => ?_⟩⟩
  · refine congrArg Host.Outcome.next (presses.trans ((keyIssue_of_accepted accepted).trans ?_))
    rw [exists_]
    rfl
  · refine congrArg Host.Outcome.next (presses.trans ((keyIssue_of_accepted accepted).trans ?_))
    rw [gone]
    rfl

theorem keyEnd_of_slot {n : Nat} {k : Key} {slot : Nat} {q : Slot} {s : State} (at_n : s.ku[n]? = some k)
    (at_slot : s.slot slot = some q) (claimed : q.state ≠ .free) :
    (keyEnd n (slot, q.generation) s).slot slot = some (q.freed .withdrawn) ∧
      ((keyEnd n (slot, q.generation) s).ku[n]?).map (·.remembered) = some none := by
  have ends := endRequest_of_slot at_slot claimed
  have at_t : (withdrawAndFinish slot .withdrawn s).slot slot = some (q.freed .withdrawn) := by
    rw [withdrawAndFinish_eq at_slot]
    exact slot_set (withdrawAtOwner_slot at_slot) _
  have keys := (withdrawAndFinish_quiet (b := false) slot .withdrawn s).keys
  unfold keyEnd
  simp only [ends]
  refine ⟨at_t, ?_⟩
  have some_key : ((withdrawAndFinish slot .withdrawn s).ku[n]?).isSome = true := by
    have same := congrArg (fun l => l[n]?.isSome) keys
    simp only [List.getElem?_map, Option.isSome_map, at_n, Option.isSome_some] at same
    exact same
  obtain ⟨key, at_key⟩ := Option.isSome_iff_exists.mp some_key
  rw [updateKey_ku, List.getElem?_modify, at_key]
  simp

theorem liveMemory_of_slot {n : Nat} {k : Key} {slot : Nat} {q : Slot} {s : State} (at_n : s.ku[n]? = some k)
    (remembered : k.remembered = some (slot, q.generation)) (at_slot : s.slot slot = some q) (claimed : q.state ≠ .free) :
    s.liveMemory n = some (slot, q.generation) := by
  unfold State.liveMemory
  rw [at_n, Option.bind_some, remembered, Option.filter_some, if_pos (claimExists_of_slot at_slot claimed)]

/-- R158, R159: the release of a MOMENTARY key and the second press of a LATCH key. -/
theorem keyEndsItsClaim : Clause.KeyEndsItsClaim := by
  intro n k q slot b d s _ at_n running remembered at_slot claimed bound acts
  have ends : ∀ level, keyStateOf (s.keyClosed n) = level → k.debounced ≠ some level →
      (b.action = .momentary ∧ s.keyClosed n = false ∨ b.action = .latch ∧ s.keyClosed n = true) →
      debounceExpiry n s = keyEnd n (slot, q.generation)
        { s with ku := s.ku.set n { k with debounced := some level, timer := none } } := by
    intro level now changed action
    have live := liveMemory_of_slot (s := { s with ku := s.ku.set n { k with debounced := some level, timer := none } })
      (key_set at_n _) remembered at_slot claimed
    have bound' : State.bound { s with ku := s.ku.set n { k with debounced := some level, timer := none } } n = some (b, d) :=
      bound
    rw [debounceExpiry_of_running at_n running, now]
    refine (if_neg changed).trans ?_
    rcases action with ⟨momentary, opened⟩ | ⟨latch, closed⟩
    · unfold keyChanged keyRelease
      simp only [opened, bound', momentary, live, Bool.false_eq_true, if_false]
    · unfold keyChanged keyPress
      simp only [closed, bound', latch, live, if_true]
  have result : ∀ level, debounceExpiry n s = keyEnd n (slot, q.generation)
      { s with ku := s.ku.set n { k with debounced := some level, timer := none } } →
      ∃ t, exec (.debounceTimerExpiry n) s = .next t ∧
        (t.slot slot).map (fun p => (p.state, p.outcome, p.generation)) = some (.free, some .withdrawn, q.generation) ∧
        (t.ku[n]?).map (·.remembered) = some none := by
    intro level same
    obtain ⟨freed, forgotten⟩ := keyEnd_of_slot
      (s := { s with ku := s.ku.set n { k with debounced := some level, timer := none } }) (key_set at_n _) at_slot claimed
    refine ⟨_, congrArg Host.Outcome.next same, ?_, forgotten⟩
    rw [freed]
    rfl
  rcases acts with ⟨momentary, opened, raised⟩ | ⟨latch, closed, released⟩
  · exact result .released (ends .released (by rw [opened]; rfl) (by rw [raised]; decide) (.inl ⟨momentary, opened⟩))
  · exact result .pressed (ends .pressed (by rw [closed]; rfl) (by rw [released]; decide) (.inr ⟨latch, closed⟩))

/-- Settles O46. -/
theorem keysIssueAndEndClaims : Obligations.KeysIssueAndEndClaims := ⟨pressIssuesThePreset, keyEndsItsClaim⟩

end Sys2Proof.Machine
end


section
/-! SUPPORT. An own frame that returns is stripped: what its unit does with it takes frames from the forward queue's head alone
(R17, R26). The tests of every other arrival. -/

namespace Sys2Proof.Machine

/-! A COMMIT at the Zone Arbiter tells -/

theorem placedAt_any (z : Nat) (s : State) : PlacedAt z anyTag s := fun _ _ _ _ => trivial

theorem takeIn_tells (z : Nat) (t : Terms) (wasActive : Bool) (s : State) : Tells anyTag s (takeIn z t wasActive s) :=
  (((updateZone_onlyZones z _ s).trans (updateListen_onlyZones t.tag _ _)).tells.trans (post_tells _ _)).trans
    (settle_tells (placedAt_any z _) _ _)

theorem commitHeld_tells (z : Nat) (t : Terms) (r : ZoneRecord) (s : State) : Tells anyTag s (commitHeld z t r s).2 := by
  have without := updateZone_onlyZones z (fun r => { r with reservation := none }) s
  have released := without.trans (releaseRole_onlyZones t.tag _)
  unfold commitHeld
  split
  · simp only
    split
    · exact released.tells
    · cases r.admission t.level with
      | sole => exact without.tells.trans (takeIn_tells z t _ _)
      | push => exact (without.tells.trans (pushActive_tells (placedAt_any z _))).trans (takeIn_tells z t _ _)
      | join => exact without.tells.trans (takeIn_tells z t _ _)
      | outranked => exact released.tells
  · split
    · exact (updateZone_onlyZones z _ s).tells
    · exact .refl s

theorem joinWaiting_onlyZones (z : Nat) (t : Terms) (s : State) : OnlyZones s (joinWaiting z t s) :=
  (((takeReference_onlyZones ..).trans (dropReservation_onlyZones z _ _)).trans (updateZone_onlyZones z _ _)).trans
    (updateListen_onlyZones t.tag _ _)

theorem commitWaiting_tells (z : Nat) (t : Terms) (r : ZoneRecord) (s : State) : Tells anyTag s (commitWaiting z t r s).2 := by
  unfold commitWaiting
  split
  · exact .refl s
  · split
    · exact .refl s
    · split
      · exact .refl s
      · exact (joinWaiting_onlyZones z t s).tells.trans (settle_tells (placedAt_any z _) _ _)

theorem acknowledgeEntry_tells (t : Terms) (e : WireEntry) (s : State) : Tells anyTag s (acknowledgeEntry t e s).2 := by
  unfold acknowledgeEntry
  split
  · exact .refl s
  · split
    · split
      · split
        · exact .refl s
        · exact commitHeld_tells _ t _ s
      · split
        · exact .refl s
        · exact commitWaiting_tells _ t _ s
      · exact .refl s
    · exact .refl s

theorem eachEntry_tells {p : Tag → Prop} {take : WireEntry → State → WireEntry × State}
    (one : ∀ e s, Tells p s (take e s).2) : ∀ (entries : List WireEntry) (s : State), Tells p s (eachEntry take entries s).2
  | [], s => .refl s
  | e :: rest, s => (one e s).trans (eachEntry_tells one rest (take e s).2)

theorem commitAtOwner_tells (origin : Nat) (c : Content) (s : State) : Tells anyTag s (commitAtOwner origin c s).2 :=
  eachEntry_tells (acknowledgeEntry_tells _) _ s

/-! The forward queue gives up frames at its head alone -/

theorem suffix_of_eq {α : Type} {l m : List α} (same : l = m) : l <:+ m := same ▸ List.suffix_refl l

theorem RingPort.arbitrate_suffix (p : RingPort) : p.arbitrate.forward <:+ p.forward := by
  cases line : p.out with
  | some o => exact suffix_of_eq (congrArg RingPort.forward (RingPort.arbitrate_of_busy line))
  | none =>
    cases waits : p.forward with
    | cons f rest =>
      rw [RingPort.arbitrate_forward_first line waits]
      exact List.suffix_cons f rest
    | nil =>
      cases controls : p.control with
      | cons f rest => exact suffix_of_eq ((congrArg RingPort.forward (RingPort.arbitrate_control_next line waits controls)).trans waits)
      | nil =>
        cases audios : p.audio with
        | cons f rest =>
          exact suffix_of_eq ((congrArg RingPort.forward (RingPort.arbitrate_audio_last line waits controls audios)).trans waits)
        | nil => exact suffix_of_eq ((congrArg RingPort.forward (RingPort.arbitrate_none waits controls audios)).trans waits)

theorem RingPort.storeControl_suffix (f : Frame) (p : RingPort) : (p.storeControl f).forward <:+ p.forward := by
  unfold RingPort.storeControl
  split
  · exact RingPort.arbitrate_suffix _
  · exact List.suffix_refl _

/-- The forward queue has lost frames at its head, or none. -/
def Strips (s t : State) : Prop := t.rp.forward <:+ s.rp.forward

theorem Strips.trans {s t u : State} (h : Strips s t) (k : Strips t u) : Strips s u := List.IsSuffix.trans k h

theorem Strips.of_rp {s t : State} (rp : t.rp = s.rp) : Strips s t := suffix_of_eq (congrArg RingPort.forward rp)

theorem storeControl_strips (destination : Nat) (m : Message) (s : State) : Strips s (storeControl destination m s) :=
  RingPort.storeControl_suffix _ _

theorem applyNotice_onlySlots (sender slot generation zone : Nat) (e : NoticeEvent) (s : State) :
    OnlySlots s (applyNotice sender slot generation zone e s) := by
  unfold applyNotice
  split
  · exact OnlySlots.refl s
  · split
    · exact ((OnlySlots.trans (t := updateSlot slot _ s) rfl (post_onlySlots _ _))).trans (allTerminalTest_onlySlots slot _)
    · exact OnlySlots.refl s

theorem notify_strips (z : Nat) (t : Tag) (e : NoticeEvent) (s : State) : Strips s (notify z t e s) := by
  refine Strips.trans ?_ (.of_rp (post_rp _ _))
  unfold tellOrigin
  split
  · exact .of_rp (applyNotice_onlySlots ..).rp
  · exact storeControl_strips _ _ s

theorem Tells.strips {p : Tag → Prop} {s t : State} (h : Tells p s t) : Strips s t := by
  induction h with
  | still cu ku config rp => exact .of_rp rp
  | tell z e s meant => exact notify_strips z _ e s
  | trans h k ih ih' => exact ih.trans ih'

theorem updateSlot_strips (n : Nat) (f : Slot → Slot) (s : State) : Strips s (updateSlot n f s) := .of_rp rfl

theorem finishClaim_strips (n : Nat) (outcome : ClaimOutcome) (s : State) : Strips s (finishClaim n outcome s) :=
  .of_rp (finishClaim_onlySlots n outcome s).rp

theorem withdrawClaim_strips (n : Nat) (s : State) : Strips s (withdrawClaim n s) := by
  unfold withdrawClaim
  split
  · exact .of_rp rfl
  · have told := (withdrawAtOwner_tells (s.tagOf n ‹_›) s).strips
    simp only
    split
    · exact told.trans (storeControl_strips _ _ _)
    · exact told

theorem withdrawAndFinish_strips (n : Nat) (outcome : ClaimOutcome) (s : State) : Strips s (withdrawAndFinish n outcome s) :=
  (withdrawClaim_strips n s).trans (finishClaim_strips n outcome _)

theorem enterLive_strips (n : Nat) (s : State) : Strips s (enterLive n s) := by
  unfold enterLive
  split
  · exact .of_rp rfl
  · exact .of_rp ((allTerminalTest_onlySlots n _).rp.trans (post_rp _ _))

theorem commitDecision_strips (n : Nat) (wire : List WireEntry) (s : State) : Strips s (commitDecision n wire s) := by
  unfold commitDecision
  split
  · exact .of_rp rfl
  · split
    · exact enterLive_strips n s
    · split
      · exact withdrawAndFinish_strips n _ s
      · exact finishClaim_strips n _ s

theorem takeCommitReturn_strips (n : Nat) (wire : List WireEntry) (s : State) : Strips s (takeCommitReturn n wire s) :=
  (updateSlot_strips n _ s).trans (commitDecision_strips n wire _)

theorem runCommit_strips (n : Nat) (k : Slot) (i : ClaimInfo) (s : State) : Strips s (runCommit n k i s) := by
  unfold runCommit
  simp only
  have committing := updateSlot_strips n
    (fun k => { k.withEntries (k.entries.map ZoneEntry.toCommit) with state := .committing }) s
  generalize updateSlot n (fun k => { k.withEntries (k.entries.map ZoneEntry.toCommit) with state := .committing }) s = u
    at committing ⊢
  split
  · refine committing.trans (Strips.trans (t := setPlaceAside u) (List.suffix_refl _) ?_)
    refine (commitAtOwner_tells u.address (commitContentOf n k.generation i) (setPlaceAside u)).strips.trans ?_
    exact RingPort.arbitrate_suffix _
  · exact committing.trans ((commitAtOwner_tells _ _ _).strips.trans (takeCommitReturn_strips n _ _))

theorem commitClaim_strips (n : Nat) (s : State) : Strips s (commitClaim n s) := by
  unfold commitClaim
  split
  · exact .of_rp rfl
  · split
    · exact .of_rp rfl
    · split
      · exact finishClaim_strips n _ s
      · exact runCommit_strips n _ _ s

theorem claimDecision_strips (n : Nat) (s : State) : Strips s (claimDecision n s) := by
  unfold claimDecision
  split
  · exact .of_rp rfl
  · split
    · exact commitClaim_strips n s
    · split
      · exact withdrawAndFinish_strips n _ s
      · exact finishClaim_strips n _ s

theorem claimReturned_strips (c : Content) (s : State) : Strips s (claimReturned c s) := by
  unfold claimReturned
  split
  · exact .of_rp rfl
  · split
    · exact (updateSlot_strips _ _ s).trans (claimDecision_strips _ _)
    · exact .of_rp rfl

theorem commitReturned_strips (c : Content) (s : State) : Strips s (commitReturned c s) := by
  unfold commitReturned
  split
  · exact .of_rp rfl
  · split
    · exact takeCommitReturn_strips _ _ s
    · exact .of_rp rfl

theorem presenceReturned_rp (sequence first last : Nat) (s : State) : (presenceReturned sequence first last s).rp = s.rp := by
  unfold presenceReturned
  split
  · unfold proveRing
    simp only
    split
    · rfl
    · rw [post_rp]
  · split
    · unfold reportClash
      split
      · rfl
      · rw [post_rp]
    · rfl

theorem returnOwn_strips (f : Frame) (s : State) : Strips s (returnOwn f s) := by
  unfold returnOwn
  split
  · exact .of_rp (presenceReturned_rp ..)
  · exact claimReturned_strips _ s
  · exact commitReturned_strips _ s
  all_goals exact .of_rp rfl

/-! Arrivals (R16 to R18, R21, R31) -/

theorem withdrawMessage_cases (body : List Byte) :
    withdrawMessage body = none ∨ ∃ slot generation, withdrawMessage body = some (.withdraw slot generation) := by
  unfold withdrawMessage
  split
  · exact .inr ⟨_, _, rfl⟩
  · exact .inl rfl

theorem noticeMessage_cases (body : List Byte) :
    noticeMessage body = none ∨
      ∃ slot generation zone event reason, noticeMessage body = some (.notice slot generation zone event reason) := by
  unfold noticeMessage
  split
  · exact .inr ⟨_, _, _, _, _, rfl⟩
  · exact .inl rfl

theorem audioMessage_cases (body : List Byte) :
    audioMessage body = none ∨ ∃ slot generation samples, audioMessage body = some (.audio slot generation samples) := by
  unfold audioMessage
  split
  · split
    · exact .inr ⟨_, _, _, rfl⟩
    · exact .inl rfl
  · exact .inl rfl

theorem returnOwn_of_dropped {f : Frame} (dropped : f.message = none ∨ f.kind = 4 ∨ f.kind = 5 ∨ f.kind = 6) (s : State) :
    returnOwn f s = s := by
  unfold returnOwn
  rcases dropped with unread | withdraw | notice | audio
  · rw [unread]
  · have speaks : f.message = withdrawMessage f.body := by
      unfold Frame.message
      rw [withdraw]
      rfl
    rw [speaks]
    rcases withdrawMessage_cases f.body with unread | ⟨_, _, message⟩
    · rw [unread]
    · rw [message]
  · have speaks : f.message = noticeMessage f.body := by
      unfold Frame.message
      rw [notice]
      rfl
    rw [speaks]
    rcases noticeMessage_cases f.body with unread | ⟨_, _, _, _, _, message⟩
    · rw [unread]
    · rw [message]
  · have speaks : f.message = audioMessage f.body := by
      unfold Frame.message
      rw [audio]
      rfl
    rw [speaks]
    rcases audioMessage_cases f.body with unread | ⟨_, _, _, message⟩
    · rw [unread]
    · rw [message]

/-- R17: own frames are stripped. -/
theorem ownFramesAreStripped : Clause.OwnFramesAreStripped := by
  intro bytes f s high member good own
  have arrives := exec_frameArrival_of_own high member good own
  refine ⟨fun dropped => arrives.trans (congrArg Host.Outcome.next (returnOwn_of_dropped dropped s)), _, _, arrives,
    List.suffix_iff_eq_drop.mp (returnOwn_strips f s)⟩

/-- R18, R16: the tests of a peer frame. -/
theorem peerFrameTestsInOrder : Clause.PeerFrameTestsInOrder := by
  intro bytes f s high member good other
  have arrives := (exec_frameArrival_of_good high good).trans (congrArg Host.Outcome.next (takeGoodFrame_of_peer member other))
  refine ⟨fun limit => ?_, fun below full => ?_, fun below room undispatched => ?_⟩
  · rw [arrives, carry_of_limit limit]
  · rw [arrives, carry_of_full below full]
    rfl
  · have not : f.dispatched = none := by
      unfold Frame.dispatched
      rcases undispatched with zero | beyond | unread
      · exact if_neg fun range => by omega
      · exact if_neg fun range => by omega
      · rw [unread]
        exact ite_self none
    rw [arrives, carry_of_room below room, takePeerFrame_of_undispatched not, passOn_eq]

/-- R31: a repeater. -/
theorem repeaterPassesFramesOn : Clause.RepeaterPassesFramesOn := by
  intro bytes f s high outside good
  have arrives := (exec_frameArrival_of_good high good).trans (congrArg Host.Outcome.next (takeGoodFrame_of_repeater outside))
  refine ⟨fun limit => ?_, fun below full => ?_, fun below room => ?_⟩
  · rw [arrives, carry_of_limit limit]
  · rw [arrives, carry_of_full below full]
    rfl
  · rw [arrives, carry_of_room below room, passOn_eq]

/-- Settles O12. -/
theorem arrivalsAreTestedInOrder : Obligations.ArrivalsAreTestedInOrder :=
  ⟨ownFramesAreStripped, peerFrameTestsInOrder, repeaterPassesFramesOn⟩

end Sys2Proof.Machine
end


section
/-! SUPPORT. The returns of own CLAIM and COMMIT frames at their origin (R93 to R102). -/

namespace Sys2Proof.Machine

/-! The codes of an answered entry (R190) -/

/-- The entry state a verdict byte gives. -/
def stateOfVerdict (b : Byte) : EntryState :=
  if b = 0 then .noOwner else if b = 1 then .held else if b = 2 then .waiting else .refused

theorem verdictOfByte_entryState (b : Byte) : (verdictOfByte b).entryState = stateOfVerdict b := by
  by_cases blank : b = 0
  · rw [blank]
    rfl
  · rcases verdictOfByte_cases b with ⟨rfl, -⟩ | ⟨rfl, -⟩ | ⟨held, waiting, -⟩
    · rfl
    · rfl
    · have zero : b.toNat ≠ 0 := fun h => blank (byte_eq h)
      have one : b.toNat ≠ 1 := fun h => held (byte_eq h)
      have two : b.toNat ≠ 2 := fun h => waiting (byte_eq h)
      unfold stateOfVerdict
      rw [if_neg blank, if_neg held, if_neg waiting]
      unfold verdictOfByte
      split <;> simp_all [Verdict.entryState]

theorem ackOfByte_entryState (b : Byte) :
    (ackOfByte b).entryState = if b = 1 then .active else if b = 2 then .waiting else .refused := by
  by_cases taken : b = 1
  · rw [taken]
    rfl
  · by_cases queued : b = 2
    · rw [queued]
      rfl
    · have one : b.toNat ≠ 1 := fun h => taken (byte_eq h)
      have two : b.toNat ≠ 2 := fun h => queued (byte_eq h)
      rw [if_neg taken, if_neg queued]
      unfold ackOfByte
      split <;> simp_all [Ack.entryState]

theorem ackOfByte_eq_taken {b : Byte} : ackOfByte b = .taken ↔ b = 1 := by
  refine ⟨fun taken => ?_, fun one => one ▸ rfl⟩
  unfold ackOfByte at taken
  split at taken
  · exact byte_eq ‹_›
  all_goals cases taken

theorem stateOfVerdict_eq_held {b : Byte} : stateOfVerdict b = .held ↔ b = 1 := by
  unfold stateOfVerdict
  split
  · rename_i zero
    simp [zero]
  · split
    · simpa
    · split <;> simpa

theorem stateOfVerdict_eq_waiting {b : Byte} : stateOfVerdict b = .waiting ↔ b = 2 := by
  unfold stateOfVerdict
  split
  · rename_i zero
    simp [zero]
  · split
    · rename_i one
      simp [one]
    · split <;> simpa

theorem stateOfVerdict_eq_noOwner {b : Byte} : stateOfVerdict b = .noOwner ↔ b = 0 := by
  unfold stateOfVerdict
  split
  · simpa
  · split
    · simpa
    · split <;> simpa

theorem answered_eq : ZoneEntry.answered = Clause.answeredEntry := by
  funext w e
  unfold ZoneEntry.answered Clause.answeredEntry
  rw [verdictOfByte_entryState]
  rfl

theorem acknowledged_eq : ZoneEntry.acknowledged = Clause.acknowledgedEntry := by
  funext w e
  unfold ZoneEntry.acknowledged Clause.acknowledgedEntry
  rw [ackOfByte_entryState]

theorem zipWith_congr_left {f g : WireEntry → ZoneEntry → ZoneEntry} : ∀ {wire : List WireEntry} (entries : List ZoneEntry),
    (∀ w ∈ wire, ∀ e, f w e = g w e) → List.zipWith f wire entries = List.zipWith g wire entries
  | [], _, _ => rfl
  | _ :: _, [], _ => rfl
  | w :: _, e :: rest, same => by
    rw [List.zipWith_cons_cons, List.zipWith_cons_cons, same w List.mem_cons_self e,
      zipWith_congr_left rest fun v mem => same v (List.mem_cons_of_mem w mem)]

/-- What is read of the answered entries is read of the wire. -/
theorem map_zipWith_answered {α : Type} {g : ZoneEntry → α} {h : WireEntry → α}
    (same : ∀ w e, w.zone.toNat = e.zone → g (Clause.answeredEntry w e) = h w) :
    ∀ {wire : List WireEntry} {entries : List ZoneEntry}, wire.map (·.zone.toNat) = entries.map (·.zone) →
      (List.zipWith Clause.answeredEntry wire entries).map g = wire.map h
  | [], _, _ => rfl
  | _ :: _, [], names => by cases names
  | w :: _, e :: _, names => by
    obtain ⟨zone, rest⟩ := List.cons.inj names
    exact congr (congrArg List.cons (same w e zone)) (map_zipWith_answered same rest)

section Answered
variable {c : Content} {entries : List ZoneEntry}

theorem answered_states (names : c.entries.map (·.zone.toNat) = entries.map (·.zone)) :
    (List.zipWith Clause.answeredEntry c.entries entries).map (·.state) = c.entries.map fun w => stateOfVerdict w.verdict :=
  map_zipWith_answered (fun _ _ _ => rfl) names

theorem refusalOutcome_answered (names : c.entries.map (·.zone.toNat) = entries.map (·.zone)) :
    refusalOutcome (List.zipWith Clause.answeredEntry c.entries entries) =
      if c.entries.all (fun w => w.verdict == 0) then .noOwner else .refused := by
  have states := congrArg (·.all (· == EntryState.noOwner)) (answered_states names)
  simp only [List.all_map, Function.comp_def] at states
  unfold refusalOutcome
  rw [states]
  congr 2
  refine List.all_congr rfl fun w => ?_
  rw [Bool.eq_iff_iff, beq_iff_eq, beq_iff_eq, stateOfVerdict_eq_noOwner]

theorem commits_all_answered (names : c.entries.map (·.zone.toNat) = entries.map (·.zone)) :
    commits .all (List.zipWith Clause.answeredEntry c.entries entries) = true ↔ ∀ w ∈ c.entries, w.verdict = 1 := by
  have states := congrArg (·.all (· == EntryState.held)) (answered_states names)
  simp only [List.all_map, Function.comp_def] at states
  unfold commits
  rw [states]
  simp only [List.all_eq_true, beq_iff_eq, stateOfVerdict_eq_held]

theorem commits_any_answered (names : c.entries.map (·.zone.toNat) = entries.map (·.zone)) :
    commits .any (List.zipWith Clause.answeredEntry c.entries entries) = true ↔
      ∃ w ∈ c.entries, w.verdict = 1 ∨ w.verdict = 2 := by
  have states := congrArg (·.any fun e => e == EntryState.held || e == EntryState.waiting) (answered_states names)
  simp only [List.any_map, Function.comp_def] at states
  unfold commits
  rw [states]
  simp only [List.any_eq_true, Bool.or_eq_true, beq_iff_eq, stateOfVerdict_eq_held, stateOfVerdict_eq_waiting]

theorem byteOf_toNat (b : Byte) : byteOf b.toNat = b := (BitVec.ofNat_toNat 8 b).trans (BitVec.setWidth_eq b)

theorem byteOf_eq {g : Nat} {b : Byte} (same : g = b.toNat) : byteOf g = b := (congrArg byteOf same).trans (byteOf_toNat b)

theorem owner_answered (w : WireEntry) (e : ZoneEntry) : byteOf ((Clause.answeredEntry w e).owner.getD 0) = w.owner := by
  unfold Clause.answeredEntry
  split
  · rename_i zero
    rw [zero]
    rfl
  · exact byteOf_toNat w.owner

/-- The COMMIT of an answered claim carries zone, owner and verdict as they came. -/
theorem commit_entries_answered (names : c.entries.map (·.zone.toNat) = entries.map (·.zone)) :
    ((List.zipWith Clause.answeredEntry c.entries entries).map fun e =>
        ({ zone := byteOf e.zone, verdict := e.verdictByte, ack := 0, owner := byteOf (e.owner.getD 0) } : WireEntry)) =
      c.entries.map fun w => { w with verdict := (verdictOfByte w.verdict).code, ack := 0 } := by
  refine map_zipWith_answered (fun w e zone => ?_) names
  rw [owner_answered]
  have zone' : byteOf (Clause.answeredEntry w e).zone = w.zone := (congrArg byteOf zone.symm).trans (byteOf_toNat w.zone)
  rw [zone']
  rfl

end Answered

/-! Which frame is a return (R93, R99, R110) -/

theorem awaits_iff (k : Slot) (state : SlotState) (c : Content) : k.awaits state c = true ↔
    k.state = state ∧ k.generation = c.generation.toNat ∧ c.entries.map (·.zone.toNat) = k.entries.map (·.zone) := by
  simp [Slot.awaits, Content.names, and_assoc]

theorem awaits_of_ignored {k : Slot} {state : SlotState} {c : Content}
    (other : k.state ≠ state ∨ k.generation ≠ c.generation.toNat ∨
      c.entries.map (·.zone.toNat) ≠ k.entries.map (·.zone)) : k.awaits state c = false :=
  Bool.eq_false_iff.mpr fun awaits => by
    obtain ⟨same_state, same_generation, names⟩ := (awaits_iff k state c).mp awaits
    rcases other with h | h | h
    · exact h same_state
    · exact h same_generation
    · exact h names

theorem Slot.entries_of_info {k : Slot} {i : ClaimInfo} (info : k.info = some i) : k.entries = i.entries := by
  unfold Slot.entries
  rw [info]

theorem returnOwn_of_claim {f : Frame} {c : Content} (message : f.message = some (.claim c)) (s : State) :
    returnOwn f s = claimReturned c s := by
  unfold returnOwn
  rw [message]

theorem returnOwn_of_commit {f : Frame} {c : Content} (message : f.message = some (.commit c)) (s : State) :
    returnOwn f s = commitReturned c s := by
  unfold returnOwn
  rw [message]

/-- R93, R99, R110: late returns. -/
theorem lateReturnsAreIgnored : Clause.LateReturnsAreIgnored := by
  intro bytes f c s high member good own
  have arrives := exec_frameArrival_of_own high member good own
  refine ⟨fun message late => ?_, fun message late => ?_⟩
  · refine arrives.trans (congrArg Host.Outcome.next ((returnOwn_of_claim message s).trans ?_))
    unfold claimReturned
    cases at_n : s.slot c.slot.toNat with
    | none => rfl
    | some k => simp only [awaits_of_ignored (late k at_n), Bool.false_eq_true, if_false]
  · refine arrives.trans (congrArg Host.Outcome.next ((returnOwn_of_commit message s).trans ?_))
    unfold commitReturned
    cases at_n : s.slot c.slot.toNat with
    | none => rfl
    | some k => simp only [awaits_of_ignored (late k at_n), Bool.false_eq_true, if_false]

/-- A slot at a return: its entries as they come back, its return timer stopped. -/
def Slot.returned (i : ClaimInfo) (entries : List ZoneEntry) (k : Slot) : Slot :=
  { k with returnTimer := none, info := some { i with entries := entries } }

theorem takeClaimReturn_of_slot {s : State} {n : Nat} {k : Slot} {i : ClaimInfo} (at_n : s.slot n = some k)
    (info : k.info = some i) (wire : List WireEntry) : takeClaimReturn n wire s = claimDecision n
      { s with cu := s.cu.set n (k.returned i (List.zipWith Clause.answeredEntry wire i.entries)) } := by
  unfold takeClaimReturn
  rw [updateSlot_of_slot at_n, Slot.entries_of_info info, answered_eq]
  unfold Slot.withEntries Slot.returned
  rw [info]
  rfl

theorem takeCommitReturn_of_slot {s : State} {n : Nat} {k : Slot} {i : ClaimInfo} (at_n : s.slot n = some k)
    (info : k.info = some i) (wire : List WireEntry) : takeCommitReturn n wire s = commitDecision n wire
      { s with cu := s.cu.set n (k.returned i (List.zipWith Clause.acknowledgedEntry wire i.entries)) } := by
  unfold takeCommitReturn
  rw [updateSlot_of_slot at_n, Slot.entries_of_info info, acknowledged_eq]
  unfold Slot.withEntries Slot.returned
  rw [info]
  rfl

section Return
variable {c : Content} {k : Slot} {i : ClaimInfo} {s : State}

theorem claimReturned_of (back : Clause.returnOf .asking c k i s) : claimReturned c s = claimDecision c.slot.toNat
    { s with cu := s.cu.set c.slot.toNat (k.returned i (List.zipWith Clause.answeredEntry c.entries i.entries)) } := by
  obtain ⟨at_n, state, generation, info, names⟩ := back
  have awaits : k.awaits .asking c = true :=
    (awaits_iff k _ c).mpr ⟨state, generation, Slot.entries_of_info info ▸ names⟩
  unfold claimReturned
  simp only [at_n, awaits, if_true]
  exact takeClaimReturn_of_slot at_n info c.entries

theorem commitReturned_of (back : Clause.returnOf .committing c k i s) :
    commitReturned c s = commitDecision c.slot.toNat c.entries
      { s with cu := s.cu.set c.slot.toNat (k.returned i (List.zipWith Clause.acknowledgedEntry c.entries i.entries)) } := by
  obtain ⟨at_n, state, generation, info, names⟩ := back
  have awaits : k.awaits .committing c = true :=
    (awaits_iff k _ c).mpr ⟨state, generation, Slot.entries_of_info info ▸ names⟩
  unfold commitReturned
  simp only [at_n, awaits, if_true]
  exact takeCommitReturn_of_slot at_n info c.entries

end Return

/-! The ends of a decision -/

/-- One slot has become `q` with a notice posted, and nothing else has changed but what the keys remember. -/
def TurnsSlot (n : Nat) (q : Slot) (notice : HostNotice) (s t : State) : Prop :=
  t.slot n = some q ∧ (∀ m, m ≠ n → t.slot m = s.slot m) ∧ t.cp = (post notice s).cp ∧
    t.rp = s.rp ∧ t.za = s.za ∧ t.lu = s.lu ∧ t.pu = s.pu

/-- A slot has become `q` after a withdrawal of its tag, which stored a WITHDRAW, with a notice posted. -/
def WithdrawsSlot (n : Nat) (q : Slot) (notice : HostNotice) (s withdrawn t : State) : Prop :=
  t.slot n = some q ∧ (∀ m, m ≠ n → t.slot m = withdrawn.slot m) ∧ t.za = withdrawn.za ∧ t.lu = withdrawn.lu ∧
    t.rp = withdrawn.rp.storeControl (frameOf s.address 0 (.withdraw (byteOf n) (byteOf q.generation))) ∧
    t.cp = (post notice withdrawn).cp ∧ t.pu = s.pu

/-- A slot that goes LIVE (R102). -/
def Slot.goneLive (duration : Nat) (k : Slot) : Slot :=
  { k with state := .live, durationLeft := timerOf duration, returnTimer := none }

section Ends
variable {n : Nat} {k : Slot} {s : State}

theorem finishClaim_turns (at_n : s.slot n = some k) (q : Slot) (outcome : ClaimOutcome) :
    TurnsSlot n (q.freed outcome) (finishNotice n q outcome) s (finishClaim n outcome { s with cu := s.cu.set n q }) := by
  have at_u : State.slot { s with cu := s.cu.set n q } n = some q := slot_set at_n q
  rw [finishClaim_eq at_u]
  refine ⟨?_, fun m other => ?_, post_cp_congr _ rfl rfl, rfl, rfl, rfl, rfl⟩
  · exact slot_set at_u _
  · exact (List.getElem?_set_ne (Ne.symm other)).trans (List.getElem?_set_ne (Ne.symm other))

theorem withdrawAndFinish_withdraws (at_n : s.slot n = some k) {q : Slot} {i : ClaimInfo} (info : q.info = some i)
    (ring : i.cls = .ofRing) (outcome : ClaimOutcome) :
    WithdrawsSlot n (q.freed outcome) (finishNotice n q outcome) s
      (withdrawAtOwner { origin := s.address, slot := n, generation := q.generation } { s with cu := s.cu.set n q })
      (withdrawAndFinish n outcome { s with cu := s.cu.set n q }) := by
  have at_u : State.slot { s with cu := s.cu.set n q } n = some q := slot_set at_n q
  have sends : (q.info.any fun i => i.cls == .ofRing) = true := by
    rw [info, Option.any_some, ring]
    rfl
  have pu := (endEverywhere_quiet (b := false) .withdrawn (· == State.tagOf { s with cu := s.cu.set n q } n q)
    { s with cu := s.cu.set n q }).pu
  have at_w := withdrawAtOwner_slot at_u
  rw [withdrawAndFinish_eq at_u, if_pos sends]
  exact ⟨slot_set at_w _, fun m other => List.getElem?_set_ne (Ne.symm other), rfl, rfl, rfl, rfl, pu⟩

/-- A slot that goes LIVE with an entry that is not terminal stays LIVE (R102). -/
theorem enterLive_eq (at_n : s.slot n = some k) {q : Slot} {i : ClaimInfo} (info : q.info = some i)
    (plays : ∃ e ∈ i.entries, e.state.isTerminal = false) :
    enterLive n { s with cu := s.cu.set n q } = { s with
      cu := s.cu.set n (q.goneLive i.duration)
      cp := (post (.claimLive n q.generation i.issuer) s).cp } := by
  have at_u : State.slot { s with cu := s.cu.set n q } n = some q := slot_set at_n q
  have enters : enterLive n { s with cu := s.cu.set n q } = allTerminalTest n { s with
      cu := s.cu.set n (q.goneLive i.duration)
      cp := (post (.claimLive n q.generation i.issuer) s).cp } := by
    have issuer : q.issuer = i.issuer := by
      unfold Slot.issuer
      rw [info]
    have live : ({ q with state := .live, durationLeft := q.info.bind fun i => timerOf i.duration, returnTimer := none } : Slot) =
        q.goneLive i.duration := by
      simp only [Slot.goneLive, info, Option.bind_some]
    unfold enterLive
    simp only [at_u, updateSlot_of_slot at_u, List.set_set, issuer, live]
    exact congrArg (allTerminalTest n) (post_with _ s s.za _ s.lu s.ku)
  have at_t : State.slot { s with
      cu := s.cu.set n (q.goneLive i.duration)
      cp := (post (.claimLive n q.generation i.issuer) s).cp } n =
        some (q.goneLive i.duration) := slot_set at_n _
  rw [enters, allTerminalTest_of_slot at_t]
  obtain ⟨e, mem, playing⟩ := plays
  have stays : ¬∀ e ∈ (q.goneLive i.duration).entries,
      e.state.isTerminal = true := fun all => by
    rw [Slot.entries_of_info (k := q.goneLive i.duration) info] at all
    rw [all e mem] at playing
    cases playing
  exact if_neg fun done => stays done.2

theorem enterLive_turns (at_n : s.slot n = some k) {q : Slot} {i : ClaimInfo} (info : q.info = some i)
    (plays : ∃ e ∈ i.entries, e.state.isTerminal = false) :
    TurnsSlot n (q.goneLive i.duration) (.claimLive n q.generation i.issuer) s (enterLive n { s with cu := s.cu.set n q }) := by
  rw [enterLive_eq at_n info plays]
  exact ⟨slot_set at_n _, fun m other => List.getElem?_set_ne (Ne.symm other), rfl, rfl, rfl, rfl, rfl⟩

end Ends

/-! The decisions (R94, R95, R100, R101) -/

theorem finishNotice_of_failed {outcome : ClaimOutcome} (fails : outcome.isEnding = false) (n : Nat) (k : Slot) :
    finishNotice n k outcome = .claimFailed n k.generation k.issuer outcome := by
  unfold finishNotice
  rw [fails]
  rfl

theorem refusal_fails (c : Prop) [Decidable c] : (if c then ClaimOutcome.noOwner else .refused).isEnding = false := by
  split <;> rfl

section Decisions
variable {n : Nat} {q : Slot} {i : ClaimInfo} {s : State}

theorem claimDecision_of_commits (at_n : s.slot n = some q) (info : q.info = some i)
    (goes_on : commits i.mode i.entries = true) : claimDecision n s = commitClaim n s := by
  unfold claimDecision
  simp only [at_n, Option.bind_some, info, goes_on, if_true]

theorem claimDecision_of_any (at_n : s.slot n = some q) (info : q.info = some i) (mode : i.mode = .any)
    (stops : commits .any i.entries = false) : claimDecision n s = finishClaim n (refusalOutcome i.entries) s := by
  unfold claimDecision
  simp only [at_n, Option.bind_some, info, mode, stops, Bool.false_eq_true, if_false]

theorem claimDecision_of_all (at_n : s.slot n = some q) (info : q.info = some i) (mode : i.mode = .all)
    (stops : commits .all i.entries = false) : claimDecision n s = withdrawAndFinish n (refusalOutcome i.entries) s := by
  unfold claimDecision
  simp only [at_n, Option.bind_some, info, mode, stops, Bool.false_eq_true, if_false]

theorem commitClaim_of_full (at_n : s.slot n = some q) (info : q.info = some i) (ring : i.cls = .ofRing)
    (full : 16 ≤ s.rp.control.length) : commitClaim n s = finishClaim n .queueFull s := by
  unfold commitClaim
  simp only [at_n, info]
  exact if_pos ⟨ring, full⟩

theorem commitClaim_of_room (at_n : s.slot n = some q) (info : q.info = some i)
    (room : i.cls = .ofRing → s.rp.control.length < 16) : commitClaim n s = runCommit n q i s := by
  unfold commitClaim
  simp only [at_n, info]
  exact if_neg fun ⟨ring, full⟩ => absurd (room ring) (Nat.not_lt.mpr full)

variable {wire : List WireEntry}

theorem commitDecision_of_live (at_n : s.slot n = some q) (info : q.info = some i)
    (live : goesLive i.mode wire i.entries = true) : commitDecision n wire s = enterLive n s := by
  unfold commitDecision
  simp only [at_n, Option.bind_some, info, live, if_true]

theorem commitDecision_of_all (at_n : s.slot n = some q) (info : q.info = some i) (mode : i.mode = .all)
    (fails : goesLive .all wire i.entries = false) : commitDecision n wire s = withdrawAndFinish n .broken s := by
  unfold commitDecision
  simp only [at_n, Option.bind_some, info, mode, fails, Bool.false_eq_true, if_false]

theorem commitDecision_of_any (at_n : s.slot n = some q) (info : q.info = some i) (mode : i.mode = .any)
    (fails : goesLive .any wire i.entries = false) : commitDecision n wire s = finishClaim n .refused s := by
  unfold commitDecision
  simp only [at_n, Option.bind_some, info, mode, fails, Bool.false_eq_true, if_false]

end Decisions

/-! The CLAIM return (R93 to R97) -/

/-- R95: an ANY claim that no zone takes. -/
theorem anyClaimRefusedAtItsReturn : Clause.AnyClaimRefusedAtItsReturn := by
  intro bytes f c k i s high member good own message at_n state generation info names mode refused
  have arrives := exec_frameArrival_of_own high member good own
  have stops : commits .any (List.zipWith Clause.answeredEntry c.entries i.entries) = false :=
    Bool.eq_false_iff.mpr fun goes_on => by
      obtain ⟨w, mem, place⟩ := (commits_any_answered names).mp goes_on
      exact place.elim (refused w mem).1 (refused w mem).2
  have entries : List.zipWith Clause.answeredEntry c.entries i.entries = List.zipWith (fun (w : WireEntry) (e : ZoneEntry) =>
      { zone := e.zone, owner := if w.owner = 0 then none else some w.owner.toNat
        state := if w.verdict = 0 then .noOwner else .refused
        lastCode := some (.verdict (verdictOfByte w.verdict)) }) c.entries i.entries :=
    zipWith_congr_left _ fun w mem e => by
      obtain ⟨not_held, not_waiting⟩ := refused w mem
      simp only [Clause.answeredEntry, if_neg not_held, if_neg not_waiting]
  have decides := (claimReturned_of ⟨at_n, state, generation, info, names⟩).trans
    (claimDecision_of_any (i := { i with entries := List.zipWith Clause.answeredEntry c.entries i.entries })
      (slot_set at_n _) rfl mode stops)
  have turns := finishClaim_turns at_n (k.returned i (List.zipWith Clause.answeredEntry c.entries i.entries))
    (refusalOutcome (List.zipWith Clause.answeredEntry c.entries i.entries))
  rw [← decides, refusalOutcome_answered names, finishNotice_of_failed (refusal_fails _), entries] at turns
  exact ⟨_, arrives.trans (congrArg Host.Outcome.next (returnOwn_of_claim message s)), turns⟩

/-- R94: an ALL claim that is refused. -/
theorem allClaimRefusedAtItsReturn : Clause.AllClaimRefusedAtItsReturn := by
  intro bytes f c k i s own message back ring mode refused
  obtain ⟨high, member, good, origin⟩ := own
  have arrives := exec_frameArrival_of_own high member good origin
  have decides := claimReturned_of back
  obtain ⟨at_n, state, generation, info, names⟩ := back
  have stops : commits .all (List.zipWith Clause.answeredEntry c.entries i.entries) = false :=
    Bool.eq_false_iff.mpr fun goes_on => by
      obtain ⟨w, mem, other⟩ := refused
      exact other ((commits_all_answered names).mp goes_on w mem)
  have decides := decides.trans
    (claimDecision_of_all (i := { i with entries := List.zipWith Clause.answeredEntry c.entries i.entries })
      (slot_set at_n _) rfl mode stops)
  have withdraws := withdrawAndFinish_withdraws at_n
    (q := k.returned i (List.zipWith Clause.answeredEntry c.entries i.entries)) rfl ring
    (refusalOutcome (List.zipWith Clause.answeredEntry c.entries i.entries))
  rw [← decides, refusalOutcome_answered names, finishNotice_of_failed (refusal_fails _)] at withdraws
  obtain ⟨slot, others, za, lu, rp, cp, pu⟩ := withdraws
  refine ⟨_, arrives.trans (congrArg Host.Outcome.next (returnOwn_of_claim message s)), slot, others, za, lu, ?_, cp, pu⟩
  rw [rp, byteOf_toNat]
  exact congrArg (fun g => RingPort.storeControl (frameOf s.address 0 (.withdraw c.slot g)) _) (byteOf_eq generation)

theorem Slot.withEntries_self (k : Slot) : k.withEntries k.entries = k := by
  unfold Slot.withEntries Slot.entries
  cases info : k.info with
  | none => exact congrArg (fun i => { k with info := i }) info.symm
  | some i => exact congrArg (fun i => { k with info := i }) info.symm

theorem Slot.withEntries_twice (first second : List ZoneEntry) (k : Slot) :
    (k.withEntries first).withEntries second = k.withEntries second := by
  unfold Slot.withEntries
  simp only [Option.map_map, Function.comp_def]

theorem notify_slot_keeps {n : Nat} {k : Slot} {s : State} (at_n : s.slot n = some k) (waits : k.state ≠ .live) (z : Nat) (u : Tag)
    (event : NoticeEvent) : ∃ entries, (notify z u event s).slot n = some (k.withEntries entries) := by
  unfold notify
  rw [State.slot, post_cu]
  unfold tellOrigin
  have still : s.cu[n]? = some (k.withEntries k.entries) := at_n.trans (congrArg some k.withEntries_self.symm)
  split
  · by_cases same : n = u.slot
    · subst same
      by_cases takes : k.takesNotice s.address u.generation z = true
      · rw [applyNotice_of_taken at_n takes]
        have at_t : State.slot { s with
            cu := s.cu.set u.slot (k.noticed s.address z event)
            cp := (post (.claimZone u.slot u.generation k.issuer z event.entryState event.reason) s).cp } u.slot =
              some (k.noticed s.address z event) := slot_set at_n _
        exact ⟨_, (congrArg (fun t => State.slot t u.slot) (allTerminalTest_of_not_live at_t waits)).trans at_t⟩
      · rw [applyNotice_of_ignored fun q at_q => by cases at_n.symm.trans at_q; exact Bool.eq_false_iff.mpr takes]
        exact ⟨_, still⟩
    · exact ⟨_, (applyNotice_slot_ne same _ _ _ event s).trans still⟩
  · exact ⟨_, still⟩

/-- A slot that is not LIVE keeps all but its entries through what the Zone Arbiter tells. -/
theorem Tells.slot_keeps {p : Tag → Prop} {s t : State} {n : Nat} (h : Tells p s t) : ∀ {k : Slot}, s.slot n = some k →
    k.state ≠ .live → ∃ entries, t.slot n = some (k.withEntries entries) := by
  induction h with
  | still cu ku config rp =>
    intro k at_n _
    refine ⟨k.entries, ?_⟩
    rw [State.slot, cu, k.withEntries_self]
    exact at_n
  | tell z e s meant =>
    intro k at_n waits
    exact notify_slot_keeps at_n waits z _ e
  | trans h h' ih ih' =>
    intro k at_n waits
    obtain ⟨first, at_t⟩ := ih at_n waits
    obtain ⟨second, at_u⟩ := ih' at_t waits
    exact ⟨second, at_u.trans (congrArg some (k.withEntries_twice first second))⟩

/-- A slot that commits: what was HELD or WAITING is PENDING (R97). -/
def Slot.committed (i : ClaimInfo) (k : Slot) : Slot :=
  { k with state := .committing, info := some { i with entries := i.entries.map ZoneEntry.toCommit } }

theorem Slot.committed_of_info {q : Slot} {i : ClaimInfo} (info : q.info = some i) :
    { q.withEntries (q.entries.map ZoneEntry.toCommit) with state := .committing } = q.committed i := by
  rw [Slot.entries_of_info info]
  unfold Slot.withEntries Slot.committed
  rw [info]
  rfl

/-- A slot that commits, in its state, with a place set aside (R97). -/
def committingAt (n : Nat) (i : ClaimInfo) (k : Slot) (s : State) : State :=
  { s with cu := s.cu.set n (k.committed i), rp := { s.rp with placeSetAside := true } }

theorem runCommit_of_ring {n : Nat} {k q : Slot} {i : ClaimInfo} {s : State} (at_n : s.slot n = some k) (info : q.info = some i)
    (ring : i.cls = .ofRing) : runCommit n q i { s with cu := s.cu.set n q } =
      storeCommit (commitAtOwner s.address (commitContentOf n q.generation i) (committingAt n i q s)).1
        (updateSlot n (fun k => k.withEntries (List.zipWith s.acknowledgeOwn
            (commitAtOwner s.address (commitContentOf n q.generation i) (committingAt n i q s)).1.entries k.entries))
          (commitAtOwner s.address (commitContentOf n q.generation i) (committingAt n i q s)).2) := by
  have at_u : State.slot { s with cu := s.cu.set n q } n = some q := slot_set at_n q
  unfold runCommit
  simp only [ring, updateSlot_of_slot at_u, List.set_set, Slot.committed_of_info info]
  rfl

theorem Slot.withEntries_map (f : List ZoneEntry → List ZoneEntry) (q : Slot) :
    q.withEntries (f q.entries) = { q with info := q.info.map fun j => { j with entries := f j.entries } } := by
  unfold Slot.withEntries Slot.entries
  cases q.info <;> rfl

/-- R97: a ring claim commits. -/
theorem claimCommitsAtItsReturn : Clause.ClaimCommitsAtItsReturn := by
  intro bytes f c k i s own message back ring goes_on n entries
  obtain ⟨high, member, good, origin⟩ := own
  have arrives := exec_frameArrival_of_own high member good origin
  have decides := claimReturned_of back
  obtain ⟨at_n, state, generation, info, names⟩ := back
  have at_u : State.slot { s with cu := s.cu.set n (k.returned i entries) } n = some (k.returned i entries) := slot_set at_n _
  have commit : commits i.mode entries = true := by
    rcases goes_on with ⟨mode, held⟩ | ⟨mode, place⟩
    · rw [mode]
      exact (commits_all_answered names).mpr held
    · rw [mode]
      exact (commits_any_answered names).mpr place
  have decides := decides.trans (claimDecision_of_commits (i := { i with entries := entries }) at_u rfl commit)
  have arrives := arrives.trans (congrArg Host.Outcome.next ((returnOwn_of_claim message s).trans decides))
  refine ⟨fun full => ?_, fun room => ?_⟩
  · rw [commitClaim_of_full at_u rfl ring full] at arrives
    exact ⟨_, arrives, finishClaim_turns at_n (k.returned i entries) .queueFull⟩
  · intro pending content committing answered
    have ran := (commitClaim_of_room (i := { i with entries := entries }) at_u rfl fun _ => room).trans
      (runCommit_of_ring at_n rfl ring)
    have contents : commitContentOf n (k.returned i entries).generation { i with entries := entries } = content := by
      have slots : byteOf n = c.slot := byteOf_toNat c.slot
      unfold commitContentOf claimContentOf
      rw [commit_entries_answered names, slots]
      exact congrArg (fun g => { content with generation := g }) (byteOf_eq generation)
    rw [contents] at ran
    have told : Tells anyTag committing answered.2 := commitAtOwner_tells s.address content committing
    have pu : answered.2.pu = s.pu := (commitAtOwner_quiet (b := false) s.address content committing).pu
    obtain ⟨es, kept⟩ := told.slot_keeps (n := n) (slot_set at_n _) fun live => by cases live
    refine ⟨_, arrives.trans (congrArg Host.Outcome.next ran), ?_, ?_, ?_, fun m other => ?_, rfl, rfl, rfl, pu⟩
    · exact congrArg (fun a => RingPort.storeSetAside (frameOf a 0 (.commit answered.1)) answered.2.rp) told.address
    · refine ((slot_updateSlot n _ _ n).trans (if_pos rfl)).trans (congrArg (fun g => (answered.2.slot n).map g) ?_)
      funext q
      refine (q.withEntries_map (List.zipWith s.acknowledgeOwn answered.1.entries)).trans ?_
      unfold State.acknowledgeOwn
      rw [acknowledged_eq]
    · refine (congrArg (Option.map _) ((slot_updateSlot n _ _ n).trans (if_pos rfl))).trans ?_
      exact congrArg (fun q => Option.map _ (Option.map _ q)) kept
    · exact (slot_updateSlot n _ _ m).trans (if_neg other)

/-! The COMMIT return (R99 to R102) -/

theorem commitContent_entries {body : List Byte} {c : Content} (read : commitContent body = some c) : c.entries ≠ [] := by
  unfold commitContent contentWith at read
  split at read
  · split at read
    · rename_i rest sized
      cases read
      obtain ⟨low, -, length⟩ := sized
      match rest, length with
      | _ :: _ :: _ :: _ :: _, _ => exact List.cons_ne_nil _ _
      | [], length => simp at length; omega
      | [_], length => simp at length; omega
      | [_, _], length => simp at length; omega
      | [_, _, _], length => simp at length; omega
    · cases read
  · cases read

/-- A COMMIT names a zone (R16). -/
theorem commit_entries_ne_nil {f : Frame} {c : Content} (message : f.message = some (.commit c)) : c.entries ≠ [] := by
  unfold Frame.message at message
  split at message
  · unfold presenceMessage at message
    split at message <;> cases message
  · split at message
    · obtain ⟨_, -, other⟩ := Option.map_eq_some_iff.mp message
      cases other
    · split at message
      · obtain ⟨_, read, same⟩ := Option.map_eq_some_iff.mp message
        cases same
        exact commitContent_entries read
      · split at message
        · rcases withdrawMessage_cases f.body with read | ⟨_, _, read⟩ <;> cases read.symm.trans message
        · split at message
          · rcases noticeMessage_cases f.body with read | ⟨_, _, _, _, _, read⟩ <;> cases read.symm.trans message
          · split at message
            · rcases audioMessage_cases f.body with read | ⟨_, _, _, read⟩ <;> cases read.symm.trans message
            · cases message

theorem hasPlace_iff (state : EntryState) :
    state.hasPlace = true ↔ state = .active ∨ state = .suspended ∨ state = .waiting := by
  cases state <;> decide

theorem goesLive_all (wire : List WireEntry) (entries : List ZoneEntry) : goesLive .all wire entries = true ↔
    (∀ w ∈ wire, w.ack = 1) ∧ ∀ e ∈ entries, e.state.isTerminal = false := by
  simp [goesLive, ackOfByte_eq_taken]

theorem goesLive_any (wire : List WireEntry) (entries : List ZoneEntry) : goesLive .any wire entries = true ↔
    ∃ e ∈ entries, e.state = .active ∨ e.state = .suspended ∨ e.state = .waiting := by
  simp [goesLive, hasPlace_iff]

/-- A claim that goes LIVE has an entry that is not terminal. -/
theorem plays_of_goesLive {mode : Mode} {wire : List WireEntry} {entries : List ZoneEntry} (some_entry : entries ≠ [])
    (live : goesLive mode wire entries = true) : ∃ e ∈ entries, e.state.isTerminal = false := by
  cases mode with
  | all =>
    obtain ⟨e, mem⟩ := List.exists_mem_of_ne_nil entries some_entry
    exact ⟨e, mem, ((goesLive_all wire entries).mp live).2 e mem⟩
  | any =>
    obtain ⟨e, mem, place⟩ := (goesLive_any wire entries).mp live
    refine ⟨e, mem, ?_⟩
    rcases place with state | state | state <;> rw [state] <;> rfl

theorem acknowledged_ne_nil {c : Content} {entries : List ZoneEntry} (some_entry : c.entries ≠ [])
    (names : c.entries.map (·.zone.toNat) = entries.map (·.zone)) :
    List.zipWith Clause.acknowledgedEntry c.entries entries ≠ [] := by
  intro empty
  have length : c.entries.length = entries.length := by
    simpa using congrArg List.length names
  have none_left := congrArg List.length empty
  rw [List.length_zipWith, ← length, Nat.min_self] at none_left
  exact some_entry (List.length_eq_zero_iff.mp none_left)

/-- R99 to R102: the decision at the COMMIT return. -/
theorem commitReturnDecides : Clause.CommitReturnDecides := by
  intro bytes f c k i s own message back ring n entries slot live
  obtain ⟨high, member, good, origin⟩ := own
  have arrives := exec_frameArrival_of_own high member good origin
  have decides := commitReturned_of back
  obtain ⟨at_n, state, generation, info, names⟩ := back
  have at_u : State.slot { s with cu := s.cu.set n (k.returned i entries) } n = some (k.returned i entries) := slot_set at_n _
  have arrives := arrives.trans (congrArg Host.Outcome.next ((returnOwn_of_commit message s).trans decides))
  have live_iff : goesLive i.mode c.entries entries = true ↔ live := by
    cases mode : i.mode with
    | all => simp [live, mode, goesLive_all]
    | any => simp [live, mode, goesLive_any]
  refine ⟨fun lives => ?_, fun fails mode => ?_, fun fails mode => ?_⟩
  · have goes := live_iff.mpr lives
    rw [commitDecision_of_live (i := { i with entries := entries }) at_u rfl goes] at arrives
    exact ⟨_, arrives, enterLive_turns at_n (q := k.returned i entries) (i := { i with entries := entries }) rfl
      (plays_of_goesLive (acknowledged_ne_nil (commit_entries_ne_nil message) names) goes)⟩
  · have stops : goesLive .all c.entries entries = false :=
      Bool.eq_false_iff.mpr fun goes => fails (live_iff.mp (mode ▸ goes))
    rw [commitDecision_of_all (i := { i with entries := entries }) at_u rfl mode stops] at arrives
    obtain ⟨at_t, others, za, lu, rp, cp, pu⟩ := withdrawAndFinish_withdraws at_n (q := k.returned i entries)
      (i := { i with entries := entries }) rfl ring .broken
    refine ⟨_, arrives, at_t, others, za, lu, ?_, cp, pu⟩
    rw [rp, byteOf_toNat]
    exact congrArg (fun g => RingPort.storeControl (frameOf s.address 0 (.withdraw c.slot g)) _) (byteOf_eq generation)
  · have stops : goesLive .any c.entries entries = false :=
      Bool.eq_false_iff.mpr fun goes => fails (live_iff.mp (mode ▸ goes))
    rw [commitDecision_of_any (i := { i with entries := entries }) at_u rfl mode stops] at arrives
    exact ⟨_, arrives, finishClaim_turns at_n (k.returned i entries) .refused⟩

/-- Settles O37. -/
theorem returnsAtTheOrigin : Obligations.ReturnsAtTheOrigin :=
  ⟨lateReturnsAreIgnored, anyClaimRefusedAtItsReturn, claimCommitsAtItsReturn, allClaimRefusedAtItsReturn, commitReturnDecides⟩

end Sys2Proof.Machine
end


section
/-! SUPPORT. An accepted issue: the slot it takes, the CLAIM of a ring claim, and where a local claim's run ends (R89 to R92). -/

namespace Sys2Proof.Machine

/-! The slot (R90) -/

theorem freeSlotNumber_of_lowest {s : State} {n : Nat} {k : Slot} (at_n : s.slot n = some k) (free : k.state = .free)
    (lowest : ∀ m < n, ∀ q, s.slot m = some q → q.state ≠ .free) : s.freeSlotNumber = some n := by
  obtain ⟨inside, known⟩ := List.getElem?_eq_some_iff.mp at_n
  refine List.findIdx?_eq_some_iff_getElem.mpr ⟨inside, by rw [known, free]; rfl, fun m less => ?_⟩
  simpa using lowest m less _ (List.getElem?_eq_getElem _)

theorem issue_accepted {issuer : Issuer} {d : ClaimDesc} {s : State} {n : Nat} {k : Slot} (valid : descValid d = true)
    (member : s.isMember = true) (ring : s.classOf d = .ofRing → s.ringState = .up ∧ s.rp.control.length < 16)
    (at_n : s.slot n = some k) (free : k.state = .free)
    (lowest : ∀ m < n, ∀ q, s.slot m = some q → q.state ≠ .free) :
    issue issuer d s = (.accepted n ((k.generation + 1) % 16), runIssue n k (issueInfo issuer (s.classOf d) d) s) :=
  (issue_of_slot valid (stateRefusal_eq_none member fun cls => (ring cls).1)
    (freeSlotNumber_of_lowest at_n free lowest) at_n).trans
      (if_neg fun ⟨cls, full⟩ => absurd (ring cls).2 (Nat.not_lt.mpr full))

theorem slot_with {s : State} {n : Nat} {k : Slot} (at_n : s.slot n = some k) (q : Slot) :
    State.slot { s with cu := s.cu.set n q } n = some q := slot_set at_n q

theorem taken_eq {s : State} {n : Nat} {k : Slot} (at_n : s.slot n = some k) (i : ClaimInfo) :
    updateSlot n (Slot.taken i) s = { s with cu := s.cu.set n (k.taken i) } := updateSlot_of_slot at_n _

theorem runIssue_of_ring {s : State} {n : Nat} {k : Slot} {i : ClaimInfo} (at_n : s.slot n = some k) (ring : i.cls = .ofRing) :
    runIssue n k i s =
      let answered := claimAtOwner s.address (claimContentOf n ((k.generation + 1) % 16) i)
        { s with cu := s.cu.set n (k.taken i) }
      storeControl 0 (.claim answered.1) answered.2 := by
  unfold runIssue
  simp only [ring, taken_eq at_n]
  rfl

theorem runIssue_of_window {s : State} {n : Nat} {k : Slot} {i : ClaimInfo} (at_n : s.slot n = some k)
    (window : i.cls = .ofWindow) : runIssue n k i s =
      let answered := claimAtOwner s.address (claimContentOf n ((k.generation + 1) % 16) i)
        { s with cu := s.cu.set n (k.taken i) }
      takeClaimReturn n answered.1.entries answered.2 := by
  unfold runIssue
  simp only [window, taken_eq at_n]
  rfl

/-! What a CLAIM at the Zone Arbiter leaves -/

theorem answer_cu (z : Nat) (t : Terms) (r : ZoneRecord) (s : State) : (answer z t r s).2.cu = s.cu := by
  by_cases held : r.verdict t = .held
  · rw [answer_of_held z s held]
    split
    · exact (reserve_onlyZones z t s).cu
    · rfl
  · rw [answer_of_ne_held z s held]

theorem answerEntry_cu (t : Terms) (e : WireEntry) (s : State) : (answerEntry t e s).2.cu = s.cu := by
  unfold answerEntry
  split
  · rfl
  · split
    · exact answer_cu _ t _ s
    · exact post_cu _ s

theorem eachEntry_cu {take : WireEntry → State → WireEntry × State} (one : ∀ e s, (take e s).2.cu = s.cu) :
    ∀ (entries : List WireEntry) (s : State), (eachEntry take entries s).2.cu = s.cu
  | [], _ => rfl
  | e :: rest, s => (eachEntry_cu one rest (take e s).2).trans (one e s)

/-- A CLAIM is answered with no slot touched. -/
theorem claimAtOwner_cu (origin : Nat) (c : Content) (s : State) : (claimAtOwner origin c s).2.cu = s.cu :=
  eachEntry_cu (answerEntry_cu _) _ s

theorem eachEntry_eq_self {take : WireEntry → State → WireEntry × State} {s : State} (left : ∀ e, take e s = (e, s)) :
    ∀ entries : List WireEntry, eachEntry take entries s = (entries, s)
  | [] => rfl
  | e :: rest => by
    unfold eachEntry
    simp only [left e, eachEntry_eq_self left rest]

/-- A station with no zone answers no entry. -/
theorem claimAtOwner_of_no_zone (origin : Nat) (c : Content) {s : State} (no_zone : s.za = []) :
    claimAtOwner origin c s = (c, s) := by
  have left : ∀ e, answerEntry (c.terms origin) e s = (e, s) := fun e =>
    answerEntry_of_none (by unfold State.zone; rw [no_zone]; rfl)
  unfold claimAtOwner
  rw [eachEntry_eq_self left]

/-! The bytes of a claim description (R167) -/

theorem modeCode_of_modeOfCode {b : Byte} {m : Mode} (read : modeOfCode b = some m) : modeCode m = b := by
  unfold modeOfCode at read
  split at read
  · cases read
    exact (byte_eq ‹_›).symm
  · cases read
    exact (byte_eq ‹_›).symm
  · cases read

theorem flagCode_of_flagOfCode {b : Byte} {f : Bool} (read : flagOfCode b = some f) : flagCode f = b := by
  unfold flagOfCode at read
  split at read
  · cases read
    exact (byte_eq ‹_›).symm
  · cases read
    exact (byte_eq ‹_›).symm
  · cases read

/-- The fields of a claim description that was given are the bytes that gave them. -/
theorem claimDescOf_bytes {count : Byte} {places : List Byte} {level mode wait : Byte} {gain duration : Word16} {port : Byte}
    {d : ClaimDesc} (given : claimDescOf count places level mode wait gain duration port = some d) :
    byteOf d.level = level ∧ modeCode d.mode = mode ∧ flagCode d.wait = wait ∧ BitVec.ofNat 16 d.gain = gain ∧
      BitVec.ofNat 16 d.duration = duration := by
  unfold claimDescOf at given
  split at given
  · rename_i m w read_mode read_wait
    split at given
    · cases given
      exact ⟨byteOf_toNat level, modeCode_of_modeOfCode read_mode, flagCode_of_flagOfCode read_wait,
        (BitVec.ofNat_toNat 16 gain).trans (BitVec.setWidth_eq gain),
        (BitVec.ofNat_toNat 16 duration).trans (BitVec.setWidth_eq duration)⟩
    · cases given
  · cases given

theorem isMember_of_up {s : State} (up : s.ringState = .up) : s.isMember = true := by
  unfold State.isMember
  rw [up]
  rfl

theorem RingPort.storeControl_of_room {p : RingPort} (unmarked : p.placeSetAside = false) (room : p.control.length < 16)
    (f : Frame) : p.storeControl f = ({ p with control := p.control ++ [f] } : RingPort).arbitrate := by
  unfold RingPort.storeControl
  rw [RingPort.controlRoom_eq unmarked, if_pos (decide_eq_true room)]

/-- Settles O34. -/
theorem ringClaimIsStored : Obligations.RingClaimIsStored := by
  intro count places level mode wait gain duration port d n k s high up no_zone given valid foreign room unmarked at_n free lowest g
  obtain ⟨some_zone, -⟩ := (descValid_iff d).mp valid
  obtain ⟨z, mem⟩ := List.exists_mem_of_length_pos some_zone
  have cls : s.classOf d = .ofRing := (classOf_eq_ofRing_iff s d).mpr ⟨z, mem, foreign z mem⟩
  have accepted := issue_accepted (issuer := .host) valid (isMember_of_up up) (fun _ => ⟨up, room⟩) at_n free lowest
  obtain ⟨level_eq, mode_eq, wait_eq, gain_eq, duration_eq⟩ := claimDescOf_bytes given
  have content : claimContentOf n g (issueInfo .host (s.classOf d) d) =
      { slot := byteOf n, generation := byteOf g, level := level, mode := mode, wait := wait, gain := gain,
        duration := duration, entries := d.zones.map fun z => { zone := byteOf z, verdict := 0, ack := 0, owner := 0 } } := by
    unfold claimContentOf issueInfo
    simp only [level_eq, mode_eq, wait_eq, gain_eq, duration_eq, List.map_map, Function.comp_def]
  have ran := (runIssue_of_ring (i := issueInfo .host (s.classOf d) d) at_n cls).trans
    (congrArg (fun answered : Content × State => storeControl 0 (.claim answered.1) answered.2)
      (claimAtOwner_of_no_zone s.address _ no_zone))
  have stored : runIssue n k (issueInfo .host (s.classOf d) d) s =
      { s with
        cu := s.cu.set n (k.taken (issueInfo .host (s.classOf d) d))
        rp := ({ s.rp with control := s.rp.control ++
          [frameOf s.address 0 (.claim (claimContentOf n g (issueInfo .host (s.classOf d) d)))] } : RingPort).arbitrate } :=
    ran.trans (congrArg (fun rp => { s with cu := s.cu.set n (k.taken (issueInfo .host (s.classOf d) d)), rp := rp })
      (RingPort.storeControl_of_room unmarked room _))
  have answers : exec (.claim count places level mode wait gain duration port) s = .next (answerIssue (issue .host d s)) :=
    congrArg Host.Outcome.next ((congrArg (claimCommand · s) given).trans (claimCommand_of_high high d))
  rw [answers, accepted, stored, content, cls]
  rfl

/-! Where a local claim's run ends (R92) -/

/-- A claim whose run has ended: LIVE, or FREE with an outcome. -/
def Slot.Concluded (q : Slot) : Prop :=
  (q.state, q.outcome.isSome) ∈ [(SlotState.live, false), (.free, true)] ∧ q.returnTimer = none

theorem Slot.freed_concluded (outcome : ClaimOutcome) (q : Slot) : (q.freed outcome).Concluded :=
  ⟨List.mem_cons_of_mem _ List.mem_cons_self, rfl⟩

/-- A slot whose claim's run has ended. -/
def ConcludedAt (n : Nat) (t : State) : Prop := ∃ q, t.slot n = some q ∧ q.Concluded

section Concludes
variable {n : Nat} {q : Slot} {i : ClaimInfo} {s : State}

theorem finishClaim_concludes (at_n : s.slot n = some q) (outcome : ClaimOutcome) : ConcludedAt n (finishClaim n outcome s) :=
  ⟨_, finishClaim_slot at_n outcome, q.freed_concluded outcome⟩

theorem withdrawAndFinish_concludes (at_n : s.slot n = some q) (outcome : ClaimOutcome) :
    ConcludedAt n (withdrawAndFinish n outcome s) := by
  rw [withdrawAndFinish_eq at_n]
  exact ⟨_, slot_set (withdrawAtOwner_slot at_n) _, q.freed_concluded outcome⟩

theorem enterLive_concludes (at_n : s.slot n = some q) (fresh : q.outcome = none) : ConcludedAt n (enterLive n s) := by
  unfold enterLive
  simp only [at_n, updateSlot_of_slot at_n]
  generalize live_eq : ({ q with state := .live, durationLeft := q.info.bind fun i => timerOf i.duration, returnTimer := none } :
    Slot) = live
  have at_t : (post (.claimLive n q.generation q.issuer) { s with cu := s.cu.set n live }).slot n = some live := by
    rw [State.slot, post_cu]
    exact slot_set at_n _
  rw [allTerminalTest_of_slot at_t]
  split
  · exact finishClaim_concludes at_t .done
  · refine ⟨live, at_t, ?_⟩
    subst live_eq
    refine ⟨?_, rfl⟩
    rw [fresh]
    exact List.mem_cons_self

theorem commitDecision_concludes (at_n : s.slot n = some q) (info : q.info = some i) (fresh : q.outcome = none)
    (wire : List WireEntry) : ConcludedAt n (commitDecision n wire s) := by
  unfold commitDecision
  simp only [at_n, Option.bind_some, info]
  split
  · exact enterLive_concludes at_n fresh
  · split
    · exact withdrawAndFinish_concludes at_n _
    · exact finishClaim_concludes at_n _

theorem takeCommitReturn_concludes (at_n : s.slot n = some q) (info : q.info = some i) (fresh : q.outcome = none)
    (wire : List WireEntry) : ConcludedAt n (takeCommitReturn n wire s) := by
  rw [takeCommitReturn_of_slot at_n info]
  exact commitDecision_concludes (q := q.returned i _) (slot_with at_n _) rfl fresh wire

/-- A local commit is answered at once, and its claim decided. -/
theorem runCommit_of_window (at_n : s.slot n = some q) (info : q.info = some i) (window : i.cls = .ofWindow) :
    runCommit n q i s =
      let answered := commitAtOwner s.address (commitContentOf n q.generation i)
        { s with cu := s.cu.set n (q.committed i) }
      takeCommitReturn n answered.1.entries answered.2 := by
  unfold runCommit
  simp only [window, updateSlot_of_slot at_n, Slot.committed_of_info info]
  rfl

theorem runCommit_concludes (at_n : s.slot n = some q) (info : q.info = some i) (window : i.cls = .ofWindow)
    (fresh : q.outcome = none) : ConcludedAt n (runCommit n q i s) := by
  rw [runCommit_of_window at_n info window]
  obtain ⟨entries, kept⟩ := (commitAtOwner_tells s.address (commitContentOf n q.generation i)
    { s with cu := s.cu.set n (q.committed i) }).slot_keeps (n := n) (slot_set at_n _) fun live => by cases live
  exact takeCommitReturn_concludes (q := (q.committed i).withEntries entries) (i := { i with entries := entries }) kept rfl fresh _

theorem claimDecision_concludes (at_n : s.slot n = some q) (info : q.info = some i) (window : i.cls = .ofWindow)
    (fresh : q.outcome = none) : ConcludedAt n (claimDecision n s) := by
  unfold claimDecision
  simp only [at_n, Option.bind_some, info]
  split
  · rw [commitClaim_of_room at_n info fun ring => by rw [window] at ring; cases ring]
    exact runCommit_concludes at_n info window fresh
  · split
    · exact withdrawAndFinish_concludes at_n _
    · exact finishClaim_concludes at_n _

/-- A local claim's run ends within its issue. -/
theorem runIssue_concludes (at_n : s.slot n = some q) (window : i.cls = .ofWindow) : ConcludedAt n (runIssue n q i s) := by
  rw [runIssue_of_window at_n window]
  have at_a : (claimAtOwner s.address (claimContentOf n ((q.generation + 1) % 16) i)
      { s with cu := s.cu.set n (q.taken i) }).2.slot n = some (q.taken i) := by
    rw [State.slot, claimAtOwner_cu]
    exact slot_set at_n _
  simp only
  rw [takeClaimReturn_of_slot at_a rfl]
  exact claimDecision_concludes (slot_with at_a _) rfl window rfl

end Concludes

/-- R89 to R92: the slot of an accepted claim. -/
theorem acceptedClaimTakesASlot : Clause.AcceptedClaimTakesASlot := by
  intro count places level mode wait gain duration port d n k s high member given valid ring at_n free lowest
  have accepted := issue_accepted (issuer := .host) valid member ring at_n free lowest
  have answers : exec (.claim count places level mode wait gain duration port) s = .next (answerIssue (issue .host d s)) :=
    congrArg Host.Outcome.next ((congrArg (claimCommand · s) given).trans (claimCommand_of_high high d))
  rw [accepted] at answers
  have generations : SameGenerations (updateSlot n (Slot.taken (issueInfo .host (s.classOf d) d)) s)
      (runIssue n k (issueInfo .host (s.classOf d) d) s) := (runIssue_quiet n k _ s).slots
  refine ⟨_, answers, ⟨_, accepted, rfl⟩, ?_, fun m other => ?_, fun cls => ?_, fun cls => ?_⟩
  · refine (generations.slot n).trans ?_
    rw [slot_updateSlot, if_pos rfl, at_n]
    rfl
  · refine (generations.slot m).trans ?_
    rw [slot_updateSlot, if_neg other]
  · have at_t : (runIssue n k (issueInfo .host (s.classOf d) d) s).slot n =
        some (k.taken (issueInfo .host (s.classOf d) d)) := by
      rw [runIssue_of_ring at_n cls]
      exact (congrArg (·[n]?) (claimAtOwner_cu _ _ _)).trans (slot_set at_n _)
    have zones : (issueInfo .host (s.classOf d) d).entries.map (·.zone) = d.zones := by
      simp [issueInfo, Function.comp_def]
    exact ⟨congrArg (Option.map (·.state)) at_t, (congrArg (fun q : Option Slot => (q.bind (·.info)).map
      fun i => i.entries.map (·.zone)) at_t).trans (congrArg some zones)⟩
  · obtain ⟨q, at_t, ended, timer⟩ := runIssue_concludes (i := issueInfo .host (s.classOf d) d) at_n cls
    constructor
    · refine (congrArg (· ∈ [some (SlotState.live, false), some (.free, true)])
        (congrArg (Option.map fun q : Slot => (q.state, q.outcome.isSome)) at_t)).mpr ?_
      exact List.mem_map_of_mem (f := some) ended
    · exact (congrArg (Option.map (·.returnTimer)) at_t).trans (congrArg some timer)

end Sys2Proof.Machine
end


section
/-! SUPPORT. The issue of a local claim on one zone, from its slot to LIVE or to FREE (R89 to R102). -/

namespace Sys2Proof.Machine

/-! What a content says of its claim (R190, R63) -/

/-- The terms of a claim record under a tag of the station. -/
def termsOf (origin n generation : Nat) (i : ClaimInfo) : Terms :=
  { tag := { origin := origin, slot := n, generation := generation }, level := i.level, mode := i.mode, wait := i.wait,
    gain := i.gain, duration := i.duration }

theorem modeOfByte_modeCode (m : Mode) : modeOfByte (modeCode m) = m := by cases m <;> rfl

theorem flagCode_ne_zero (b : Bool) : decide (flagCode b ≠ 0) = b := by cases b <;> rfl

theorem toNat_word {n : Nat} (small : n < 65536) : (BitVec.ofNat 16 n).toNat = n := by
  rw [BitVec.toNat_ofNat]
  exact Nat.mod_eq_of_lt small

/-- A claim in range comes out of its content as it went in. -/
theorem claimContentOf_terms {n generation : Nat} {i : ClaimInfo} (slot : n < 8) (small : generation < 16) (level : i.level ≤ 7)
    (gain : i.gain ≤ 32767) (duration : i.duration ≤ 6000) (origin : Nat) :
    (claimContentOf n generation i).terms origin = termsOf origin n generation i := by
  unfold Content.terms claimContentOf termsOf
  simp only [modeOfByte_modeCode, flagCode_ne_zero]
  rw [toNat_byteOf (by omega), toNat_byteOf (by omega), toNat_byteOf (by omega), toNat_word (by omega), toNat_word (by omega),
    Nat.min_eq_left level, Nat.min_eq_left (show i.gain ≤ gainMaximum from gain),
    Nat.min_eq_left (show i.duration ≤ durationMaximum from duration)]

theorem verdictOfByte_code (v : Verdict) : verdictOfByte v.code = v := by cases v <;> rfl

/-- A station that is a member has an address. -/
theorem State.Coherent.address_pos {s : State} (coherent : s.Coherent) (member : s.isMember = true) : 1 ≤ s.address := by
  obtain ⟨c, config, valid⟩ := coherent.member_config member
  unfold State.address
  rw [config]
  exact valid.station.address.1

/-- An entry that its own station has answered. -/
def ownEntry (z : Nat) (v : Verdict) (s : State) : ZoneEntry :=
  { zone := z, owner := some s.address, state := v.entryState, lastCode := some (.verdict v) }

theorem answeredEntry_own {s : State} (coherent : s.Coherent) (member : s.isMember = true) (v : Verdict) (e : ZoneEntry)
    (zone ack : Byte) :
    Clause.answeredEntry { zone := zone, verdict := v.code, ack := ack, owner := byteOf s.address } e = ownEntry e.zone v s := by
  have owner : (byteOf s.address).toNat = s.address := toNat_byteOf coherent.address_small
  have given : byteOf s.address ≠ 0 := fun zero => by
    have := coherent.address_pos member
    rw [zero] at owner
    exact absurd owner (Nat.ne_of_lt this)
  rw [← answered_eq]
  unfold ZoneEntry.answered ownEntry
  simp only [verdictOfByte_code, if_neg given, owner]

/-! The issue as far as its decision -/

/-- The claim record of a local issue. -/
def localInfo (issuer : Issuer) (d : ClaimDesc) : ClaimInfo := issueInfo issuer .ofWindow d

/-- The terms of a local issue. -/
def localTerms (issuer : Issuer) (d : ClaimDesc) (n : Nat) (k : Slot) (s : State) : Terms :=
  termsOf s.address n ((k.generation + 1) % 16) (localInfo issuer d)

/-- What the own Zone Arbiter answers to a local issue. -/
def localAnswer (issuer : Issuer) (d : ClaimDesc) (z n : Nat) (k : Slot) (r : ZoneRecord) (s : State) : Verdict × State :=
  answer z (localTerms issuer d n k s) r { s with cu := s.cu.set n (k.taken (localInfo issuer d)) }

/-- The slot of a local issue as it is decided on. -/
def localSlot (issuer : Issuer) (d : ClaimDesc) (z : Nat) (k : Slot) (v : Verdict) (s : State) : Slot :=
  (k.taken (localInfo issuer d)).returned (localInfo issuer d) [ownEntry z v s]

section Local
variable {issuer : Issuer} {d : ClaimDesc} {z n : Nat} {k : Slot} {r : ZoneRecord} {s : State}

theorem localInfo_entries (zones : d.zones = [z]) :
    (localInfo issuer d).entries = [{ zone := z, owner := none, state := .pending, lastCode := none }] := by
  unfold localInfo issueInfo
  rw [zones]
  rfl

theorem slot_small (shaped : s.Shaped) (at_n : s.slot n = some k) : n < 8 := by
  obtain ⟨inside, -⟩ := List.getElem?_eq_some_iff.mp at_n
  rw [shaped.slots] at inside
  exact inside

/-- R90 to R93: a local claim on one zone, as far as its decision. -/
theorem issue_local (safe : s.Safe) (valid : descValid d = true) (zones : d.zones = [z]) (at_z : s.zone z = some r)
    (at_n : s.slot n = some k) (free : k.state = .free) (lowest : ∀ m < n, ∀ q, s.slot m = some q → q.state ≠ .free) :
    issue issuer d s = (.accepted n ((k.generation + 1) % 16), claimDecision n
      { (localAnswer issuer d z n k r s).2 with
        cu := s.cu.set n (localSlot issuer d z k (localAnswer issuer d z n k r s).1 s) }) := by
  obtain ⟨-, -, range, -, level, gain, duration, -⟩ := (descValid_iff d).mp valid
  have zone_range := range z (by rw [zones]; exact List.mem_singleton_self z)
  have member := safe.coherent.member_of_zone at_z
  have owned : s.owns z = true := (safe.coherent.zone_isSome_iff safe.matched z).mp (by rw [at_z]; rfl)
  have cls : s.classOf d = .ofWindow := (classOf_eq_ofWindow_iff s d).mpr fun y mem => by
    rw [zones] at mem
    cases List.mem_singleton.mp mem
    exact owned
  have accepted := issue_accepted (issuer := issuer) valid member (fun ring => by rw [cls] at ring; cases ring) at_n free lowest
  rw [cls] at accepted
  refine accepted.trans (congrArg (Prod.mk _) ?_)
  have at_byte : State.zone { s with cu := s.cu.set n (k.taken (localInfo issuer d)) } (byteOf z).toNat = some r := by
    rw [toNat_byteOf (by omega)]
    exact at_z
  have asks : (claimContentOf n ((k.generation + 1) % 16) (localInfo issuer d)).entries =
      [{ zone := byteOf z, verdict := 0, ack := 0, owner := 0 }] := by
    unfold claimContentOf
    rw [localInfo_entries zones]
    rfl
  have terms : (claimContentOf n ((k.generation + 1) % 16) (localInfo issuer d)).terms s.address = localTerms issuer d n k s :=
    claimContentOf_terms (slot_small safe.shaped at_n) (Nat.mod_lt _ (by omega)) level gain duration _
  have answers := (claimAtOwner_one s.address asks { s with cu := s.cu.set n (k.taken (localInfo issuer d)) })
  rw [terms, answerEntry_of_blank at_byte ⟨rfl, rfl⟩, toNat_byteOf (by omega)] at answers
  refine (runIssue_of_window at_n rfl).trans ?_
  rw [show issueInfo issuer .ofWindow d = localInfo issuer d from rfl, answers]
  have at_a : (localAnswer issuer d z n k r s).2.slot n = some (k.taken (localInfo issuer d)) := by
    rw [State.slot, localAnswer, answer_cu]
    exact slot_set at_n _
  refine (takeClaimReturn_of_slot at_a rfl _).trans ?_
  rw [localInfo_entries zones]
  have cu : (localAnswer issuer d z n k r s).2.cu = s.cu.set n (k.taken (localInfo issuer d)) := answer_cu _ _ _ _
  have entry := answeredEntry_own safe.coherent member (localAnswer issuer d z n k r s).1
    { zone := z, owner := none, state := .pending, lastCode := none } (byteOf z) 0
  rw [cu, List.set_set]
  refine congrArg (fun e => claimDecision n { (localAnswer issuer d z n k r s).2 with
    cu := s.cu.set n ((k.taken (localInfo issuer d)).returned (localInfo issuer d) [e]) }) ?_
  exact entry

end Local

/-- R95: a local ANY claim that its zone refuses. -/
theorem localClaimIsRefused : Clause.LocalClaimIsRefused := by
  intro issuer d z n k r s safe valid zones mode at_z at_n free lowest generation verdict not_held not_waiting
  have issued := issue_local (issuer := issuer) safe valid zones at_z at_n free lowest
  have terms : localTerms issuer d n k s =
      { tag := { origin := s.address, slot := n, generation := generation }, level := d.level, mode := .any,
        wait := d.wait, gain := d.gain, duration := d.duration } := by
    unfold localTerms termsOf
    rw [show (localInfo issuer d).mode = .any from mode]
    rfl
  have answers : localAnswer issuer d z n k r s =
      (verdict, { s with cu := s.cu.set n (k.taken (localInfo issuer d)) }) := by
    unfold localAnswer
    rw [terms]
    exact answer_of_ne_held z _ not_held
  have refused : verdict.entryState = .refused := by
    have not_blank : verdict ≠ .blank := r.verdict_ne_blank _
    generalize verdict = v at not_held not_waiting not_blank
    cases v <;> simp_all [Verdict.entryState]
  have stops : commits .any [ownEntry z verdict s] = false := by
    simp [commits, ownEntry, refused]
  have outcome : refusalOutcome [ownEntry z verdict s] = .refused := by
    simp [refusalOutcome, ownEntry, refused]
  rw [answers] at issued
  have decides := claimDecision_of_any (n := n) (s := { s with cu := s.cu.set n (localSlot issuer d z k verdict s) })
    (slot_set at_n _) rfl mode stops
  obtain ⟨at_t, others, cp, rp, za, lu, pu⟩ := finishClaim_turns at_n (localSlot issuer d z k verdict s) .refused
  have entry : ownEntry z verdict s =
      { zone := z, owner := some s.address, state := .refused, lastCode := some (.verdict verdict) } := by
    unfold ownEntry
    rw [refused]
  have slot : (localSlot issuer d z k verdict s).freed .refused =
      { generation := generation, state := .free, outcome := some .refused, durationLeft := none, returnTimer := none,
        info := some (Clause.localRecord issuer d z s .refused (.verdict verdict)) } := by
    unfold localSlot
    rw [entry]
    rfl
  refine ⟨_, issued.trans (congrArg (Prod.mk _) (decides.trans (congrArg (finishClaim n · _) outcome))), at_t.trans (congrArg some slot),
    others, cp, rp, za, lu, pu⟩

/-! A zone that takes its claim -/

theorem enterActive_onlyZones (z : Nat) (t : Terms) (s : State) : OnlyZones s (enterActive z t s) := rfl

/-- A member's reservation in an idle zone is taken in as the sole member, and the zone rests (R67, R68, R71). -/
theorem commitHeld_of_idle {s : State} {z : Nat} {r : ZoneRecord} {v : Reservation} {t : Terms} (at_z : s.zone z = some r)
    (held : r.reservation = some v) (own : v.tag = t.tag) (passes : t.level < r.floor) (idle : r.active = [])
    (level : r.activeLevel = none) (stack : r.stack = []) (waiting : r.waiting = []) :
    commitHeld z t r s = (.taken, post (.zoneGranted z t.tag)
      (enterActive z t (updateZone z (fun r => { r with reservation := none }) s))) := by
  have reserved : r.isReserved t.tag = true := by simp [ZoneRecord.isReserved, held, own]
  have passing : r.passes t.level = true := decide_eq_true passes
  have sole : r.admission t.level = .sole := by simp only [ZoneRecord.admission, level]
  have at_w := unreserved_zone at_z
  generalize without : updateZone z (fun r => { r with reservation := none }) s = w at at_w ⊢
  have at_e : (post (.zoneGranted z t.tag) (enterActive z t w)).zone z = some (r.unreserved.entered t) := by
    rw [State.zone, post_za]
    refine (zone_mapZone (enterActive_za z t w) fun _ => rfl).trans ?_
    rw [at_w]
    rfl
  have settled := settle_of_rests at_e (ZoneRecord.rests_of_bare stack waiting) none (!r.active.isEmpty)
  rw [idle] at settled
  unfold commitHeld
  simp only [reserved, passing, sole, idle, without, if_true]
  exact congrArg (Prod.mk _) settled

/-- An idle zone without a reservation has no tag. -/
theorem ZoneRecord.Lawful.tags_nil {r : ZoneRecord} (law : r.Lawful) (idle : r.active = []) (free : r.reservation = none) :
    r.tags = [] := by
  obtain ⟨stack, waiting⟩ := law.rest idle
  simp [ZoneRecord.tags, ZoneRecord.placedTags, Reservation.tags, idle, free, stack, waiting]

theorem ZoneRecord.Lawful.verdict_idle {r : ZoneRecord} {t : Terms} (law : r.Lawful) (idle : r.active = [])
    (free : r.reservation = none) (passes : t.level < r.floor) : r.verdict t = .held := by
  have new : t.tag ∉ r.tags := by simp [law.tags_nil idle free]
  rw [ZoneRecord.verdict_of_passes new passes, ZoneRecord.bid_of_idle free (law.level.mpr idle)]
  rfl

/-- A zone record with a sole member. -/
def ZoneRecord.soleWith (t : Terms) (r : ZoneRecord) : ZoneRecord := { r with active := [t.member], activeLevel := some t.level }

/-- A state in which a zone has taken a sole member, with ZONE_GRANTED posted, and nothing but records and the listen table has
changed besides. -/
def GrantedAt (z : Nat) (t : Terms) (r : ZoneRecord) (s b c : State) : Prop :=
  (∃ w, OnlyZones b w ∧ c = post (.zoneGranted z t.tag) w) ∧ c.zone z = some (r.soleWith t) ∧ ∀ z', z' ≠ z → c.zone z' = s.zone z'

theorem commitHeld_of_reserve {s b : State} (orderly : s.Orderly) {z : Nat} {r : ZoneRecord} {t : Terms}
    (at_z : s.zone z = some r) (idle : r.active = []) (free : r.reservation = none) (passes : t.level < r.floor)
    (za : b.za = (reserve z t s).za) : b.zone z = some (r.reserves (s.reservationFor t)) ∧
      ∃ c, commitHeld z t (r.reserves (s.reservationFor t)) b = (.taken, c) ∧ GrantedAt z t r s b c := by
  have law := orderly.at_zone at_z
  obtain ⟨stack, waiting⟩ := law.rest idle
  have reserved := za.trans (reserve_za orderly.distinct z t)
  have at_b : b.zone z = some (r.reserves (s.reservationFor t)) :=
    (zone_mapZone reserved fun _ => rfl).trans (by rw [at_z]; rfl)
  refine ⟨at_b, _, commitHeld_of_idle at_b rfl rfl passes idle (law.level.mpr idle) stack waiting,
    ⟨_, (updateZone_onlyZones z _ b).trans (enterActive_onlyZones z t _), rfl⟩, ?_, fun z' other => ?_⟩
  · rw [State.zone, post_za]
    refine (zone_mapZone (enterActive_za z t _) fun _ => rfl).trans ?_
    rw [unreserved_zone at_b]
    unfold ZoneRecord.soleWith ZoneRecord.unreserved ZoneRecord.reserves
    cases r
    cases free
    cases idle
    rfl
  · rw [State.zone, post_za]
    refine (zone_mapZone_other (enterActive_za z t _) (fun _ => rfl) other).trans ?_
    refine (zone_mapZone_other (unreserve_za z b) (fun _ => rfl) other).trans ?_
    exact zone_mapZone_other reserved (fun _ => rfl) other

/-- A tag that is a member of a zone has an active entry (R120). -/
theorem State.Heard.active_of_member {s : State} (heard : s.Heard) {z : Nat} {r : ZoneRecord} {m : Member}
    (at_z : s.zone z = some r) (mem : m ∈ r.active) : (s.listenEntry m.tag).map (·.active) = some true := by
  have known := (zone_zone at_z).2
  have role : m.tag ∈ s.za.flatMap ZoneRecord.tags :=
    List.mem_flatMap.mpr ⟨r, known, List.mem_append_left _ (ZoneRecord.active_placed mem)⟩
  obtain ⟨e, entry⟩ := Option.isSome_iff_exists.mp (heard.held m.tag (List.count_pos_iff.mpr role))
  obtain ⟨tag, in_lu⟩ := listenEntry_tag entry
  have active : s.za.any (·.isActive e.tag) = true :=
    List.any_eq_true.mpr ⟨r, known, by rw [tag]; simp only [ZoneRecord.isActive, List.any_eq_true]; exact ⟨m, mem, by simp⟩⟩
  rw [entry, Option.map_some, (heard.agrees e in_lu).active, active]

/-- The slot of a local claim that commits. -/
def localCommitted (issuer : Issuer) (d : ClaimDesc) (z : Nat) (k : Slot) (s : State) : Slot :=
  (localSlot issuer d z k .held s).committed { localInfo issuer d with entries := [ownEntry z .held s] }

/-- The slot of a local claim at its COMMIT return. -/
def localTaken (issuer : Issuer) (d : ClaimDesc) (z : Nat) (k : Slot) (s : State) : Slot :=
  (localCommitted issuer d z k s).returned (localInfo issuer d)
    [{ zone := z, owner := some s.address, state := .active, lastCode := some (.ack .taken) }]

/-- The slot of a local claim as it goes LIVE. -/
def localLive (issuer : Issuer) (d : ClaimDesc) (z : Nat) (k : Slot) (s : State) : Slot :=
  (localTaken issuer d z k s).goneLive d.duration

/-- The entry of a local COMMIT, acknowledged. -/
def takenWire (z : Nat) (s : State) : WireEntry := { zone := byteOf z, verdict := 1, ack := 1, owner := byteOf s.address }

/-- A local COMMIT whose one entry is taken. -/
theorem commitAtOwner_local {z n generation : Nat} {i : ClaimInfo} {r : ZoneRecord} {s b c : State} (small : s.address < 256)
    (address : b.address = s.address) (zone_small : z < 256) (entries : i.entries = [ownEntry z .held s])
    (terms : (claimContentOf n generation i).terms s.address = termsOf s.address n generation i)
    (at_z : b.zone z = some r) (new : (termsOf s.address n generation i).tag ∉ r.placedTags)
    (taken : commitHeld z (termsOf s.address n generation i) r b = (.taken, c)) :
    commitAtOwner b.address (commitContentOf n generation i) b =
      ({ commitContentOf n generation i with entries := [takenWire z s] }, c) := by
  have asks : (commitContentOf n generation i).entries =
      [{ zone := byteOf z, verdict := 1, ack := 0, owner := byteOf s.address }] := by
    unfold commitContentOf
    rw [entries]
    rfl
  have terms' : (commitContentOf n generation i).terms s.address = termsOf s.address n generation i := terms
  have at_byte : b.zone (byteOf z).toNat = some r := by
    rw [toNat_byteOf zone_small]
    exact at_z
  have own : (byteOf s.address).toNat = b.address := (toNat_byteOf small).trans address.symm
  have acknowledged := acknowledgeEntry_of_held (t := termsOf s.address n generation i)
    (e := { zone := byteOf z, verdict := 1, ack := 0, owner := byteOf s.address }) at_byte own rfl new
  rw [toNat_byteOf zone_small, taken] at acknowledged
  rw [commitAtOwner_one _ asks, address, terms', acknowledged]
  rfl

section Live
variable {issuer : Issuer} {d : ClaimDesc} {z n : Nat} {k : Slot} {r : ZoneRecord} {s : State}

/-- R97 to R102: a held claim commits, is taken in, and goes LIVE. -/
theorem claimDecision_of_held (safe : s.Safe) (valid : descValid d = true) (zones : d.zones = [z]) (at_z : s.zone z = some r)
    (at_n : s.slot n = some k) (idle : r.active = []) (unreserved : r.reservation = none) (passes : d.level < r.floor) :
    ∃ c, GrantedAt z (localTerms issuer d n k s) r s
        { reserve z (localTerms issuer d n k s) { s with cu := s.cu.set n (k.taken (localInfo issuer d)) } with
          cu := s.cu.set n (localCommitted issuer d z k s) } c ∧
      claimDecision n
        { reserve z (localTerms issuer d n k s) { s with cu := s.cu.set n (k.taken (localInfo issuer d)) } with
          cu := s.cu.set n (localSlot issuer d z k .held s) } =
      { c with
        cu := s.cu.set n (localLive issuer d z k s)
        cp := (post (.claimLive n ((k.generation + 1) % 16) issuer) c).cp } := by
  obtain ⟨-, -, range, -, level, gain, duration, -⟩ := (descValid_iff d).mp valid
  have zone_range := range z (by rw [zones]; exact List.mem_singleton_self z)
  have orderly : State.Orderly { s with cu := s.cu.set n (k.taken (localInfo issuer d)) } :=
    ⟨safe.orderly.distinct, safe.orderly.lawful⟩
  have only := reserve_onlyZones z (localTerms issuer d n k s) { s with cu := s.cu.set n (k.taken (localInfo issuer d)) }
  generalize run_eq : reserve z (localTerms issuer d n k s) { s with cu := s.cu.set n (k.taken (localInfo issuer d)) } = u at only
  have address : u.address = s.address := address_congr only.config
  obtain ⟨at_b, c, commits_held, granted⟩ := commitHeld_of_reserve orderly
    (b := { u with cu := s.cu.set n (localCommitted issuer d z k s) }) (t := localTerms issuer d n k s)
    at_z idle unreserved passes (congrArg State.za run_eq.symm : u.za = _)
  refine ⟨c, granted, ?_⟩
  have at_u : State.slot { u with cu := s.cu.set n (localSlot issuer d z k .held s) } n = some (localSlot issuer d z k .held s) :=
    slot_set at_n _
  have goes_on : commits (localInfo issuer d).mode [ownEntry z .held s] = true := by
    cases (localInfo issuer d).mode <;> rfl
  have ran := ((claimDecision_of_commits at_u rfl goes_on).trans (commitClaim_of_room at_u rfl fun ring => by cases ring)).trans
    (runCommit_of_window at_u rfl rfl)
  simp only [List.set_set] at ran
  have new : (localTerms issuer d n k s).tag ∉ r.placedTags := fun mem => by
    have role : (localTerms issuer d n k s).tag ∈ r.tags := List.mem_append_left _ mem
    rw [(safe.orderly.at_zone at_z).tags_nil idle unreserved] at role
    exact List.not_mem_nil role
  have answered := commitAtOwner_local (n := n) (generation := (k.generation + 1) % 16)
    (i := { localInfo issuer d with entries := [ownEntry z .held s] }) safe.coherent.address_small
    (b := { u with cu := s.cu.set n (localCommitted issuer d z k s) }) address (by omega) rfl
    (claimContentOf_terms (slot_small safe.shaped at_n) (Nat.mod_lt _ (by omega)) level gain duration _) at_b new commits_held
  have at_c : c.slot n = some (localCommitted issuer d z k s) := by
    obtain ⟨⟨w, zones, rfl⟩, -⟩ := granted
    rw [State.slot, post_cu, zones.cu]
    exact slot_set at_n _
  have cu : c.cu = s.cu.set n (localCommitted issuer d z k s) := by
    obtain ⟨⟨w, zones, rfl⟩, -⟩ := granted
    exact (post_cu _ _).trans zones.cu
  refine (ran.trans (congrArg (fun a : Content × State => takeCommitReturn n a.1.entries a.2) answered)).trans ?_
  refine (takeCommitReturn_of_slot at_c rfl _).trans ?_
  have lives : goesLive (localInfo issuer d).mode [takenWire z s]
      [{ zone := z, owner := some s.address, state := .active, lastCode := some (.ack .taken) }] = true := by
    cases (localInfo issuer d).mode <;> rfl
  refine (commitDecision_of_live (slot_with at_c (localTaken issuer d z k s)) rfl lives).trans ?_
  refine (enterLive_eq at_c (q := localTaken issuer d z k s) rfl ⟨_, List.mem_cons_self, rfl⟩).trans ?_
  rw [cu, List.set_set]
  rfl

end Live

/-- R89 to R102: a local claim that its idle zone takes. -/
theorem localClaimGoesLive : Clause.LocalClaimGoesLive := by
  intro issuer d z n k r s safe valid zones at_z at_n free lowest generation tag timer idle unreserved passes place
  have issued := issue_local (issuer := issuer) safe valid zones at_z at_n free lowest
  have held : r.verdict (localTerms issuer d n k s) = .held :=
    (safe.orderly.at_zone at_z).verdict_idle idle unreserved passes
  have answers : localAnswer issuer d z n k r s = (.held, reserve z (localTerms issuer d n k s)
      { s with cu := s.cu.set n (k.taken (localInfo issuer d)) }) := by
    unfold localAnswer
    exact (answer_of_held z _ held).trans (if_pos place)
  obtain ⟨c, granted, decides⟩ := claimDecision_of_held (issuer := issuer) safe valid zones at_z at_n idle unreserved passes
  obtain ⟨⟨w, only, posted⟩, at_c, others⟩ := granted
  have reserves := reserve_onlyZones z (localTerms issuer d n k s) { s with cu := s.cu.set n (k.taken (localInfo issuer d)) }
  rw [answers] at issued
  have issued := issued.trans (congrArg (Prod.mk _) decides)
  have heard := (heard_iff _).mpr ((issue_acts issuer d s).ledger safe.orderly ((heard_iff s).mp safe.heard))
  rw [issued] at heard
  have entry := heard.active_of_member (m := (localTerms issuer d n k s).member) at_c List.mem_cons_self
  refine ⟨_, issued, slot_set at_n _, fun m other => List.getElem?_set_ne (Ne.symm other), at_c, others, entry, ?_, ?_, ?_, ?_⟩
  · rw [posted]
    refine post_cp_congr _ (post_cp_congr _ ?_ ?_) ?_
    · exact only.cp.trans reserves.cp
    · exact only.config.trans reserves.config
    · rw [post_config, post_config]
      exact only.config.trans reserves.config
  · rw [posted]
    exact (post_rp _ w).trans (only.rp.trans reserves.rp)
  · rw [posted]
    exact (post_pu _ w).trans (only.pu.trans reserves.pu)
  · rw [posted]
    exact (post_ku _ w).trans (only.ku.trans reserves.ku)

/-- Settles O33. -/
theorem claimTakesTheLowestFreeSlot : Obligations.ClaimTakesTheLowestFreeSlot :=
  ⟨acceptedClaimTakesASlot, localClaimGoesLive, localClaimIsRefused⟩

end Sys2Proof.Machine
end
